-- ==== Sys2Proof/Word.lean ====
section
/-! DEFINITION. The plain value types of the codec block: bytes, nibbles, runs, codewords, trie nodes and the
128-entry register file shape (spec/10_state.md R21, R22, R33). Types only; every operation on them stands in
Decode.lean or under Machine/. -/

namespace Sys2Proof

/-- A byte, the smallest addressable unit of SRC and DST (R50). -/
abbrev Byte := BitVec 8

/-- "a 4-bit half-byte value, 0–15" (R15). -/
abbrev Nibble := BitVec 4

/-- A NibbleRun `(n, c)` (R21): the nibble, and the count minus 1 in 3 bits, the form the count has on the
wire (R13). All 128 values are legal runs. -/
structure Run where
  nib : Nibble
  cm1 : BitVec 3
deriving DecidableEq, Repr

/-- An entry of CODE or BEST: the codeword right-aligned in 8 bits and its length (R22). One of length 0 stands for `none`:
Machine.codeAt reads it so. -/
structure Codeword where
  bits : Byte
  len : BitVec 4
deriving DecidableEq, Repr

/-- A node of the decode trie (R33). `absent` stands for a child that is `none`. The sentinel run count of the
escape leaf is the constructor `leafEsc` (assumption 9, D33). -/
inductive Node where
  | absent
  | inner (clear set : Node)
  | leafRun (r : Run)
  | leafEsc
deriving DecidableEq, Repr

/-- What an expansion of runs comes to: the bytes it appends to DST, and HOLD, OUTCNT, LANE and LPOS after it (R209). -/
structure Expansion where
  bytes : List Byte
  hold : Option Nibble
  outcnt : Nat
  lane : Vector Byte 4
  lpos : Nat
deriving DecidableEq, Repr, Inhabited

/-- A register file of 128 entries indexed by `key(n, c)` (R22). -/
abbrev RunFile (α : Type) := Vector α 128

end Sys2Proof
end

