-- ==== Sys2Proof/Config.lean ====
section
/-! DEFINITION. The constants the source fixes (spec/00_scope.md R7) and the parameters the spec gives a value
(R8). Nothing here changes while the machine runs (R39). -/

namespace Sys2Proof

/-- The two lane rules of the XOR transform (R162 XDIFF, R163 XACC). -/
inductive LaneRule where
  | diff
  | acc
deriving DecidableEq, Repr

namespace Config

/-- TILE_BYTES (R7). -/
def tileBytes : Nat := 32
/-- Nibbles of one tile: 256 bits (R7). -/
def tileNibbles : Nat := 64
/-- MAX_TILES, the largest tile count ENCODE accepts (R8, D5; assumption 12). -/
def maxTiles : Nat := 32767
/-- MAX_LEN, the number of denominations and the longest codeword (R7). -/
def maxLen : Nat := 8
/-- ESC_LEN (R7). -/
def escLen : Nat := 6
/-- ESC_CODE, 0b111111 (R7). -/
def escCode : Nat := 63
/-- ESC_BITS, the cost of an inline run (R7). -/
def escBits : Nat := 13
/-- FIXED_OVERHEAD_BITS (R7). -/
def fixedOverheadBits : Nat := 24
/-- ENTRY_BITS (R7). -/
def entryBits : Nat := 16
/-- MARKER_BITS (R7). -/
def markerBits : Nat := 8
/-- MIN_FREQ, the least frequency of a qualifying run (R7). -/
def minFreq : Nat := 2
/-- MIN_TRIAL, the least number of leaves of a trial (R7). -/
def minTrial : Nat := 2
/-- N_RUNKEYS (R7). -/
def runKeys : Nat := 128
/-- TERMINATOR (R7). -/
def terminator : Byte := 0xFF#8

/-- XOR_ENC, the lane rule of the encoder (R8, D17): DIFF (assumption 12). -/
def xorEnc : LaneRule := .diff
/-- CTX_INIT, the nibble context before the first marker (R8, D21): none (assumption 12). -/
def ctxInit : Option Nibble := none

/-- What a byte of SRC or DST that nothing has written reads as. DESIGN CHOICE (assumption 1), unsafe: the
spec leaves SRC before the host's write unspecified. -/
def unlistedByte : Byte := 0#8

/-- LEN as PM_SOLVE leaves it when its trial list, given as (weight, run) pairs, is outside the domain R128 states: the
spec gives LEN no value there ("rather than give `n < 2` a value"). A free value: nothing constrains it. DESIGN CHOICE
(assumption 7), safe. -/
opaque unstatedLengths : List (Nat × Run) → RunFile (BitVec 4)

/-- What RLE_DEC comes to when its runs do not keep the precondition of R209 (they go past TILES x 64 nibbles), from the
runs, XFLAG and TILES: a free value, nothing constrains it. DESIGN CHOICE (assumption 10), safe. -/
opaque unstatedExpansion : List Run → Bool → BitVec 15 → Expansion

end Config
end Sys2Proof
end

