-- ==== Sys2Proof/Syntax.lean ====
section
/-! DEFINITION. The instructions: the seven stream elements and the fourteen unit operations of
spec/opcode_table.json, one constructor per row (spec/30_encoding.md R81 to R88, R100), and the positions of the
stream by which the elements are told apart (R89, R90). -/

namespace Sys2Proof

/-- One row of spec/opcode_table.json. Operands are the fields of the encoding, not yet checked. -/
inductive Instr where
  /-- HDR, R82: transform flag and tile count. -/
  | hdr (x : Bool) (t : BitVec 15)
  /-- TNIB, R83: the ignored bits 6 to 4 and the nibble. -/
  | tnib (z : BitVec 3) (n : Nibble)
  /-- TENT, R84: bit 7, count minus 1, length field, codeword byte. -/
  | tent (b : Bool) (c : BitVec 3) (l : BitVec 4) (k : Byte)
  /-- TEND, R85. -/
  | tend
  /-- CODE, R86: the codeword's bits, first bit sent first. -/
  | code (path : List Bool)
  /-- ESC, R87: count minus 1 and nibble. -/
  | esc (c : BitVec 3) (n : Nibble)
  /-- PAD, R88: how many bits complete the last byte (0 to 7). -/
  | pad (n : BitVec 3)
  /-- ENCODE, command 0x01, R216. -/
  | encode
  /-- DECODE, command 0x02, R220. -/
  | decode
  /-- ENCODE_ONE, command 0x03, R218. -/
  | encodeOne
  /-- RLE_ENC, command 0x10, R113. -/
  | rleEnc
  /-- PM_SOLVE, command 0x20, R128. -/
  | pmSolve
  /-- CANON_GEN, command 0x30, R144. -/
  | canonGen
  /-- COST_EST, command 0x31, R147. -/
  | costEst
  /-- TRIAL_SEARCH, command 0x32, R149. -/
  | trialSearch
  /-- XOR_ENC, command 0x40, R164. -/
  | xorEnc
  /-- XOR_DEC, command 0x41, R165. -/
  | xorDec
  /-- PACK, command 0x50, R175. -/
  | pack
  /-- UNPACK_TABLE, command 0x60, R194. -/
  | unpackTable
  /-- UNPACK_BITS, command 0x61, R198. -/
  | unpackBits
  /-- RLE_DEC, command 0x70, R209. -/
  | rleDec
deriving DecidableEq, Repr

/-- Where the next instruction is taken from. An element is recognised by its position (R89, R90): `command` is
the CMD register (R30), the others are places of the stream. `entry` is the place right after a TNIB, `tail` the
place where the expected output is complete and only PAD is left (R88, R199). -/
inductive Region where
  | command
  | header
  | table
  | entry
  | bits
  | tail
deriving DecidableEq, Repr

end Sys2Proof
end

