-- ==== Sys2Proof/Decode.lean ====
section
/-! DEFINITION. The stream primitives that read (spec/20_memory.md R60, R62, R63), the decoder of every position
(spec/30_encoding.md R82 to R92, R100; spec/45_huffman_bitstream_unpacker.md R186, R187, R195, R197), the encoder, and
the opcode-table word decoder. The decoder is total: it answers an instruction, the end of SRC, a path with no
child, or an unknown command code. -/

namespace Sys2Proof

/-! ## Bit strings -/

/-- The `n` low bits of `v`, most significant first (R11, R52). -/
def bitsOf : (n : Nat) → (v : Nat) → List Bool
  | 0, _ => []
  | n + 1, v => v.testBit n :: bitsOf n v

/-- The number a bit string denotes, first bit most significant (R63). -/
def bitsValue (bs : List Bool) : Nat :=
  bs.foldl (fun v b => 2 * v + b.toNat) 0

/-! ## The reader -/

/-- The read side of the stream as a decoder sees it: the bytes of SRC from the cursor on, the bit reader's
`BR = (cur, nleft)` (R27), and how many bytes have been taken from the cursor so far. -/
structure Reader where
  bytes : List Byte
  cur : Byte
  nleft : Nat
  taken : Nat
deriving DecidableEq, Repr

/-- `Read1()`, R60; `none` is the end of SRC. -/
def Reader.read1 (rd : Reader) : Option (Byte × Reader) :=
  match rd.bytes with
  | [] => none
  | b :: bs => some (b, { rd with bytes := bs, taken := rd.taken + 1 })

/-- `Read2BE()`, R60. -/
def Reader.read2BE (rd : Reader) : Option (BitVec 16 × Reader) :=
  match rd.read1 with
  | none => none
  | some (hi, rd1) =>
    match rd1.read1 with
    | none => none
    | some (lo, rd2) => some (hi ++ lo, rd2)

/-- `ReadBits(1)`, R62: a new byte is fetched only when no bit of the last one is left. -/
def Reader.readBit (rd : Reader) : Option (Bool × Reader) :=
  match rd.nleft with
  | n + 1 => some (rd.cur.getLsbD n, { rd with nleft := n })
  | 0 =>
    match rd.read1 with
    | none => none
    | some (b, rd1) => some (b.getLsbD 7, { rd1 with cur := b, nleft := 7 })

/-- `ReadBits(n)`, R63, with the value read so far. -/
def Reader.readBits : (n : Nat) → (v : Nat) → Reader → Option (Nat × Reader)
  | 0, v, rd => some (v, rd)
  | n + 1, v, rd =>
    match rd.readBit with
    | none => none
    | some (b, rd1) => Reader.readBits n (2 * v + b.toNat) rd1

/-- The reader once a read has met the end of SRC: every byte is taken and no bit is left (R60, R62). In the bitstream `cur` is
the last byte ReadBits fetched, as R62 says; in the header and the table, where Read1 does not touch BR, that `cur` is the last
byte of SRC all the same is the model's choice: the fault leaves BR dead (R236). DESIGN CHOICE (assumption 11), unsafe. -/
def Reader.drained (rd : Reader) : Reader :=
  { bytes := [], cur := rd.bytes.getLastD rd.cur, nleft := 0, taken := rd.taken + rd.bytes.length }

/-- The bits a reader has not given out yet, in the order it gives them (R52, R62). -/
def Reader.unread (rd : Reader) : List Bool :=
  bitsOf rd.nleft rd.cur.toNat ++ rd.bytes.flatMap (fun b => bitsOf 8 b.toNat)

/-! ## The trie as the walk sees it -/

/-- The child a bit selects: 0 the clear child, 1 the set child (R33). A leaf has none. -/
def Node.child (node : Node) (bit : Bool) : Node :=
  match node with
  | .inner clear set => if bit then set else clear
  | .absent => .absent
  | .leafRun _ => .absent
  | .leafEsc => .absent

/-- The node a path leads to, `absent` where it leads nowhere (R33, R190). -/
def Node.at (node : Node) : List Bool → Node
  | [] => node
  | bit :: path => (node.child bit).at path

/-! ## Decoding -/

/-- What the decoder answers. -/
inductive Decoded where
  /-- An instruction, and the reader after it. -/
  | instr (i : Instr) (rd : Reader)
  /-- SRC ended before the element did; the path walked so far (R202). -/
  | short (path : List Bool) (rd : Reader)
  /-- The last bit of the path leads to no child (R197). -/
  | noChild (path : List Bool) (rd : Reader)
  /-- The byte in CMD is no command code (R239). -/
  | unknownCommand (code : Byte)
deriving DecidableEq, Repr

/-- The command code of R100 that a byte stands for, if it is one. -/
def decodeCommand (code : Byte) : Option Instr :=
  if code = 0x01#8 then some .encode
  else if code = 0x02#8 then some .decode
  else if code = 0x03#8 then some .encodeOne
  else if code = 0x10#8 then some .rleEnc
  else if code = 0x20#8 then some .pmSolve
  else if code = 0x30#8 then some .canonGen
  else if code = 0x31#8 then some .costEst
  else if code = 0x32#8 then some .trialSearch
  else if code = 0x40#8 then some .xorEnc
  else if code = 0x41#8 then some .xorDec
  else if code = 0x50#8 then some .pack
  else if code = 0x60#8 then some .unpackTable
  else if code = 0x61#8 then some .unpackBits
  else if code = 0x70#8 then some .rleDec
  else none

/-- HDR (R82, R186): two bytes big-endian, bit 15 the flag, bits 14 to 0 the tile count. -/
def decodeHeader (rd : Reader) : Decoded :=
  match rd.read2BE with
  | none => .short [] rd.drained
  | some (h, rd1) => .instr (.hdr (h.getLsbD 15) (h.setWidth 15)) rd1

/-- TENT from its first byte on (R84, R187): the codeword byte is read before anything is checked. -/
def decodeEntryFrom (b : Byte) (rd : Reader) : Decoded :=
  match rd.read1 with
  | none => .short [] rd.drained
  | some (k, rd1) => .instr (.tent (b.getLsbD 7) (b.extractLsb' 4 3) (b.extractLsb' 0 4) k) rd1

/-- The byte after a TNIB is the first byte of a TENT whatever its value (R89 case 2). -/
def decodeEntry (rd : Reader) : Decoded :=
  match rd.read1 with
  | none => .short [] rd.drained
  | some (b, rd1) => decodeEntryFrom b rd1

/-- The table region (R89): 0xFF is tested first, then the top bit. -/
def decodeTable (rd : Reader) : Decoded :=
  match rd.read1 with
  | none => .short [] rd.drained
  | some (b, rd1) =>
    if b = Config.terminator then .instr .tend rd1
    else if b.getLsbD 7 then .instr (.tnib (b.extractLsb' 4 3) (b.extractLsb' 0 4)) rd1
    else decodeEntryFrom b rd1

/-- The seven field bits of an ESC: count first, then the nibble (R87, R198). -/
def decodeEscFields (path : List Bool) (rd : Reader) : Decoded :=
  match rd.readBits 3 0 with
  | none => .short path rd.drained
  | some (c, rd1) =>
    match rd1.readBits 4 0 with
    | none => .short path rd.drained
    | some (n, rd2) => .instr (.esc (BitVec.ofNat 3 c) (BitVec.ofNat 4 n)) rd2

/-- The walk below the first bit (R90, R195, R197): `path` is what has been walked. -/
def walk : Node → (path : List Bool) → Reader → Decoded
  | .leafRun _, path, rd => .instr (.code path) rd
  | .leafEsc, path, rd => decodeEscFields path rd
  | .absent, path, rd => .noChild path rd
  | .inner clear set, path, rd =>
    match rd.readBit with
    | none => .short path rd.drained
    | some (bit, rd1) => if bit then walk set (path ++ [true]) rd1 else walk clear (path ++ [false]) rd1

/-- The bitstream region (R90, R198): at least one bit is read. That a root that is no inner node, which UNPACK_TABLE never
leaves, then has no child is the model's choice. DESIGN CHOICE (assumption 18), unsafe. -/
def decodeBits (node : Node) (rd : Reader) : Decoded :=
  match rd.readBit with
  | none => .short [] rd.drained
  | some (bit, rd1) => walk (node.child bit) [bit] rd1

/-- The decoder, by position (R89, R90). At `tail` the element is PAD, whose bits are never read (R88, R199). -/
def decodeAt (r : Region) (node : Node) (rd : Reader) : Decoded :=
  match r with
  | .command =>
    match rd.read1 with
    | none => .short [] rd.drained
    | some (code, rd1) =>
      match decodeCommand code with
      | none => .unknownCommand code
      | some i => .instr i rd1
  | .header => decodeHeader rd
  | .table => decodeTable rd
  | .entry => decodeEntry rd
  | .bits => decodeBits node rd
  | .tail => .instr (.pad (BitVec.ofNat 3 rd.nleft)) rd

/-! ## Encoding -/

/-- The bits of an instruction in the order they are sent (R82 to R88); of a command, its code (R100). -/
def encode : Instr → List Bool
  | .hdr x t => x :: bitsOf 15 t.toNat
  | .tnib z n => true :: (bitsOf 3 z.toNat ++ bitsOf 4 n.toNat)
  | .tent b c l k => b :: (bitsOf 3 c.toNat ++ bitsOf 4 l.toNat ++ bitsOf 8 k.toNat)
  | .tend => bitsOf 8 0xFF
  | .code path => path
  | .esc c n => bitsOf 6 0x3F ++ bitsOf 3 c.toNat ++ bitsOf 4 n.toNat
  | .pad n => List.replicate n.toNat false
  | .encode => bitsOf 8 0x01
  | .decode => bitsOf 8 0x02
  | .encodeOne => bitsOf 8 0x03
  | .rleEnc => bitsOf 8 0x10
  | .pmSolve => bitsOf 8 0x20
  | .canonGen => bitsOf 8 0x30
  | .costEst => bitsOf 8 0x31
  | .trialSearch => bitsOf 8 0x32
  | .xorEnc => bitsOf 8 0x40
  | .xorDec => bitsOf 8 0x41
  | .pack => bitsOf 8 0x50
  | .unpackTable => bitsOf 8 0x60
  | .unpackBits => bitsOf 8 0x61
  | .rleDec => bitsOf 8 0x70

/-- The position an instruction is recognised at. A TENT with bit 7 set is one only after a TNIB (R84, R89). -/
def regionOf : Instr → Region
  | .hdr _ _ => .header
  | .tnib _ _ => .table
  | .tent b _ _ _ => if b then .entry else .table
  | .tend => .table
  | .code _ => .bits
  | .esc _ _ => .bits
  | .pad _ => .tail
  | .encode => .command
  | .decode => .command
  | .encodeOne => .command
  | .rleEnc => .command
  | .pmSolve => .command
  | .canonGen => .command
  | .costEst => .command
  | .trialSearch => .command
  | .xorEnc => .command
  | .xorDec => .command
  | .pack => .command
  | .unpackTable => .command
  | .unpackBits => .command
  | .rleDec => .command

/-! ## The opcode table's words -/

/-- The trie of an empty table: the escape leaf alone (R194 corner cases). -/
def escapeOnly : Node :=
  .inner .absent (.inner .absent (.inner .absent (.inner .absent (.inner .absent (.inner .absent .leafEsc)))))

/-- Where a bare word of the opcode table is taken to stand. The table tells its rows apart by position, a bare word
has none: the choice here is the model's (assumption 4). -/
def wordRegion (nbits w : Nat) : Option Region :=
  if nbits = 0 then some .tail
  else if nbits = 8 then (if w.testBit 7 then some .table else some .command)
  else if nbits = 13 then some .bits
  else if nbits = 16 then
    if w / 128 = 63 then some .bits
    else if w < 0x8000 then some .entry
    else some .header
  else none

/-- The bytes of a word, laid out as the stream stores them, in two bytes: a one-byte element first, then 0; a
two-byte element big-endian (R51); the 13 bits of an ESC most significant first from bit 7 of the first byte (R52). -/
def wordBytes (nbits w : Nat) : List Byte :=
  if nbits = 8 then [BitVec.ofNat 8 w, 0#8]
  else if nbits = 13 ∨ (nbits = 16 ∧ w / 128 = 63) then
    [BitVec.ofNat 8 (w / 32), BitVec.ofNat 8 (w * 8)]
  else [BitVec.ofNat 8 (w / 256), BitVec.ofNat 8 w]

/-- The instruction the decoder reads from a word of the opcode table. -/
def decodeTableWord (nbits w : Nat) : Option Instr :=
  match wordRegion nbits w with
  | none => none
  | some r =>
    match decodeAt r escapeOnly { bytes := wordBytes nbits w, cur := 0#8, nleft := 0, taken := 0 } with
    | .instr i _ => some i
    | .short _ _ => none
    | .noChild _ _ => none
    | .unknownCommand _ => none

end Sys2Proof
end

