-- ==== Sys2Proof/Machine/State.lean ====
section
/-! DEFINITION. The machine's state as plain data (spec/10_state.md R20 to R40), the reasons a step stops, and the
state after power-on reset (R40 right column, R261). -/

namespace Sys2Proof.Machine

/-! ## Parts of the state -/

/-- STATUS (R30). -/
inductive Status where
  | idle
  | busy
  | done
  | fault
deriving DecidableEq, Repr

/-- ERR (R30, R231). The codes 6 and 7 are never produced and have no constructor (U21). -/
inductive Err where
  | none
  | malformedHeader
  | invalidCode
  | ioFailure
  | outputOverrun
  | cmdRefused
deriving DecidableEq, Repr

/-- A byte memory (R38, R50): the listed (address, byte) pairs, addresses strictly rising, no pair equal to what an
unlisted address reads as. -/
structure Memory where
  cells : List Host.Cell
deriving DecidableEq, Repr

/-- A leaf of the trial list: its weight (the frequency) and its run (R121). -/
structure Leaf where
  weight : Nat
  run : Run
deriving DecidableEq, Repr

/-- A coin (R32): a leaf, or a package of exactly two coins. -/
inductive Coin where
  | leaf (run : Run) (w : Nat)
  | pkg (a b : Coin)
deriving DecidableEq, Repr

/-- The two coin lists the solver holds at a time (R32, R125): `C_d`, and the packages made from it. -/
structure Forest where
  coins : List Coin
  pkgs : List Coin
deriving DecidableEq, Repr

/-- The arguments of a unit operation issued alone: "a model may expose them as plain functions and need not give them
register-level operands" (R101). The host places them before CMD, as it places SRC (assumption 5); a command takes those
that R100 and R26 name into the state of that name, after it has started it (R40). -/
structure UnitArgs where
  /-- FREQ: CANON_GEN, COST_EST, TRIAL_SEARCH. -/
  freq : RunFile Nat
  /-- LEN: CANON_GEN. -/
  len : RunFile (BitVec 4)
  /-- CODE: COST_EST. -/
  code : RunFile (Option Codeword)
  /-- BEST: PACK. -/
  best : RunFile (Option Codeword)
  /-- RLESRC: PACK. -/
  rleSrc : List Run
  /-- "a trial list of leaves": PM_SOLVE. -/
  trial : List Leaf
  /-- XFLAG: PACK, RLE_DEC; "a flag": ENCODE_ONE. -/
  xflag : Bool
  /-- TILES: PACK, UNPACK_BITS, RLE_DEC. -/
  tiles : BitVec 15
  /-- TRIE: UNPACK_BITS. -/
  trie : Node
  /-- SP: UNPACK_BITS. -/
  sp : Nat
  /-- "a sequence of runs": RLE_DEC. -/
  runs : List Run
deriving DecidableEq, Repr

/-- The machine's state. Names are the spec's, in Lean's spelling; INVENTORY.md gives the rule of each. -/
structure State where
  /-- CMD, 8 bits (R30). -/
  cmd : Byte
  /-- ARG_LEN (R30). -/
  argLen : Nat
  /-- The arguments of a unit operation issued alone (R101): the model's own field. -/
  args : UnitArgs
  /-- STATUS (R30). -/
  status : Status
  /-- ERR (R30, R231). -/
  err : Err
  /-- DLEN (R30). -/
  dlen : Nat
  /-- XSEL (R30). -/
  xsel : Bool
  /-- SRC (R38). -/
  src : Memory
  /-- DST (R38). -/
  dst : Memory
  /-- The write cursor: how many bytes have been appended to DST (R28). -/
  dpos : Nat
  /-- XBUF (R38). -/
  xbuf : List Byte
  /-- CAND0 (R38). -/
  cand0 : List Byte
  /-- CAND1 (R38). -/
  cand1 : List Byte
  /-- FREQ (R22, R23). -/
  freq : RunFile Nat
  /-- LEN (R22, R24). -/
  len : RunFile (BitVec 4)
  /-- CODE (R22, R25). -/
  code : RunFile (Option Codeword)
  /-- BEST (R22, R35). -/
  best : RunFile (Option Codeword)
  /-- BEST_EST; `none` is +inf (R35). -/
  bestEst : Option Nat
  /-- The result of COST_EST (R147), the model's own name for it. -/
  est : Nat
  /-- RLESRC (R34). -/
  rleSrc : List Run
  /-- CURRUN (R37); `none` when no run of nibbles is open. -/
  curRun : Option Run
  /-- QUAL (R35, R121). -/
  qual : List Leaf
  /-- T (R35). -/
  trialSize : Nat
  /-- The coin lists (R32, R40). -/
  forest : Forest
  /-- LANE (R31). -/
  lane : Vector Byte 4
  /-- LPOS (R31). -/
  lpos : Nat
  /-- TRIE (R33). -/
  trie : Node
  /-- TCUR, as the path from the root (R33). -/
  tcur : List Bool
  /-- CTX (R36). -/
  ctx : Option Nibble
  /-- XFLAG (R29). -/
  xflag : Bool
  /-- TILES (R29). -/
  tiles : BitVec 15
  /-- SP (R27). -/
  sp : Nat
  /-- BR.cur (R27). -/
  brCur : Byte
  /-- BR.nleft (R27). -/
  brLeft : Nat
  /-- BW.acc (R28). -/
  bwAcc : Byte
  /-- BW.nbits (R28). -/
  bwBits : Nat
  /-- HOLD (R36). -/
  hold : Option Nibble
  /-- OUTCNT (R36). -/
  outcnt : Nat
  /-- LASTNIB (R37). -/
  lastNib : Option Nibble
  /-- The runs UNPACK_BITS has delivered (R198), the model's own name for "the sequence of runs". -/
  runs : List Run
  /-- Where the next instruction is taken from while STATUS is BUSY (R89, R90): the model's own field. -/
  phase : Region
deriving DecidableEq, Repr

/-! ## Reasons to stop -/

/-- Reasons for a fault of the model (not the block's own faults, which are next states with STATUS = FAULT, R236). -/
inductive Fault where
  /-- Raised by the host moves `hostWriteSrc`, `hostWriteArgLen` and `hostWriteArgs` while STATUS = BUSY: U9, "stuck", the model gives
  the host no such move (R71). No step raises it. Safe: the model stops where the spec defines no result. -/
  | hostWriteWhileBusy
deriving DecidableEq, Repr

/-- Reasons for a refusal of the model. -/
inductive Refusal where
  /-- An instruction with no meaning yet. No arm of `exec` raises it. Safe. -/
  | notModelled (mnemonic : String)
  /-- Raised by CODE when its bits are no codeword of the stream's own table and no missing child either: they stop short
  of a leaf, run past one, or reach the escape leaf (R86, R90). The fetch never delivers such an element. Safe. -/
  | codeNotInTable
  /-- Raised inside the walk of a stream when what was fetched is a command: the walk fetches stream elements only. No
  state reaches it. Safe. -/
  | notAStreamElement
deriving DecidableEq, Repr

/-! ## Reset -/

/-- The trie of an empty stream: a root with no children (R33, R40). -/
def emptyRoot : Node := .inner .absent .absent

/-- After power-on reset (R40, R261): STATUS IDLE, ERR 0, DLEN 0, XSEL 0, DST empty are the spec's. Every other field
is unspecified there; the values here are the start-of-command values of R40, and 0 for what the host writes and for
XFLAG and TILES. DESIGN CHOICE (assumption 2), unsafe. -/
def State.reset : State where
  cmd := 0#8
  argLen := 0
  args :=
    { freq := Vector.replicate 128 0, len := Vector.replicate 128 0#4, code := Vector.replicate 128 none,
      best := Vector.replicate 128 none, rleSrc := [], trial := [], xflag := false, tiles := 0#15,
      trie := emptyRoot, sp := 0, runs := [] }
  status := .idle
  err := .none
  dlen := 0
  xsel := false
  src := { cells := [] }
  dst := { cells := [] }
  dpos := 0
  xbuf := []
  cand0 := []
  cand1 := []
  freq := Vector.replicate 128 0
  len := Vector.replicate 128 0#4
  code := Vector.replicate 128 none
  best := Vector.replicate 128 none
  bestEst := none
  est := 0
  rleSrc := []
  curRun := none
  qual := []
  trialSize := 0
  forest := { coins := [], pkgs := [] }
  lane := Vector.replicate 4 0#8
  lpos := 0
  trie := emptyRoot
  tcur := []
  ctx := Config.ctxInit
  xflag := false
  tiles := 0#15
  sp := 0
  brCur := 0#8
  brLeft := 0
  bwAcc := 0#8
  bwBits := 0
  hold := none
  outcnt := 0
  lastNib := none
  runs := []
  phase := .command

end Sys2Proof.Machine
end

