-- ==== Sys2Proof/Machine/Ops.lean ====
section
/-! DEFINITION. The named operations over the memories, the cursors and the command registers: reading and writing a
byte of memory, the write primitives (spec/20_memory.md R61, R64, R65), the start and the end of a command
(spec/10_state.md R40), raising a fault and refusing a command (spec/60_exceptions.md R236, R239: what the block does where
other machines take an exception), leaving the fault state (R240), and what a fetch delivers. -/

namespace Sys2Proof.Machine

/-! ## Memory -/

/-- The byte at an address of a list of cells. -/
def readCells : List Host.Cell → Nat → Byte
  | [], _ => Config.unlistedByte
  | (x, v) :: rest, a => if x = a then v else readCells rest a

/-- The cells with one byte stored, in canonical form. -/
def writeCells : List Host.Cell → Nat → Byte → List Host.Cell
  | [], a, b => if b = Config.unlistedByte then [] else [(a, b)]
  | (x, v) :: rest, a, b =>
    if a < x then (if b = Config.unlistedByte then (x, v) :: rest else (a, b) :: (x, v) :: rest)
    else if a = x then (if b = Config.unlistedByte then rest else (a, b) :: rest)
    else (x, v) :: writeCells rest a b

/-- Addresses strictly rising from `low` on, no cell equal to what an unlisted address reads as. -/
def cellsWf : (low : Nat) → List Host.Cell → Bool
  | _, [] => true
  | low, (x, v) :: rest => decide (low ≤ x) && !(v == Config.unlistedByte) && cellsWf (x + 1) rest

/-- The canonical form of a memory. -/
def Memory.wf (m : Memory) : Bool := cellsWf 0 m.cells

/-- The memory with nothing listed. -/
def Memory.blank : Memory := { cells := [] }

/-- One byte of a memory (R50). -/
def Memory.read (m : Memory) (a : Nat) : Byte := readCells m.cells a

/-- A memory with one byte stored. -/
def Memory.write (m : Memory) (a : Nat) (b : Byte) : Memory := { cells := writeCells m.cells a b }

/-- `n` bytes from an address on, in ascending order (R12 `MemRead`). -/
def Memory.readBytes (m : Memory) : (a n : Nat) → List Byte
  | _, 0 => []
  | a, n + 1 => m.read a :: m.readBytes (a + 1) n

/-- A sequence of bytes stored from an address on. -/
def Memory.storeBytes (m : Memory) : (a : Nat) → List Byte → Memory
  | _, [] => m
  | a, b :: bs => (m.write a b).storeBytes (a + 1) bs

/-! ## Register files -/

/-- `key(n, c) = n * 8 + (c - 1)` (R12, R21). -/
def Run.key (r : Run) : Fin 128 :=
  ⟨r.nib.toNat * 8 + r.cm1.toNat, by have := r.nib.isLt; have := r.cm1.isLt; omega⟩

/-- `F[key(r)]` (R12, R22). -/
def fileGet {α : Type} (f : RunFile α) (r : Run) : α := f[Run.key r]

/-- `CODE[key(r)]` or `BEST[key(r)]`: the run's codeword, `none` (len = 0) when it has none "and is sent by escape" (R22). -/
def codeAt (f : RunFile (Option Codeword)) (r : Run) : Option Codeword :=
  (fileGet f r).filter fun cw => !(cw.len == 0#4)

/-- `F[key(r)] <- v` (R12, R22). -/
def fileSet {α : Type} (f : RunFile α) (r : Run) (v : α) : RunFile α := f.set (Run.key r) v

/-- All 128 runs in ascending NibbleRun order (R21). -/
def allRuns : List Run :=
  [0#4, 1#4, 2#4, 3#4, 4#4, 5#4, 6#4, 7#4, 8#4, 9#4, 10#4, 11#4, 12#4, 13#4, 14#4, 15#4].flatMap fun n =>
    [0#3, 1#3, 2#3, 3#3, 4#3, 5#3, 6#3, 7#3].map fun c => { nib := n, cm1 := c }

/-- FREQ at the start of a command: all 0 (R40). -/
def zeroFreq : RunFile Nat := Vector.replicate 128 0

/-- LEN at the start of a command and of a trial: all 0 (R40). -/
def zeroLen : RunFile (BitVec 4) := Vector.replicate 128 0#4

/-- CODE and BEST at the start of a command: all `none` (R40). -/
def noCodes : RunFile (Option Codeword) := Vector.replicate 128 none

/-- The lanes at the start of a transform pass: all 0 (R161). -/
def zeroLanes : Vector Byte 4 := Vector.replicate 4 0#8

/-- Sorted insertion: before the first element that is not smaller. -/
def insertBy {α : Type} (less : α → α → Bool) (x : α) : List α → List α
  | [] => [x]
  | y :: ys => if less y x then y :: insertBy less x ys else x :: y :: ys

/-- The list in the order of `less`; elements that `less` does not tell apart keep their order. -/
def sortBy {α : Type} (less : α → α → Bool) : List α → List α
  | [] => []
  | x :: xs => insertBy less x (sortBy less xs)

/-! ## The write primitives -/

/-- An output being written: the bytes appended so far and the bit writer's `BW = (acc, nbits)` (R28). -/
structure Sink where
  out : List Byte
  acc : Byte
  nbits : Nat
deriving DecidableEq, Repr

/-- An output with nothing written (R40). -/
def Sink.start : Sink := { out := [], acc := 0#8, nbits := 0 }

/-- `Write1(v)` (R61). -/
def Sink.write1 (k : Sink) (v : Byte) : Sink := { k with out := k.out ++ [v] }

/-- `Write2BE(v)` (R61). -/
def Sink.write2BE (k : Sink) (v : BitVec 16) : Sink :=
  (k.write1 (v.extractLsb' 8 8)).write1 (v.extractLsb' 0 8)

/-- One turn of the loop of `WriteBits` (R64). -/
def Sink.writeBit (k : Sink) (b : Bool) : Sink :=
  let acc := BitVec.ofNat 8 (k.acc.toNat * 2 + b.toNat)
  if k.nbits + 1 = 8 then { (k.write1 acc) with acc := 0#8, nbits := 0 }
  else { k with acc := acc, nbits := k.nbits + 1 }

/-- `WriteBits(v, n)` (R64): the `n` low bits of `v`, most significant first. R64 gives it for 1 to 8 bits; that any other `n` is
the same loop is the model's choice. DESIGN CHOICE (assumption 18), unsafe. -/
def Sink.writeBits (k : Sink) (v n : Nat) : Sink := (bitsOf n v).foldl Sink.writeBit k

/-- `Flush()` (R65). -/
def Sink.flush (k : Sink) : Sink :=
  if k.nbits = 0 then k
  else { (k.write1 (BitVec.ofNat 8 (k.acc.toNat * 2 ^ (8 - k.nbits)))) with acc := 0#8, nbits := 0 }

/-- `Write1(v)` on DST itself (R61). -/
def State.write1 (s : State) (v : Byte) : State :=
  { s with dst := s.dst.write s.dpos v, dpos := s.dpos + 1 }

/-! ## The read cursor -/

/-- The reader at the cursor: SRC from SP to ARG_LEN, and BR (R27). -/
def State.reader (s : State) : Reader :=
  { bytes := s.src.readBytes s.sp (s.argLen - s.sp), cur := s.brCur, nleft := s.brLeft, taken := 0 }

/-- The cursor where a reader stands. -/
def State.putReader (s : State) (rd : Reader) : State :=
  { s with sp := s.sp + rd.taken, brCur := rd.cur, brLeft := rd.nleft }

/-- `SRC[0 .. ARG_LEN - 1]`, the whole input of a pass (R59, R216). -/
def State.srcBytes (s : State) : List Byte := s.src.readBytes 0 s.argLen

/-! ## The start and the end of a command -/

/-- What a write of CMD does to the host's registers and DST (R30, R40, R240, R260). -/
def State.beginCommand (code : Byte) (s : State) : State :=
  { s with
    cmd := code, status := .busy, err := .none, dlen := 0, xsel := false,
    dst := Memory.blank, dpos := 0, phase := .command }

/-- The start-of-command state (R40 middle column), of every command (R20, R240, R260). SRC, ARG_LEN and the arguments stay
as the host wrote them; XFLAG and TILES are "set by the command before first use". R40 has no row for CURRUN: that it starts as
`none`, and the model's own est as 0 and runs as empty, is the model's choice. DESIGN CHOICE (assumption 14), unsafe. -/
def State.startAll (code : Byte) (s : State) : State :=
  { s.beginCommand code with
    xbuf := [], cand0 := [], cand1 := [],
    freq := zeroFreq, len := zeroLen, code := noCodes, best := noCodes, bestEst := none, est := 0,
    rleSrc := [], curRun := none, qual := [], trialSize := 0, forest := { coins := [], pkgs := [] },
    lane := zeroLanes, lpos := 0, trie := emptyRoot, tcur := [], ctx := Config.ctxInit,
    sp := 0, brCur := 0#8, brLeft := 0, bwAcc := 0#8, bwBits := 0,
    hold := none, outcnt := 0, lastNib := none, runs := [] }

/-- The command ends in DONE, with DLEN the bytes appended to DST (R69, R216, R220). -/
def State.finish (s : State) : State :=
  { s with status := .done, dlen := s.dpos, phase := .command }

/-- Bytes appended to an empty DST as a whole (R175, R216). -/
def State.deliver (s : State) (bs : List Byte) : State :=
  { s with dst := Memory.blank.storeBytes 0 bs, dpos := bs.length }

/-! ## Faults and refused commands -/

/-- `raise K(info)` (R236). The byte offset R236 calls `info` is not kept (R237); the
runs emitted before the fault are discarded with DST (R204); other state the fault leaves dead is left as it is
(assumption 11). -/
def State.raise (s : State) (k : Err) : State :=
  { s with
    dst := Memory.blank, dpos := 0, dlen := 0, xsel := false, err := k, status := .fault, phase := .command,
    runs := [] }

/-- A refused command (R239): STATUS FAULT, ERR CMD_REFUSED, DLEN 0, DST stays empty (R215). -/
def State.refuse (s : State) : State := s.raise .cmdRefused

/-! ## Fetch -/

/-- Whether UNPACK_BITS is the command in progress: its runs are its result (R198), they are not expanded
(assumption 6). -/
def State.runsOnly (s : State) : Bool := s.cmd == 0x61#8

/-- Whether UNPACK_TABLE is the command in progress: it ends with the escape leaf in place (R194). -/
def State.tableOnly (s : State) : Bool := s.cmd == 0x60#8

/-- A run's count, 1 to 8 (R21). -/
def Run.count (r : Run) : Nat := r.cm1.toNat + 1

/-- How many nibbles a sequence of runs stands for (R206). -/
def nibbleCount (rs : List Run) : Nat := (rs.map Run.count).sum

/-- The nibbles UNPACK_BITS has delivered: OUTCNT, which the run expander owns (R198); issued alone, with no expander, the
count of the runs listed, and OUTCNT is not touched (R26; assumption 6). -/
def State.delivered (s : State) : Nat := if s.runsOnly then nibbleCount s.runs else s.outcnt

/-- Where the next instruction comes from: in the bitstream, PAD once the expected output is complete (R198 loop
test, R199). -/
def State.region (s : State) : Region :=
  if s.phase = .bits ∧ s.tiles.toNat * Config.tileNibbles ≤ s.delivered then .tail else s.phase

/-- What a fetch delivers: an instruction with the cursor past it, or the state a raised fault leaves. -/
inductive Fetched where
  | instr (i : Instr) (s : State)
  | raised (s : State)
deriving DecidableEq, Repr

/-- The reader a fetch reads from: the byte in CMD, or SRC at the cursor. -/
def State.fetchReader (s : State) : Reader :=
  if s.phase = .command then { bytes := [s.cmd], cur := 0#8, nleft := 0, taken := 0 } else s.reader

/-- The state once a fetch has read: a command moves no cursor. -/
def State.afterFetch (s : State) (rd : Reader) : State :=
  if s.phase = .command then s else s.putReader rd

/-- Fetching the next instruction: the decoder's answer, with the end of SRC raising IoFailure (R60, R202), a missing
child InvalidCode (R197), TCUR left where the walk stood, and an unknown command code refused (R239). -/
def State.fetch (s : State) : Fetched :=
  match decodeAt s.region (s.trie.at s.tcur) s.fetchReader with
  | .instr i rd => .instr i (s.afterFetch rd)
  | .short path rd => .raised (State.raise { s.afterFetch rd with tcur := s.tcur ++ path } .ioFailure)
  | .noChild path rd => .raised (State.raise { s.afterFetch rd with tcur := s.tcur ++ path.dropLast } .invalidCode)
  | .unknownCommand _ => .raised s.refuse

end Sys2Proof.Machine
end

