-- ==== Sys2Proof/Machine/Operands.lean ====
section
/-! DEFINITION. How operands are assembled from element bits (spec/30_encoding.md R91), and what is read off an input
(R171, R215), a list of leaves (R122) or a code file (R172). -/

namespace Sys2Proof.Machine

/-- The run of a TENT or ESC: nibble, and count minus 1 (R91). -/
def runOf (n : Nibble) (c : BitVec 3) : Run := { nib := n, cm1 := c }

/-- The path of a codeword `(k, len)`: bits `len - 1` down to 0 (R91, R190). -/
def codewordPath (k : Byte) (l : BitVec 4) : List Bool := bitsOf l.toNat k.toNat

/-- The path of the escape codeword (R193). -/
def escapePath : List Bool := bitsOf Config.escLen Config.escCode

/-- The header word `XFLAG * 32768 + TILES` (R171). -/
def headerWord (x : Bool) (t : BitVec 15) : BitVec 16 := BitVec.ofNat 16 (x.toNat * 32768 + t.toNat)

/-- The expected output in nibbles, `TILES x 64` (R91, R186). -/
def State.expectedNibbles (s : State) : Nat := s.tiles.toNat * Config.tileNibbles

/-- The lengths ENCODE and ENCODE_ONE accept (R215, R239). -/
def encodeLengthOk (m : Nat) : Bool :=
  decide (m % Config.tileBytes = 0) && decide (m / Config.tileBytes ≤ Config.maxTiles)

/-- TILES of an input, its length div 32 (R171, R218). -/
def tilesOf (bs : List Byte) : BitVec 15 := BitVec.ofNat 15 (bs.length / Config.tileBytes)

/-- `TRIAL_t = QUAL[q-t .. q-1]`, the `t` most expensive leaves (R122). -/
def trialLeaves (qual : List Leaf) (t : Nat) : List Leaf := qual.drop (qual.length - t)

/-- The entries of a code file in ascending NibbleRun order (R25, R172), those that are not `none` (R22). That an entry of
length 9 to 15, which only an argument can hold, is an entry like any other is the model's choice. DESIGN CHOICE (assumption
18), unsafe. -/
def tableEntries (file : RunFile (Option Codeword)) : List (Run × Codeword) :=
  allRuns.filterMap fun r => (codeAt file r).map fun cw => (r, cw)

end Sys2Proof.Machine
end

