-- ==== Sys2Proof/Machine/Flags.lean ====
section
/-! DEFINITION. The codes and flags the host reads: STATUS and ERR codes (spec/10_state.md R30, spec/60_exceptions.md R231),
ERR outside FAULT, DLEN, XSEL and DST as the host sees them (spec/20_memory.md R69). The block has no condition codes:
"no operation sets a flag as a side effect that a later operation tests" (R29). -/

namespace Sys2Proof.Machine

/-- The 2-bit code of STATUS (R30). -/
def Status.code : Status → BitVec 2
  | .idle => 0#2
  | .busy => 1#2
  | .done => 2#2
  | .fault => 3#2

/-- The 3-bit code of ERR (R231). -/
def Err.code : Err → BitVec 3
  | .none => 0#3
  | .malformedHeader => 1#3
  | .invalidCode => 2#3
  | .ioFailure => 3#3
  | .outputOverrun => 4#3
  | .cmdRefused => 5#3

/-- The valid bytes of DST, those the host may read (R30, R38). -/
def State.dstBytes (s : State) : List Byte := s.dst.readBytes 0 s.dlen

end Sys2Proof.Machine
end

