-- ==== Sys2Proof/Machine/Solver.lean ====
section
/-! DEFINITION. PM_SOLVE, the package-merge length solver (spec/41_huffman_length_limiter.md R120 to R132). -/

namespace Sys2Proof.Machine

/-! ## Coins -/

/-- The weight of a coin: a leaf's frequency, or the sum of a package's two coins (R32). -/
def Coin.weight : Coin → Nat
  | .leaf _ w => w
  | .pkg a b => Coin.weight a + Coin.weight b

/-- The leaves of a coin, left to right (R127). -/
def Coin.leaves : Coin → List Run
  | .leaf r _ => [r]
  | .pkg a b => Coin.leaves a ++ Coin.leaves b

/-- One leaf put among the packages, `rest` doing the same for the leaves after it (R125). -/
def mergeWith (l : Coin) (rest : List Coin → List Coin) : List Coin → List Coin
  | [] => l :: rest []
  | p :: ps => if Coin.weight l ≤ Coin.weight p then l :: rest (p :: ps) else p :: mergeWith l rest ps

/-- MERGE(L, P) (R125): the leaf first at equal weight (D8). -/
def merge : List Coin → List Coin → List Coin
  | [] => fun ps => ps
  | l :: ls => mergeWith l (merge ls)

/-- PACKAGE(C) (R126): consecutive pairs from the cheap end, an odd last coin left out. -/
def package : List Coin → List Coin
  | a :: b :: cs => .pkg a b :: package cs
  | [_] => []
  | [] => []

/-- One denomination (R124, R128): the leaves again together with the packages of the one before. -/
def level (leaves : List Coin) (f : Forest) : Forest :=
  { coins := merge leaves f.pkgs, pkgs := package (merge leaves f.pkgs) }

/-- The denominations from 8 down, `d` of them (R128). -/
def levels (leaves : List Coin) : (d : Nat) → Forest
  | 0 => { coins := [], pkgs := [] }
  | d + 1 => level leaves (levels leaves d)

/-- The leaf coins of a trial list (R121, R128). -/
def leafCoins (trial : List Leaf) : List Coin := trial.map fun l => .leaf l.run l.weight

/-- Every run of the accepted coins, one for each copy of its leaf: the first `n - 1` packages of `P_0` (R127). -/
def acceptedRuns (n : Nat) (pkgs : List Coin) : List Run := (pkgs.take (n - 1)).flatMap Coin.leaves

/-- LEN: how many times each run appears (R127, R128). -/
def readLengths (rs : List Run) : RunFile (BitVec 4) :=
  rs.foldl (fun f r => fileSet f r (fileGet f r + 1#4)) zeroLen

/-- The solver's LEN for a trial list (R128). -/
def solve (trial : List Leaf) : RunFile (BitVec 4) :=
  readLengths (acceptedRuns trial.length (levels (leafCoins trial) Config.maxLen).pkgs)

/-! ## The operation -/

/-- The order of leaves, cheapest first: (weight, nibble, count) ascending (R121, D7). -/
def leafBefore (a b : Leaf) : Bool :=
  decide (a.weight < b.weight) || (a.weight == b.weight && decide (Run.key a.run < Run.key b.run))

/-- Whether a list is in strict order. -/
def inOrder {α : Type} (less : α → α → Bool) : List α → Bool
  | a :: b :: rest => less a b && inOrder less (b :: rest)
  | [_] => true
  | [] => true

/-- Whether no element is listed twice. -/
def distinctRuns : List Run → Bool
  | [] => true
  | r :: rs => !(rs.contains r) && distinctRuns rs

/-- The stated domain of PM_SOLVE (R128): 2 to 128 leaves, the order of R121, distinct runs, weights at least 2. -/
def trialOk (trial : List Leaf) : Bool :=
  decide (Config.minTrial ≤ trial.length) && decide (trial.length ≤ Config.runKeys) && inOrder leafBefore trial &&
    distinctRuns (trial.map Leaf.run) && trial.all fun l => decide (Config.minFreq ≤ l.weight)

/-- PM_SOLVE on a trial list (R128). The forest is discarded when LEN has been read back (R32, R131; assumption
14). -/
def State.solveTrial (s : State) (trial : List Leaf) : State :=
  { s with len := solve trial, forest := { coins := [], pkgs := [] } }

/-- LEN and the forest when the trial list is outside the stated domain of R128: the spec gives LEN no value there, so it is
the free value of Config (assumption 7); the forest is discarded as ever (R131). -/
def State.solveOutside (s : State) (trial : List Leaf) : State :=
  { s with
    len := Config.unstatedLengths (trial.map fun l => (l.weight, l.run)), forest := { coins := [], pkgs := [] } }

/-- PM_SOLVE issued alone: the trial list is its argument (R100, R101). -/
def execPmSolve (s : State) : Host.Outcome State Fault Refusal :=
  let s1 := s.startAll 0x20#8
  .next (if trialOk s1.args.trial then s1.solveTrial s1.args.trial else s1.solveOutside s1.args.trial).finish

end Sys2Proof.Machine
end

