-- ==== Sys2Proof/Machine/Canon.lean ====
section
/-! DEFINITION. CANON_GEN, COST_EST and TRIAL_SEARCH (spec/42_canonical_code_generator.md R140 to R151). -/

namespace Sys2Proof.Machine

/-! ## CANON_GEN -/

/-- The reserved candidates (R142): all ones up to length 6, the first six bits all ones from length 7. -/
def reserved (code l : Nat) : Bool :=
  if l ≤ Config.escLen then code == 2 ^ l - 1 else code >>> (l - Config.escLen) == Config.escCode

/-- The order of assignment: (LEN, FREQ, run) ascending (R141). -/
def canonBefore (len : RunFile (BitVec 4)) (freq : RunFile Nat) (a b : Run) : Bool :=
  let la := (fileGet len a).toNat
  let lb := (fileGet len b).toNat
  decide (la < lb) ||
    (la == lb &&
      (decide (fileGet freq a < fileGet freq b) ||
        (fileGet freq a == fileGet freq b && decide (Run.key a < Run.key b))))

/-- `S`: the runs with LEN > 0 in the order of assignment (R141, R144). -/
def canonOrder (len : RunFile (BitVec 4)) (freq : RunFile Nat) : List Run :=
  sortBy (canonBefore len freq) (allRuns.filter fun r => decide (0 < (fileGet len r).toNat))

/-- The codes of one length from a candidate on: at most `cnt`, up to the first reserved one (R144 inner loop). -/
def codesOf (l : Nat) : (cnt : Nat) → (code : Nat) → List Nat
  | 0, _ => []
  | cnt + 1, code => if reserved code l then [] else code :: codesOf l cnt (code + 1)

/-- The codes of the lengths from `l` on, `n` lengths of them (R144 outer loop): `own l` runs have solver length `l`,
`carry` runs come demoted from the length before (R143). What is carried past the last length is dropped. -/
def codesFrom (own : Nat → Nat) : (n : Nat) → (l base carry : Nat) → List (Nat × Nat)
  | 0, _, _, _ => []
  | n + 1, l, base, carry =>
    let cs := codesOf l (own l + carry) base
    cs.map (fun code => (code, l)) ++
      codesFrom own n (l + 1) ((base + cs.length) * 2) (own l + carry - cs.length)

/-- `codes`, the sequence of (code, length) (R144). Its loop ends with length 8, so a LEN of 9 to 15 gets no code: R22 and the
vectors give LEN entries 0 to 8 only, and running R144 on the others is the model's choice. DESIGN CHOICE (assumption 18),
unsafe. -/
def canonCodes (len : RunFile (BitVec 4)) (order : List Run) : List (Nat × Nat) :=
  codesFrom (fun l => (order.filter fun r => (fileGet len r).toNat == l).length) Config.maxLen 1 0 0

/-- The i-th run gets the i-th code; runs past the last code keep `none` (R144). -/
def assignCodes : List Run → List (Nat × Nat) → RunFile (Option Codeword) → RunFile (Option Codeword)
  | r :: rs, c :: cs, f =>
    assignCodes rs cs (fileSet f r (some { bits := BitVec.ofNat 8 c.1, len := BitVec.ofNat 4 c.2 }))
  | _ :: _, [], f => f
  | [], _, f => f

/-- CODE from LEN and FREQ (R144). -/
def canonical (len : RunFile (BitVec 4)) (freq : RunFile Nat) : RunFile (Option Codeword) :=
  assignCodes (canonOrder len freq) (canonCodes len (canonOrder len freq)) noCodes

/-- CANON_GEN (R144). -/
def State.generate (s : State) : State := { s with code := canonical s.len s.freq }

/-- CANON_GEN issued alone: LEN and FREQ are its arguments (R100, R101). -/
def execCanonGen (s : State) : Host.Outcome State Fault Refusal :=
  .next { s.startAll 0x30#8 with len := s.args.len, freq := s.args.freq }.generate.finish

/-! ## COST_EST -/

/-- `roundup8(x)` (R10). -/
def roundup8 (x : Nat) : Nat := (x + 7) / 8 * 8

/-- The table's share of the estimate and the coded runs' (R147 first loop), `last` the nibble of the entry before. That a
codeword of length 9 to 15, outside R22, counts as an entry of that length is the model's choice. DESIGN CHOICE (assumption
18), unsafe. -/
def tableCost (freq : RunFile Nat) : (last : Option Nibble) → List (Run × Codeword) → Nat
  | _, [] => 0
  | last, (r, cw) :: rest =>
    (if last = some r.nib then 0 else Config.markerBits) + Config.entryBits + cw.len.toNat * fileGet freq r +
      tableCost freq (some r.nib) rest

/-- The escaped runs' share (R147 second loop). -/
def escapeCost (code : RunFile (Option Codeword)) (freq : RunFile Nat) : List Run → Nat
  | [] => 0
  | r :: rest =>
    (if codeAt code r = none ∧ 0 < fileGet freq r then Config.escBits * fileGet freq r else 0) +
      escapeCost code freq rest

/-- `est` (R147). -/
def costOf (code : RunFile (Option Codeword)) (freq : RunFile Nat) : Nat :=
  roundup8 (Config.fixedOverheadBits + tableCost freq none (tableEntries code) + escapeCost code freq allRuns)

/-- COST_EST (R147). -/
def State.estimate (s : State) : State := { s with est := costOf s.code s.freq }

/-- COST_EST issued alone: CODE and FREQ are its arguments (R100, R101). -/
def execCostEst (s : State) : Host.Outcome State Fault Refusal :=
  .next { s.startAll 0x31#8 with code := s.args.code, freq := s.args.freq }.estimate.finish

/-! ## TRIAL_SEARCH -/

/-- QUAL: a leaf for every run of frequency 2 or more, cheapest first (R121). -/
def qualifying (freq : RunFile Nat) : List Leaf :=
  sortBy leafBefore
    ((allRuns.filter fun r => decide (Config.minFreq ≤ fileGet freq r)).map fun r =>
      { weight := fileGet freq r, run := r })

/-- Whether an estimate is below the best so far; +inf is above every estimate (R149). -/
def betterThan (est : Nat) : Option Nat → Bool
  | none => true
  | some best => decide (est < best)

/-- Keeping the trial's table when its estimate is strictly the smallest so far (R149). -/
def State.keepBest (s : State) : State :=
  if betterThan s.est s.bestEst then { s with best := s.code, bestEst := some s.est } else s

/-- One trial of size `t` (R149). -/
def State.trial (s : State) (t : Nat) : State :=
  (((({ s with trialSize := t }).solveTrial (trialLeaves s.qual t)).generate).estimate).keepBest

/-- The trials of the sizes `n + 1` down to 2 (R122, R149). -/
def State.trials : (n : Nat) → State → State
  | 0, s => s
  | n + 1, s => State.trials n (s.trial (n + 2))

/-- TRIAL_SEARCH (R149): no trial when fewer than two runs qualify (R123). -/
def State.searchTrials (s : State) : State :=
  let qual := qualifying s.freq
  State.trials (qual.length - 1) { s with best := noCodes, bestEst := none, qual := qual, trialSize := 0 }

/-- TRIAL_SEARCH issued alone: FREQ is its argument (R100, R101). -/
def execTrialSearch (s : State) : Host.Outcome State Fault Refusal :=
  .next { s.startAll 0x32#8 with freq := s.args.freq }.searchTrials.finish

end Sys2Proof.Machine
end

