-- ==== Sys2Proof/Machine/Pack.lean ====
section
/-! DEFINITION. PACK (spec/44_huffman_bitstream_packer.md R170 to R179). -/

namespace Sys2Proof.Machine

/-- The marker byte of a nibble, bits 6 to 4 zero (R173, D19). -/
def markerByte (n : Nibble) : Byte := BitVec.ofNat 8 (0x80 + n.toNat)

/-- The length/count byte `(c - 1) * 16 + len` (R173). -/
def entryByte (r : Run) (cw : Codeword) : Byte := BitVec.ofNat 8 (r.cm1.toNat * 16 + cw.len.toNat)

/-- The table's entries, a marker before the first of each nibble (R172, R173); LASTNIB goes along. An entry of length 9
to 15, outside R22, is written in the same way: the model's choice. DESIGN CHOICE (assumption 18), unsafe. -/
def packEntries : List (Run × Codeword) → (lastNib : Option Nibble) → Sink → Sink × Option Nibble
  | [], lastNib, k => (k, lastNib)
  | (r, cw) :: rest, lastNib, k =>
    let k1 := if lastNib = some r.nib then k else k.write1 (markerByte r.nib)
    packEntries rest (some r.nib) ((k1.write1 (entryByte r cw)).write1 cw.bits)

/-- One run of the bitstream: CODE when the table has a codeword for it, else ESC (R93, R175). A codeword of
length 9 to 15, outside R22 and R64, is a codeword all the same, its eight bits sent after leading zeros: the model's choice.
DESIGN CHOICE (assumption 18), unsafe. -/
def packRun (best : RunFile (Option Codeword)) (k : Sink) (r : Run) : Sink :=
  match codeAt best r with
  | some cw => k.writeBits cw.bits.toNat cw.len.toNat
  | none => ((k.writeBits Config.escCode Config.escLen).writeBits r.cm1.toNat 3).writeBits r.nib.toNat 4

/-- The header, the table and the terminator, with LASTNIB after them (R171 to R174). -/
def packTable (x : Bool) (t : BitVec 15) (best : RunFile (Option Codeword)) : Sink × Option Nibble :=
  let table := packEntries (tableEntries best) none (Sink.start.write2BE (headerWord x t))
  (table.1.write1 Config.terminator, table.2)

/-- The whole output (R175). -/
def packSink (x : Bool) (t : BitVec 15) (best : RunFile (Option Codeword)) (rs : List Run) : Sink :=
  (rs.foldl (packRun best) (packTable x t best).1).flush

/-- The bytes PACK writes (R175). -/
def packBytes (x : Bool) (t : BitVec 15) (best : RunFile (Option Codeword)) (rs : List Run) : List Byte :=
  (packSink x t best rs).out

/-- What PACK leaves in LASTNIB and in the bit writer (R28, R37). -/
def State.afterPack (s : State) : State :=
  { s with
    lastNib := (packTable s.xflag s.tiles s.best).2,
    bwAcc := (packSink s.xflag s.tiles s.best s.rleSrc).acc,
    bwBits := (packSink s.xflag s.tiles s.best s.rleSrc).nbits }

/-- The bytes PACK writes from the state's XFLAG, TILES, BEST and RLESRC (R175). -/
def State.packed (s : State) : List Byte := packBytes s.xflag s.tiles s.best s.rleSrc

/-- PACK issued alone: XFLAG, TILES, BEST and RLESRC are its arguments (R100, R101), its bytes are appended to DST
(R175). -/
def execPack (s : State) : Host.Outcome State Fault Refusal :=
  let s1 :=
    { s.startAll 0x50#8 with
      xflag := s.args.xflag, tiles := s.args.tiles, best := s.args.best, rleSrc := s.args.rleSrc }
  .next ((s1.afterPack).deliver s1.packed).finish

end Sys2Proof.Machine
end

