-- ==== Sys2Proof/Machine/Xor.lean ====
section
/-! DEFINITION. XOR_ENC and XOR_DEC (spec/43_xor_interleave_transform.md R160 to R168). Both lane rules are here; which
one encodes is Config.xorEnc. -/

namespace Sys2Proof.Machine

/-- The rule that undoes a lane rule (R165, R166). -/
def LaneRule.inverse : LaneRule → LaneRule
  | .diff => .acc
  | .acc => .diff

/-- The lane a position touches (R161). -/
def laneIndex (pos : Nat) : Fin 4 := ⟨pos % 4, Nat.mod_lt _ (by decide)⟩

/-- One step of a lane rule (R162, R163): the output byte and the lanes after it. -/
def laneStep (rule : LaneRule) (lanes : Vector Byte 4) (pos : Nat) (b : Byte) : Byte × Vector Byte 4 :=
  let i := laneIndex pos
  match rule with
  | .diff => (b ^^^ lanes[i], lanes.set i b)
  | .acc => (lanes[i] ^^^ b, lanes.set i (lanes[i] ^^^ b))

/-- A pass of a lane rule from a position on (R164, R165): the output and the lanes after it. -/
def xorPass (rule : LaneRule) : Vector Byte 4 → Nat → List Byte → List Byte × Vector Byte 4
  | lanes, _, [] => ([], lanes)
  | lanes, pos, b :: bs =>
    let step := laneStep rule lanes pos b
    let rest := xorPass rule step.2 (pos + 1) bs
    (step.1 :: rest.1, rest.2)

/-- A whole pass, lanes 0 at its start (R161). -/
def xorStream (rule : LaneRule) (bs : List Byte) : List Byte := (xorPass rule zeroLanes 0 bs).1

/-- XOR_ENC on a byte sequence: XBUF, and the lanes as the pass leaves them (R164). -/
def State.xorEncode (s : State) (bs : List Byte) : State :=
  { s with
    xbuf := xorStream Config.xorEnc bs, lane := (xorPass Config.xorEnc zeroLanes 0 bs).2, lpos := bs.length }

/-- XOR_ENC issued alone: the input is SRC, the result stands in XBUF and DST (R26, R100, R164; assumption 5). -/
def execXorEnc (s : State) : Host.Outcome State Fault Refusal :=
  let s1 := s.startAll 0x40#8
  let s2 := s1.xorEncode s1.srcBytes
  .next ({ s2.deliver s2.xbuf with sp := s1.argLen }).finish

/-- XOR_DEC issued alone: the input is SRC, the result stands in DST (R26, R100, R165; assumption 5). -/
def execXorDec (s : State) : Host.Outcome State Fault Refusal :=
  let s1 := s.startAll 0x41#8
  let bs := s1.srcBytes
  let rule := LaneRule.inverse Config.xorEnc
  let s2 := s1.deliver (xorStream rule bs)
  .next ({ s2 with lane := (xorPass rule zeroLanes 0 bs).2, lpos := bs.length, sp := s1.argLen }).finish

end Sys2Proof.Machine
end

