-- ==== Sys2Proof/Machine/Rle.lean ====
section
/-! DEFINITION. RLE_ENC (spec/40_nibble_rle_encoder.md R110 to R117) and RLE_DEC (spec/46_nibble_rle_decoder.md R205 to
R211). -/

namespace Sys2Proof.Machine

/-! ## nibble_rle_encoder -/

/-- The nibble sequence of the input without END: high nibble then low nibble of each byte (R53, R111). -/
def nibblesOf (bs : List Byte) : List Nibble :=
  bs.flatMap fun b => [b.extractLsb' 4 4, b.extractLsb' 0 4]

/-- The greedy segmentation (R112, R113), CURRUN as the first argument. The end of the list is END: it closes the
open run, and the run END itself would open is dropped. -/
def rleRuns : Option Run → List Nibble → List Run
  | none, [] => []
  | some r, [] => [r]
  | none, x :: xs => rleRuns (some { nib := x, cm1 := 0#3 }) xs
  | some r, x :: xs =>
    if x = r.nib ∧ r.cm1 ≠ 7#3 then rleRuns (some { nib := r.nib, cm1 := r.cm1 + 1#3 }) xs
    else r :: rleRuns (some { nib := x, cm1 := 0#3 }) xs

/-- RLESRC of an input (R113). -/
def rleOf (bs : List Byte) : List Run := rleRuns none (nibblesOf bs)

/-- FREQ of a sequence of runs: one added at each run's entry (R113). -/
def tally (rs : List Run) : RunFile Nat :=
  rs.foldl (fun f r => fileSet f r (fileGet f r + 1)) zeroFreq

/-- RLE_ENC on a byte sequence (R113). CURRUN is left closed (assumption 14). -/
def State.rleEncode (s : State) (bs : List Byte) : State :=
  { s with rleSrc := rleOf bs, freq := tally (rleOf bs), curRun := none }

/-- RLE_ENC issued alone: the input is SRC, read to its end (R100, R101, R26; assumption 5). -/
def execRleEnc (s : State) : Host.Outcome State Fault Refusal :=
  let s1 := s.startAll 0x10#8
  .next ({ s1.rleEncode s1.srcBytes with sp := s1.argLen }).finish

/-! ## nibble_rle_decoder -/

/-- A byte leaving the nibble-pair packer: through one step of XOR_DEC when XFLAG = 1, then to DST (R208, R209). -/
def State.putByte (s : State) (b : Byte) : State :=
  if s.xflag then
    let step := laneStep (LaneRule.inverse Config.xorEnc) s.lane s.lpos b
    ({ s with lane := step.2, lpos := s.lpos + 1 }).write1 step.1
  else ({ s with lpos := s.lpos + 1 }).write1 b

/-- One nibble into the nibble-pair packer (R207, R209). -/
def State.putNibble (s : State) (n : Nibble) : State :=
  match s.hold with
  | none => { s with hold := some n, outcnt := s.outcnt + 1 }
  | some h => { ({ s with hold := none }).putByte (h ++ n) with outcnt := s.outcnt + 1 }

/-- `repeat c times` of the emit step (R206, R209). -/
def State.putNibbles : (c : Nat) → Nibble → State → State
  | 0, _, s => s
  | c + 1, n, s => State.putNibbles c n (s.putNibble n)

/-- emit run `(n, c)` (R209). -/
def State.expandRun (s : State) (r : Run) : State := State.putNibbles (Run.count r) r.nib s

/-- The start of RLE_DEC (R209). -/
def State.expandStart (s : State) : State :=
  { s with hold := none, outcnt := 0, lane := zeroLanes, lpos := 0 }

/-- What RLE_DEC comes to outside the precondition of R209: the free value of Config (assumption 10). -/
def State.expandOutside (s : State) : State :=
  let v := Config.unstatedExpansion s.runs s.xflag s.tiles
  { s.deliver v.bytes with hold := v.hold, outcnt := v.outcnt, lane := v.lane, lpos := v.lpos }

/-- RLE_DEC issued alone: the runs, XFLAG and TILES are its arguments (R100, R101). Every run must keep the precondition
`OUTCNT + c <= TILES * 64` of R209, that is all of them together. -/
def execRleDec (s : State) : Host.Outcome State Fault Refusal :=
  let s1 := { s.startAll 0x70#8 with runs := s.args.runs, xflag := s.args.xflag, tiles := s.args.tiles }.expandStart
  .next (if nibbleCount s1.runs ≤ s1.expectedNibbles then s1.runs.foldl State.expandRun s1
    else s1.expandOutside).finish

end Sys2Proof.Machine
end

