-- ==== Sys2Proof/Machine/Unpack.lean ====
section
/-! DEFINITION. The stream elements HDR, TNIB, TENT, TEND, CODE, ESC and PAD, and the operations UNPACK_TABLE and
UNPACK_BITS that interpret them (spec/45_huffman_bitstream_unpacker.md R185 to R204, spec/30_encoding.md R82 to R92). -/

namespace Sys2Proof.Machine

/-! ## The trie -/

/-- `Insert(k, len, leaf)` along a path (R192): fails on a leaf that the path runs through, and on an end position that is
taken. A missing node on the way is made an `Inner`. -/
def insertAt (leaf : Node) : (path : List Bool) → Node → Option Node
  | [], _ => none
  | [bit], .inner clear set =>
    if bit then (if set = .absent then some (.inner clear leaf) else none)
    else (if clear = .absent then some (.inner leaf set) else none)
  | bit :: next :: path, .inner clear set =>
    if bit then (insertAt leaf (next :: path) (if set = .absent then emptyRoot else set)).map fun n => .inner clear n
    else (insertAt leaf (next :: path) (if clear = .absent then emptyRoot else clear)).map fun n => .inner n set
  | _ :: _, .absent => none
  | _ :: _, .leafRun _ => none
  | _ :: _, .leafEsc => none

/-! ## Delivering runs -/

/-- `emit run (n, c)` of UNPACK_BITS (R198, R201): OutputOverrun when the run does not fit whole; else the run is
delivered, and expanded by RLE_DEC unless UNPACK_BITS was issued alone (assumption 6). -/
def State.emitRun (s : State) (r : Run) : State :=
  if s.expectedNibbles < s.delivered + Run.count r then ({ s with tcur := [] }).raise .outputOverrun
  else
    let s1 := { s with tcur := [], runs := s.runs ++ [r] }
    if s.runsOnly then s1 else s1.expandRun r

/-! ## The stream elements -/

/-- HDR (R82, R186): the two header fields; the table region follows. -/
def execHdr (x : Bool) (t : BitVec 15) (s : State) : Host.Outcome State Fault Refusal :=
  .next { s with xflag := x, tiles := t, phase := .table }

/-- TNIB (R83, R187): the nibble context; bits 6 to 4 are ignored (D19); a TENT follows. -/
def execTnib (_z : BitVec 3) (n : Nibble) (s : State) : Host.Outcome State Fault Refusal :=
  .next { s with ctx := some n, phase := .entry }

/-- TENT (R84, R187, R188): the four tests in their order, each raising MalformedHeader; bit 7 of the first byte is
ignored (D20). -/
def execTent (_b : Bool) (c : BitVec 3) (l : BitVec 4) (k : Byte) (s : State) : Host.Outcome State Fault Refusal :=
  match s.ctx with
  | none => .next (s.raise .malformedHeader)
  | some n =>
    if l.toNat = 0 ∨ 9 ≤ l.toNat then .next (s.raise .malformedHeader)
    else if 2 ^ l.toNat ≤ k.toNat then .next (s.raise .malformedHeader)
    else
      match insertAt (.leafRun (runOf n c)) (codewordPath k l) s.trie with
      | none => .next (s.raise .malformedHeader)
      | some trie => .next { s with trie := trie, phase := .table }

/-- TEND (R85, R193, R194): the escape leaf is inserted, the bit reader starts on the next byte; UNPACK_TABLE issued alone
ends here. -/
def execTend (s : State) : Host.Outcome State Fault Refusal :=
  match insertAt .leafEsc escapePath s.trie with
  | none => .next (s.raise .malformedHeader)
  | some trie =>
    let s1 := { s with trie := trie, brCur := 0#8, brLeft := 0, tcur := [], phase := .bits }
    .next (if s.tableOnly then s1.finish else s1)

/-- Where the bits of a CODE element lead from a node (R90, R195). -/
inductive PathEnd where
  /-- To the leaf of a run. -/
  | leaf (r : Run)
  /-- To a bit that selects no child; TCUR where that bit was read (R197). -/
  | noChild (tcur : List Bool)
  /-- To the escape leaf, to an inner node, or past a leaf: the bits are no codeword of this table. -/
  | noCodeword
deriving DecidableEq, Repr

/-- Following a path, `stood` the path already behind. -/
def followPath : Node → (stood path : List Bool) → PathEnd
  | .leafRun r, _, [] => .leaf r
  | .leafRun _, _, _ :: _ => .noCodeword
  | .leafEsc, _, _ => .noCodeword
  | .absent, stood, _ => .noChild stood.dropLast
  | .inner _ _, _, [] => .noCodeword
  | .inner clear set, stood, bit :: path =>
    if bit then followPath set (stood ++ [true]) path else followPath clear (stood ++ [false]) path

/-- CODE (R86, R195, R197, R198): the run of the leaf the bits lead to is emitted and the cursor returns to the root; a bit
that selects no child raises InvalidCode. Other bits are no CODE element of this stream (assumption 8). -/
def execCode (path : List Bool) (s : State) : Host.Outcome State Fault Refusal :=
  match followPath (s.trie.at s.tcur) s.tcur path with
  | .leaf r => .next (s.emitRun r)
  | .noChild tcur => .next (({ s with tcur := tcur }).raise .invalidCode)
  | .noCodeword => .refused .codeNotInTable

/-- ESC (R87, R198): the inline run is emitted. -/
def execEsc (c : BitVec 3) (n : Nibble) (s : State) : Host.Outcome State Fault Refusal :=
  .next (s.emitRun (runOf n c))

/-- PAD (R88, R199, R220): the expected output is complete, the bits are not read, and the command ends: XSEL is the
header's flag after DECODE; UNPACK_BITS issued alone has no XSEL (assumption 16). -/
def execPad (_n : BitVec 3) (s : State) : Host.Outcome State Fault Refusal :=
  .next ({ s with xsel := if s.runsOnly then s.xsel else s.xflag }).finish

/-! ## Interpreting a stream -/

/-- The meaning of a stream element; a command is none. -/
def runElement (i : Instr) (s : State) : Host.Outcome State Fault Refusal :=
  match i with
  | .hdr x t => execHdr x t s
  | .tnib z n => execTnib z n s
  | .tent b c l k => execTent b c l k s
  | .tend => execTend s
  | .code path => execCode path s
  | .esc c n => execEsc c n s
  | .pad n => execPad n s
  | .encode => .refused .notAStreamElement
  | .decode => .refused .notAStreamElement
  | .encodeOne => .refused .notAStreamElement
  | .rleEnc => .refused .notAStreamElement
  | .pmSolve => .refused .notAStreamElement
  | .canonGen => .refused .notAStreamElement
  | .costEst => .refused .notAStreamElement
  | .trialSearch => .refused .notAStreamElement
  | .xorEnc => .refused .notAStreamElement
  | .xorDec => .refused .notAStreamElement
  | .pack => .refused .notAStreamElement
  | .unpackTable => .refused .notAStreamElement
  | .unpackBits => .refused .notAStreamElement
  | .rleDec => .refused .notAStreamElement

/-- One element of the stream: fetched at the cursor and given its meaning. -/
def elementStep (s : State) : Host.Outcome State Fault Refusal :=
  match s.fetch with
  | .raised s1 => .next s1
  | .instr i s1 => runElement i s1

/-- Elements one after another while STATUS is BUSY, at most `fuel` of them. -/
def runElements : (fuel : Nat) → State → Host.Outcome State Fault Refusal
  | 0, s => .next s
  | fuel + 1, s =>
    match s.status with
    | .busy =>
      match elementStep s with
      | .next s1 => runElements fuel s1
      | .fault r => .fault r
      | .refused r => .refused r
    | .idle => .next s
    | .done => .next s
    | .fault => .next s

/-- More elements than a stream of ARG_LEN bytes can hold: each but PAD takes at least one bit (R269; assumption 3). -/
def State.elementBound (s : State) : Nat := 8 * s.argLen + s.brLeft + 2

/-! ## UNPACK_TABLE and UNPACK_BITS -/

/-- The start of UNPACK_TABLE (R194). -/
def State.tableStart (s : State) : State :=
  { s with sp := 0, ctx := Config.ctxInit, trie := emptyRoot, brCur := 0#8, brLeft := 0, tcur := [], phase := .header }

/-- UNPACK_TABLE (R194): the elements from HDR to TEND. -/
def execUnpackTable (s : State) : Host.Outcome State Fault Refusal :=
  let s1 := (s.startAll 0x60#8).tableStart
  runElements s1.elementBound s1

/-- The start of UNPACK_BITS issued alone (R198): SP, TRIE and TILES are its arguments (R100, R101). -/
def State.bitsStart (s : State) : State :=
  { s with trie := s.args.trie, tiles := s.args.tiles, sp := s.args.sp, tcur := [], phase := .bits }

/-- UNPACK_BITS (R198): the elements CODE and ESC until the expected output is complete. -/
def execUnpackBits (s : State) : Host.Outcome State Fault Refusal :=
  let s1 := (s.startAll 0x61#8).bitsStart
  runElements s1.elementBound s1

end Sys2Proof.Machine
end

