-- ==== Sys2Proof/Machine/Codec.lean ====
section
/-! DEFINITION. The codec selection engine: ENCODE_ONE, ENCODE, DECODE (spec/47_codec_selection_engine.md R212 to R222). -/

namespace Sys2Proof.Machine

/-- "Each pass starts from the start-of-command state" (R218, R262): what one pass must not see of the one before
(assumption 14). -/
def State.passStart (s : State) : State := { s with len := zeroLen, code := noCodes, est := 0 }

/-- One encode pass (R218): RLE_ENC, TRIAL_SEARCH, the header fields, PACK. The candidate is `packed` of the result. -/
def State.encodePass (s : State) (bs : List Byte) (x : Bool) : State :=
  ({ (s.passStart.rleEncode bs).searchTrials with xflag := x, tiles := tilesOf bs }).afterPack

/-- ENCODE_ONE issued alone (R100, R101, R218): the byte sequence is SRC, the flag its argument; the candidate stands in
CAND0 or CAND1 by the flag, and in DST. A length ENCODE would refuse is refused (R239). Places: assumption 5. -/
def execEncodeOne (s : State) : Host.Outcome State Fault Refusal :=
  if encodeLengthOk s.argLen then
    let s1 := s.startAll 0x03#8
    let s2 := s1.encodePass s1.srcBytes s.args.xflag
    let s3 := if s.args.xflag then { s2 with cand1 := s2.packed } else { s2 with cand0 := s2.packed }
    .next ({ s3.deliver s2.packed with sp := s1.argLen }).finish
  else .next (s.startAll 0x03#8).refuse

/-- ENCODE (R215, R216, R217): both passes, the transformed candidate kept when strictly smaller. -/
def execEncode (s : State) : Host.Outcome State Fault Refusal :=
  if encodeLengthOk s.argLen then
    let s1 := s.startAll 0x01#8
    let bs := s1.srcBytes
    let s2 := s1.encodePass bs false
    let s3 := { s2 with cand0 := s2.packed }.xorEncode bs
    let s4 := s3.encodePass s3.xbuf true
    let s5 := { s4 with cand1 := s4.packed, sp := s4.argLen }
    if s5.cand1.length < s5.cand0.length then .next ({ s5.deliver s5.cand1 with xsel := true }).finish
    else .next ({ s5.deliver s5.cand0 with xsel := false }).finish
  else .next (s.startAll 0x01#8).refuse

/-- The state DECODE interprets its stream from: the start-of-command state, UNPACK_TABLE's start and RLE_DEC's
(R40, R220). -/
def State.decodeStart (s : State) : State := ((s.startAll 0x02#8).tableStart).expandStart

/-- DECODE (R220): the elements of the stream from HDR to PAD, each run expanded as it is emitted. -/
def execDecode (s : State) : Host.Outcome State Fault Refusal :=
  runElements s.decodeStart.elementBound s.decodeStart

end Sys2Proof.Machine
end

