-- ==== Sys2Proof/Machine/Dispatch.lean ====
section
/-! DEFINITION. The meaning of every instruction, one arm per constructor of Instr. -/

namespace Sys2Proof.Machine

def exec (i : Instr) (s : State) : Host.Outcome State Fault Refusal :=
  match i with
  | .hdr x t => Sys2Proof.Machine.execHdr x t s
  | .tnib z n => Sys2Proof.Machine.execTnib z n s
  | .tent b c l k => Sys2Proof.Machine.execTent b c l k s
  | .tend => Sys2Proof.Machine.execTend s
  | .code path => Sys2Proof.Machine.execCode path s
  | .esc c n => Sys2Proof.Machine.execEsc c n s
  | .pad n => Sys2Proof.Machine.execPad n s
  | .encode => Sys2Proof.Machine.execEncode s
  | .decode => Sys2Proof.Machine.execDecode s
  | .encodeOne => Sys2Proof.Machine.execEncodeOne s
  | .rleEnc => Sys2Proof.Machine.execRleEnc s
  | .pmSolve => Sys2Proof.Machine.execPmSolve s
  | .canonGen => Sys2Proof.Machine.execCanonGen s
  | .costEst => Sys2Proof.Machine.execCostEst s
  | .trialSearch => Sys2Proof.Machine.execTrialSearch s
  | .xorEnc => Sys2Proof.Machine.execXorEnc s
  | .xorDec => Sys2Proof.Machine.execXorDec s
  | .pack => Sys2Proof.Machine.execPack s
  | .unpackTable => Sys2Proof.Machine.execUnpackTable s
  | .unpackBits => Sys2Proof.Machine.execUnpackBits s
  | .rleDec => Sys2Proof.Machine.execRleDec s

end Sys2Proof.Machine
end

