-- ==== Sys2Proof/Machine/HostPort.lean ====
section
/-! DEFINITION. The host's moves and reads at the block's registers and memories (spec/10_state.md R30, R38;
spec/60_exceptions.md R239, R245; spec/70_reset_and_hazards.md R263 to R266). A move is not a step of the block. -/

namespace Sys2Proof.Machine

/-- The host writes CMD: the command starts, from the start-of-command state (R40, R240, R260); while STATUS = BUSY the
write is ignored altogether (R239). -/
def State.hostWriteCmd (s : State) (code : Byte) : State :=
  match s.status with
  | .busy => s
  | .idle => s.startAll code
  | .done => s.startAll code
  | .fault => s.startAll code

/-- The host writes ARG_LEN (R30); while STATUS = BUSY there is no such move (R71, U9; assumption 15). -/
def State.hostWriteArgLen (s : State) (n : Nat) : Host.Outcome State Fault Refusal :=
  match s.status with
  | .busy => .fault .hostWriteWhileBusy
  | .idle => .next { s with argLen := n }
  | .done => .next { s with argLen := n }
  | .fault => .next { s with argLen := n }

/-- The host writes bytes of SRC (R38); while STATUS = BUSY there is no such move (R71, U9; assumption 15). -/
def State.hostWriteSrc (s : State) (a : Nat) (bs : List Byte) : Host.Outcome State Fault Refusal :=
  match s.status with
  | .busy => .fault .hostWriteWhileBusy
  | .idle => .next { s with src := s.src.storeBytes a bs }
  | .done => .next { s with src := s.src.storeBytes a bs }
  | .fault => .next { s with src := s.src.storeBytes a bs }

/-- The arguments of a unit operation issued alone are placed (R101); while STATUS = BUSY there is no such move (R71, U9;
assumptions 5 and 15). -/
def State.hostWriteArgs (s : State) (a : UnitArgs) : Host.Outcome State Fault Refusal :=
  match s.status with
  | .busy => .fault .hostWriteWhileBusy
  | .idle => .next { s with args := a }
  | .done => .next { s with args := a }
  | .fault => .next { s with args := a }

/-- What the host can read: STATUS, ERR, DLEN, XSEL and the valid bytes of DST (R30, R38, R245). -/
structure HostView where
  status : BitVec 2
  err : BitVec 3
  dlen : Nat
  xsel : Bool
  dst : List Byte
deriving DecidableEq, Repr

/-- The host's view of a state. -/
def State.hostView (s : State) : HostView :=
  { status := Status.code s.status, err := Err.code s.err, dlen := s.dlen, xsel := s.xsel, dst := s.dstBytes }

end Sys2Proof.Machine
end

