-- ==== Sys2Proof/Machine/Step.lean ====
section
/-! DEFINITION. The step of the machine, and the placing of one instruction where the next step fetches it. -/

namespace Sys2Proof.Machine

/-- One step. While STATUS is BUSY the next instruction is fetched and run: the command in CMD, or the stream element at
the cursor. In IDLE, DONE and FAULT "the block does nothing until CMD is written" (R250, R261). -/
def step (s : State) : Host.Outcome State Fault Refusal :=
  match s.status with
  | .busy =>
    match s.fetch with
    | .raised s1 => .next s1
    | .instr i s1 => exec i s1
  | .idle => .next s
  | .done => .next s
  | .fault => .next s

/-- The state in the middle of a DECODE, at a place of the stream, with the word's bytes at the cursor. -/
def State.placeElement (s : State) (phase : Region) (bytes : List Byte) : State :=
  { s.beginCommand 0x02#8 with
    phase := phase, src := s.src.storeBytes s.sp bytes, argLen := s.sp + bytes.length, brCur := 0#8, brLeft := 0 }

/-- The word placed where the next step fetches (assumption 4): a command code in CMD, as the host's write of CMD
leaves it; a stream element in SRC at the cursor, at its place of the stream. A TENT stands after the TNIB of nibble 0,
an ESC in the bitstream of a one-tile stream with an empty table, PAD at the end of an output of no tile. -/
def State.withFetchWord (s : State) (nbits w : Nat) : State :=
  match wordRegion nbits w with
  | none => s
  | some .command => s.startAll (BitVec.ofNat 8 w)
  | some .header => s.placeElement .header (wordBytes nbits w)
  | some .table => s.placeElement .table (wordBytes nbits w)
  | some .entry => { s.placeElement .entry (wordBytes nbits w) with ctx := some 0#4 }
  | some .bits =>
    { s.placeElement .bits (wordBytes nbits w) with trie := escapeOnly, tcur := [], tiles := 1#15, outcnt := 0 }
  | some .tail => { s.placeElement .bits [] with tcur := [], tiles := 0#15, outcnt := 0 }

end Sys2Proof.Machine
end

