-- ==== Sys2Proof/Safety.lean ====
section
/-! DEFINITION. What counts as a good state and a good table, and the reference notions the statements are written with:
invariants between steps, the invariant of a code file (spec/10_state.md R25), the nibbles a run stands for (R206), the
wire form of a run (R93). -/

namespace Sys2Proof.Machine

/-! ## Invariants between steps -/

/-- What holds of the host's registers, the memories and the cursors between steps. -/
structure State.Inv (s : State) : Prop where
  /-- SRC is in canonical form. -/
  srcForm : s.src.wf = true
  /-- DST is in canonical form. -/
  dstForm : s.dst.wf = true
  /-- DST holds nothing at or past the write cursor (R28). -/
  dstBelow : ∀ c ∈ s.dst.cells, c.1 < s.dpos
  /-- ERR is 0 exactly when STATUS is not FAULT (R30, R231). -/
  errInFault : s.err = .none ↔ s.status ≠ .fault
  /-- A fault leaves no output (R236) and no run emitted before it (R204). -/
  faultEmpty : s.status = .fault → s.dlen = 0 ∧ s.dpos = 0 ∧ s.xsel = false ∧ s.runs = []
  /-- Nothing was output before the first command (R261). -/
  idleEmpty : s.status = .idle → s.dlen = 0 ∧ s.dpos = 0 ∧ s.xsel = false
  /-- DLEN counts the bytes of DST once a command is done (R69). -/
  doneLength : s.status = .done → s.dlen = s.dpos
  /-- The results are not shown while a command runs (R40). -/
  busyHidden : s.status = .busy → s.dlen = 0 ∧ s.xsel = false
  /-- No stream is being read when no command runs. -/
  restPhase : s.status ≠ .busy → s.phase = .command
  /-- PAD's place is never stored: it follows from OUTCNT (R198). -/
  notTail : s.phase ≠ .tail
  /-- A byte with all its bits unread is never held (R62). -/
  unreadBits : s.brLeft ≤ 7
  /-- Pending bits never make a whole byte (R28). -/
  pendingBits : s.bwBits ≤ 7

/-- What holds in the middle of a DECODE between stream elements. -/
structure State.StreamInv (s : State) : Prop where
  /-- Nothing is output before the bitstream (R194, R209). -/
  early : s.status = .busy → (s.phase = .header ∨ s.phase = .table ∨ s.phase = .entry) →
    s.outcnt = 0 ∧ s.hold = none ∧ s.dpos = 0 ∧ s.runs = []
  /-- The output never passes what the header announced (R201). -/
  fits : s.status = .busy → s.phase = .bits → s.delivered ≤ s.expectedNibbles
  /-- Every two nibbles delivered are one byte of DST, an odd one waits in HOLD (R207), unless runs only are asked for. -/
  paired : s.status = .busy → s.phase = .bits → s.runsOnly = false →
    2 * s.dpos + (if s.hold.isSome then 1 else 0) = s.outcnt
  /-- "Exactly one leaf exists at the position reached by consuming the reserved escape codeword" (R33, R193). -/
  escape : s.status = .busy → s.phase = .bits → s.trie.at escapePath = .leafEsc
  /-- The cursor is at the root between runs (R27, R195). -/
  atRoot : s.status = .busy → s.phase = .bits → s.tcur = []

/-! ## Code files -/

/-- The path of a codeword. -/
def Codeword.path (cw : Codeword) : List Bool := codewordPath cw.bits cw.len

/-- The invariant of CODE after CANON_GEN (R25, R145 a and b). -/
structure CodesOk (f : RunFile (Option Codeword)) : Prop where
  /-- Lengths 1 to 8, and the value fits its length. -/
  fits : ∀ r cw, fileGet f r = some cw →
    1 ≤ cw.len.toNat ∧ cw.len.toNat ≤ 8 ∧ cw.bits.toNat < 2 ^ cw.len.toNat
  /-- No codeword begins another. -/
  prefixFree : ∀ r₁ r₂ cw₁ cw₂, r₁ ≠ r₂ → fileGet f r₁ = some cw₁ → fileGet f r₂ = some cw₂ →
    ¬ (Codeword.path cw₁ <+: Codeword.path cw₂)
  /-- No codeword begins the escape codeword or begins with it. -/
  clearOfEscape : ∀ r cw, fileGet f r = some cw →
    ¬ (Codeword.path cw <+: escapePath) ∧ ¬ (escapePath <+: Codeword.path cw)

/-- The candidate code at length `l` after a code of the length before it or the same: its successor, shifted left once for
each bit longer (R142, R145 c). -/
def candidateAfter (ca : Codeword) (l : Nat) : Nat := (ca.bits.toNat + 1) * 2 ^ (l - ca.len.toNat)

/-- What the next run in the order of assignment gets after a run with codeword `ca` (R143, R144): at the first length from
its own LEN and from `ca`'s on whose candidate is not reserved, that candidate; none when all up to 8 are reserved. -/
structure CodeAfter (ca : Codeword) (len : Nat) (got : Option Codeword) : Prop where
  /-- The codeword it gets is the candidate at its length, a length from which on it was looked for. -/
  some : ∀ cb, got = .some cb →
    len ≤ cb.len.toNat ∧ ca.len.toNat ≤ cb.len.toNat ∧ cb.len.toNat ≤ 8 ∧
    cb.bits.toNat = candidateAfter ca cb.len.toNat ∧ reserved (candidateAfter ca cb.len.toNat) cb.len.toNat = false ∧
    ∀ l, len ≤ l → ca.len.toNat ≤ l → l < cb.len.toNat → reserved (candidateAfter ca l) l = true
  /-- It has none only when it was demoted out of length 8 (R145 d). -/
  none : got = .none → ∀ l, len ≤ l → ca.len.toNat ≤ l → l ≤ 8 → reserved (candidateAfter ca l) l = true

/-! ## Unit operations one after another -/

/-- What stands in the state the unit operations write, as arguments for the next one (R26, R100, R249). -/
def State.results (s : State) : UnitArgs :=
  { freq := s.freq, len := s.len, code := s.code, best := s.best, rleSrc := s.rleSrc,
    trial := trialLeaves s.qual s.trialSize, xflag := s.xflag, tiles := s.tiles, trie := s.trie, sp := s.sp,
    runs := s.runs }

/-- The state with those results placed as the arguments of the next unit operation. -/
def State.handOver (s : State) : State := { s with args := s.results }

/-! ## Runs and their wire form -/

/-- The nibbles a sequence of runs stands for (R206). -/
def runNibbles (rs : List Run) : List Nibble := rs.flatMap fun r => List.replicate (Run.count r) r.nib

/-- The bits one run is sent as: its codeword, or the escape and the seven field bits (R93, R175). -/
def runBits (f : RunFile (Option Codeword)) (r : Run) : List Bool :=
  match codeAt f r with
  | some cw => Codeword.path cw
  | none => encode (.esc r.cm1 r.nib)

/-- The bits of a sequence of bytes, in the order the reader gives them (R52). -/
def byteBits (bs : List Byte) : List Bool := bs.flatMap fun b => bitsOf 8 b.toNat

/-- The bytes of a table: the entries in ascending run order, each after its marker when the nibble changes
(R172, R173). -/
def tableBytes : (last : Option Nibble) → List (Run × Codeword) → List Byte
  | _, [] => []
  | last, (r, cw) :: rest =>
    (if last = some r.nib then [] else [BitVec.ofNat 8 (0x80 + r.nib.toNat)]) ++
      [BitVec.ofNat 8 (r.cm1.toNat * 16 + cw.len.toNat), cw.bits] ++ tableBytes (some r.nib) rest

/-- The table and the estimate of the trial of size `t` (R122, R149). -/
def trialTable (freq : RunFile Nat) (t : Nat) : RunFile (Option Codeword) :=
  canonical (solve (trialLeaves (qualifying freq) t)) freq

/-- The table TRIAL_SEARCH keeps for a frequency file (R149). -/
def searchBest (freq : RunFile Nat) : RunFile (Option Codeword) :=
  ({ State.reset with freq := freq }.searchTrials).best

/-- The candidate encoding of one pass over a byte sequence (R218). -/
def passBytes (bs : List Byte) (x : Bool) : List Byte :=
  packBytes x (tilesOf bs) (searchBest (tally (rleOf bs))) (rleOf bs)

/-- The bytes a run of plain bytes leaves the nibble-pair packer as (R208): through the decoder's lane rule when the
transform flag is set. -/
def deXored (s : State) (plain : List Byte) : List Byte :=
  if s.xflag then (xorPass (LaneRule.inverse Config.xorEnc) s.lane s.lpos plain).1 else plain

/-- What delivering runs to RLE_DEC does between two states (R206 to R209): pairs of nibbles, one of which may have been
waiting in HOLD, become bytes appended to DST; an odd last nibble waits in HOLD. Every other byte of DST is as before. -/
def Delivered (s t : State) (rs : List Run) : Prop :=
  ∃ plain : List Byte,
    s.hold.toList ++ runNibbles rs = nibblesOf plain ++ t.hold.toList ∧
    t.dpos = s.dpos + plain.length ∧
    t.dst.readBytes s.dpos plain.length = deXored s plain ∧
    (∀ a, a < s.dpos ∨ t.dpos ≤ a → t.dst.read a = s.dst.read a) ∧
    t.lpos = s.lpos + plain.length ∧
    t.lane = (if s.xflag then (xorPass (LaneRule.inverse Config.xorEnc) s.lane s.lpos plain).2 else s.lane) ∧
    t.outcnt = s.outcnt + (runNibbles rs).length

/-- Whether a node is a leaf (R33). -/
def Node.isLeaf : Node → Bool
  | .leafRun _ => true
  | .leafEsc => true
  | .absent => false
  | .inner _ _ => false

/-- Whether a node is an `Inner` (R33). -/
def Node.isInner : Node → Bool
  | .inner _ _ => true
  | .absent => false
  | .leafRun _ => false
  | .leafEsc => false

/-- Whether a command ended (R269). -/
def State.ended (s : State) : Prop := s.status = .done ∨ s.status = .fault

end Sys2Proof.Machine
end

