-- ==== Sys2Proof/WellFormed.lean ====
section
/-! DEFINITION. Which instructions are legal encodings (spec/30_encoding.md R89, R92; the notes of
spec/opcode_table.json). An ill-formed TENT is still decoded: its meaning raises MalformedHeader (R188). -/

namespace Sys2Proof

/-- Whether a codeword string begins with the escape codeword or is a beginning of it (R25): the table never
assigns such a string, and the trie walk never ends a CODE on one. -/
def touchesEscape (path : List Bool) : Bool :=
  (path.take 6).all (fun b => b)

/-- Legal encodings. TNIB: the byte 0xFF is TEND (R83). TENT: length 1 to 8 and no bit of the codeword byte at or
above the length (R84). CODE: 1 to 8 bits, clear of the escape (R86, R25). The others are legal for every operand. -/
def Instr.wellFormed : Instr → Bool
  | .hdr _ _ => true
  | .tnib z n => !(z == 7#3 && n == 15#4)
  | .tent _ _ l k => decide (1 ≤ l.toNat) && decide (l.toNat ≤ 8) && decide (k.toNat < 2 ^ l.toNat)
  | .tend => true
  | .code path => decide (1 ≤ path.length) && decide (path.length ≤ 8) && !touchesEscape path
  | .esc _ _ => true
  | .pad _ => true
  | .encode => true
  | .decode => true
  | .encodeOne => true
  | .rleEnc => true
  | .pmSolve => true
  | .canonGen => true
  | .costEst => true
  | .trialSearch => true
  | .xorEnc => true
  | .xorDec => true
  | .pack => true
  | .unpackTable => true
  | .unpackBits => true
  | .rleDec => true

end Sys2Proof
end

