-- ==== Sys2Proof/Certificates/Slice0/Obligations.lean ====
section
/-! DEFINITION. The statements for the provers. Each docstring says which rule of spec/ it formalises; OBLIGATIONS.json
gives each its tier, basis and cites. -/

open Sys2Proof Sys2Proof.Machine

/-! ## Reset, the command interface, the step -/

/-- R261: what a host can read after power-on reset, and that the block does nothing until CMD is written; nor does it in
DONE and FAULT (R250). -/
def Obligations.ResetHostView : Prop :=
  State.reset.hostView = { status := 0#2, err := 0#3, dlen := 0, xsel := false, dst := [] } ∧
  State.reset.status = .idle ∧ State.reset.err = .none ∧ State.reset.dst = Memory.blank ∧
  ∀ s : State, s.status ≠ .busy → step s = .next s

/-- R30, R40, R239, R240, R260: a write of CMD is ignored while BUSY; else it sets CMD and BUSY and every field to the
start-of-command value of R40's middle column, whatever the command before left. SRC and ARG_LEN stay as the host wrote them;
XFLAG and TILES are "set by the command before first use". est, runs, dpos, phase and args are the model's own fields; that
CURRUN, for which R40 has no row, starts as none, est as 0 and runs as empty is the model's choice (assumption 14). -/
def Obligations.CmdWriteStartsOrIsIgnored : Prop :=
  ∀ (s : State) (c : Byte),
    (s.status = .busy → s.hostWriteCmd c = s) ∧
    (s.status ≠ .busy → s.hostWriteCmd c = s.startAll c) ∧
    s.startAll c =
      { s with
        cmd := c, status := .busy, err := .none, dlen := 0, xsel := false, dst := Memory.blank, dpos := 0,
        phase := .command, xbuf := [], cand0 := [], cand1 := [], freq := Vector.replicate 128 0,
        len := Vector.replicate 128 0#4, code := Vector.replicate 128 none, best := Vector.replicate 128 none,
        bestEst := none, est := 0, rleSrc := [], curRun := none, qual := [], trialSize := 0,
        forest := { coins := [], pkgs := [] }, lane := Vector.replicate 4 0#8, lpos := 0,
        trie := .inner .absent .absent, tcur := [], ctx := none, sp := 0, brCur := 0#8, brLeft := 0, bwAcc := 0#8,
        bwBits := 0, hold := none, outcnt := 0, lastNib := none, runs := [] }

/-- R239 (a): a value that is none of the fourteen codes of R100 is refused, whatever else the state holds; the start of the
command (R40) is all it does. -/
def Obligations.UnknownCommandRefused : Prop :=
  (∀ c : Byte, decodeCommand c = none ↔
    c.toNat ∉ [0x01, 0x02, 0x03, 0x10, 0x20, 0x30, 0x31, 0x32, 0x40, 0x41, 0x50, 0x60, 0x61, 0x70]) ∧
  ∀ (s : State) (c : Byte), s.status ≠ .busy → decodeCommand c = none →
    step (s.hostWriteCmd c) = .next { s.startAll c with status := .fault, err := .cmdRefused }

/-- U9, R71: while BUSY the host has no move on SRC or ARG_LEN; else the move writes what it says and nothing else. That
"no move" is a fault by name is the model's choice (assumption 15); so is the same move on a unit operation's arguments
(assumption 5). -/
def Obligations.HostInputMoves : Prop :=
  ∀ (s : State) (a n : Nat) (bs : List Byte) (u : UnitArgs),
    (s.status = .busy →
      s.hostWriteSrc a bs = .fault .hostWriteWhileBusy ∧ s.hostWriteArgLen n = .fault .hostWriteWhileBusy ∧
      s.hostWriteArgs u = .fault .hostWriteWhileBusy) ∧
    (s.status ≠ .busy →
      s.hostWriteArgLen n = .next { s with argLen := n } ∧ s.hostWriteArgs u = .next { s with args := u } ∧
      ∃ t, s.hostWriteSrc a bs = .next t ∧ t = { s with src := t.src } ∧
        (s.src.wf = true → t.src.wf = true ∧ t.src.readBytes a bs.length = bs ∧
          ∀ x, x < a ∨ a + bs.length ≤ x → t.src.read x = s.src.read x))

/-- A step runs the decoded instruction: the command whose code is in CMD; in a stream, the element the decoder reads at
the cursor, with SP and BR moved past it. -/
def Obligations.StepRunsDecodedInstruction : Prop :=
  (∀ (s : State) (i : Instr), s.status = .busy → s.phase = .command → decodeCommand s.cmd = some i →
    step s = exec i s) ∧
  (∀ (s : State) (i : Instr) (rd : Reader), s.status = .busy → s.phase ≠ .command →
    decodeAt s.region (s.trie.at s.tcur) s.reader = .instr i rd →
    step s = exec i { s with sp := s.sp + rd.taken, brCur := rd.cur, brLeft := rd.nleft })

/-- R60, R197, R202, R204, R233, R234, R236: the end of SRC inside an element raises IoFailure, a bit that selects no child
raises InvalidCode; either way nothing of the output is left, and no run emitted before. -/
def Obligations.StreamErrorsRaise : Prop :=
  ∀ s : State, s.status = .busy → s.phase ≠ .command →
    (∀ p rd, decodeAt s.region (s.trie.at s.tcur) s.reader = .short p rd →
      ∃ t, step s = .next t ∧ t.status = .fault ∧ t.err = .ioFailure ∧ t.dlen = 0 ∧ t.xsel = false ∧
        t.dst = Memory.blank ∧ t.runs = []) ∧
    (∀ p rd, decodeAt s.region (s.trie.at s.tcur) s.reader = .noChild p rd →
      ∃ t, step s = .next t ∧ t.status = .fault ∧ t.err = .invalidCode ∧ t.dlen = 0 ∧ t.xsel = false ∧
        t.dst = Memory.blank ∧ t.runs = [])

/-- R236: what raising a fault does, anywhere in a command: DST empty, DLEN 0, XSEL 0, ERR the kind, STATUS FAULT, and the
command ends: the next step does nothing. The runs emitted before it are discarded with DST (R204); the code of the kind is R231's. The other state the
fault leaves dead is not spoken of. -/
def Obligations.RaiseEffect : Prop :=
  ∀ (s : State) (k : Err),
    (s.raise k).dst = Memory.blank ∧ (s.raise k).dlen = 0 ∧ (s.raise k).xsel = false ∧ (s.raise k).err = k ∧
    (s.raise k).status = .fault ∧ (s.raise k).runs = [] ∧ step (s.raise k) = .next (s.raise k) ∧
    (s.raise k).hostView = { status := 3#2, err := Err.code k, dlen := 0, xsel := false, dst := [] }

/-! ## Invariants -/

/-- The invariants hold after reset. -/
def Obligations.ResetKeepsInvariants : Prop := State.reset.Inv ∧ State.reset.StreamInv

/-- Every step keeps `State.Inv`, from every state that has it. -/
def Obligations.StepKeepsInv : Prop :=
  ∀ s t : State, s.Inv → step s = .next t → t.Inv

/-- Every step keeps `State.StreamInv`, from every state that has it. -/
def Obligations.StepKeepsStreamInv : Prop :=
  ∀ s t : State, s.StreamInv → step s = .next t → t.StreamInv

/-- R38, R71: no step changes SRC or ARG_LEN, whatever the state; nor the arguments of a unit operation (assumption 5). -/
def Obligations.StepLeavesInput : Prop :=
  ∀ s t : State, step s = .next t → t.src = s.src ∧ t.argLen = s.argLen ∧ t.args = s.args

/-! ## Decoding and encoding -/

/-- A few words written out from the spec's encodings (R82 to R87, R100) decode to the instructions they stand for. A bare word
does not say its place in the stream: which place `decodeTableWord` reads it at (a 16-bit word with its top bits as these as
HDR, TENT or ESC, though every 16-bit value is a legal header by R82) is the model's choice, assumption 4. -/
def Obligations.SpecWordsDecode : Prop :=
  decodeTableWord 16 0b1000000000000010 = some (.hdr true 2#15) ∧
  decodeTableWord 8 0b10001010 = some (.tnib 0#3 10#4) ∧
  decodeTableWord 16 0b0111010000001110 = some (.tent false 7#3 4#4 0b1110#8) ∧
  decodeTableWord 8 0b11111111 = some .tend ∧
  decodeTableWord 16 0b1111110100101 = some (.esc 2#3 5#4) ∧
  decodeTableWord 8 0b00000001 = some .encode ∧
  decodeTableWord 8 0b00000010 = some .decode ∧
  decodeTableWord 8 0b00010000 = some .rleEnc ∧
  decodeTableWord 8 0b00100000 = some .pmSolve ∧
  decodeTableWord 8 0b00110000 = some .canonGen ∧
  decodeTableWord 8 0b01000000 = some .xorEnc ∧
  decodeTableWord 8 0b01010000 = some .pack ∧
  decodeTableWord 8 0b01100000 = some .unpackTable ∧
  decodeTableWord 8 0b01110000 = some .rleDec

/-- Decode of encode, for every well-formed instruction at its own position. Byte elements and commands are read with no
bit pending; a CODE with its leaf in the trie, an ESC with the escape leaf in place (R90), a PAD where its bits are what is
left of the byte (R88, never read). -/
def Obligations.DecodeEncodeAgree : Prop :=
  ∀ (i : Instr) (node : Node) (rd : Reader) (rest : List Bool),
    i.wellFormed = true → rd.nleft ≤ 7 → rd.unread = encode i ++ rest →
    (regionOf i ≠ .bits → regionOf i ≠ .tail → rd.nleft = 0) →
    (∀ path, i = .code path → ∃ r, node.at path = .leafRun r) →
    (∀ c n, i = .esc c n → node.at escapePath = .leafEsc) →
    (∀ n, i = .pad n → rd.nleft = n.toNat) →
    ∃ rd', decodeAt (regionOf i) node rd = .instr i rd' ∧
      rd'.unread = (if regionOf i = .tail then rd.unread else rest)

/-- Encode of decode: what the decoder reads at any position but PAD's is the encoding of what it answers, bit for bit. -/
def Obligations.DecodedBitsAreTheEncoding : Prop :=
  ∀ (r : Region) (node : Node) (rd rd' : Reader) (i : Instr),
    r ≠ .tail → rd.nleft ≤ 7 → (r ≠ .bits → rd.nleft = 0) →
    (∀ p, node.at p = .leafEsc → p = escapePath) →
    decodeAt r node rd = .instr i rd' → rd.unread = encode i ++ rd'.unread

/-- R62 to R65: what is written with WriteBits and flushed is read back with ReadBits, value by value. For a width outside 1 to
8, where R64 ends, WriteBits is the model's choice (assumption 18). -/
def Obligations.WrittenBitsReadBack : Prop :=
  ∀ (vs : List (Nat × Nat)) (v n : Nat), v < 2 ^ n →
    ∃ k : Sink, k = ((vs.foldl (fun k w => k.writeBits w.1 w.2) Sink.start).writeBits v n).flush ∧ k.nbits = 0 ∧
    ∃ rd, Reader.readBits ((vs.map Prod.snd).sum) 0 { bytes := k.out, cur := 0#8, nleft := 0, taken := 0 } =
        some (bitsValue (vs.flatMap fun w => bitsOf w.2 w.1), rd) ∧
      ∃ rd', Reader.readBits n 0 rd = some (v, rd') ∧ rd'.unread.length ≤ 7 ∧ ∀ b ∈ rd'.unread, b = false

/-! ## Stream elements -/

/-- R82, R186: HDR sets XFLAG and TILES and nothing else but the place in the stream. The header is read with Read2BE; every
value is accepted; with fewer than 2 bytes IoFailure. -/
def Obligations.HeaderResult : Prop :=
  (∀ (x : Bool) (t : BitVec 15) (s : State),
    exec (.hdr x t) s = .next { s with xflag := x, tiles := t, phase := .table }) ∧
  ∀ s : State, s.status = .busy → s.phase = .header →
    (s.sp + 2 ≤ s.argLen →
      ∃ t, step s = .next t ∧
        t = { s with
              xflag := decide (32768 ≤ (s.src.read s.sp).toNat * 256 + (s.src.read (s.sp + 1)).toNat),
              tiles := BitVec.ofNat 15 ((s.src.read s.sp).toNat * 256 + (s.src.read (s.sp + 1)).toNat),
              sp := s.sp + 2, phase := .table } ∧
        t.expectedNibbles = t.tiles.toNat * 64) ∧
    (s.argLen < s.sp + 2 → ∃ t, step s = .next t ∧ t.status = .fault ∧ t.err = .ioFailure ∧ t.dst = Memory.blank)

/-- R83, R187: TNIB sets CTX whatever its bits 6 to 4, and nothing else but the place in the stream. -/
def Obligations.TnibResult : Prop :=
  ∀ (z : BitVec 3) (n : Nibble) (s : State),
    exec (.tnib z n) s = .next { s with ctx := some n, phase := .entry }

/-- R89: how the table region tells its bytes apart, and that every byte of an entry is read before it is checked
(R187). -/
def Obligations.TableDispatch : Prop :=
  ∀ (s : State) (b : Byte), s.status = .busy → s.sp < s.argLen → s.src.read s.sp = b →
    (s.phase = .table → b = 0xFF#8 → step s = exec .tend { s with sp := s.sp + 1 }) ∧
    (s.phase = .table → b ≠ 0xFF#8 → b.getLsbD 7 = true →
      step s = .next { s with sp := s.sp + 1, ctx := some (b.extractLsb' 0 4), phase := .entry }) ∧
    ((s.phase = .table ∧ b.getLsbD 7 = false) ∨ s.phase = .entry →
      (s.sp + 1 < s.argLen →
        step s = exec (.tent (b.getLsbD 7) (b.extractLsb' 4 3) (b.extractLsb' 0 4) (s.src.read (s.sp + 1)))
          { s with sp := s.sp + 2 }) ∧
      (s.argLen ≤ s.sp + 1 → ∃ t, step s = .next t ∧ t.status = .fault ∧ t.err = .ioFailure))

/-- R188: the validation of one entry: accepted, the run (CTX, count) stands at the codeword and the trie alone changes;
each of the four failing tests raises MalformedHeader. Bit 7 is ignored. That the state a fault leaves dead (the trie, CTX, SP:
R192, R236) stays as it was, as the failing clause says, is the model's choice, assumption 11. -/
def Obligations.TentResult : Prop :=
  ∀ (b : Bool) (c : BitVec 3) (l : BitVec 4) (k : Byte) (s : State),
    (∀ n trie, s.ctx = some n → 1 ≤ l.toNat → l.toNat ≤ 8 → k.toNat < 2 ^ l.toNat →
      insertAt (.leafRun { nib := n, cm1 := c }) (bitsOf l.toNat k.toNat) s.trie = some trie →
      exec (.tent b c l k) s = .next { s with trie := trie, phase := .table } ∧
        trie.at (bitsOf l.toNat k.toNat) = .leafRun { nib := n, cm1 := c }) ∧
    ((s.ctx = none ∨ l.toNat = 0 ∨ 9 ≤ l.toNat ∨ 2 ^ l.toNat ≤ k.toNat ∨
        ∃ n, s.ctx = some n ∧ insertAt (.leafRun { nib := n, cm1 := c }) (bitsOf l.toNat k.toNat) s.trie = none) →
      exec (.tent b c l k) s = .next
        { s with
          dst := Memory.blank, dpos := 0, dlen := 0, xsel := false, err := .malformedHeader, status := .fault,
          phase := .command, runs := [] })

/-- R192 in its map form: an insertion fails exactly when a proper beginning of the path is a leaf or the full path is
already taken; otherwise the full path is the leaf, every proper beginning is an `Inner`, and nothing else changes. -/
def Obligations.InsertMapForm : Prop :=
  ∀ (leaf trie : Node) (path : List Bool), Node.isLeaf leaf = true → Node.isInner trie = true → path ≠ [] →
    (insertAt leaf path trie = none ↔
      (∃ p, p <+: path ∧ p ≠ path ∧ Node.isLeaf (trie.at p) = true) ∨ trie.at path ≠ .absent) ∧
    ∀ t, insertAt leaf path trie = some t →
      t.at path = leaf ∧ (∀ p, p <+: path → p ≠ path → Node.isInner (t.at p) = true) ∧
      ∀ q, ¬ q <+: path → t.at q = trie.at q

/-- R193: after the terminator the escape leaf is inserted by the same rule; it fails exactly when the trie holds a leaf on the
way, or anything at or below 111111; then MalformedHeader. UNPACK_TABLE issued alone ends there (R194). That the state a fault
leaves dead (the trie, BR, TCUR: R236) stays as it was, as the failing clause says, is the model's choice, assumption 11. -/
def Obligations.TendResult : Prop :=
  ∀ s : State, Node.isInner s.trie = true →
    (((∃ p, p <+: escapePath ∧ p ≠ escapePath ∧ Node.isLeaf (s.trie.at p) = true) ∨
        s.trie.at escapePath ≠ .absent) →
      exec .tend s = .next
        { s with
          dst := Memory.blank, dpos := 0, dlen := 0, xsel := false, err := .malformedHeader, status := .fault,
          phase := .command, runs := [] }) ∧
    ((∀ p, p <+: escapePath → p ≠ escapePath → Node.isLeaf (s.trie.at p) = false) →
      s.trie.at escapePath = .absent →
      ∃ trie, trie.at escapePath = .leafEsc ∧ (∀ q, ¬ q <+: escapePath → trie.at q = s.trie.at q) ∧
        (s.cmd ≠ 0x60#8 → exec .tend s = .next
          { s with trie := trie, brCur := 0#8, brLeft := 0, tcur := [], phase := .bits }) ∧
        (s.cmd = 0x60#8 → exec .tend s = .next
          { s with
            trie := trie, brCur := 0#8, brLeft := 0, tcur := [], phase := .command, status := .done,
            dlen := s.dpos }))

/-- R86, R198, R209: a CODE whose bits lead to the leaf of a run that fits delivers the run: to the list of runs alone when
UNPACK_BITS was issued alone (assumption 6), which does not touch OUTCNT (R26); else to RLE_DEC as well. -/
def Obligations.CodeResult : Prop :=
  ∀ (path : List Bool) (r : Run) (s : State), s.tcur = [] → s.trie.at path = .leafRun r → s.dst.wf = true →
    s.delivered + Run.count r ≤ s.tiles.toNat * 64 →
    ∃ t, exec (.code path) s = .next t ∧
      (s.cmd = 0x61#8 → t = { s with runs := s.runs ++ [r] }) ∧
      (s.cmd ≠ 0x61#8 → Delivered s t [r] ∧
        t = { s with
              runs := s.runs ++ [r], outcnt := t.outcnt, dst := t.dst, dpos := t.dpos, lane := t.lane,
              lpos := t.lpos, hold := t.hold })

/-- R87, R198, R209: an ESC delivers the inline run in the same way (assumption 6). -/
def Obligations.EscResult : Prop :=
  ∀ (c : BitVec 3) (n : Nibble) (s : State), s.dst.wf = true → s.delivered + (c.toNat + 1) ≤ s.tiles.toNat * 64 →
    ∃ t, exec (.esc c n) s = .next t ∧
      (s.cmd = 0x61#8 → t = { s with tcur := [], runs := s.runs ++ [{ nib := n, cm1 := c }] }) ∧
      (s.cmd ≠ 0x61#8 → Delivered s t [{ nib := n, cm1 := c }] ∧
        t = { s with
              tcur := [], runs := s.runs ++ [{ nib := n, cm1 := c }], outcnt := t.outcnt, dst := t.dst,
              dpos := t.dpos, lane := t.lane, lpos := t.lpos, hold := t.hold })

/-- R201, R204: a run that would take the nibbles delivered past TILES x 64 raises OutputOverrun: nothing of it is emitted, and
the runs before it are discarded. That the other state the fault leaves dead (HOLD, LANE, OUTCNT, the trie: R236) stays as it
was, and TCUR stands at the root, is the model's choice, assumption 11; how UNPACK_BITS alone counts, assumption 6. -/
def Obligations.OverrunRaises : Prop :=
  (∀ (path : List Bool) (r : Run) (s : State), s.tcur = [] → s.trie.at path = .leafRun r →
    s.tiles.toNat * 64 < s.delivered + Run.count r →
    exec (.code path) s = .next
      { s with
        dst := Memory.blank, dpos := 0, dlen := 0, xsel := false, err := .outputOverrun, status := .fault,
        phase := .command, runs := [] }) ∧
  (∀ (c : BitVec 3) (n : Nibble) (s : State), s.tiles.toNat * 64 < s.delivered + (c.toNat + 1) →
    exec (.esc c n) s = .next
      { s with
        tcur := [], dst := Memory.blank, dpos := 0, dlen := 0, xsel := false, err := .outputOverrun,
        status := .fault, phase := .command, runs := [] })

/-- R197: a CODE with a bit that selects no child raises InvalidCode. That TCUR then stands where that bit was read is the
model's choice (assumption 8), and so is that the other state the fault leaves dead stays as it was (assumption 11). Bits that
are no codeword of the table (they stop at an inner node or at the escape leaf, or run past a leaf) are no CODE element of the
stream, and the model refuses them by name (assumption 8). -/
def Obligations.CodeWithoutLeaf : Prop :=
  ∀ (path : List Bool) (s : State), s.tcur = [] →
    (∀ p bit, p ++ [bit] <+: path → Node.isInner (s.trie.at p) = true → s.trie.at (p ++ [bit]) = .absent →
      exec (.code path) s = .next
        { s with
          tcur := p, dst := Memory.blank, dpos := 0, dlen := 0, xsel := false, err := .invalidCode,
          status := .fault, phase := .command, runs := [] }) ∧
    (Node.isInner (s.trie.at path) = true ∨ s.trie.at path = .leafEsc ∨
        (∃ p, p <+: path ∧ p ≠ path ∧ Node.isLeaf (s.trie.at p) = true) →
      exec (.code path) s = .refused .codeNotInTable)

/-- R88, R199, R220: once the expected output is complete no bit is read any more and the command ends DONE with DLEN the
bytes appended. That this end is the element PAD, from any state, and that UNPACK_BITS issued alone leaves XSEL while any other
command sets it to the header's flag, is the model's choice, assumption 16. -/
def Obligations.PadEndsCommand : Prop :=
  (∀ (n : BitVec 3) (s : State), exec (.pad n) s = .next
    { s with
      xsel := if s.cmd = 0x61#8 then s.xsel else s.xflag, status := .done, dlen := s.dpos, phase := .command }) ∧
  ∀ s : State, s.status = .busy → s.phase = .bits → s.tiles.toNat * 64 ≤ s.delivered →
    step s = .next
      { s with
        xsel := if s.cmd = 0x61#8 then s.xsel else s.xflag, status := .done, dlen := s.dpos, phase := .command }

/-! ## nibble_rle_encoder and nibble_rle_decoder -/

/-- R113, R114: from the start-of-command state (R40) RLE_ENC's runs expand to the nibbles of SRC, no two neighbours could be
one run, FREQ counts each run's positions and its sum is the number of runs; nothing else changes but STATUS and SP
(assumption 5). -/
def Obligations.RleEncResult : Prop :=
  ∀ s : State, ∃ t, exec .rleEnc s = .next t ∧
    runNibbles t.rleSrc = nibblesOf s.srcBytes ∧
    t.rleSrc.IsChain (fun a b => a.nib ≠ b.nib ∨ Run.count a = 8) ∧
    (∀ r, fileGet t.freq r = t.rleSrc.count r) ∧
    (allRuns.map (fileGet t.freq)).sum = t.rleSrc.length ∧
    t = { s.startAll 0x10#8 with status := .done, rleSrc := t.rleSrc, freq := t.freq, sp := s.argLen }

/-- R206 to R209: for runs that keep R209's precondition (all together at most TILES x 64 nibbles) RLE_DEC's bytes are the pairs
of the nibbles of the runs, through the accumulate rule when XFLAG = 1; an odd last nibble stays in HOLD. The runs, XFLAG and
TILES are its arguments (assumption 5). Runs that go past TILES x 64 are outside the precondition: the operation ends DONE and
what it comes to is the model's free value, nothing is said of it (assumption 10). -/
def Obligations.RleDecResult : Prop :=
  ∀ s : State, ∃ t, exec .rleDec s = .next t ∧
    (nibbleCount s.args.runs ≤ s.args.tiles.toNat * 64 → ∃ plain : List Byte,
      nibblesOf plain ++ t.hold.toList = runNibbles s.args.runs ∧
      t.dstBytes = (if s.args.xflag then xorStream .acc plain else plain) ∧
      t.dlen = plain.length ∧ t.outcnt = (runNibbles s.args.runs).length ∧ t.lpos = plain.length ∧
      t.lane = (if s.args.xflag then (xorPass .acc (Vector.replicate 4 0#8) 0 plain).2 else Vector.replicate 4 0#8)) ∧
    t = { s.startAll 0x70#8 with
          status := .done, runs := s.args.runs, xflag := s.args.xflag, tiles := s.args.tiles, dlen := t.dlen,
          dst := t.dst, dpos := t.dlen, hold := t.hold, outcnt := t.outcnt, lane := t.lane, lpos := t.lpos }

/-- R210: RLE_DEC of the runs of RLE_ENC gives the bytes back; with XFLAG 1, XOR_DEC of them. The bytes fit TILES x 32
(assumption 10). -/
def Obligations.RleRoundTrip : Prop :=
  ∀ (s : State) (bs : List Byte), s.args.runs = rleOf bs → bs.length ≤ s.args.tiles.toNat * 32 →
    ∃ t, exec .rleDec s = .next t ∧ t.status = .done ∧ t.hold = none ∧
      t.dstBytes = (if s.args.xflag then xorStream .acc bs else bs)

/-! ## huffman_length_limiter -/

/-- R125: MERGE is the two-way merge with the leaf first at equal weight; it keeps the coins and the weight order. -/
def Obligations.MergeRule : Prop :=
  (∀ ps, merge [] ps = ps) ∧ (∀ ls, merge ls [] = ls) ∧
  (∀ l ls p ps, merge (l :: ls) (p :: ps) =
    if Coin.weight l ≤ Coin.weight p then l :: merge ls (p :: ps) else p :: merge (l :: ls) ps) ∧
  (∀ ls ps, (merge ls ps).Perm (ls ++ ps)) ∧
  (∀ ls ps, ls.Pairwise (fun a b => Coin.weight a ≤ Coin.weight b) →
    ps.Pairwise (fun a b => Coin.weight a ≤ Coin.weight b) →
    (merge ls ps).Pairwise (fun a b => Coin.weight a ≤ Coin.weight b))

/-- R126: PACKAGE pairs from the cheap end: `len(C) div 2` packages, package `i` of the coins `2i` and `2i + 1`; so the leaves
are those of all coins but an odd last one, and the packages are in weight order when the coins are. -/
def Obligations.PackageRule : Prop :=
  ∀ cs : List Coin, (package cs).length = cs.length / 2 ∧
    (∀ i, i < cs.length / 2 → ∃ a b, cs[2 * i]? = some a ∧ cs[2 * i + 1]? = some b ∧
      (package cs)[i]? = some (.pkg a b)) ∧
    (package cs).flatMap Coin.leaves = (cs.take (2 * (cs.length / 2))).flatMap Coin.leaves ∧
    ((package cs).map Coin.weight).sum = ((cs.take (2 * (cs.length / 2))).map Coin.weight).sum ∧
    (cs.Pairwise (fun a b => Coin.weight a ≤ Coin.weight b) →
      (package cs).Pairwise (fun a b => Coin.weight a ≤ Coin.weight b))

/-- R128, R130: on a trial list in its stated domain PM_SOLVE writes LEN and nothing else of the working state: every run of
the trial has a length of 1 to 8, every other run 0, and the lengths satisfy Kraft's inequality. The trial list is its argument
(assumption 5). -/
def Obligations.PmSolveResult : Prop :=
  ∀ s : State, trialOk s.args.trial = true →
    ∃ t, exec .pmSolve s = .next t ∧
      (∀ l ∈ s.args.trial, 1 ≤ (fileGet t.len l.run).toNat ∧ (fileGet t.len l.run).toNat ≤ 8) ∧
      (∀ r, r ∉ s.args.trial.map Leaf.run → fileGet t.len r = 0#4) ∧
      (s.args.trial.map fun l => 2 ^ (8 - (fileGet t.len l.run).toNat)).sum ≤ 2 ^ 8 ∧
      t = { s.startAll 0x20#8 with status := .done, len := t.len }

/-- R128 corner case: two runs get length 1 each, whatever their weights. -/
def Obligations.PmSolveTwoRuns : Prop :=
  ∀ (s t : State) (a b : Leaf), trialOk [a, b] = true → s.args.trial = [a, b] →
    exec .pmSolve s = .next t → fileGet t.len a.run = 1#4 ∧ fileGet t.len b.run = 1#4

/-- R128, R269: PM_SOLVE ends DONE from every state and writes LEN alone over the start-of-command state. What LEN holds when the
trial list is outside the domain R128 states is the model's free value (assumption 7): nothing is said of it. -/
def Obligations.PmSolveAlwaysEnds : Prop :=
  ∀ s : State, ∃ t, exec .pmSolve s = .next t ∧ t = { s.startAll 0x20#8 with status := .done, len := t.len }

/-- R120: the lengths PM_SOLVE assigns minimise the sum of length times frequency among all length assignments with lengths
1 to 8 that satisfy Kraft's inequality (the theorem G1 names). -/
def Obligations.PmSolveOptimal : Prop :=
  ∀ (s t : State) (alt : Run → Nat), trialOk s.args.trial = true → exec .pmSolve s = .next t →
    (∀ l ∈ s.args.trial, 1 ≤ alt l.run ∧ alt l.run ≤ 8) →
    (s.args.trial.map fun l => 2 ^ (8 - alt l.run)).sum ≤ 2 ^ 8 →
    (s.args.trial.map fun l => (fileGet t.len l.run).toNat * l.weight).sum ≤
      (s.args.trial.map fun l => alt l.run * l.weight).sum

/-! ## canonical_code_generator -/

/-- R142: among the candidates of a length, the reserved ones are those whose bits begin the escape codeword or begin with
it. -/
def Obligations.ReservedMeetsEscape : Prop :=
  ∀ l, 1 ≤ l → l ≤ 8 → ∀ code, code < 2 ^ l →
    (reserved code l = true ↔ (bitsOf l code <+: escapePath ∨ escapePath <+: bitsOf l code))

/-- R17: for any LEN and FREQ the table CANON_GEN writes is prefix-free together with the escape codeword, every
codeword fits its length, only runs with a LEN get one, and none is shorter than its LEN. That CANON_GEN is defined for a LEN
of 9 to 15 at all is the model's choice (assumption 18). -/
def Obligations.CanonGenPrefixFree : Prop :=
  ∀ s : State, ∃ t, exec .canonGen s = .next t ∧ CodesOk t.code ∧
    (∀ r cw, fileGet t.code r = some cw →
      0 < (fileGet s.args.len r).toNat ∧ (fileGet s.args.len r).toNat ≤ cw.len.toNat)

/-- R141 to R145: which runs get a codeword, and which. In the strict order (LEN, FREQ, run) of the runs with a LEN, the first
gets the code 0 at its LEN; each next one the successor of the code before, shifted left once for each bit longer, at the first
length from its LEN and the length before on where that is not reserved (`CodeAfter`): it has none only when it was demoted out
of length 8, and then nor has any after it. A run of LEN 0 has none. That a run of LEN 9 to 15 has none, and that CANON_GEN is
defined for such a LEN at all, is the model's choice (assumption 18). So an earlier run's codeword is shorter, or of the same
length and smaller. CANON_GEN ends DONE and changes CODE alone; LEN and FREQ are its arguments (assumption 5). -/
def Obligations.CanonGenOrder : Prop :=
  ∀ s : State, ∃ (t : State) (order : List Run), exec .canonGen s = .next t ∧
    order.Pairwise (fun a b => canonBefore s.args.len s.args.freq a b = true) ∧
    (∀ r, r ∈ order ↔ 0 < (fileGet s.args.len r).toNat) ∧
    (∀ r, order.head? = some r → (fileGet s.args.len r).toNat ≤ 8 →
      fileGet t.code r = some { bits := 0#8, len := fileGet s.args.len r }) ∧
    (∀ i a b, order[i]? = some a → order[i + 1]? = some b →
      (∀ ca, fileGet t.code a = some ca → CodeAfter ca (fileGet s.args.len b).toNat (fileGet t.code b)) ∧
      (fileGet t.code a = none → fileGet t.code b = none)) ∧
    (∀ r, (fileGet s.args.len r).toNat = 0 ∨ 9 ≤ (fileGet s.args.len r).toNat → fileGet t.code r = none) ∧
    (∀ (a b : Run) (cb : Codeword), 0 < (fileGet s.args.len a).toNat →
      canonBefore s.args.len s.args.freq a b = true → fileGet t.code b = some cb →
      ∃ ca, fileGet t.code a = some ca ∧
        (ca.len.toNat < cb.len.toNat ∨ (ca.len = cb.len ∧ ca.bits.toNat < cb.bits.toNat))) ∧
    t = { s.startAll 0x30#8 with status := .done, len := s.args.len, freq := s.args.freq, code := t.code }

/-- R147: COST_EST's estimate: 24 bits, 16 for each entry, 8 for each nibble value present in the table, the codeword's length
for each occurrence of a coded run and 13 bits for each occurrence of any other, rounded up to whole bytes. CODE and FREQ are
its arguments (assumption 5). An entry of length 0 is no codeword (R22). That it counts codewords of length 9 to 15, outside
R22, by the same formula is the model's choice (assumption 18). -/
def Obligations.CostEstResult : Prop :=
  ∀ s : State, exec .costEst s = .next
    { s.startAll 0x31#8 with
      status := .done, code := s.args.code, freq := s.args.freq,
      est := (24 + 16 * (tableEntries s.args.code).length +
          8 * (((tableEntries s.args.code).map fun e => e.1.nib).dedup).length +
          (allRuns.map fun r =>
            (match codeAt s.args.code r with | some cw => cw.len.toNat | none => 13) * fileGet s.args.freq r).sum +
          7) / 8 * 8 }

/-- R148: the estimate is exact: 8 times the bytes PACK writes for the table and the runs FREQ was counted from. That it is so
for codewords of length 9 to 15, outside R22, too rests on the model's choice (assumption 18). -/
def Obligations.CostEstExact : Prop :=
  ∀ (s t : State) (x : Bool) (tiles : BitVec 15) (rs : List Run), s.args.freq = tally rs →
    exec .costEst s = .next t → t.est = 8 * (packBytes x tiles s.args.code rs).length

/-- R122, R149, R151: TRIAL_SEARCH keeps the table of the trial with the smallest estimate, the largest trial among equals, over
all sizes from all qualifying runs down to two; with fewer than two qualifying runs no table and +inf. FREQ is its argument
(assumption 5). -/
def Obligations.TrialSearchResult : Prop :=
  ∀ s : State, ∃ t, exec .trialSearch s = .next t ∧ t.qual = qualifying s.args.freq ∧
    ((qualifying s.args.freq).length < 2 →
      t.best = noCodes ∧ t.bestEst = none ∧ t.len = zeroLen ∧ t.code = noCodes) ∧
    (2 ≤ (qualifying s.args.freq).length → ∃ k, 2 ≤ k ∧ k ≤ (qualifying s.args.freq).length ∧
      t.best = trialTable s.args.freq k ∧ t.bestEst = some (costOf (trialTable s.args.freq k) s.args.freq) ∧
      ∀ u, 2 ≤ u → u ≤ (qualifying s.args.freq).length →
        costOf (trialTable s.args.freq k) s.args.freq ≤ costOf (trialTable s.args.freq u) s.args.freq ∧
        (k < u → costOf (trialTable s.args.freq k) s.args.freq < costOf (trialTable s.args.freq u) s.args.freq)) ∧
    t = { s.startAll 0x32#8 with
          status := .done, freq := s.args.freq, best := t.best, bestEst := t.bestEst, qual := t.qual,
          trialSize := t.trialSize, len := t.len, code := t.code, est := t.est }

/-- R121: QUAL holds exactly the runs of frequency 2 or more with their frequencies, in strict (weight, run) order. -/
def Obligations.QualifyingLeaves : Prop :=
  ∀ freq : RunFile Nat,
    (∀ l : Leaf, l ∈ qualifying freq ↔ l.weight = fileGet freq l.run ∧ 2 ≤ l.weight) ∧
    (qualifying freq).Pairwise (fun a b => leafBefore a b = true) ∧
    ∀ t, 2 ≤ t → t ≤ (qualifying freq).length → trialOk (trialLeaves (qualifying freq) t) = true

/-- R19, R150: the search can keep a table that costs more than escaping every run. -/
def Obligations.SearchCanExceedAllEscape : Prop :=
  ∃ (s t : State) (rs : List Run) (e : Nat), s.args.freq = tally rs ∧ exec .trialSearch s = .next t ∧
    t.bestEst = some e ∧ (24 + 13 * rs.length + 7) / 8 * 8 < e

/-! ## xor_interleave_transform -/

/-- R162, R164: XOR_ENC writes each byte XORed with the byte four positions before it, the first four as they are; the lanes
keep the last byte of each. That the bytes are SRC, and DST holds the result beside XBUF, is assumption 5. -/
def Obligations.XorEncResult : Prop :=
  ∀ s : State, ∃ t, exec .xorEnc s = .next t ∧ t.xbuf.length = s.argLen ∧ t.dstBytes = t.xbuf ∧
    (∀ i, i < s.argLen → t.xbuf[i]? = some (if i < 4 then s.src.read i else s.src.read i ^^^ s.src.read (i - 4))) ∧
    (∀ j : Fin 4, ∀ i, i < s.argLen → s.argLen ≤ i + 4 → i % 4 = j.val → t.lane[j] = s.src.read i) ∧
    t = { s.startAll 0x40#8 with
          status := .done, dlen := s.argLen, dst := t.dst, dpos := s.argLen, xbuf := t.xbuf, lane := t.lane,
          lpos := s.argLen, sp := s.argLen }

/-- R163, R165: XOR_DEC writes each byte XORed with the byte it wrote four positions before, the first four as they are; the
lanes keep the last byte written of each. That the bytes are SRC and the result stands in DST is assumption 5. -/
def Obligations.XorDecResult : Prop :=
  ∀ s : State, ∃ t, exec .xorDec s = .next t ∧
    (∀ i, i < s.argLen →
      t.dst.read i = if i < 4 then s.src.read i else s.src.read i ^^^ t.dst.read (i - 4)) ∧
    t.dst = Memory.blank.storeBytes 0 t.dstBytes ∧
    (∀ j : Fin 4, ∀ i, i < s.argLen → s.argLen ≤ i + 4 → i % 4 = j.val → t.lane[j] = t.dst.read i) ∧
    t = { s.startAll 0x41#8 with
          status := .done, dlen := s.argLen, dst := t.dst, dpos := s.argLen, lane := t.lane, lpos := s.argLen,
          sp := s.argLen }

/-- R166: the two lane rules are inverse to each other on sequences of any length, from any lanes and position. -/
def Obligations.LaneRulesInverse : Prop :=
  ∀ (rule : LaneRule) (lanes : Vector Byte 4) (pos : Nat) (bs : List Byte),
    (xorPass (LaneRule.inverse rule) lanes pos (xorPass rule lanes pos bs).1).1 = bs ∧
    (xorPass (LaneRule.inverse rule) lanes pos (xorPass rule lanes pos bs).1).2 = (xorPass rule lanes pos bs).2

/-! ## huffman_bitstream_packer -/

/-- R171 to R175: PACK writes the header big-endian, the table in ascending run order, the terminator, and the runs' bits
completed to a byte with zeros. XFLAG, TILES, BEST and RLESRC are its arguments (assumption 5). An entry of BEST with length 0
is no codeword, its run is sent by escape (R22). That entries with a length of 9 to 15, outside R22, are written and sent in the
same way is the model's choice (assumption 18). -/
def Obligations.PackResult : Prop :=
  ∀ s : State, ∃ (t : State) (body : List Byte) (pad : Nat), exec .pack s = .next t ∧
    t.dstBytes =
      [BitVec.ofNat 8 ((s.args.xflag.toNat * 32768 + s.args.tiles.toNat) / 256),
        BitVec.ofNat 8 ((s.args.xflag.toNat * 32768 + s.args.tiles.toNat) % 256)] ++
      tableBytes none (tableEntries s.args.best) ++ [0xFF#8] ++ body ∧
    byteBits body = s.args.rleSrc.flatMap (runBits s.args.best) ++ List.replicate pad false ∧ pad < 8 ∧
    t = { s.startAll 0x50#8 with
          status := .done, xflag := s.args.xflag, tiles := s.args.tiles, best := s.args.best,
          rleSrc := s.args.rleSrc, dlen := t.dstBytes.length, dst := t.dst, dpos := t.dstBytes.length,
          lastNib := t.lastNib }

/-! ## huffman_bitstream_unpacker -/

/-- R176, R194: from the header and table PACK writes for a table with the invariant of R25, UNPACK_TABLE sets XFLAG and TILES,
builds the trie that holds exactly the table's codewords and the escape leaf, and leaves SP at the bitstream; nothing else
changes from the start-of-command state but STATUS and CTX. -/
def Obligations.UnpackTableResult : Prop :=
  ∀ (s : State) (x : Bool) (tiles : BitVec 15) (f : RunFile (Option Codeword)) (rest : List Byte),
    CodesOk f → s.srcBytes = (packTable x tiles f).1.out ++ rest →
    ∃ t, exec .unpackTable s = .next t ∧
      (∀ path r, t.trie.at path = .leafRun r ↔ ∃ cw, fileGet f r = some cw ∧ Codeword.path cw = path) ∧
      (∀ path, t.trie.at path = .leafEsc ↔ path = escapePath) ∧
      t = { s.startAll 0x60#8 with
            status := .done, xflag := x, tiles := tiles, trie := t.trie, ctx := t.ctx,
            sp := (packTable x tiles f).1.out.length }

/-- R198: where the bits of SRC from SP on are the codewords and escapes of runs that sum to the expected output, UNPACK_BITS
delivers those runs and stops at the bit after them. SP, TRIE and TILES are its arguments (assumption 5); that it lists the
runs is assumption 6; that a TRIE with codewords of more than 8 bits is walked in the same way, assumption 18. -/
def Obligations.UnpackBitsResult : Prop :=
  ∀ (s : State) (es : List (Run × List Bool)) (rest : List Bool),
    (∀ e ∈ es, (e.2 ≠ [] ∧ s.args.trie.at e.2 = .leafRun e.1) ∨
      (s.args.trie.at escapePath = .leafEsc ∧ e.2 = encode (.esc e.1.cm1 e.1.nib))) →
    byteBits (s.src.readBytes s.args.sp (s.argLen - s.args.sp)) = es.flatMap Prod.snd ++ rest →
    (es.map fun e => Run.count e.1).sum = s.args.tiles.toNat * 64 →
    ∃ t, exec .unpackBits s = .next t ∧ t.reader.unread = rest ∧
      t = { s.startAll 0x61#8 with
            status := .done, trie := s.args.trie, tiles := s.args.tiles, runs := es.map Prod.fst,
            sp := t.sp, brCur := t.brCur, brLeft := t.brLeft }

/-! ## codec_selection_engine -/

/-- R215, R239 (b): a length that is not a multiple of 32, or above 32767 tiles, is refused: FAULT, CMD_REFUSED, no output,
no pass run: the start of the command (R40) is all that happened. -/
def Obligations.BadLengthRefused : Prop :=
  ∀ s : State, (s.argLen % 32 ≠ 0 ∨ 32767 < s.argLen / 32) →
    exec .encode s = .next { s.startAll 0x01#8 with status := .fault, err := .cmdRefused } ∧
    exec .encodeOne s = .next { s.startAll 0x03#8 with status := .fault, err := .cmdRefused }

/-- R218: ENCODE_ONE on an accepted length writes the candidate of one pass, with the flag in the header. That the bytes are
SRC, the flag its argument, and the candidate stands in DST and in CAND0 or CAND1 is the model's choice (assumption 5). -/
def Obligations.EncodeOneResult : Prop :=
  ∀ s : State, s.argLen % 32 = 0 → s.argLen / 32 ≤ 32767 →
    ∃ t, exec .encodeOne s = .next t ∧ t.status = .done ∧ t.err = .none ∧ t.xsel = false ∧
      t.dstBytes = passBytes s.srcBytes s.args.xflag ∧ t.dlen = (passBytes s.srcBytes s.args.xflag).length ∧
      t.cand0 = (if s.args.xflag then [] else passBytes s.srcBytes s.args.xflag) ∧
      t.cand1 = (if s.args.xflag then passBytes s.srcBytes s.args.xflag else []) ∧
      t.xflag = s.args.xflag ∧ t.tiles.toNat = s.argLen / 32 ∧ t.rleSrc = rleOf s.srcBytes ∧
      t.freq = tally (rleOf s.srcBytes) ∧ t.best = searchBest (tally (rleOf s.srcBytes)) ∧
      (∀ e, t.bestEst = some e → e = 8 * t.dlen) ∧ t.src = s.src ∧ t.argLen = s.argLen

/-- R216, R217: ENCODE runs the plain pass and the pass on the transformed view, keeps the transformed candidate when it is
strictly smaller, else the plain one, and records the choice in XSEL. No content of SRC makes it fault. -/
def Obligations.EncodeResult : Prop :=
  ∀ s : State, s.argLen % 32 = 0 → s.argLen / 32 ≤ 32767 →
    ∃ t, exec .encode s = .next t ∧ t.status = .done ∧ t.err = .none ∧
      t.cand0 = passBytes s.srcBytes false ∧ t.xbuf = xorStream .diff s.srcBytes ∧
      t.cand1 = passBytes t.xbuf true ∧
      (if t.cand1.length < t.cand0.length then t.dstBytes = t.cand1 ∧ t.xsel = true
        else t.dstBytes = t.cand0 ∧ t.xsel = false) ∧
      t.dlen = t.dstBytes.length ∧ t.src = s.src ∧ t.argLen = s.argLen

/-- R176, R220: from a stream PACK writes for a table with the invariant of R25 and runs that sum to the expected output, with
anything after it, DECODE ends DONE with the runs' bytes, through the inverse transform when flagged. -/
def Obligations.DecodeOfPacked : Prop :=
  ∀ (s : State) (x : Bool) (tiles : BitVec 15) (f : RunFile (Option Codeword)) (rs : List Run) (rest : List Byte),
    CodesOk f → (runNibbles rs).length = tiles.toNat * 64 → s.srcBytes = packBytes x tiles f rs ++ rest →
    ∃ (t : State) (plain : List Byte), exec .decode s = .next t ∧ nibblesOf plain = runNibbles rs ∧
      t.dstBytes = (if x then xorStream .acc plain else plain) ∧ t.status = .done ∧ t.err = .none ∧
      t.xsel = x ∧ t.dlen = tiles.toNat * 32 ∧ t.sp = (packBytes x tiles f rs).length ∧ t.src = s.src ∧
      t.argLen = s.argLen

/-- R211, R220, R236, R269: DECODE of any SRC ends: DONE with TILES x 32 bytes and XSEL the header's flag, or FAULT with one
of the four decode errors and no output. -/
def Obligations.DecodeOutcome : Prop :=
  ∀ s : State, ∃ t, exec .decode s = .next t ∧ t.src = s.src ∧ t.argLen = s.argLen ∧
    ((t.status = .done ∧ t.err = .none ∧ t.dlen = t.tiles.toNat * 32 ∧ t.dpos = t.dlen ∧ t.xsel = t.xflag ∧
        t.hold = none) ∨
      (t.status = .fault ∧
        (t.err = .malformedHeader ∨ t.err = .invalidCode ∨ t.err = .ioFailure ∨ t.err = .outputOverrun) ∧
        t.dlen = 0 ∧ t.dst = Memory.blank ∧ t.xsel = false))

/-- R269: every command ends in DONE or FAULT, from every state. -/
def Obligations.EveryCommandEnds : Prop :=
  ∀ (i : Instr) (s : State), regionOf i = .command → ∃ t, exec i s = .next t ∧ t.ended

/-- R3, R185, R220: DECODE as one instruction is the run of the machine's own steps, element by element, from DECODE's start
state. -/
def Obligations.DecodeIsStepwiseRun : Prop :=
  ∀ s : State, exec .decode s = Sys2Proof.core.run s.decodeStart.elementBound s.decodeStart

/-- R185, R220: DECODE gives what UNPACK_TABLE, UNPACK_BITS and RLE_DEC give one after another, output and fault alike, each
handed what the one before wrote (`handOver`; assumption 5). -/
def Obligations.DecodeIsTheThreeUnits : Prop :=
  ∀ s t₁ : State, exec .unpackTable s = .next t₁ →
    (t₁.status = .fault → ∃ t, exec .decode s = .next t ∧ t.status = .fault ∧ t.err = t₁.err) ∧
    ∀ t₂, t₁.status = .done → exec .unpackBits t₁.handOver = .next t₂ →
      (t₂.status = .fault → ∃ t, exec .decode s = .next t ∧ t.status = .fault ∧ t.err = t₂.err) ∧
      ∀ t₃, t₂.status = .done → exec .rleDec t₂.handOver = .next t₃ →
        ∃ t, exec .decode s = .next t ∧ t.status = .done ∧ t.dstBytes = t₃.dstBytes ∧ t.xsel = t₁.xflag ∧
          t.sp = t₂.sp

/-- R199: a stream that decodes, decodes the same whatever bytes follow it. -/
def Obligations.TrailingBytesIgnored : Prop :=
  ∀ (s s' t : State) (extra : List Byte), exec .decode s = .next t → t.status = .done →
    s'.srcBytes = s.srcBytes ++ extra →
    ∃ t', exec .decode s' = .next t' ∧ t'.status = .done ∧ t'.dstBytes = t.dstBytes ∧ t'.xsel = t.xsel ∧ t'.sp = t.sp

/-- R16, R221: DECODE of what ENCODE wrote gives back the input, for every input ENCODE accepts. -/
def Obligations.EncodeDecodeRoundTrip : Prop :=
  ∀ s t s' : State, s.argLen % 32 = 0 → s.argLen / 32 ≤ 32767 → exec .encode s = .next t →
    s'.srcBytes = t.dstBytes →
    ∃ u, exec .decode s' = .next u ∧ u.status = .done ∧ u.dstBytes = s.srcBytes ∧ u.xsel = t.xsel

/-- R20, R222, R240, R260: "Nothing a command leaves behind may influence the next command": what the host sees of ENCODE and of
DECODE depends on SRC's valid bytes alone, and what it sees of any command on those and the command's arguments
(assumption 5). -/
def Obligations.ResultsDependOnInputOnly : Prop :=
  ∀ s s' : State, s.srcBytes = s'.srcBytes →
    (∀ t t', exec .encode s = .next t → exec .encode s' = .next t' → t.hostView = t'.hostView) ∧
    (∀ t t', exec .decode s = .next t → exec .decode s' = .next t' → t.hostView = t'.hostView) ∧
    (s.args = s'.args → ∀ i, regionOf i = .command →
      ∀ t t', exec i s = .next t → exec i s' = .next t' → t.hostView = t'.hostView)
end

