-- ==== Sys2Proof/Laws/Bits.lean ====
section
/-! SUPPORT. The laws of bit strings, of the bit reader (R62, R63) and of the bit writer (R64, R65): what each primitive
does, said once. -/

namespace Sys2Proof

/-! ## Bit strings -/

@[simp] theorem bitsOf_length (n v : Nat) : (bitsOf n v).length = n := by
  induction n with
  | zero => rfl
  | succ n ih => simp [bitsOf, ih]

theorem bitsValue_from (bs : List Bool) (v : Nat) :
    bs.foldl (fun v b => 2 * v + b.toNat) v = v * 2 ^ bs.length + bitsValue bs := by
  unfold bitsValue
  induction bs generalizing v with
  | nil => simp
  | cons b bs ih =>
    simp only [List.foldl_cons, List.length_cons]
    rw [ih, ih (2 * 0 + b.toNat), Nat.pow_succ]
    ring

theorem bitsValue_cons (b : Bool) (bs : List Bool) : bitsValue (b :: bs) = b.toNat * 2 ^ bs.length + bitsValue bs := by
  have := bitsValue_from bs b.toNat
  simpa [bitsValue] using this

theorem bitsValue_append (xs ys : List Bool) : bitsValue (xs ++ ys) = bitsValue xs * 2 ^ ys.length + bitsValue ys := by
  have := bitsValue_from ys (bitsValue xs)
  rw [← this]
  simp [bitsValue, List.foldl_append]

theorem bitsValue_lt (bs : List Bool) : bitsValue bs < 2 ^ bs.length := by
  induction bs with
  | nil => simp [bitsValue]
  | cons b bs ih =>
    rw [bitsValue_cons, List.length_cons, Nat.pow_succ]
    have : b.toNat ≤ 1 := Bool.toNat_le b
    nlinarith [Nat.mul_le_mul_right (2 ^ bs.length) this]

theorem bitsValue_bitsOf (n v : Nat) : bitsValue (bitsOf n v) = v % 2 ^ n := by
  induction n with
  | zero => simp [bitsOf, bitsValue, Nat.mod_one]
  | succ n ih =>
    rw [bitsOf, bitsValue_cons, ih, bitsOf_length, Nat.pow_succ, Nat.mod_mul, Nat.toNat_testBit]
    ring

theorem bitsOf_congr {n v w : Nat} (h : v % 2 ^ n = w % 2 ^ n) : bitsOf n v = bitsOf n w := by
  induction n with
  | zero => rfl
  | succ n ih =>
    simp only [bitsOf]
    have h1 : v % 2 ^ n = w % 2 ^ n := by
      have := congrArg (· % 2 ^ n) h
      simpa [Nat.pow_succ, Nat.mod_mul_right_mod] using this
    have h2 : v.testBit n = w.testBit n := by
      have := congrArg (fun x => x.testBit n) h
      simpa [Nat.testBit_mod_two_pow] using this
    rw [ih h1, h2]

theorem bitsOf_bitsValue (bs : List Bool) : bitsOf bs.length (bitsValue bs) = bs := by
  induction bs with
  | nil => rfl
  | cons b bs ih =>
    have hlt := bitsValue_lt bs
    simp only [List.length_cons, bitsOf]
    rw [bitsValue_cons]
    congr 1
    · rw [Nat.mul_comm, Nat.testBit_two_pow_mul_add _ hlt]
      cases b <;> simp
    · rw [bitsOf_congr (w := bitsValue bs), ih]
      simp

theorem bitsOf_eq_of_lt {n v w : Nat} (hv : v < 2 ^ n) (hw : w < 2 ^ n) (h : bitsOf n v = bitsOf n w) : v = w := by
  have := congrArg bitsValue h
  rwa [bitsValue_bitsOf, bitsValue_bitsOf, Nat.mod_eq_of_lt hv, Nat.mod_eq_of_lt hw] at this

theorem bitsOf_add (n k v : Nat) : bitsOf (n + k) v = bitsOf n (v / 2 ^ k) ++ bitsOf k v := by
  induction n with
  | zero => simp [bitsOf]
  | succ n ih =>
    rw [show n + 1 + k = (n + k) + 1 by omega]
    simp only [bitsOf, List.cons_append, ih]
    congr 1
    rw [Nat.testBit_div_two_pow]

/-! ## The bit reader -/

/-- `ReadBits(1)` gives the first unread bit (R62). -/
theorem Reader.readBit_some {rd rd' : Reader} {b : Bool} (h : rd.readBit = some (b, rd')) :
    rd.unread = b :: rd'.unread ∧ (rd.nleft ≤ 8 → rd'.nleft ≤ 7) := by
  obtain ⟨bytes, cur, nleft, taken⟩ := rd
  cases nleft with
  | succ n =>
    simp only [Reader.readBit, Option.some.injEq, Prod.mk.injEq] at h
    obtain ⟨rfl, rfl⟩ := h
    refine ⟨?_, fun h => by simp only at h ⊢; omega⟩
    simp only [Reader.unread, bitsOf, List.cons_append]
    rfl
  | zero =>
    cases bytes with
    | nil => simp [Reader.readBit, Reader.read1] at h
    | cons x xs =>
      simp only [Reader.readBit, Reader.read1, Option.some.injEq, Prod.mk.injEq] at h
      obtain ⟨rfl, rfl⟩ := h
      refine ⟨?_, fun _ => by simp⟩
      simp only [Reader.unread, List.flatMap_cons]
      rfl

/-- `ReadBits(1)` meets the end of SRC exactly when no bit is left (R60, R62). -/
theorem Reader.readBit_none {rd : Reader} : rd.readBit = none ↔ rd.unread = [] := by
  obtain ⟨bytes, cur, nleft, taken⟩ := rd
  cases nleft with
  | succ n => simp [Reader.readBit, Reader.unread, bitsOf]
  | zero =>
    cases bytes with
    | nil => simp [Reader.readBit, Reader.read1, Reader.unread, bitsOf]
    | cons x xs => simp [Reader.readBit, Reader.read1, Reader.unread, bitsOf]

/-- With a bit left, `ReadBits(1)` answers it. -/
theorem Reader.readBit_of_unread {rd : Reader} {b : Bool} {bs : List Bool} (h : rd.unread = b :: bs) :
    ∃ rd', rd.readBit = some (b, rd') ∧ rd'.unread = bs ∧ (rd.nleft ≤ 8 → rd'.nleft ≤ 7) := by
  cases hr : rd.readBit with
  | none => rw [Reader.readBit_none.1 hr] at h; cases h
  | some p =>
    obtain ⟨b', rd'⟩ := p
    have hs := Reader.readBit_some hr
    rw [hs.1] at h
    injection h with h1 h2
    exact ⟨rd', by rw [h1], h2, hs.2⟩

/-- `ReadBits(n)` gives the next `n` bits as a number, first bit most significant (R63). -/
theorem Reader.readBits_of_unread {n : Nat} {rd : Reader} {xs ys : List Bool} (v : Nat) (hx : xs.length = n)
    (h : rd.unread = xs ++ ys) :
    ∃ rd', Reader.readBits n v rd = some (v * 2 ^ n + bitsValue xs, rd') ∧ rd'.unread = ys ∧
      (rd.nleft ≤ 7 → rd'.nleft ≤ 7) := by
  induction n generalizing rd xs v with
  | zero =>
    have : xs = [] := List.length_eq_zero_iff.1 hx
    subst this
    exact ⟨rd, by simp [Reader.readBits, bitsValue], by simpa using h, id⟩
  | succ n ih =>
    cases xs with
    | nil => simp at hx
    | cons x xs =>
      obtain ⟨rd1, h1, h2, h3⟩ := Reader.readBit_of_unread (by simpa using h)
      obtain ⟨rd2, h4, h5, h6⟩ := ih (2 * v + x.toNat) (by simpa using hx) h2
      have hlen : xs.length = n := by simpa using hx
      refine ⟨rd2, ?_, h5, fun hl => h6 (h3 (by omega))⟩
      rw [Reader.readBits, h1]
      simp only [h4]
      rw [bitsValue_cons, hlen, Nat.pow_succ]
      congr 2
      ring

/-- `Read1` gives the next byte when the bit reader holds nothing (R60). -/
theorem Reader.unread_cons {b : Byte} {bs : List Byte} {cur : Byte} {taken : Nat} :
    (Reader.mk (b :: bs) cur 0 taken).unread = bitsOf 8 b.toNat ++ (Reader.mk bs cur 0 (taken + 1)).unread := by
  simp [Reader.unread, bitsOf]

namespace Machine

/-! ## The bit writer -/

/-- What a sink has been given: the bytes appended and the pending bits (R28). -/
def Sink.bits (k : Sink) : List Bool := byteBits k.out ++ bitsOf k.nbits k.acc.toNat

/-- Fewer than 8 bits are pending and the accumulator holds nothing else. -/
def Sink.Ok (k : Sink) : Prop := k.nbits ≤ 7 ∧ k.acc.toNat < 2 ^ k.nbits

theorem Sink.start_ok : Sink.start.Ok := ⟨by decide, by decide⟩

theorem byteBits_append (xs ys : List Byte) : byteBits (xs ++ ys) = byteBits xs ++ byteBits ys := by
  simp [byteBits]

theorem byteBits_length (bs : List Byte) : (byteBits bs).length = 8 * bs.length := by
  induction bs with
  | nil => rfl
  | cons b bs ih =>
    rw [show b :: bs = [b] ++ bs from rfl, byteBits_append, List.length_append, ih]
    simp [byteBits]
    omega

theorem bitsOf_snoc (n v : Nat) (b : Bool) : bitsOf (n + 1) (v * 2 + b.toNat) = bitsOf n v ++ [b] := by
  rw [bitsOf_add n 1]
  have h : (v * 2 + b.toNat) / 2 ^ 1 = v := by have := Bool.toNat_lt b; omega
  rw [h]
  congr 1
  cases b <;> simp [bitsOf]

/-- One bit written is one bit more (R64). -/
theorem Sink.writeBit_bits {k : Sink} (h : k.Ok) (b : Bool) : (k.writeBit b).bits = k.bits ++ [b] ∧ (k.writeBit b).Ok := by
  obtain ⟨out, acc, nbits⟩ := k
  obtain ⟨h1, h2⟩ := h
  simp only at h1 h2
  have hb := Bool.toNat_le b
  have hp : 2 ^ (nbits + 1) = 2 * 2 ^ nbits := by rw [Nat.pow_succ]; ring
  have hle : 2 ^ (nbits + 1) ≤ 2 ^ 8 := Nat.pow_le_pow_right (by omega) (by omega)
  have hacc : (BitVec.ofNat 8 (acc.toNat * 2 + b.toNat)).toNat = acc.toNat * 2 + b.toNat := by
    rw [BitVec.toNat_ofNat]; exact Nat.mod_eq_of_lt (by omega)
  unfold Sink.writeBit
  simp only
  split
  · rename_i h8
    refine ⟨?_, by constructor <;> simp⟩
    simp only [Sink.bits, Sink.write1, byteBits_append, bitsOf, List.append_nil, List.append_assoc]
    congr 1
    simp only [byteBits, List.flatMap_cons, List.flatMap_nil, List.append_nil, hacc]
    have e := bitsOf_snoc nbits acc.toNat b
    rwa [h8] at e
  · refine ⟨?_, ?_⟩
    · simp only [Sink.bits, hacc, List.append_assoc, bitsOf_snoc]
    · constructor
      · simp only; omega
      · simp only [hacc]; omega

/-- `WriteBits(v, n)` appends the `n` low bits of `v`, most significant first (R64). -/
theorem Sink.writeBits_bits {k : Sink} (h : k.Ok) (v n : Nat) :
    (k.writeBits v n).bits = k.bits ++ bitsOf n v ∧ (k.writeBits v n).Ok := by
  unfold Sink.writeBits
  generalize bitsOf n v = bs
  induction bs generalizing k with
  | nil => exact ⟨by simp, h⟩
  | cons b bs ih =>
    obtain ⟨h1, h2⟩ := Sink.writeBit_bits h b
    obtain ⟨h3, h4⟩ := ih h2
    exact ⟨by rw [List.foldl_cons, h3, h1]; simp, h4⟩

/-- `Write1` on an empty bit writer appends the byte's bits (R61). -/
theorem Sink.write1_bits {k : Sink} (h : k.nbits = 0) (v : Byte) : (k.write1 v).bits = k.bits ++ bitsOf 8 v.toNat := by
  obtain ⟨out, acc, nbits⟩ := k
  simp only at h
  subst h
  simp [Sink.bits, Sink.write1, byteBits, bitsOf]

theorem bitsOf_shift (n k v : Nat) : bitsOf (n + k) (v * 2 ^ k) = bitsOf n v ++ List.replicate k false := by
  induction k generalizing v with
  | zero => simp
  | succ k ih =>
    have e : v * 2 ^ (k + 1) = (v * 2 ^ k) * 2 + Bool.toNat false := by simp [Nat.pow_succ]; ring
    rw [← Nat.add_assoc, e, bitsOf_snoc, ih, List.append_assoc, List.replicate_succ', ]

/-- `Flush()` completes the last byte with zeros and leaves the bit writer empty (R65). -/
theorem Sink.flush_bits {k : Sink} (h : k.Ok) :
    k.flush.nbits = 0 ∧ byteBits k.flush.out = k.bits ++ List.replicate ((8 - k.nbits) % 8) false := by
  obtain ⟨out, acc, nbits⟩ := k
  obtain ⟨h1, h2⟩ := h
  simp only at h1 h2
  unfold Sink.flush
  by_cases h0 : nbits = 0
  · subst h0
    simp [Sink.bits, bitsOf]
  · simp only [h0, if_false, Sink.write1, byteBits_append, Sink.bits, List.append_assoc, true_and]
    congr 1
    have hlt : acc.toNat * 2 ^ (8 - nbits) < 2 ^ 8 := by
      calc acc.toNat * 2 ^ (8 - nbits) < 2 ^ nbits * 2 ^ (8 - nbits) :=
            Nat.mul_lt_mul_of_pos_right h2 (Nat.two_pow_pos _)
        _ = 2 ^ 8 := by rw [← Nat.pow_add]; congr 1; omega
    simp only [byteBits, List.flatMap_cons, List.flatMap_nil, List.append_nil, BitVec.toNat_ofNat, Nat.mod_eq_of_lt hlt]
    have e := bitsOf_shift nbits (8 - nbits) acc.toNat
    rw [show nbits + (8 - nbits) = 8 by omega] at e
    rw [e, Nat.mod_eq_of_lt (by omega)]

end Machine
end Sys2Proof
end

