-- ==== Sys2Proof/Laws/Memory.lean ====
section
/-! SUPPORT. The laws of memory: a read after a write, the canonical form kept by every operation, and a stored sequence
read back. -/

namespace Sys2Proof.Machine

theorem cellsWf_mono {low low' : Nat} {cells : List Host.Cell} (h : cellsWf low cells = true) (hl : low' ≤ low) :
    cellsWf low' cells = true := by
  cases cells with
  | nil => rfl
  | cons c rest =>
    obtain ⟨x, v⟩ := c
    simp only [cellsWf, Bool.and_eq_true, decide_eq_true_eq] at h ⊢
    exact ⟨⟨by omega, h.1.2⟩, h.2⟩

/-- Below the first address of a canonical list nothing is listed. -/
theorem readCells_below {low a : Nat} {cells : List Host.Cell} (h : cellsWf low cells = true) (ha : a < low) :
    readCells cells a = Config.unlistedByte := by
  induction cells generalizing low with
  | nil => rfl
  | cons c rest ih =>
    obtain ⟨x, v⟩ := c
    simp only [cellsWf, Bool.and_eq_true, decide_eq_true_eq] at h
    simp only [readCells]
    rw [if_neg (by omega)]
    exact ih h.2 (by omega)

/-- The canonical form is kept by a write. -/
theorem cellsWf_writeCells {low a : Nat} {b : Byte} {cells : List Host.Cell} (h : cellsWf low cells = true)
    (ha : low ≤ a) : cellsWf low (writeCells cells a b) = true := by
  induction cells generalizing low with
  | nil =>
    by_cases hb : b = Config.unlistedByte <;> simp [writeCells, cellsWf, hb, ha]
  | cons c rest ih =>
    obtain ⟨x, v⟩ := c
    have hc := h
    simp only [cellsWf, Bool.and_eq_true, decide_eq_true_eq] at h
    simp only [writeCells]
    split
    · split
      · exact hc
      · rename_i hlt hb
        simp only [cellsWf, Bool.and_eq_true, decide_eq_true_eq]
        refine ⟨⟨ha, by simp [hb]⟩, ⟨by omega, h.1.2⟩, h.2⟩
    · split
      · split
        · exact cellsWf_mono h.2 (by omega)
        · rename_i hlt hax hb
          simp only [cellsWf, Bool.and_eq_true, decide_eq_true_eq]
          exact ⟨⟨ha, by simp [hb]⟩, cellsWf_mono h.2 (by omega)⟩
      · simp only [cellsWf, Bool.and_eq_true, decide_eq_true_eq]
        exact ⟨h.1, ih h.2 (by omega)⟩

/-- A read after a write: the written byte at its address, every other address as before. -/
theorem readCells_writeCells {low a : Nat} {b : Byte} {cells : List Host.Cell} (h : cellsWf low cells = true) (x : Nat) :
    readCells (writeCells cells a b) x = if x = a then b else readCells cells x := by
  induction cells generalizing low with
  | nil =>
    by_cases hb : b = Config.unlistedByte
    · simp [writeCells, readCells, hb]
    · simp only [writeCells, hb, if_false, readCells]
      by_cases hx : x = a
      · simp [hx]
      · simp [hx, Ne.symm hx]
  | cons c rest ih =>
    obtain ⟨y, v⟩ := c
    have hc := h
    simp only [cellsWf, Bool.and_eq_true, decide_eq_true_eq] at h
    simp only [writeCells]
    split
    · rename_i hlt
      split
      · rename_i hb
        by_cases hx : x = a
        · subst hx
          rw [if_pos rfl, readCells_below (low := x + 1) (cellsWf_mono (low := y) (by
            simp only [cellsWf, Bool.and_eq_true, decide_eq_true_eq]; exact ⟨⟨le_refl _, h.1.2⟩, h.2⟩) (by omega)) (by omega), hb]
        · rw [if_neg hx]
      · by_cases hx : x = a
        · simp [readCells, hx]
        · simp [readCells, hx, Ne.symm hx]
    · split
      · rename_i hlt hax
        subst hax
        split
        · rename_i hb
          by_cases hx : x = a
          · subst hx
            rw [if_pos rfl, readCells_below h.2 (by omega), hb]
          · simp [readCells, hx, Ne.symm hx]
        · by_cases hx : x = a
          · simp [readCells, hx]
          · simp [readCells, hx, Ne.symm hx]
      · rename_i hlt hax
        simp only [readCells]
        by_cases hx : x = a
        · subst hx
          rw [if_neg (by omega), ih h.2, if_pos rfl, if_pos rfl]
        · rw [if_neg hx, ih h.2, if_neg hx]

theorem blank_wf : Memory.blank.wf = true := rfl

@[simp] theorem blank_read (a : Nat) : Memory.blank.read a = Config.unlistedByte := rfl

theorem write_wf {m : Memory} (h : m.wf = true) (a : Nat) (b : Byte) : (m.write a b).wf = true :=
  cellsWf_writeCells h (Nat.zero_le a)

theorem read_write {m : Memory} (h : m.wf = true) (a x : Nat) (b : Byte) :
    (m.write a b).read x = if x = a then b else m.read x :=
  readCells_writeCells h x

theorem storeBytes_wf {m : Memory} (h : m.wf = true) (a : Nat) (bs : List Byte) : (m.storeBytes a bs).wf = true := by
  induction bs generalizing m a with
  | nil => exact h
  | cons b bs ih => exact ih (write_wf h a b) (a + 1)

/-- Every address outside a stored sequence reads as before; inside, the sequence. -/
theorem read_storeBytes {m : Memory} (h : m.wf = true) (a : Nat) (bs : List Byte) (x : Nat) :
    (m.storeBytes a bs).read x = if a ≤ x then (bs[x - a]?).getD (m.read x) else m.read x := by
  induction bs generalizing m a with
  | nil => simp [Memory.storeBytes]
  | cons b bs ih =>
    rw [Memory.storeBytes, ih (write_wf h a b), read_write h]
    by_cases h1 : a + 1 ≤ x
    · have e : x - a = (x - (a + 1)) + 1 := by omega
      rw [if_pos h1, if_pos (by omega : a ≤ x), if_neg (by omega : x ≠ a), e, List.getElem?_cons_succ]
    · rw [if_neg h1]
      by_cases h2 : x = a
      · subst h2; simp
      · rw [if_neg h2, if_neg (by omega)]

theorem readBytes_length (m : Memory) (a n : Nat) : (m.readBytes a n).length = n := by
  induction n generalizing a with
  | zero => rfl
  | succ n ih => simp [Memory.readBytes, ih]

/-- A sequence of reads depends on the bytes alone. -/
theorem readBytes_congr {m m' : Memory} {a a' n : Nat} (h : ∀ i, i < n → m.read (a + i) = m'.read (a' + i)) :
    m.readBytes a n = m'.readBytes a' n := by
  induction n generalizing a a' with
  | zero => rfl
  | succ n ih =>
    simp only [Memory.readBytes]
    rw [show m.read a = m'.read a' by simpa using h 0 (by omega)]
    congr 1
    exact ih fun i hi => by
      have := h (i + 1) (by omega)
      simpa [Nat.add_assoc, Nat.add_comm 1 i] using this

theorem readBytes_getElem? (m : Memory) (a n i : Nat) :
    (m.readBytes a n)[i]? = if i < n then some (m.read (a + i)) else none := by
  induction n generalizing a i with
  | zero => simp [Memory.readBytes]
  | succ n ih =>
    cases i with
    | zero => simp [Memory.readBytes]
    | succ i =>
      simp only [Memory.readBytes, List.getElem?_cons_succ, ih]
      by_cases h : i < n
      · rw [if_pos h, if_pos (by omega)]; congr 2; omega
      · rw [if_neg h, if_neg (by omega)]

/-- A stored sequence reads back. -/
theorem readBytes_storeBytes {m : Memory} (h : m.wf = true) (a : Nat) (bs : List Byte) :
    (m.storeBytes a bs).readBytes a bs.length = bs := by
  apply List.ext_getElem?
  intro i
  rw [readBytes_getElem?]
  by_cases hi : i < bs.length
  · rw [if_pos hi, read_storeBytes h, if_pos (by omega)]
    simp [hi]
  · rw [if_neg hi]; simp [Nat.le_of_not_lt hi]

theorem readBytes_append (m : Memory) (a n k : Nat) :
    m.readBytes a (n + k) = m.readBytes a n ++ m.readBytes (a + n) k := by
  induction n generalizing a with
  | zero => simp [Memory.readBytes]
  | succ n ih =>
    rw [show n + 1 + k = (n + k) + 1 by omega]
    simp only [Memory.readBytes, ih, List.cons_append]
    rw [show a + 1 + n = a + (n + 1) by omega]

/-- An appended byte: what was there reads as before, the new byte follows it. -/
theorem readBytes_write_end {m : Memory} (h : m.wf = true) (n : Nat) (b : Byte) :
    (m.write n b).readBytes 0 (n + 1) = m.readBytes 0 n ++ [b] := by
  rw [readBytes_append]
  congr 1
  · exact readBytes_congr fun i hi => by rw [read_write h, if_neg (by omega)]
  · simp [Memory.readBytes, read_write h]

/-- Where the cells of a written memory lie. -/
theorem mem_writeCells {cells : List Host.Cell} {a : Nat} {b : Byte} {c : Host.Cell}
    (h : c ∈ writeCells cells a b) : c = (a, b) ∨ c ∈ cells := by
  induction cells with
  | nil =>
    simp only [writeCells] at h
    split at h
    · simp at h
    · simp only [List.mem_singleton] at h; exact .inl h
  | cons d rest ih =>
    obtain ⟨x, v⟩ := d
    simp only [writeCells] at h
    split at h
    · split at h
      · exact .inr h
      · simp only [List.mem_cons] at h ⊢; tauto
    · split at h
      · split at h
        · exact .inr (List.mem_cons_of_mem _ h)
        · simp only [List.mem_cons] at h ⊢; tauto
      · simp only [List.mem_cons] at h ⊢
        rcases h with h | h
        · tauto
        · rcases ih h with h | h <;> tauto

theorem storeBytes_below {m : Memory} {a n : Nat} {bs : List Byte} (h : ∀ c ∈ m.cells, c.1 < n)
    (ha : a + bs.length ≤ n) : ∀ c ∈ (m.storeBytes a bs).cells, c.1 < n := by
  induction bs generalizing m a with
  | nil => exact h
  | cons b bs ih =>
    rw [Memory.storeBytes]
    simp only [List.length_cons] at ha
    refine ih ?_ (by omega)
    intro c hc
    rcases mem_writeCells hc with rfl | hc
    · simp only; omega
    · exact h c hc

end Sys2Proof.Machine
end

