-- ==== Sys2Proof/Laws/State.lean ====
section
/-! SUPPORT. One lemma per field and per update of the state, each true by unfolding the update once. -/

namespace Sys2Proof.Machine

variable (s : State)

/-! ## The write of CMD: `beginCommand` -/

@[simp] theorem beginCommand_cmd (code : Byte) : (s.beginCommand code).cmd = code := rfl
@[simp] theorem beginCommand_argLen (code : Byte) : (s.beginCommand code).argLen = s.argLen := rfl
@[simp] theorem beginCommand_args (code : Byte) : (s.beginCommand code).args = s.args := rfl
@[simp] theorem beginCommand_status (code : Byte) : (s.beginCommand code).status = .busy := rfl
@[simp] theorem beginCommand_err (code : Byte) : (s.beginCommand code).err = .none := rfl
@[simp] theorem beginCommand_dlen (code : Byte) : (s.beginCommand code).dlen = 0 := rfl
@[simp] theorem beginCommand_xsel (code : Byte) : (s.beginCommand code).xsel = false := rfl
@[simp] theorem beginCommand_src (code : Byte) : (s.beginCommand code).src = s.src := rfl
@[simp] theorem beginCommand_dst (code : Byte) : (s.beginCommand code).dst = Memory.blank := rfl
@[simp] theorem beginCommand_dpos (code : Byte) : (s.beginCommand code).dpos = 0 := rfl
@[simp] theorem beginCommand_xbuf (code : Byte) : (s.beginCommand code).xbuf = s.xbuf := rfl
@[simp] theorem beginCommand_cand0 (code : Byte) : (s.beginCommand code).cand0 = s.cand0 := rfl
@[simp] theorem beginCommand_cand1 (code : Byte) : (s.beginCommand code).cand1 = s.cand1 := rfl
@[simp] theorem beginCommand_freq (code : Byte) : (s.beginCommand code).freq = s.freq := rfl
@[simp] theorem beginCommand_len (code : Byte) : (s.beginCommand code).len = s.len := rfl
@[simp] theorem beginCommand_code (code : Byte) : (s.beginCommand code).code = s.code := rfl
@[simp] theorem beginCommand_best (code : Byte) : (s.beginCommand code).best = s.best := rfl
@[simp] theorem beginCommand_bestEst (code : Byte) : (s.beginCommand code).bestEst = s.bestEst := rfl
@[simp] theorem beginCommand_est (code : Byte) : (s.beginCommand code).est = s.est := rfl
@[simp] theorem beginCommand_rleSrc (code : Byte) : (s.beginCommand code).rleSrc = s.rleSrc := rfl
@[simp] theorem beginCommand_curRun (code : Byte) : (s.beginCommand code).curRun = s.curRun := rfl
@[simp] theorem beginCommand_qual (code : Byte) : (s.beginCommand code).qual = s.qual := rfl
@[simp] theorem beginCommand_trialSize (code : Byte) : (s.beginCommand code).trialSize = s.trialSize := rfl
@[simp] theorem beginCommand_forest (code : Byte) : (s.beginCommand code).forest = s.forest := rfl
@[simp] theorem beginCommand_lane (code : Byte) : (s.beginCommand code).lane = s.lane := rfl
@[simp] theorem beginCommand_lpos (code : Byte) : (s.beginCommand code).lpos = s.lpos := rfl
@[simp] theorem beginCommand_trie (code : Byte) : (s.beginCommand code).trie = s.trie := rfl
@[simp] theorem beginCommand_tcur (code : Byte) : (s.beginCommand code).tcur = s.tcur := rfl
@[simp] theorem beginCommand_ctx (code : Byte) : (s.beginCommand code).ctx = s.ctx := rfl
@[simp] theorem beginCommand_xflag (code : Byte) : (s.beginCommand code).xflag = s.xflag := rfl
@[simp] theorem beginCommand_tiles (code : Byte) : (s.beginCommand code).tiles = s.tiles := rfl
@[simp] theorem beginCommand_sp (code : Byte) : (s.beginCommand code).sp = s.sp := rfl
@[simp] theorem beginCommand_brCur (code : Byte) : (s.beginCommand code).brCur = s.brCur := rfl
@[simp] theorem beginCommand_brLeft (code : Byte) : (s.beginCommand code).brLeft = s.brLeft := rfl
@[simp] theorem beginCommand_bwAcc (code : Byte) : (s.beginCommand code).bwAcc = s.bwAcc := rfl
@[simp] theorem beginCommand_bwBits (code : Byte) : (s.beginCommand code).bwBits = s.bwBits := rfl
@[simp] theorem beginCommand_hold (code : Byte) : (s.beginCommand code).hold = s.hold := rfl
@[simp] theorem beginCommand_outcnt (code : Byte) : (s.beginCommand code).outcnt = s.outcnt := rfl
@[simp] theorem beginCommand_lastNib (code : Byte) : (s.beginCommand code).lastNib = s.lastNib := rfl
@[simp] theorem beginCommand_runs (code : Byte) : (s.beginCommand code).runs = s.runs := rfl
@[simp] theorem beginCommand_phase (code : Byte) : (s.beginCommand code).phase = .command := rfl

/-! ## The start-of-command state: `startAll` -/

@[simp] theorem startAll_cmd (code : Byte) : (s.startAll code).cmd = code := rfl
@[simp] theorem startAll_argLen (code : Byte) : (s.startAll code).argLen = s.argLen := rfl
@[simp] theorem startAll_args (code : Byte) : (s.startAll code).args = s.args := rfl
@[simp] theorem startAll_status (code : Byte) : (s.startAll code).status = .busy := rfl
@[simp] theorem startAll_err (code : Byte) : (s.startAll code).err = .none := rfl
@[simp] theorem startAll_dlen (code : Byte) : (s.startAll code).dlen = 0 := rfl
@[simp] theorem startAll_xsel (code : Byte) : (s.startAll code).xsel = false := rfl
@[simp] theorem startAll_src (code : Byte) : (s.startAll code).src = s.src := rfl
@[simp] theorem startAll_dst (code : Byte) : (s.startAll code).dst = Memory.blank := rfl
@[simp] theorem startAll_dpos (code : Byte) : (s.startAll code).dpos = 0 := rfl
@[simp] theorem startAll_xbuf (code : Byte) : (s.startAll code).xbuf = [] := rfl
@[simp] theorem startAll_cand0 (code : Byte) : (s.startAll code).cand0 = [] := rfl
@[simp] theorem startAll_cand1 (code : Byte) : (s.startAll code).cand1 = [] := rfl
@[simp] theorem startAll_freq (code : Byte) : (s.startAll code).freq = zeroFreq := rfl
@[simp] theorem startAll_len (code : Byte) : (s.startAll code).len = zeroLen := rfl
@[simp] theorem startAll_code (code : Byte) : (s.startAll code).code = noCodes := rfl
@[simp] theorem startAll_best (code : Byte) : (s.startAll code).best = noCodes := rfl
@[simp] theorem startAll_bestEst (code : Byte) : (s.startAll code).bestEst = none := rfl
@[simp] theorem startAll_est (code : Byte) : (s.startAll code).est = 0 := rfl
@[simp] theorem startAll_rleSrc (code : Byte) : (s.startAll code).rleSrc = [] := rfl
@[simp] theorem startAll_curRun (code : Byte) : (s.startAll code).curRun = none := rfl
@[simp] theorem startAll_qual (code : Byte) : (s.startAll code).qual = [] := rfl
@[simp] theorem startAll_trialSize (code : Byte) : (s.startAll code).trialSize = 0 := rfl
@[simp] theorem startAll_forest (code : Byte) : (s.startAll code).forest = { coins := [], pkgs := [] } := rfl
@[simp] theorem startAll_lane (code : Byte) : (s.startAll code).lane = zeroLanes := rfl
@[simp] theorem startAll_lpos (code : Byte) : (s.startAll code).lpos = 0 := rfl
@[simp] theorem startAll_trie (code : Byte) : (s.startAll code).trie = emptyRoot := rfl
@[simp] theorem startAll_tcur (code : Byte) : (s.startAll code).tcur = [] := rfl
@[simp] theorem startAll_ctx (code : Byte) : (s.startAll code).ctx = Config.ctxInit := rfl
@[simp] theorem startAll_xflag (code : Byte) : (s.startAll code).xflag = s.xflag := rfl
@[simp] theorem startAll_tiles (code : Byte) : (s.startAll code).tiles = s.tiles := rfl
@[simp] theorem startAll_sp (code : Byte) : (s.startAll code).sp = 0 := rfl
@[simp] theorem startAll_brCur (code : Byte) : (s.startAll code).brCur = 0#8 := rfl
@[simp] theorem startAll_brLeft (code : Byte) : (s.startAll code).brLeft = 0 := rfl
@[simp] theorem startAll_bwAcc (code : Byte) : (s.startAll code).bwAcc = 0#8 := rfl
@[simp] theorem startAll_bwBits (code : Byte) : (s.startAll code).bwBits = 0 := rfl
@[simp] theorem startAll_hold (code : Byte) : (s.startAll code).hold = none := rfl
@[simp] theorem startAll_outcnt (code : Byte) : (s.startAll code).outcnt = 0 := rfl
@[simp] theorem startAll_lastNib (code : Byte) : (s.startAll code).lastNib = none := rfl
@[simp] theorem startAll_runs (code : Byte) : (s.startAll code).runs = [] := rfl
@[simp] theorem startAll_phase (code : Byte) : (s.startAll code).phase = .command := rfl

/-! ## The end of a command: `finish` -/

@[simp] theorem finish_cmd : (s.finish).cmd = s.cmd := rfl
@[simp] theorem finish_argLen : (s.finish).argLen = s.argLen := rfl
@[simp] theorem finish_args : (s.finish).args = s.args := rfl
@[simp] theorem finish_status : (s.finish).status = .done := rfl
@[simp] theorem finish_err : (s.finish).err = s.err := rfl
@[simp] theorem finish_dlen : (s.finish).dlen = s.dpos := rfl
@[simp] theorem finish_xsel : (s.finish).xsel = s.xsel := rfl
@[simp] theorem finish_src : (s.finish).src = s.src := rfl
@[simp] theorem finish_dst : (s.finish).dst = s.dst := rfl
@[simp] theorem finish_dpos : (s.finish).dpos = s.dpos := rfl
@[simp] theorem finish_xbuf : (s.finish).xbuf = s.xbuf := rfl
@[simp] theorem finish_cand0 : (s.finish).cand0 = s.cand0 := rfl
@[simp] theorem finish_cand1 : (s.finish).cand1 = s.cand1 := rfl
@[simp] theorem finish_freq : (s.finish).freq = s.freq := rfl
@[simp] theorem finish_len : (s.finish).len = s.len := rfl
@[simp] theorem finish_code : (s.finish).code = s.code := rfl
@[simp] theorem finish_best : (s.finish).best = s.best := rfl
@[simp] theorem finish_bestEst : (s.finish).bestEst = s.bestEst := rfl
@[simp] theorem finish_est : (s.finish).est = s.est := rfl
@[simp] theorem finish_rleSrc : (s.finish).rleSrc = s.rleSrc := rfl
@[simp] theorem finish_curRun : (s.finish).curRun = s.curRun := rfl
@[simp] theorem finish_qual : (s.finish).qual = s.qual := rfl
@[simp] theorem finish_trialSize : (s.finish).trialSize = s.trialSize := rfl
@[simp] theorem finish_forest : (s.finish).forest = s.forest := rfl
@[simp] theorem finish_lane : (s.finish).lane = s.lane := rfl
@[simp] theorem finish_lpos : (s.finish).lpos = s.lpos := rfl
@[simp] theorem finish_trie : (s.finish).trie = s.trie := rfl
@[simp] theorem finish_tcur : (s.finish).tcur = s.tcur := rfl
@[simp] theorem finish_ctx : (s.finish).ctx = s.ctx := rfl
@[simp] theorem finish_xflag : (s.finish).xflag = s.xflag := rfl
@[simp] theorem finish_tiles : (s.finish).tiles = s.tiles := rfl
@[simp] theorem finish_sp : (s.finish).sp = s.sp := rfl
@[simp] theorem finish_brCur : (s.finish).brCur = s.brCur := rfl
@[simp] theorem finish_brLeft : (s.finish).brLeft = s.brLeft := rfl
@[simp] theorem finish_bwAcc : (s.finish).bwAcc = s.bwAcc := rfl
@[simp] theorem finish_bwBits : (s.finish).bwBits = s.bwBits := rfl
@[simp] theorem finish_hold : (s.finish).hold = s.hold := rfl
@[simp] theorem finish_outcnt : (s.finish).outcnt = s.outcnt := rfl
@[simp] theorem finish_lastNib : (s.finish).lastNib = s.lastNib := rfl
@[simp] theorem finish_runs : (s.finish).runs = s.runs := rfl
@[simp] theorem finish_phase : (s.finish).phase = .command := rfl

/-! ## DST written as a whole: `deliver` -/

@[simp] theorem deliver_cmd (bs : List Byte) : (s.deliver bs).cmd = s.cmd := rfl
@[simp] theorem deliver_argLen (bs : List Byte) : (s.deliver bs).argLen = s.argLen := rfl
@[simp] theorem deliver_args (bs : List Byte) : (s.deliver bs).args = s.args := rfl
@[simp] theorem deliver_status (bs : List Byte) : (s.deliver bs).status = s.status := rfl
@[simp] theorem deliver_err (bs : List Byte) : (s.deliver bs).err = s.err := rfl
@[simp] theorem deliver_dlen (bs : List Byte) : (s.deliver bs).dlen = s.dlen := rfl
@[simp] theorem deliver_xsel (bs : List Byte) : (s.deliver bs).xsel = s.xsel := rfl
@[simp] theorem deliver_src (bs : List Byte) : (s.deliver bs).src = s.src := rfl
@[simp] theorem deliver_dst (bs : List Byte) : (s.deliver bs).dst = Memory.blank.storeBytes 0 bs := rfl
@[simp] theorem deliver_dpos (bs : List Byte) : (s.deliver bs).dpos = bs.length := rfl
@[simp] theorem deliver_xbuf (bs : List Byte) : (s.deliver bs).xbuf = s.xbuf := rfl
@[simp] theorem deliver_cand0 (bs : List Byte) : (s.deliver bs).cand0 = s.cand0 := rfl
@[simp] theorem deliver_cand1 (bs : List Byte) : (s.deliver bs).cand1 = s.cand1 := rfl
@[simp] theorem deliver_freq (bs : List Byte) : (s.deliver bs).freq = s.freq := rfl
@[simp] theorem deliver_len (bs : List Byte) : (s.deliver bs).len = s.len := rfl
@[simp] theorem deliver_code (bs : List Byte) : (s.deliver bs).code = s.code := rfl
@[simp] theorem deliver_best (bs : List Byte) : (s.deliver bs).best = s.best := rfl
@[simp] theorem deliver_bestEst (bs : List Byte) : (s.deliver bs).bestEst = s.bestEst := rfl
@[simp] theorem deliver_est (bs : List Byte) : (s.deliver bs).est = s.est := rfl
@[simp] theorem deliver_rleSrc (bs : List Byte) : (s.deliver bs).rleSrc = s.rleSrc := rfl
@[simp] theorem deliver_curRun (bs : List Byte) : (s.deliver bs).curRun = s.curRun := rfl
@[simp] theorem deliver_qual (bs : List Byte) : (s.deliver bs).qual = s.qual := rfl
@[simp] theorem deliver_trialSize (bs : List Byte) : (s.deliver bs).trialSize = s.trialSize := rfl
@[simp] theorem deliver_forest (bs : List Byte) : (s.deliver bs).forest = s.forest := rfl
@[simp] theorem deliver_lane (bs : List Byte) : (s.deliver bs).lane = s.lane := rfl
@[simp] theorem deliver_lpos (bs : List Byte) : (s.deliver bs).lpos = s.lpos := rfl
@[simp] theorem deliver_trie (bs : List Byte) : (s.deliver bs).trie = s.trie := rfl
@[simp] theorem deliver_tcur (bs : List Byte) : (s.deliver bs).tcur = s.tcur := rfl
@[simp] theorem deliver_ctx (bs : List Byte) : (s.deliver bs).ctx = s.ctx := rfl
@[simp] theorem deliver_xflag (bs : List Byte) : (s.deliver bs).xflag = s.xflag := rfl
@[simp] theorem deliver_tiles (bs : List Byte) : (s.deliver bs).tiles = s.tiles := rfl
@[simp] theorem deliver_sp (bs : List Byte) : (s.deliver bs).sp = s.sp := rfl
@[simp] theorem deliver_brCur (bs : List Byte) : (s.deliver bs).brCur = s.brCur := rfl
@[simp] theorem deliver_brLeft (bs : List Byte) : (s.deliver bs).brLeft = s.brLeft := rfl
@[simp] theorem deliver_bwAcc (bs : List Byte) : (s.deliver bs).bwAcc = s.bwAcc := rfl
@[simp] theorem deliver_bwBits (bs : List Byte) : (s.deliver bs).bwBits = s.bwBits := rfl
@[simp] theorem deliver_hold (bs : List Byte) : (s.deliver bs).hold = s.hold := rfl
@[simp] theorem deliver_outcnt (bs : List Byte) : (s.deliver bs).outcnt = s.outcnt := rfl
@[simp] theorem deliver_lastNib (bs : List Byte) : (s.deliver bs).lastNib = s.lastNib := rfl
@[simp] theorem deliver_runs (bs : List Byte) : (s.deliver bs).runs = s.runs := rfl
@[simp] theorem deliver_phase (bs : List Byte) : (s.deliver bs).phase = s.phase := rfl

/-! ## Raising a fault: `raise` -/

@[simp] theorem raise_cmd (k : Err) : (s.raise k).cmd = s.cmd := rfl
@[simp] theorem raise_argLen (k : Err) : (s.raise k).argLen = s.argLen := rfl
@[simp] theorem raise_args (k : Err) : (s.raise k).args = s.args := rfl
@[simp] theorem raise_status (k : Err) : (s.raise k).status = .fault := rfl
@[simp] theorem raise_err (k : Err) : (s.raise k).err = k := rfl
@[simp] theorem raise_dlen (k : Err) : (s.raise k).dlen = 0 := rfl
@[simp] theorem raise_xsel (k : Err) : (s.raise k).xsel = false := rfl
@[simp] theorem raise_src (k : Err) : (s.raise k).src = s.src := rfl
@[simp] theorem raise_dst (k : Err) : (s.raise k).dst = Memory.blank := rfl
@[simp] theorem raise_dpos (k : Err) : (s.raise k).dpos = 0 := rfl
@[simp] theorem raise_xbuf (k : Err) : (s.raise k).xbuf = s.xbuf := rfl
@[simp] theorem raise_cand0 (k : Err) : (s.raise k).cand0 = s.cand0 := rfl
@[simp] theorem raise_cand1 (k : Err) : (s.raise k).cand1 = s.cand1 := rfl
@[simp] theorem raise_freq (k : Err) : (s.raise k).freq = s.freq := rfl
@[simp] theorem raise_len (k : Err) : (s.raise k).len = s.len := rfl
@[simp] theorem raise_code (k : Err) : (s.raise k).code = s.code := rfl
@[simp] theorem raise_best (k : Err) : (s.raise k).best = s.best := rfl
@[simp] theorem raise_bestEst (k : Err) : (s.raise k).bestEst = s.bestEst := rfl
@[simp] theorem raise_est (k : Err) : (s.raise k).est = s.est := rfl
@[simp] theorem raise_rleSrc (k : Err) : (s.raise k).rleSrc = s.rleSrc := rfl
@[simp] theorem raise_curRun (k : Err) : (s.raise k).curRun = s.curRun := rfl
@[simp] theorem raise_qual (k : Err) : (s.raise k).qual = s.qual := rfl
@[simp] theorem raise_trialSize (k : Err) : (s.raise k).trialSize = s.trialSize := rfl
@[simp] theorem raise_forest (k : Err) : (s.raise k).forest = s.forest := rfl
@[simp] theorem raise_lane (k : Err) : (s.raise k).lane = s.lane := rfl
@[simp] theorem raise_lpos (k : Err) : (s.raise k).lpos = s.lpos := rfl
@[simp] theorem raise_trie (k : Err) : (s.raise k).trie = s.trie := rfl
@[simp] theorem raise_tcur (k : Err) : (s.raise k).tcur = s.tcur := rfl
@[simp] theorem raise_ctx (k : Err) : (s.raise k).ctx = s.ctx := rfl
@[simp] theorem raise_xflag (k : Err) : (s.raise k).xflag = s.xflag := rfl
@[simp] theorem raise_tiles (k : Err) : (s.raise k).tiles = s.tiles := rfl
@[simp] theorem raise_sp (k : Err) : (s.raise k).sp = s.sp := rfl
@[simp] theorem raise_brCur (k : Err) : (s.raise k).brCur = s.brCur := rfl
@[simp] theorem raise_brLeft (k : Err) : (s.raise k).brLeft = s.brLeft := rfl
@[simp] theorem raise_bwAcc (k : Err) : (s.raise k).bwAcc = s.bwAcc := rfl
@[simp] theorem raise_bwBits (k : Err) : (s.raise k).bwBits = s.bwBits := rfl
@[simp] theorem raise_hold (k : Err) : (s.raise k).hold = s.hold := rfl
@[simp] theorem raise_outcnt (k : Err) : (s.raise k).outcnt = s.outcnt := rfl
@[simp] theorem raise_lastNib (k : Err) : (s.raise k).lastNib = s.lastNib := rfl
@[simp] theorem raise_runs (k : Err) : (s.raise k).runs = [] := rfl
@[simp] theorem raise_phase (k : Err) : (s.raise k).phase = .command := rfl

/-! ## Write1 on DST: `write1` -/

@[simp] theorem write1_cmd (v : Byte) : (s.write1 v).cmd = s.cmd := rfl
@[simp] theorem write1_argLen (v : Byte) : (s.write1 v).argLen = s.argLen := rfl
@[simp] theorem write1_args (v : Byte) : (s.write1 v).args = s.args := rfl
@[simp] theorem write1_status (v : Byte) : (s.write1 v).status = s.status := rfl
@[simp] theorem write1_err (v : Byte) : (s.write1 v).err = s.err := rfl
@[simp] theorem write1_dlen (v : Byte) : (s.write1 v).dlen = s.dlen := rfl
@[simp] theorem write1_xsel (v : Byte) : (s.write1 v).xsel = s.xsel := rfl
@[simp] theorem write1_src (v : Byte) : (s.write1 v).src = s.src := rfl
@[simp] theorem write1_dst (v : Byte) : (s.write1 v).dst = s.dst.write s.dpos v := rfl
@[simp] theorem write1_dpos (v : Byte) : (s.write1 v).dpos = s.dpos + 1 := rfl
@[simp] theorem write1_xbuf (v : Byte) : (s.write1 v).xbuf = s.xbuf := rfl
@[simp] theorem write1_cand0 (v : Byte) : (s.write1 v).cand0 = s.cand0 := rfl
@[simp] theorem write1_cand1 (v : Byte) : (s.write1 v).cand1 = s.cand1 := rfl
@[simp] theorem write1_freq (v : Byte) : (s.write1 v).freq = s.freq := rfl
@[simp] theorem write1_len (v : Byte) : (s.write1 v).len = s.len := rfl
@[simp] theorem write1_code (v : Byte) : (s.write1 v).code = s.code := rfl
@[simp] theorem write1_best (v : Byte) : (s.write1 v).best = s.best := rfl
@[simp] theorem write1_bestEst (v : Byte) : (s.write1 v).bestEst = s.bestEst := rfl
@[simp] theorem write1_est (v : Byte) : (s.write1 v).est = s.est := rfl
@[simp] theorem write1_rleSrc (v : Byte) : (s.write1 v).rleSrc = s.rleSrc := rfl
@[simp] theorem write1_curRun (v : Byte) : (s.write1 v).curRun = s.curRun := rfl
@[simp] theorem write1_qual (v : Byte) : (s.write1 v).qual = s.qual := rfl
@[simp] theorem write1_trialSize (v : Byte) : (s.write1 v).trialSize = s.trialSize := rfl
@[simp] theorem write1_forest (v : Byte) : (s.write1 v).forest = s.forest := rfl
@[simp] theorem write1_lane (v : Byte) : (s.write1 v).lane = s.lane := rfl
@[simp] theorem write1_lpos (v : Byte) : (s.write1 v).lpos = s.lpos := rfl
@[simp] theorem write1_trie (v : Byte) : (s.write1 v).trie = s.trie := rfl
@[simp] theorem write1_tcur (v : Byte) : (s.write1 v).tcur = s.tcur := rfl
@[simp] theorem write1_ctx (v : Byte) : (s.write1 v).ctx = s.ctx := rfl
@[simp] theorem write1_xflag (v : Byte) : (s.write1 v).xflag = s.xflag := rfl
@[simp] theorem write1_tiles (v : Byte) : (s.write1 v).tiles = s.tiles := rfl
@[simp] theorem write1_sp (v : Byte) : (s.write1 v).sp = s.sp := rfl
@[simp] theorem write1_brCur (v : Byte) : (s.write1 v).brCur = s.brCur := rfl
@[simp] theorem write1_brLeft (v : Byte) : (s.write1 v).brLeft = s.brLeft := rfl
@[simp] theorem write1_bwAcc (v : Byte) : (s.write1 v).bwAcc = s.bwAcc := rfl
@[simp] theorem write1_bwBits (v : Byte) : (s.write1 v).bwBits = s.bwBits := rfl
@[simp] theorem write1_hold (v : Byte) : (s.write1 v).hold = s.hold := rfl
@[simp] theorem write1_outcnt (v : Byte) : (s.write1 v).outcnt = s.outcnt := rfl
@[simp] theorem write1_lastNib (v : Byte) : (s.write1 v).lastNib = s.lastNib := rfl
@[simp] theorem write1_runs (v : Byte) : (s.write1 v).runs = s.runs := rfl
@[simp] theorem write1_phase (v : Byte) : (s.write1 v).phase = s.phase := rfl

/-! ## The cursor set: `putReader` -/

@[simp] theorem putReader_cmd (rd : Reader) : (s.putReader rd).cmd = s.cmd := rfl
@[simp] theorem putReader_argLen (rd : Reader) : (s.putReader rd).argLen = s.argLen := rfl
@[simp] theorem putReader_args (rd : Reader) : (s.putReader rd).args = s.args := rfl
@[simp] theorem putReader_status (rd : Reader) : (s.putReader rd).status = s.status := rfl
@[simp] theorem putReader_err (rd : Reader) : (s.putReader rd).err = s.err := rfl
@[simp] theorem putReader_dlen (rd : Reader) : (s.putReader rd).dlen = s.dlen := rfl
@[simp] theorem putReader_xsel (rd : Reader) : (s.putReader rd).xsel = s.xsel := rfl
@[simp] theorem putReader_src (rd : Reader) : (s.putReader rd).src = s.src := rfl
@[simp] theorem putReader_dst (rd : Reader) : (s.putReader rd).dst = s.dst := rfl
@[simp] theorem putReader_dpos (rd : Reader) : (s.putReader rd).dpos = s.dpos := rfl
@[simp] theorem putReader_xbuf (rd : Reader) : (s.putReader rd).xbuf = s.xbuf := rfl
@[simp] theorem putReader_cand0 (rd : Reader) : (s.putReader rd).cand0 = s.cand0 := rfl
@[simp] theorem putReader_cand1 (rd : Reader) : (s.putReader rd).cand1 = s.cand1 := rfl
@[simp] theorem putReader_freq (rd : Reader) : (s.putReader rd).freq = s.freq := rfl
@[simp] theorem putReader_len (rd : Reader) : (s.putReader rd).len = s.len := rfl
@[simp] theorem putReader_code (rd : Reader) : (s.putReader rd).code = s.code := rfl
@[simp] theorem putReader_best (rd : Reader) : (s.putReader rd).best = s.best := rfl
@[simp] theorem putReader_bestEst (rd : Reader) : (s.putReader rd).bestEst = s.bestEst := rfl
@[simp] theorem putReader_est (rd : Reader) : (s.putReader rd).est = s.est := rfl
@[simp] theorem putReader_rleSrc (rd : Reader) : (s.putReader rd).rleSrc = s.rleSrc := rfl
@[simp] theorem putReader_curRun (rd : Reader) : (s.putReader rd).curRun = s.curRun := rfl
@[simp] theorem putReader_qual (rd : Reader) : (s.putReader rd).qual = s.qual := rfl
@[simp] theorem putReader_trialSize (rd : Reader) : (s.putReader rd).trialSize = s.trialSize := rfl
@[simp] theorem putReader_forest (rd : Reader) : (s.putReader rd).forest = s.forest := rfl
@[simp] theorem putReader_lane (rd : Reader) : (s.putReader rd).lane = s.lane := rfl
@[simp] theorem putReader_lpos (rd : Reader) : (s.putReader rd).lpos = s.lpos := rfl
@[simp] theorem putReader_trie (rd : Reader) : (s.putReader rd).trie = s.trie := rfl
@[simp] theorem putReader_tcur (rd : Reader) : (s.putReader rd).tcur = s.tcur := rfl
@[simp] theorem putReader_ctx (rd : Reader) : (s.putReader rd).ctx = s.ctx := rfl
@[simp] theorem putReader_xflag (rd : Reader) : (s.putReader rd).xflag = s.xflag := rfl
@[simp] theorem putReader_tiles (rd : Reader) : (s.putReader rd).tiles = s.tiles := rfl
@[simp] theorem putReader_sp (rd : Reader) : (s.putReader rd).sp = s.sp + rd.taken := rfl
@[simp] theorem putReader_brCur (rd : Reader) : (s.putReader rd).brCur = rd.cur := rfl
@[simp] theorem putReader_brLeft (rd : Reader) : (s.putReader rd).brLeft = rd.nleft := rfl
@[simp] theorem putReader_bwAcc (rd : Reader) : (s.putReader rd).bwAcc = s.bwAcc := rfl
@[simp] theorem putReader_bwBits (rd : Reader) : (s.putReader rd).bwBits = s.bwBits := rfl
@[simp] theorem putReader_hold (rd : Reader) : (s.putReader rd).hold = s.hold := rfl
@[simp] theorem putReader_outcnt (rd : Reader) : (s.putReader rd).outcnt = s.outcnt := rfl
@[simp] theorem putReader_lastNib (rd : Reader) : (s.putReader rd).lastNib = s.lastNib := rfl
@[simp] theorem putReader_runs (rd : Reader) : (s.putReader rd).runs = s.runs := rfl
@[simp] theorem putReader_phase (rd : Reader) : (s.putReader rd).phase = s.phase := rfl

/-! ## RLE_ENC: `rleEncode` -/

@[simp] theorem rleEncode_cmd (bs : List Byte) : (s.rleEncode bs).cmd = s.cmd := rfl
@[simp] theorem rleEncode_argLen (bs : List Byte) : (s.rleEncode bs).argLen = s.argLen := rfl
@[simp] theorem rleEncode_args (bs : List Byte) : (s.rleEncode bs).args = s.args := rfl
@[simp] theorem rleEncode_status (bs : List Byte) : (s.rleEncode bs).status = s.status := rfl
@[simp] theorem rleEncode_err (bs : List Byte) : (s.rleEncode bs).err = s.err := rfl
@[simp] theorem rleEncode_dlen (bs : List Byte) : (s.rleEncode bs).dlen = s.dlen := rfl
@[simp] theorem rleEncode_xsel (bs : List Byte) : (s.rleEncode bs).xsel = s.xsel := rfl
@[simp] theorem rleEncode_src (bs : List Byte) : (s.rleEncode bs).src = s.src := rfl
@[simp] theorem rleEncode_dst (bs : List Byte) : (s.rleEncode bs).dst = s.dst := rfl
@[simp] theorem rleEncode_dpos (bs : List Byte) : (s.rleEncode bs).dpos = s.dpos := rfl
@[simp] theorem rleEncode_xbuf (bs : List Byte) : (s.rleEncode bs).xbuf = s.xbuf := rfl
@[simp] theorem rleEncode_cand0 (bs : List Byte) : (s.rleEncode bs).cand0 = s.cand0 := rfl
@[simp] theorem rleEncode_cand1 (bs : List Byte) : (s.rleEncode bs).cand1 = s.cand1 := rfl
@[simp] theorem rleEncode_freq (bs : List Byte) : (s.rleEncode bs).freq = tally (rleOf bs) := rfl
@[simp] theorem rleEncode_len (bs : List Byte) : (s.rleEncode bs).len = s.len := rfl
@[simp] theorem rleEncode_code (bs : List Byte) : (s.rleEncode bs).code = s.code := rfl
@[simp] theorem rleEncode_best (bs : List Byte) : (s.rleEncode bs).best = s.best := rfl
@[simp] theorem rleEncode_bestEst (bs : List Byte) : (s.rleEncode bs).bestEst = s.bestEst := rfl
@[simp] theorem rleEncode_est (bs : List Byte) : (s.rleEncode bs).est = s.est := rfl
@[simp] theorem rleEncode_rleSrc (bs : List Byte) : (s.rleEncode bs).rleSrc = rleOf bs := rfl
@[simp] theorem rleEncode_curRun (bs : List Byte) : (s.rleEncode bs).curRun = none := rfl
@[simp] theorem rleEncode_qual (bs : List Byte) : (s.rleEncode bs).qual = s.qual := rfl
@[simp] theorem rleEncode_trialSize (bs : List Byte) : (s.rleEncode bs).trialSize = s.trialSize := rfl
@[simp] theorem rleEncode_forest (bs : List Byte) : (s.rleEncode bs).forest = s.forest := rfl
@[simp] theorem rleEncode_lane (bs : List Byte) : (s.rleEncode bs).lane = s.lane := rfl
@[simp] theorem rleEncode_lpos (bs : List Byte) : (s.rleEncode bs).lpos = s.lpos := rfl
@[simp] theorem rleEncode_trie (bs : List Byte) : (s.rleEncode bs).trie = s.trie := rfl
@[simp] theorem rleEncode_tcur (bs : List Byte) : (s.rleEncode bs).tcur = s.tcur := rfl
@[simp] theorem rleEncode_ctx (bs : List Byte) : (s.rleEncode bs).ctx = s.ctx := rfl
@[simp] theorem rleEncode_xflag (bs : List Byte) : (s.rleEncode bs).xflag = s.xflag := rfl
@[simp] theorem rleEncode_tiles (bs : List Byte) : (s.rleEncode bs).tiles = s.tiles := rfl
@[simp] theorem rleEncode_sp (bs : List Byte) : (s.rleEncode bs).sp = s.sp := rfl
@[simp] theorem rleEncode_brCur (bs : List Byte) : (s.rleEncode bs).brCur = s.brCur := rfl
@[simp] theorem rleEncode_brLeft (bs : List Byte) : (s.rleEncode bs).brLeft = s.brLeft := rfl
@[simp] theorem rleEncode_bwAcc (bs : List Byte) : (s.rleEncode bs).bwAcc = s.bwAcc := rfl
@[simp] theorem rleEncode_bwBits (bs : List Byte) : (s.rleEncode bs).bwBits = s.bwBits := rfl
@[simp] theorem rleEncode_hold (bs : List Byte) : (s.rleEncode bs).hold = s.hold := rfl
@[simp] theorem rleEncode_outcnt (bs : List Byte) : (s.rleEncode bs).outcnt = s.outcnt := rfl
@[simp] theorem rleEncode_lastNib (bs : List Byte) : (s.rleEncode bs).lastNib = s.lastNib := rfl
@[simp] theorem rleEncode_runs (bs : List Byte) : (s.rleEncode bs).runs = s.runs := rfl
@[simp] theorem rleEncode_phase (bs : List Byte) : (s.rleEncode bs).phase = s.phase := rfl

/-! ## XOR_ENC: `xorEncode` -/

@[simp] theorem xorEncode_cmd (bs : List Byte) : (s.xorEncode bs).cmd = s.cmd := rfl
@[simp] theorem xorEncode_argLen (bs : List Byte) : (s.xorEncode bs).argLen = s.argLen := rfl
@[simp] theorem xorEncode_args (bs : List Byte) : (s.xorEncode bs).args = s.args := rfl
@[simp] theorem xorEncode_status (bs : List Byte) : (s.xorEncode bs).status = s.status := rfl
@[simp] theorem xorEncode_err (bs : List Byte) : (s.xorEncode bs).err = s.err := rfl
@[simp] theorem xorEncode_dlen (bs : List Byte) : (s.xorEncode bs).dlen = s.dlen := rfl
@[simp] theorem xorEncode_xsel (bs : List Byte) : (s.xorEncode bs).xsel = s.xsel := rfl
@[simp] theorem xorEncode_src (bs : List Byte) : (s.xorEncode bs).src = s.src := rfl
@[simp] theorem xorEncode_dst (bs : List Byte) : (s.xorEncode bs).dst = s.dst := rfl
@[simp] theorem xorEncode_dpos (bs : List Byte) : (s.xorEncode bs).dpos = s.dpos := rfl
@[simp] theorem xorEncode_xbuf (bs : List Byte) : (s.xorEncode bs).xbuf = xorStream Config.xorEnc bs := rfl
@[simp] theorem xorEncode_cand0 (bs : List Byte) : (s.xorEncode bs).cand0 = s.cand0 := rfl
@[simp] theorem xorEncode_cand1 (bs : List Byte) : (s.xorEncode bs).cand1 = s.cand1 := rfl
@[simp] theorem xorEncode_freq (bs : List Byte) : (s.xorEncode bs).freq = s.freq := rfl
@[simp] theorem xorEncode_len (bs : List Byte) : (s.xorEncode bs).len = s.len := rfl
@[simp] theorem xorEncode_code (bs : List Byte) : (s.xorEncode bs).code = s.code := rfl
@[simp] theorem xorEncode_best (bs : List Byte) : (s.xorEncode bs).best = s.best := rfl
@[simp] theorem xorEncode_bestEst (bs : List Byte) : (s.xorEncode bs).bestEst = s.bestEst := rfl
@[simp] theorem xorEncode_est (bs : List Byte) : (s.xorEncode bs).est = s.est := rfl
@[simp] theorem xorEncode_rleSrc (bs : List Byte) : (s.xorEncode bs).rleSrc = s.rleSrc := rfl
@[simp] theorem xorEncode_curRun (bs : List Byte) : (s.xorEncode bs).curRun = s.curRun := rfl
@[simp] theorem xorEncode_qual (bs : List Byte) : (s.xorEncode bs).qual = s.qual := rfl
@[simp] theorem xorEncode_trialSize (bs : List Byte) : (s.xorEncode bs).trialSize = s.trialSize := rfl
@[simp] theorem xorEncode_forest (bs : List Byte) : (s.xorEncode bs).forest = s.forest := rfl
@[simp] theorem xorEncode_lane (bs : List Byte) : (s.xorEncode bs).lane = (xorPass Config.xorEnc zeroLanes 0 bs).2 := rfl
@[simp] theorem xorEncode_lpos (bs : List Byte) : (s.xorEncode bs).lpos = bs.length := rfl
@[simp] theorem xorEncode_trie (bs : List Byte) : (s.xorEncode bs).trie = s.trie := rfl
@[simp] theorem xorEncode_tcur (bs : List Byte) : (s.xorEncode bs).tcur = s.tcur := rfl
@[simp] theorem xorEncode_ctx (bs : List Byte) : (s.xorEncode bs).ctx = s.ctx := rfl
@[simp] theorem xorEncode_xflag (bs : List Byte) : (s.xorEncode bs).xflag = s.xflag := rfl
@[simp] theorem xorEncode_tiles (bs : List Byte) : (s.xorEncode bs).tiles = s.tiles := rfl
@[simp] theorem xorEncode_sp (bs : List Byte) : (s.xorEncode bs).sp = s.sp := rfl
@[simp] theorem xorEncode_brCur (bs : List Byte) : (s.xorEncode bs).brCur = s.brCur := rfl
@[simp] theorem xorEncode_brLeft (bs : List Byte) : (s.xorEncode bs).brLeft = s.brLeft := rfl
@[simp] theorem xorEncode_bwAcc (bs : List Byte) : (s.xorEncode bs).bwAcc = s.bwAcc := rfl
@[simp] theorem xorEncode_bwBits (bs : List Byte) : (s.xorEncode bs).bwBits = s.bwBits := rfl
@[simp] theorem xorEncode_hold (bs : List Byte) : (s.xorEncode bs).hold = s.hold := rfl
@[simp] theorem xorEncode_outcnt (bs : List Byte) : (s.xorEncode bs).outcnt = s.outcnt := rfl
@[simp] theorem xorEncode_lastNib (bs : List Byte) : (s.xorEncode bs).lastNib = s.lastNib := rfl
@[simp] theorem xorEncode_runs (bs : List Byte) : (s.xorEncode bs).runs = s.runs := rfl
@[simp] theorem xorEncode_phase (bs : List Byte) : (s.xorEncode bs).phase = s.phase := rfl

/-! ## PM_SOLVE: `solveTrial` -/

@[simp] theorem solveTrial_cmd (l : List Leaf) : (s.solveTrial l).cmd = s.cmd := rfl
@[simp] theorem solveTrial_argLen (l : List Leaf) : (s.solveTrial l).argLen = s.argLen := rfl
@[simp] theorem solveTrial_args (l : List Leaf) : (s.solveTrial l).args = s.args := rfl
@[simp] theorem solveTrial_status (l : List Leaf) : (s.solveTrial l).status = s.status := rfl
@[simp] theorem solveTrial_err (l : List Leaf) : (s.solveTrial l).err = s.err := rfl
@[simp] theorem solveTrial_dlen (l : List Leaf) : (s.solveTrial l).dlen = s.dlen := rfl
@[simp] theorem solveTrial_xsel (l : List Leaf) : (s.solveTrial l).xsel = s.xsel := rfl
@[simp] theorem solveTrial_src (l : List Leaf) : (s.solveTrial l).src = s.src := rfl
@[simp] theorem solveTrial_dst (l : List Leaf) : (s.solveTrial l).dst = s.dst := rfl
@[simp] theorem solveTrial_dpos (l : List Leaf) : (s.solveTrial l).dpos = s.dpos := rfl
@[simp] theorem solveTrial_xbuf (l : List Leaf) : (s.solveTrial l).xbuf = s.xbuf := rfl
@[simp] theorem solveTrial_cand0 (l : List Leaf) : (s.solveTrial l).cand0 = s.cand0 := rfl
@[simp] theorem solveTrial_cand1 (l : List Leaf) : (s.solveTrial l).cand1 = s.cand1 := rfl
@[simp] theorem solveTrial_freq (l : List Leaf) : (s.solveTrial l).freq = s.freq := rfl
@[simp] theorem solveTrial_len (l : List Leaf) : (s.solveTrial l).len = solve l := rfl
@[simp] theorem solveTrial_code (l : List Leaf) : (s.solveTrial l).code = s.code := rfl
@[simp] theorem solveTrial_best (l : List Leaf) : (s.solveTrial l).best = s.best := rfl
@[simp] theorem solveTrial_bestEst (l : List Leaf) : (s.solveTrial l).bestEst = s.bestEst := rfl
@[simp] theorem solveTrial_est (l : List Leaf) : (s.solveTrial l).est = s.est := rfl
@[simp] theorem solveTrial_rleSrc (l : List Leaf) : (s.solveTrial l).rleSrc = s.rleSrc := rfl
@[simp] theorem solveTrial_curRun (l : List Leaf) : (s.solveTrial l).curRun = s.curRun := rfl
@[simp] theorem solveTrial_qual (l : List Leaf) : (s.solveTrial l).qual = s.qual := rfl
@[simp] theorem solveTrial_trialSize (l : List Leaf) : (s.solveTrial l).trialSize = s.trialSize := rfl
@[simp] theorem solveTrial_forest (l : List Leaf) : (s.solveTrial l).forest = { coins := [], pkgs := [] } := rfl
@[simp] theorem solveTrial_lane (l : List Leaf) : (s.solveTrial l).lane = s.lane := rfl
@[simp] theorem solveTrial_lpos (l : List Leaf) : (s.solveTrial l).lpos = s.lpos := rfl
@[simp] theorem solveTrial_trie (l : List Leaf) : (s.solveTrial l).trie = s.trie := rfl
@[simp] theorem solveTrial_tcur (l : List Leaf) : (s.solveTrial l).tcur = s.tcur := rfl
@[simp] theorem solveTrial_ctx (l : List Leaf) : (s.solveTrial l).ctx = s.ctx := rfl
@[simp] theorem solveTrial_xflag (l : List Leaf) : (s.solveTrial l).xflag = s.xflag := rfl
@[simp] theorem solveTrial_tiles (l : List Leaf) : (s.solveTrial l).tiles = s.tiles := rfl
@[simp] theorem solveTrial_sp (l : List Leaf) : (s.solveTrial l).sp = s.sp := rfl
@[simp] theorem solveTrial_brCur (l : List Leaf) : (s.solveTrial l).brCur = s.brCur := rfl
@[simp] theorem solveTrial_brLeft (l : List Leaf) : (s.solveTrial l).brLeft = s.brLeft := rfl
@[simp] theorem solveTrial_bwAcc (l : List Leaf) : (s.solveTrial l).bwAcc = s.bwAcc := rfl
@[simp] theorem solveTrial_bwBits (l : List Leaf) : (s.solveTrial l).bwBits = s.bwBits := rfl
@[simp] theorem solveTrial_hold (l : List Leaf) : (s.solveTrial l).hold = s.hold := rfl
@[simp] theorem solveTrial_outcnt (l : List Leaf) : (s.solveTrial l).outcnt = s.outcnt := rfl
@[simp] theorem solveTrial_lastNib (l : List Leaf) : (s.solveTrial l).lastNib = s.lastNib := rfl
@[simp] theorem solveTrial_runs (l : List Leaf) : (s.solveTrial l).runs = s.runs := rfl
@[simp] theorem solveTrial_phase (l : List Leaf) : (s.solveTrial l).phase = s.phase := rfl

/-! ## PM_SOLVE outside its domain: `solveOutside` -/

@[simp] theorem solveOutside_cmd (l : List Leaf) : (s.solveOutside l).cmd = s.cmd := rfl
@[simp] theorem solveOutside_argLen (l : List Leaf) : (s.solveOutside l).argLen = s.argLen := rfl
@[simp] theorem solveOutside_args (l : List Leaf) : (s.solveOutside l).args = s.args := rfl
@[simp] theorem solveOutside_status (l : List Leaf) : (s.solveOutside l).status = s.status := rfl
@[simp] theorem solveOutside_err (l : List Leaf) : (s.solveOutside l).err = s.err := rfl
@[simp] theorem solveOutside_dlen (l : List Leaf) : (s.solveOutside l).dlen = s.dlen := rfl
@[simp] theorem solveOutside_xsel (l : List Leaf) : (s.solveOutside l).xsel = s.xsel := rfl
@[simp] theorem solveOutside_src (l : List Leaf) : (s.solveOutside l).src = s.src := rfl
@[simp] theorem solveOutside_dst (l : List Leaf) : (s.solveOutside l).dst = s.dst := rfl
@[simp] theorem solveOutside_dpos (l : List Leaf) : (s.solveOutside l).dpos = s.dpos := rfl
@[simp] theorem solveOutside_xbuf (l : List Leaf) : (s.solveOutside l).xbuf = s.xbuf := rfl
@[simp] theorem solveOutside_cand0 (l : List Leaf) : (s.solveOutside l).cand0 = s.cand0 := rfl
@[simp] theorem solveOutside_cand1 (l : List Leaf) : (s.solveOutside l).cand1 = s.cand1 := rfl
@[simp] theorem solveOutside_freq (l : List Leaf) : (s.solveOutside l).freq = s.freq := rfl
@[simp] theorem solveOutside_len (l : List Leaf) : (s.solveOutside l).len = Config.unstatedLengths (l.map fun l => (l.weight, l.run)) := rfl
@[simp] theorem solveOutside_code (l : List Leaf) : (s.solveOutside l).code = s.code := rfl
@[simp] theorem solveOutside_best (l : List Leaf) : (s.solveOutside l).best = s.best := rfl
@[simp] theorem solveOutside_bestEst (l : List Leaf) : (s.solveOutside l).bestEst = s.bestEst := rfl
@[simp] theorem solveOutside_est (l : List Leaf) : (s.solveOutside l).est = s.est := rfl
@[simp] theorem solveOutside_rleSrc (l : List Leaf) : (s.solveOutside l).rleSrc = s.rleSrc := rfl
@[simp] theorem solveOutside_curRun (l : List Leaf) : (s.solveOutside l).curRun = s.curRun := rfl
@[simp] theorem solveOutside_qual (l : List Leaf) : (s.solveOutside l).qual = s.qual := rfl
@[simp] theorem solveOutside_trialSize (l : List Leaf) : (s.solveOutside l).trialSize = s.trialSize := rfl
@[simp] theorem solveOutside_forest (l : List Leaf) : (s.solveOutside l).forest = { coins := [], pkgs := [] } := rfl
@[simp] theorem solveOutside_lane (l : List Leaf) : (s.solveOutside l).lane = s.lane := rfl
@[simp] theorem solveOutside_lpos (l : List Leaf) : (s.solveOutside l).lpos = s.lpos := rfl
@[simp] theorem solveOutside_trie (l : List Leaf) : (s.solveOutside l).trie = s.trie := rfl
@[simp] theorem solveOutside_tcur (l : List Leaf) : (s.solveOutside l).tcur = s.tcur := rfl
@[simp] theorem solveOutside_ctx (l : List Leaf) : (s.solveOutside l).ctx = s.ctx := rfl
@[simp] theorem solveOutside_xflag (l : List Leaf) : (s.solveOutside l).xflag = s.xflag := rfl
@[simp] theorem solveOutside_tiles (l : List Leaf) : (s.solveOutside l).tiles = s.tiles := rfl
@[simp] theorem solveOutside_sp (l : List Leaf) : (s.solveOutside l).sp = s.sp := rfl
@[simp] theorem solveOutside_brCur (l : List Leaf) : (s.solveOutside l).brCur = s.brCur := rfl
@[simp] theorem solveOutside_brLeft (l : List Leaf) : (s.solveOutside l).brLeft = s.brLeft := rfl
@[simp] theorem solveOutside_bwAcc (l : List Leaf) : (s.solveOutside l).bwAcc = s.bwAcc := rfl
@[simp] theorem solveOutside_bwBits (l : List Leaf) : (s.solveOutside l).bwBits = s.bwBits := rfl
@[simp] theorem solveOutside_hold (l : List Leaf) : (s.solveOutside l).hold = s.hold := rfl
@[simp] theorem solveOutside_outcnt (l : List Leaf) : (s.solveOutside l).outcnt = s.outcnt := rfl
@[simp] theorem solveOutside_lastNib (l : List Leaf) : (s.solveOutside l).lastNib = s.lastNib := rfl
@[simp] theorem solveOutside_runs (l : List Leaf) : (s.solveOutside l).runs = s.runs := rfl
@[simp] theorem solveOutside_phase (l : List Leaf) : (s.solveOutside l).phase = s.phase := rfl

/-! ## CANON_GEN: `generate` -/

@[simp] theorem generate_cmd : (s.generate).cmd = s.cmd := rfl
@[simp] theorem generate_argLen : (s.generate).argLen = s.argLen := rfl
@[simp] theorem generate_args : (s.generate).args = s.args := rfl
@[simp] theorem generate_status : (s.generate).status = s.status := rfl
@[simp] theorem generate_err : (s.generate).err = s.err := rfl
@[simp] theorem generate_dlen : (s.generate).dlen = s.dlen := rfl
@[simp] theorem generate_xsel : (s.generate).xsel = s.xsel := rfl
@[simp] theorem generate_src : (s.generate).src = s.src := rfl
@[simp] theorem generate_dst : (s.generate).dst = s.dst := rfl
@[simp] theorem generate_dpos : (s.generate).dpos = s.dpos := rfl
@[simp] theorem generate_xbuf : (s.generate).xbuf = s.xbuf := rfl
@[simp] theorem generate_cand0 : (s.generate).cand0 = s.cand0 := rfl
@[simp] theorem generate_cand1 : (s.generate).cand1 = s.cand1 := rfl
@[simp] theorem generate_freq : (s.generate).freq = s.freq := rfl
@[simp] theorem generate_len : (s.generate).len = s.len := rfl
@[simp] theorem generate_code : (s.generate).code = canonical s.len s.freq := rfl
@[simp] theorem generate_best : (s.generate).best = s.best := rfl
@[simp] theorem generate_bestEst : (s.generate).bestEst = s.bestEst := rfl
@[simp] theorem generate_est : (s.generate).est = s.est := rfl
@[simp] theorem generate_rleSrc : (s.generate).rleSrc = s.rleSrc := rfl
@[simp] theorem generate_curRun : (s.generate).curRun = s.curRun := rfl
@[simp] theorem generate_qual : (s.generate).qual = s.qual := rfl
@[simp] theorem generate_trialSize : (s.generate).trialSize = s.trialSize := rfl
@[simp] theorem generate_forest : (s.generate).forest = s.forest := rfl
@[simp] theorem generate_lane : (s.generate).lane = s.lane := rfl
@[simp] theorem generate_lpos : (s.generate).lpos = s.lpos := rfl
@[simp] theorem generate_trie : (s.generate).trie = s.trie := rfl
@[simp] theorem generate_tcur : (s.generate).tcur = s.tcur := rfl
@[simp] theorem generate_ctx : (s.generate).ctx = s.ctx := rfl
@[simp] theorem generate_xflag : (s.generate).xflag = s.xflag := rfl
@[simp] theorem generate_tiles : (s.generate).tiles = s.tiles := rfl
@[simp] theorem generate_sp : (s.generate).sp = s.sp := rfl
@[simp] theorem generate_brCur : (s.generate).brCur = s.brCur := rfl
@[simp] theorem generate_brLeft : (s.generate).brLeft = s.brLeft := rfl
@[simp] theorem generate_bwAcc : (s.generate).bwAcc = s.bwAcc := rfl
@[simp] theorem generate_bwBits : (s.generate).bwBits = s.bwBits := rfl
@[simp] theorem generate_hold : (s.generate).hold = s.hold := rfl
@[simp] theorem generate_outcnt : (s.generate).outcnt = s.outcnt := rfl
@[simp] theorem generate_lastNib : (s.generate).lastNib = s.lastNib := rfl
@[simp] theorem generate_runs : (s.generate).runs = s.runs := rfl
@[simp] theorem generate_phase : (s.generate).phase = s.phase := rfl

/-! ## COST_EST: `estimate` -/

@[simp] theorem estimate_cmd : (s.estimate).cmd = s.cmd := rfl
@[simp] theorem estimate_argLen : (s.estimate).argLen = s.argLen := rfl
@[simp] theorem estimate_args : (s.estimate).args = s.args := rfl
@[simp] theorem estimate_status : (s.estimate).status = s.status := rfl
@[simp] theorem estimate_err : (s.estimate).err = s.err := rfl
@[simp] theorem estimate_dlen : (s.estimate).dlen = s.dlen := rfl
@[simp] theorem estimate_xsel : (s.estimate).xsel = s.xsel := rfl
@[simp] theorem estimate_src : (s.estimate).src = s.src := rfl
@[simp] theorem estimate_dst : (s.estimate).dst = s.dst := rfl
@[simp] theorem estimate_dpos : (s.estimate).dpos = s.dpos := rfl
@[simp] theorem estimate_xbuf : (s.estimate).xbuf = s.xbuf := rfl
@[simp] theorem estimate_cand0 : (s.estimate).cand0 = s.cand0 := rfl
@[simp] theorem estimate_cand1 : (s.estimate).cand1 = s.cand1 := rfl
@[simp] theorem estimate_freq : (s.estimate).freq = s.freq := rfl
@[simp] theorem estimate_len : (s.estimate).len = s.len := rfl
@[simp] theorem estimate_code : (s.estimate).code = s.code := rfl
@[simp] theorem estimate_best : (s.estimate).best = s.best := rfl
@[simp] theorem estimate_bestEst : (s.estimate).bestEst = s.bestEst := rfl
@[simp] theorem estimate_est : (s.estimate).est = costOf s.code s.freq := rfl
@[simp] theorem estimate_rleSrc : (s.estimate).rleSrc = s.rleSrc := rfl
@[simp] theorem estimate_curRun : (s.estimate).curRun = s.curRun := rfl
@[simp] theorem estimate_qual : (s.estimate).qual = s.qual := rfl
@[simp] theorem estimate_trialSize : (s.estimate).trialSize = s.trialSize := rfl
@[simp] theorem estimate_forest : (s.estimate).forest = s.forest := rfl
@[simp] theorem estimate_lane : (s.estimate).lane = s.lane := rfl
@[simp] theorem estimate_lpos : (s.estimate).lpos = s.lpos := rfl
@[simp] theorem estimate_trie : (s.estimate).trie = s.trie := rfl
@[simp] theorem estimate_tcur : (s.estimate).tcur = s.tcur := rfl
@[simp] theorem estimate_ctx : (s.estimate).ctx = s.ctx := rfl
@[simp] theorem estimate_xflag : (s.estimate).xflag = s.xflag := rfl
@[simp] theorem estimate_tiles : (s.estimate).tiles = s.tiles := rfl
@[simp] theorem estimate_sp : (s.estimate).sp = s.sp := rfl
@[simp] theorem estimate_brCur : (s.estimate).brCur = s.brCur := rfl
@[simp] theorem estimate_brLeft : (s.estimate).brLeft = s.brLeft := rfl
@[simp] theorem estimate_bwAcc : (s.estimate).bwAcc = s.bwAcc := rfl
@[simp] theorem estimate_bwBits : (s.estimate).bwBits = s.bwBits := rfl
@[simp] theorem estimate_hold : (s.estimate).hold = s.hold := rfl
@[simp] theorem estimate_outcnt : (s.estimate).outcnt = s.outcnt := rfl
@[simp] theorem estimate_lastNib : (s.estimate).lastNib = s.lastNib := rfl
@[simp] theorem estimate_runs : (s.estimate).runs = s.runs := rfl
@[simp] theorem estimate_phase : (s.estimate).phase = s.phase := rfl

/-! ## PACK: `afterPack` -/

@[simp] theorem afterPack_cmd : (s.afterPack).cmd = s.cmd := rfl
@[simp] theorem afterPack_argLen : (s.afterPack).argLen = s.argLen := rfl
@[simp] theorem afterPack_args : (s.afterPack).args = s.args := rfl
@[simp] theorem afterPack_status : (s.afterPack).status = s.status := rfl
@[simp] theorem afterPack_err : (s.afterPack).err = s.err := rfl
@[simp] theorem afterPack_dlen : (s.afterPack).dlen = s.dlen := rfl
@[simp] theorem afterPack_xsel : (s.afterPack).xsel = s.xsel := rfl
@[simp] theorem afterPack_src : (s.afterPack).src = s.src := rfl
@[simp] theorem afterPack_dst : (s.afterPack).dst = s.dst := rfl
@[simp] theorem afterPack_dpos : (s.afterPack).dpos = s.dpos := rfl
@[simp] theorem afterPack_xbuf : (s.afterPack).xbuf = s.xbuf := rfl
@[simp] theorem afterPack_cand0 : (s.afterPack).cand0 = s.cand0 := rfl
@[simp] theorem afterPack_cand1 : (s.afterPack).cand1 = s.cand1 := rfl
@[simp] theorem afterPack_freq : (s.afterPack).freq = s.freq := rfl
@[simp] theorem afterPack_len : (s.afterPack).len = s.len := rfl
@[simp] theorem afterPack_code : (s.afterPack).code = s.code := rfl
@[simp] theorem afterPack_best : (s.afterPack).best = s.best := rfl
@[simp] theorem afterPack_bestEst : (s.afterPack).bestEst = s.bestEst := rfl
@[simp] theorem afterPack_est : (s.afterPack).est = s.est := rfl
@[simp] theorem afterPack_rleSrc : (s.afterPack).rleSrc = s.rleSrc := rfl
@[simp] theorem afterPack_curRun : (s.afterPack).curRun = s.curRun := rfl
@[simp] theorem afterPack_qual : (s.afterPack).qual = s.qual := rfl
@[simp] theorem afterPack_trialSize : (s.afterPack).trialSize = s.trialSize := rfl
@[simp] theorem afterPack_forest : (s.afterPack).forest = s.forest := rfl
@[simp] theorem afterPack_lane : (s.afterPack).lane = s.lane := rfl
@[simp] theorem afterPack_lpos : (s.afterPack).lpos = s.lpos := rfl
@[simp] theorem afterPack_trie : (s.afterPack).trie = s.trie := rfl
@[simp] theorem afterPack_tcur : (s.afterPack).tcur = s.tcur := rfl
@[simp] theorem afterPack_ctx : (s.afterPack).ctx = s.ctx := rfl
@[simp] theorem afterPack_xflag : (s.afterPack).xflag = s.xflag := rfl
@[simp] theorem afterPack_tiles : (s.afterPack).tiles = s.tiles := rfl
@[simp] theorem afterPack_sp : (s.afterPack).sp = s.sp := rfl
@[simp] theorem afterPack_brCur : (s.afterPack).brCur = s.brCur := rfl
@[simp] theorem afterPack_brLeft : (s.afterPack).brLeft = s.brLeft := rfl
@[simp] theorem afterPack_bwAcc : (s.afterPack).bwAcc = (packSink s.xflag s.tiles s.best s.rleSrc).acc := rfl
@[simp] theorem afterPack_bwBits : (s.afterPack).bwBits = (packSink s.xflag s.tiles s.best s.rleSrc).nbits := rfl
@[simp] theorem afterPack_hold : (s.afterPack).hold = s.hold := rfl
@[simp] theorem afterPack_outcnt : (s.afterPack).outcnt = s.outcnt := rfl
@[simp] theorem afterPack_lastNib : (s.afterPack).lastNib = (packTable s.xflag s.tiles s.best).2 := rfl
@[simp] theorem afterPack_runs : (s.afterPack).runs = s.runs := rfl
@[simp] theorem afterPack_phase : (s.afterPack).phase = s.phase := rfl

/-! ## The start of RLE_DEC: `expandStart` -/

@[simp] theorem expandStart_cmd : (s.expandStart).cmd = s.cmd := rfl
@[simp] theorem expandStart_argLen : (s.expandStart).argLen = s.argLen := rfl
@[simp] theorem expandStart_args : (s.expandStart).args = s.args := rfl
@[simp] theorem expandStart_status : (s.expandStart).status = s.status := rfl
@[simp] theorem expandStart_err : (s.expandStart).err = s.err := rfl
@[simp] theorem expandStart_dlen : (s.expandStart).dlen = s.dlen := rfl
@[simp] theorem expandStart_xsel : (s.expandStart).xsel = s.xsel := rfl
@[simp] theorem expandStart_src : (s.expandStart).src = s.src := rfl
@[simp] theorem expandStart_dst : (s.expandStart).dst = s.dst := rfl
@[simp] theorem expandStart_dpos : (s.expandStart).dpos = s.dpos := rfl
@[simp] theorem expandStart_xbuf : (s.expandStart).xbuf = s.xbuf := rfl
@[simp] theorem expandStart_cand0 : (s.expandStart).cand0 = s.cand0 := rfl
@[simp] theorem expandStart_cand1 : (s.expandStart).cand1 = s.cand1 := rfl
@[simp] theorem expandStart_freq : (s.expandStart).freq = s.freq := rfl
@[simp] theorem expandStart_len : (s.expandStart).len = s.len := rfl
@[simp] theorem expandStart_code : (s.expandStart).code = s.code := rfl
@[simp] theorem expandStart_best : (s.expandStart).best = s.best := rfl
@[simp] theorem expandStart_bestEst : (s.expandStart).bestEst = s.bestEst := rfl
@[simp] theorem expandStart_est : (s.expandStart).est = s.est := rfl
@[simp] theorem expandStart_rleSrc : (s.expandStart).rleSrc = s.rleSrc := rfl
@[simp] theorem expandStart_curRun : (s.expandStart).curRun = s.curRun := rfl
@[simp] theorem expandStart_qual : (s.expandStart).qual = s.qual := rfl
@[simp] theorem expandStart_trialSize : (s.expandStart).trialSize = s.trialSize := rfl
@[simp] theorem expandStart_forest : (s.expandStart).forest = s.forest := rfl
@[simp] theorem expandStart_lane : (s.expandStart).lane = zeroLanes := rfl
@[simp] theorem expandStart_lpos : (s.expandStart).lpos = 0 := rfl
@[simp] theorem expandStart_trie : (s.expandStart).trie = s.trie := rfl
@[simp] theorem expandStart_tcur : (s.expandStart).tcur = s.tcur := rfl
@[simp] theorem expandStart_ctx : (s.expandStart).ctx = s.ctx := rfl
@[simp] theorem expandStart_xflag : (s.expandStart).xflag = s.xflag := rfl
@[simp] theorem expandStart_tiles : (s.expandStart).tiles = s.tiles := rfl
@[simp] theorem expandStart_sp : (s.expandStart).sp = s.sp := rfl
@[simp] theorem expandStart_brCur : (s.expandStart).brCur = s.brCur := rfl
@[simp] theorem expandStart_brLeft : (s.expandStart).brLeft = s.brLeft := rfl
@[simp] theorem expandStart_bwAcc : (s.expandStart).bwAcc = s.bwAcc := rfl
@[simp] theorem expandStart_bwBits : (s.expandStart).bwBits = s.bwBits := rfl
@[simp] theorem expandStart_hold : (s.expandStart).hold = none := rfl
@[simp] theorem expandStart_outcnt : (s.expandStart).outcnt = 0 := rfl
@[simp] theorem expandStart_lastNib : (s.expandStart).lastNib = s.lastNib := rfl
@[simp] theorem expandStart_runs : (s.expandStart).runs = s.runs := rfl
@[simp] theorem expandStart_phase : (s.expandStart).phase = s.phase := rfl

/-! ## RLE_DEC outside its precondition: `expandOutside` -/

@[simp] theorem expandOutside_cmd : (s.expandOutside).cmd = s.cmd := rfl
@[simp] theorem expandOutside_argLen : (s.expandOutside).argLen = s.argLen := rfl
@[simp] theorem expandOutside_args : (s.expandOutside).args = s.args := rfl
@[simp] theorem expandOutside_status : (s.expandOutside).status = s.status := rfl
@[simp] theorem expandOutside_err : (s.expandOutside).err = s.err := rfl
@[simp] theorem expandOutside_dlen : (s.expandOutside).dlen = s.dlen := rfl
@[simp] theorem expandOutside_xsel : (s.expandOutside).xsel = s.xsel := rfl
@[simp] theorem expandOutside_src : (s.expandOutside).src = s.src := rfl
@[simp] theorem expandOutside_dst : (s.expandOutside).dst = Memory.blank.storeBytes 0 (Config.unstatedExpansion s.runs s.xflag s.tiles).bytes := rfl
@[simp] theorem expandOutside_dpos : (s.expandOutside).dpos = (Config.unstatedExpansion s.runs s.xflag s.tiles).bytes.length := rfl
@[simp] theorem expandOutside_xbuf : (s.expandOutside).xbuf = s.xbuf := rfl
@[simp] theorem expandOutside_cand0 : (s.expandOutside).cand0 = s.cand0 := rfl
@[simp] theorem expandOutside_cand1 : (s.expandOutside).cand1 = s.cand1 := rfl
@[simp] theorem expandOutside_freq : (s.expandOutside).freq = s.freq := rfl
@[simp] theorem expandOutside_len : (s.expandOutside).len = s.len := rfl
@[simp] theorem expandOutside_code : (s.expandOutside).code = s.code := rfl
@[simp] theorem expandOutside_best : (s.expandOutside).best = s.best := rfl
@[simp] theorem expandOutside_bestEst : (s.expandOutside).bestEst = s.bestEst := rfl
@[simp] theorem expandOutside_est : (s.expandOutside).est = s.est := rfl
@[simp] theorem expandOutside_rleSrc : (s.expandOutside).rleSrc = s.rleSrc := rfl
@[simp] theorem expandOutside_curRun : (s.expandOutside).curRun = s.curRun := rfl
@[simp] theorem expandOutside_qual : (s.expandOutside).qual = s.qual := rfl
@[simp] theorem expandOutside_trialSize : (s.expandOutside).trialSize = s.trialSize := rfl
@[simp] theorem expandOutside_forest : (s.expandOutside).forest = s.forest := rfl
@[simp] theorem expandOutside_lane : (s.expandOutside).lane = (Config.unstatedExpansion s.runs s.xflag s.tiles).lane := rfl
@[simp] theorem expandOutside_lpos : (s.expandOutside).lpos = (Config.unstatedExpansion s.runs s.xflag s.tiles).lpos := rfl
@[simp] theorem expandOutside_trie : (s.expandOutside).trie = s.trie := rfl
@[simp] theorem expandOutside_tcur : (s.expandOutside).tcur = s.tcur := rfl
@[simp] theorem expandOutside_ctx : (s.expandOutside).ctx = s.ctx := rfl
@[simp] theorem expandOutside_xflag : (s.expandOutside).xflag = s.xflag := rfl
@[simp] theorem expandOutside_tiles : (s.expandOutside).tiles = s.tiles := rfl
@[simp] theorem expandOutside_sp : (s.expandOutside).sp = s.sp := rfl
@[simp] theorem expandOutside_brCur : (s.expandOutside).brCur = s.brCur := rfl
@[simp] theorem expandOutside_brLeft : (s.expandOutside).brLeft = s.brLeft := rfl
@[simp] theorem expandOutside_bwAcc : (s.expandOutside).bwAcc = s.bwAcc := rfl
@[simp] theorem expandOutside_bwBits : (s.expandOutside).bwBits = s.bwBits := rfl
@[simp] theorem expandOutside_hold : (s.expandOutside).hold = (Config.unstatedExpansion s.runs s.xflag s.tiles).hold := rfl
@[simp] theorem expandOutside_outcnt : (s.expandOutside).outcnt = (Config.unstatedExpansion s.runs s.xflag s.tiles).outcnt := rfl
@[simp] theorem expandOutside_lastNib : (s.expandOutside).lastNib = s.lastNib := rfl
@[simp] theorem expandOutside_runs : (s.expandOutside).runs = s.runs := rfl
@[simp] theorem expandOutside_phase : (s.expandOutside).phase = s.phase := rfl

/-! ## The start of UNPACK_TABLE: `tableStart` -/

@[simp] theorem tableStart_cmd : (s.tableStart).cmd = s.cmd := rfl
@[simp] theorem tableStart_argLen : (s.tableStart).argLen = s.argLen := rfl
@[simp] theorem tableStart_args : (s.tableStart).args = s.args := rfl
@[simp] theorem tableStart_status : (s.tableStart).status = s.status := rfl
@[simp] theorem tableStart_err : (s.tableStart).err = s.err := rfl
@[simp] theorem tableStart_dlen : (s.tableStart).dlen = s.dlen := rfl
@[simp] theorem tableStart_xsel : (s.tableStart).xsel = s.xsel := rfl
@[simp] theorem tableStart_src : (s.tableStart).src = s.src := rfl
@[simp] theorem tableStart_dst : (s.tableStart).dst = s.dst := rfl
@[simp] theorem tableStart_dpos : (s.tableStart).dpos = s.dpos := rfl
@[simp] theorem tableStart_xbuf : (s.tableStart).xbuf = s.xbuf := rfl
@[simp] theorem tableStart_cand0 : (s.tableStart).cand0 = s.cand0 := rfl
@[simp] theorem tableStart_cand1 : (s.tableStart).cand1 = s.cand1 := rfl
@[simp] theorem tableStart_freq : (s.tableStart).freq = s.freq := rfl
@[simp] theorem tableStart_len : (s.tableStart).len = s.len := rfl
@[simp] theorem tableStart_code : (s.tableStart).code = s.code := rfl
@[simp] theorem tableStart_best : (s.tableStart).best = s.best := rfl
@[simp] theorem tableStart_bestEst : (s.tableStart).bestEst = s.bestEst := rfl
@[simp] theorem tableStart_est : (s.tableStart).est = s.est := rfl
@[simp] theorem tableStart_rleSrc : (s.tableStart).rleSrc = s.rleSrc := rfl
@[simp] theorem tableStart_curRun : (s.tableStart).curRun = s.curRun := rfl
@[simp] theorem tableStart_qual : (s.tableStart).qual = s.qual := rfl
@[simp] theorem tableStart_trialSize : (s.tableStart).trialSize = s.trialSize := rfl
@[simp] theorem tableStart_forest : (s.tableStart).forest = s.forest := rfl
@[simp] theorem tableStart_lane : (s.tableStart).lane = s.lane := rfl
@[simp] theorem tableStart_lpos : (s.tableStart).lpos = s.lpos := rfl
@[simp] theorem tableStart_trie : (s.tableStart).trie = emptyRoot := rfl
@[simp] theorem tableStart_tcur : (s.tableStart).tcur = [] := rfl
@[simp] theorem tableStart_ctx : (s.tableStart).ctx = Config.ctxInit := rfl
@[simp] theorem tableStart_xflag : (s.tableStart).xflag = s.xflag := rfl
@[simp] theorem tableStart_tiles : (s.tableStart).tiles = s.tiles := rfl
@[simp] theorem tableStart_sp : (s.tableStart).sp = 0 := rfl
@[simp] theorem tableStart_brCur : (s.tableStart).brCur = 0#8 := rfl
@[simp] theorem tableStart_brLeft : (s.tableStart).brLeft = 0 := rfl
@[simp] theorem tableStart_bwAcc : (s.tableStart).bwAcc = s.bwAcc := rfl
@[simp] theorem tableStart_bwBits : (s.tableStart).bwBits = s.bwBits := rfl
@[simp] theorem tableStart_hold : (s.tableStart).hold = s.hold := rfl
@[simp] theorem tableStart_outcnt : (s.tableStart).outcnt = s.outcnt := rfl
@[simp] theorem tableStart_lastNib : (s.tableStart).lastNib = s.lastNib := rfl
@[simp] theorem tableStart_runs : (s.tableStart).runs = s.runs := rfl
@[simp] theorem tableStart_phase : (s.tableStart).phase = .header := rfl

/-! ## The start of UNPACK_BITS: `bitsStart` -/

@[simp] theorem bitsStart_cmd : (s.bitsStart).cmd = s.cmd := rfl
@[simp] theorem bitsStart_argLen : (s.bitsStart).argLen = s.argLen := rfl
@[simp] theorem bitsStart_args : (s.bitsStart).args = s.args := rfl
@[simp] theorem bitsStart_status : (s.bitsStart).status = s.status := rfl
@[simp] theorem bitsStart_err : (s.bitsStart).err = s.err := rfl
@[simp] theorem bitsStart_dlen : (s.bitsStart).dlen = s.dlen := rfl
@[simp] theorem bitsStart_xsel : (s.bitsStart).xsel = s.xsel := rfl
@[simp] theorem bitsStart_src : (s.bitsStart).src = s.src := rfl
@[simp] theorem bitsStart_dst : (s.bitsStart).dst = s.dst := rfl
@[simp] theorem bitsStart_dpos : (s.bitsStart).dpos = s.dpos := rfl
@[simp] theorem bitsStart_xbuf : (s.bitsStart).xbuf = s.xbuf := rfl
@[simp] theorem bitsStart_cand0 : (s.bitsStart).cand0 = s.cand0 := rfl
@[simp] theorem bitsStart_cand1 : (s.bitsStart).cand1 = s.cand1 := rfl
@[simp] theorem bitsStart_freq : (s.bitsStart).freq = s.freq := rfl
@[simp] theorem bitsStart_len : (s.bitsStart).len = s.len := rfl
@[simp] theorem bitsStart_code : (s.bitsStart).code = s.code := rfl
@[simp] theorem bitsStart_best : (s.bitsStart).best = s.best := rfl
@[simp] theorem bitsStart_bestEst : (s.bitsStart).bestEst = s.bestEst := rfl
@[simp] theorem bitsStart_est : (s.bitsStart).est = s.est := rfl
@[simp] theorem bitsStart_rleSrc : (s.bitsStart).rleSrc = s.rleSrc := rfl
@[simp] theorem bitsStart_curRun : (s.bitsStart).curRun = s.curRun := rfl
@[simp] theorem bitsStart_qual : (s.bitsStart).qual = s.qual := rfl
@[simp] theorem bitsStart_trialSize : (s.bitsStart).trialSize = s.trialSize := rfl
@[simp] theorem bitsStart_forest : (s.bitsStart).forest = s.forest := rfl
@[simp] theorem bitsStart_lane : (s.bitsStart).lane = s.lane := rfl
@[simp] theorem bitsStart_lpos : (s.bitsStart).lpos = s.lpos := rfl
@[simp] theorem bitsStart_trie : (s.bitsStart).trie = s.args.trie := rfl
@[simp] theorem bitsStart_tcur : (s.bitsStart).tcur = [] := rfl
@[simp] theorem bitsStart_ctx : (s.bitsStart).ctx = s.ctx := rfl
@[simp] theorem bitsStart_xflag : (s.bitsStart).xflag = s.xflag := rfl
@[simp] theorem bitsStart_tiles : (s.bitsStart).tiles = s.args.tiles := rfl
@[simp] theorem bitsStart_sp : (s.bitsStart).sp = s.args.sp := rfl
@[simp] theorem bitsStart_brCur : (s.bitsStart).brCur = s.brCur := rfl
@[simp] theorem bitsStart_brLeft : (s.bitsStart).brLeft = s.brLeft := rfl
@[simp] theorem bitsStart_bwAcc : (s.bitsStart).bwAcc = s.bwAcc := rfl
@[simp] theorem bitsStart_bwBits : (s.bitsStart).bwBits = s.bwBits := rfl
@[simp] theorem bitsStart_hold : (s.bitsStart).hold = s.hold := rfl
@[simp] theorem bitsStart_outcnt : (s.bitsStart).outcnt = s.outcnt := rfl
@[simp] theorem bitsStart_lastNib : (s.bitsStart).lastNib = s.lastNib := rfl
@[simp] theorem bitsStart_runs : (s.bitsStart).runs = s.runs := rfl
@[simp] theorem bitsStart_phase : (s.bitsStart).phase = .bits := rfl

/-! ## The start of an encode pass: `passStart` -/

@[simp] theorem passStart_cmd : (s.passStart).cmd = s.cmd := rfl
@[simp] theorem passStart_argLen : (s.passStart).argLen = s.argLen := rfl
@[simp] theorem passStart_args : (s.passStart).args = s.args := rfl
@[simp] theorem passStart_status : (s.passStart).status = s.status := rfl
@[simp] theorem passStart_err : (s.passStart).err = s.err := rfl
@[simp] theorem passStart_dlen : (s.passStart).dlen = s.dlen := rfl
@[simp] theorem passStart_xsel : (s.passStart).xsel = s.xsel := rfl
@[simp] theorem passStart_src : (s.passStart).src = s.src := rfl
@[simp] theorem passStart_dst : (s.passStart).dst = s.dst := rfl
@[simp] theorem passStart_dpos : (s.passStart).dpos = s.dpos := rfl
@[simp] theorem passStart_xbuf : (s.passStart).xbuf = s.xbuf := rfl
@[simp] theorem passStart_cand0 : (s.passStart).cand0 = s.cand0 := rfl
@[simp] theorem passStart_cand1 : (s.passStart).cand1 = s.cand1 := rfl
@[simp] theorem passStart_freq : (s.passStart).freq = s.freq := rfl
@[simp] theorem passStart_len : (s.passStart).len = zeroLen := rfl
@[simp] theorem passStart_code : (s.passStart).code = noCodes := rfl
@[simp] theorem passStart_best : (s.passStart).best = s.best := rfl
@[simp] theorem passStart_bestEst : (s.passStart).bestEst = s.bestEst := rfl
@[simp] theorem passStart_est : (s.passStart).est = 0 := rfl
@[simp] theorem passStart_rleSrc : (s.passStart).rleSrc = s.rleSrc := rfl
@[simp] theorem passStart_curRun : (s.passStart).curRun = s.curRun := rfl
@[simp] theorem passStart_qual : (s.passStart).qual = s.qual := rfl
@[simp] theorem passStart_trialSize : (s.passStart).trialSize = s.trialSize := rfl
@[simp] theorem passStart_forest : (s.passStart).forest = s.forest := rfl
@[simp] theorem passStart_lane : (s.passStart).lane = s.lane := rfl
@[simp] theorem passStart_lpos : (s.passStart).lpos = s.lpos := rfl
@[simp] theorem passStart_trie : (s.passStart).trie = s.trie := rfl
@[simp] theorem passStart_tcur : (s.passStart).tcur = s.tcur := rfl
@[simp] theorem passStart_ctx : (s.passStart).ctx = s.ctx := rfl
@[simp] theorem passStart_xflag : (s.passStart).xflag = s.xflag := rfl
@[simp] theorem passStart_tiles : (s.passStart).tiles = s.tiles := rfl
@[simp] theorem passStart_sp : (s.passStart).sp = s.sp := rfl
@[simp] theorem passStart_brCur : (s.passStart).brCur = s.brCur := rfl
@[simp] theorem passStart_brLeft : (s.passStart).brLeft = s.brLeft := rfl
@[simp] theorem passStart_bwAcc : (s.passStart).bwAcc = s.bwAcc := rfl
@[simp] theorem passStart_bwBits : (s.passStart).bwBits = s.bwBits := rfl
@[simp] theorem passStart_hold : (s.passStart).hold = s.hold := rfl
@[simp] theorem passStart_outcnt : (s.passStart).outcnt = s.outcnt := rfl
@[simp] theorem passStart_lastNib : (s.passStart).lastNib = s.lastNib := rfl
@[simp] theorem passStart_runs : (s.passStart).runs = s.runs := rfl
@[simp] theorem passStart_phase : (s.passStart).phase = s.phase := rfl

end Sys2Proof.Machine
end

