-- ==== Sys2Proof/Laws/Stream.lean ====
section
/-! SUPPORT. What the operations over a stream can do, each said once: the trie's insertion (R192), the delivery of a run
(R198, R201, R209), a fetch, an element, a run of elements. -/

namespace Sys2Proof

/-! ## The trie -/

@[simp] theorem Node.at_nil (node : Node) : node.at [] = node := by cases node <;> rfl

@[simp] theorem Node.at_cons (node : Node) (b : Bool) (path : List Bool) :
    node.at (b :: path) = (node.child b).at path := by cases node <;> rfl

theorem Node.at_append (node : Node) (p q : List Bool) : node.at (p ++ q) = (node.at p).at q := by
  induction p generalizing node with
  | nil => simp
  | cons b p ih => simp [ih]

@[simp] theorem Node.at_absent (p : List Bool) : Node.absent.at p = .absent := by
  induction p with
  | nil => rfl
  | cons b p ih => simp [Node.child, ih]

namespace Machine

/-! ## Ends of a command -/

theorem raise_ended (s : State) (k : Err) : (s.raise k).ended := Or.inr rfl
theorem finish_ended (s : State) : s.finish.ended := Or.inl rfl

/-! ## Delivering runs -/

/-- One nibble into the packer touches DST, its cursor, the lanes, HOLD and OUTCNT alone (R207, R209). -/
theorem putNibble_frame (s : State) (n : Nibble) :
    s.putNibble n =
      { s with
        dst := (s.putNibble n).dst, dpos := (s.putNibble n).dpos, lane := (s.putNibble n).lane,
        lpos := (s.putNibble n).lpos, hold := (s.putNibble n).hold, outcnt := s.outcnt + 1 } := by
  unfold State.putNibble
  split
  · rfl
  · unfold State.putByte; split <;> rfl

/-- A repeated nibble likewise. -/
theorem putNibbles_frame (c : Nat) (n : Nibble) (s : State) :
    State.putNibbles c n s =
      { s with
        dst := (State.putNibbles c n s).dst, dpos := (State.putNibbles c n s).dpos,
        lane := (State.putNibbles c n s).lane, lpos := (State.putNibbles c n s).lpos,
        hold := (State.putNibbles c n s).hold, outcnt := s.outcnt + c } := by
  induction c generalizing s with
  | zero => rfl
  | succ c ih =>
    rw [State.putNibbles, ih, putNibble_frame]
    simp only [Nat.add_assoc, Nat.add_comm 1 c]

/-- A run expanded likewise (R206). -/
theorem expandRun_frame (s : State) (r : Run) :
    s.expandRun r =
      { s with
        dst := (s.expandRun r).dst, dpos := (s.expandRun r).dpos, lane := (s.expandRun r).lane,
        lpos := (s.expandRun r).lpos, hold := (s.expandRun r).hold, outcnt := s.outcnt + Run.count r } :=
  putNibbles_frame _ _ s

/-- What emitting a run can do: an overrun is a fault; else the run is delivered (R198, R201). -/
theorem emitRun_cases (s : State) (r : Run) :
    (s.expectedNibbles < s.delivered + Run.count r ∧ s.emitRun r = ({ s with tcur := [] }).raise .outputOverrun) ∨
    (s.delivered + Run.count r ≤ s.expectedNibbles ∧ s.runsOnly = true ∧
      s.emitRun r = { s with tcur := [], runs := s.runs ++ [r] }) ∨
    (s.delivered + Run.count r ≤ s.expectedNibbles ∧ s.runsOnly = false ∧
      s.emitRun r = ({ s with tcur := [], runs := s.runs ++ [r] }).expandRun r) := by
  unfold State.emitRun
  by_cases h : s.expectedNibbles < s.delivered + Run.count r
  · exact .inl ⟨h, by rw [if_pos h]⟩
  · rw [if_neg h]
    cases hr : s.runsOnly with
    | true =>
      exact .inr (.inl ⟨by omega, rfl, rfl⟩)
    | false =>
      exact .inr (.inr ⟨by omega, rfl, rfl⟩)

/-- The nibbles of one run more (R206). -/
@[simp] theorem nibbleCount_append (rs ss : List Run) : nibbleCount (rs ++ ss) = nibbleCount rs + nibbleCount ss := by
  simp [nibbleCount]

/-- What UNPACK_BITS alone counts as delivered is the nibbles of the runs it lists (R198). -/
theorem delivered_runsOnly {s : State} (h : s.runsOnly = true) : s.delivered = nibbleCount s.runs := by
  rw [State.delivered, if_pos h]

/-- With the run expander in place OUTCNT counts (R198). -/
theorem delivered_expanded {s : State} (h : s.runsOnly = false) : s.delivered = s.outcnt := by
  rw [State.delivered, h]; rfl

/-! ## A run of elements -/

/-- A state with no command running stays. -/
theorem runElements_rest {fuel : Nat} {s : State} (h : s.status ≠ .busy) : runElements fuel s = .next s := by
  cases fuel with
  | zero => rfl
  | succ n => cases hs : s.status <;> simp_all [runElements]

/-- One element, then the rest. -/
theorem runElements_busy {fuel : Nat} {s : State} (h : s.status = .busy) :
    runElements (fuel + 1) s =
      match elementStep s with
      | .next s1 => runElements fuel s1
      | .fault r => .fault r
      | .refused r => .refused r := by
  rw [runElements, h] <;> rfl

/-- An invariant that every element keeps holds at the end of a run of elements. -/
theorem runElements_keeps {P : State → Prop} (h : ∀ s s', P s → s.status = .busy → elementStep s = .next s' → P s')
    {fuel : Nat} {s t : State} (hs : P s) (hr : runElements fuel s = .next t) : P t := by
  induction fuel generalizing s with
  | zero => rw [runElements] at hr; cases hr; exact hs
  | succ n ih =>
    by_cases hb : s.status = .busy
    · rw [runElements_busy hb] at hr
      cases he : elementStep s with
      | next s1 => rw [he] at hr; exact ih (h s s1 hs hb he) hr
      | fault r => rw [he] at hr; cases hr
      | refused r => rw [he] at hr; cases hr
    · rw [runElements_rest hb] at hr; cases hr; exact hs

/-- A step of a state with no command running does nothing (R250, R261). -/
theorem step_rest {s : State} (h : s.status ≠ .busy) : step s = .next s := by
  cases hs : s.status <;> simp_all [step]

/-- A step of a busy state is a fetch and the instruction's meaning. -/
theorem step_busy {s : State} (h : s.status = .busy) :
    step s = match s.fetch with | .raised s1 => .next s1 | .instr i s1 => exec i s1 := by
  simp only [step, h] <;> rfl

end Machine
end Sys2Proof
end

