-- ==== Sys2Proof/Laws/Ends.lean ====
section
/-! SUPPORT. A run of stream elements ends: every element but PAD takes at least one bit of a finite SRC (R269), so the bound
the model runs with is never reached. -/

namespace Sys2Proof

/-- How many bits a reader can still give. -/
def Reader.left (rd : Reader) : Nat := rd.nleft + 8 * rd.bytes.length

/-- A reader is further on: it can give fewer bits, and every byte it lost was taken. -/
def Reader.Past (rd rd' : Reader) : Prop :=
  rd'.left < rd.left ∧ rd'.taken + rd'.bytes.length = rd.taken + rd.bytes.length

theorem Reader.Past.trans {a b c : Reader} (h : a.Past b) (h' : b.Past c) : a.Past c :=
  ⟨lt_trans h'.1 h.1, h'.2.trans h.2⟩

theorem Reader.read1_past {rd rd' : Reader} {b : Byte} (h : rd.read1 = some (b, rd')) : rd.Past rd' := by
  obtain ⟨bytes, cur, nleft, taken⟩ := rd
  cases bytes with
  | nil => simp [Reader.read1] at h
  | cons c cs =>
    simp only [Reader.read1, Option.some.injEq, Prod.mk.injEq] at h
    obtain ⟨-, rfl⟩ := h
    refine ⟨?_, ?_⟩ <;> simp only [Reader.left, List.length_cons] <;> omega

theorem Reader.read2BE_past {rd rd' : Reader} {h : BitVec 16} (e : rd.read2BE = some (h, rd')) : rd.Past rd' := by
  unfold Reader.read2BE at e
  split at e
  · cases e
  · rename_i hi rd1 h1
    split at e
    · cases e
    · rename_i lo rd2 h2
      simp only [Option.some.injEq, Prod.mk.injEq] at e
      obtain ⟨-, rfl⟩ := e
      exact (Reader.read1_past h1).trans (Reader.read1_past h2)

theorem Reader.readBit_past {rd rd' : Reader} {b : Bool} (h : rd.readBit = some (b, rd')) : rd.Past rd' := by
  obtain ⟨bytes, cur, nleft, taken⟩ := rd
  cases nleft with
  | succ n =>
    simp only [Reader.readBit, Option.some.injEq, Prod.mk.injEq] at h
    obtain ⟨-, rfl⟩ := h
    constructor <;> simp [Reader.left]
  | zero =>
    cases bytes with
    | nil => simp [Reader.readBit, Reader.read1] at h
    | cons c cs =>
      simp only [Reader.readBit, Reader.read1, Option.some.injEq, Prod.mk.injEq] at h
      obtain ⟨-, rfl⟩ := h
      constructor <;> simp [Reader.left] <;> omega

theorem Reader.readBits_past {n v w : Nat} {rd rd' : Reader} (h : Reader.readBits (n + 1) v rd = some (w, rd')) :
    rd.Past rd' := by
  induction n generalizing v rd with
  | zero =>
    simp only [Reader.readBits] at h
    split at h
    · cases h
    · rename_i b rd1 h1
      simp only [Option.some.injEq, Prod.mk.injEq] at h
      obtain ⟨-, rfl⟩ := h
      exact Reader.readBit_past h1
  | succ n ih =>
    rw [Reader.readBits] at h
    split at h
    · cases h
    · rename_i b rd1 h1
      exact (Reader.readBit_past h1).trans (ih h)

theorem decodeEscFields_past {path : List Bool} {rd rd' : Reader} {i : Instr}
    (h : decodeEscFields path rd = .instr i rd') : rd.Past rd' ∧ ∃ c n, i = .esc c n := by
  unfold decodeEscFields at h
  split at h
  · cases h
  · rename_i c rd1 h1
    split at h
    · cases h
    · rename_i n rd2 h2
      cases h
      exact ⟨(Reader.readBits_past h1).trans (Reader.readBits_past h2), _, _, rfl⟩

namespace Machine

/-- What the walk answers as an instruction: the run of a leaf reached along the path, or an escape; the reader is not
behind where it was. -/
theorem walk_instr {node : Node} {path : List Bool} {rd rd' : Reader} {i : Instr} (h : walk node path rd = .instr i rd') :
    (rd' = rd ∨ rd.Past rd') ∧
    ((∃ q r, i = .code (path ++ q) ∧ ∀ stood, followPath node stood q = .leaf r) ∨ ∃ c n, i = .esc c n) := by
  induction node generalizing path rd with
  | absent => simp [walk] at h
  | leafRun r =>
    simp only [walk, Decoded.instr.injEq] at h
    obtain ⟨rfl, rfl⟩ := h
    exact ⟨.inl rfl, .inl ⟨[], r, by simp, fun _ => rfl⟩⟩
  | leafEsc =>
    obtain ⟨hp, he⟩ := decodeEscFields_past h
    exact ⟨.inr hp, .inr he⟩
  | inner clear set ihc ihs =>
    simp only [walk] at h
    split at h
    · cases h
    · rename_i b rd1 h1
      have hp := Reader.readBit_past h1
      cases b with
      | true =>
        obtain ⟨hr, hi⟩ := ihs h
        refine ⟨.inr (hr.elim (fun e => e ▸ hp) hp.trans), ?_⟩
        rcases hi with ⟨q, r, rfl, hq⟩ | hi
        · exact .inl ⟨true :: q, r, by simp, fun stood => by simp [followPath, hq]⟩
        · exact .inr hi
      | false =>
        obtain ⟨hr, hi⟩ := ihc h
        refine ⟨.inr (hr.elim (fun e => e ▸ hp) hp.trans), ?_⟩
        rcases hi with ⟨q, r, rfl, hq⟩ | hi
        · exact .inl ⟨false :: q, r, by simp, fun stood => by simp [followPath, hq]⟩
        · exact .inr hi

/-- What the bitstream decoder answers as an instruction. -/
theorem decodeBits_instr {node : Node} {rd rd' : Reader} {i : Instr} (h : decodeBits node rd = .instr i rd') :
    rd.Past rd' ∧
    ((∃ q r, i = .code q ∧ ∀ stood, followPath node stood q = .leaf r) ∨ ∃ c n, i = .esc c n) := by
  unfold decodeBits at h
  split at h
  · cases h
  · rename_i b rd1 h1
    have hp := Reader.readBit_past h1
    obtain ⟨hr, hi⟩ := walk_instr h
    refine ⟨hr.elim (fun e => e ▸ hp) hp.trans, hi.imp ?_ id⟩
    rintro ⟨q, r, rfl, hq⟩
    refine ⟨b :: q, r, rfl, fun stood => ?_⟩
    cases node with
    | inner clear set => cases b <;> simpa [followPath, Node.child] using hq _
    | absent => have := hq []; cases q <;> simp [Node.child, followPath] at this
    | leafRun r' => have := hq []; cases q <;> simp [Node.child, followPath] at this
    | leafEsc => have := hq []; cases q <;> simp [Node.child, followPath] at this

/-- What the decoder answers as an instruction at a place of the stream: a stream element; all but PAD take a bit. -/
theorem decodeAt_instr {r : Region} {node : Node} {rd rd' : Reader} {i : Instr} (hr : r ≠ .command)
    (h : decodeAt r node rd = .instr i rd') :
    (∃ n, i = .pad n) ∨
    (rd.Past rd' ∧
      ((∃ x t, i = .hdr x t) ∨ (∃ z n, i = .tnib z n) ∨ (∃ b c l k, i = .tent b c l k) ∨ i = .tend ∨
        (∃ q run, i = .code q ∧ ∀ stood, followPath node stood q = .leaf run) ∨ ∃ c n, i = .esc c n)) := by
  have entry : ∀ {b : Byte} {rd rd' : Reader} {i : Instr}, decodeEntryFrom b rd = .instr i rd' →
      rd.Past rd' ∧ ∃ b c l k, i = .tent b c l k := by
    intro b rd rd' i h
    unfold decodeEntryFrom at h
    split at h
    · cases h
    · rename_i k rd1 h1
      cases h
      exact ⟨Reader.read1_past h1, _, _, _, _, rfl⟩
  cases r with
  | command => exact absurd rfl hr
  | header =>
    simp only [decodeAt, decodeHeader] at h
    split at h
    · cases h
    · rename_i w rd1 h1
      cases h
      exact .inr ⟨Reader.read2BE_past h1, .inl ⟨_, _, rfl⟩⟩
  | table =>
    simp only [decodeAt, decodeTable] at h
    split at h
    · cases h
    · rename_i b rd1 h1
      have hp := Reader.read1_past h1
      split at h
      · cases h
        exact .inr ⟨hp, .inr (.inr (.inr (.inl rfl)))⟩
      · split at h
        · cases h
          exact .inr ⟨hp, .inr (.inl ⟨_, _, rfl⟩)⟩
        · obtain ⟨hp', he⟩ := entry h
          exact .inr ⟨hp.trans hp', .inr (.inr (.inl he))⟩
  | entry =>
    simp only [decodeAt, decodeEntry] at h
    split at h
    · cases h
    · rename_i b rd1 h1
      obtain ⟨hp', he⟩ := entry h
      exact .inr ⟨(Reader.read1_past h1).trans hp', .inr (.inr (.inl he))⟩
  | bits =>
    obtain ⟨hp, hi⟩ := decodeBits_instr h
    exact .inr ⟨hp, .inr (.inr (.inr (.inr hi)))⟩
  | tail =>
    simp only [decodeAt, Decoded.instr.injEq] at h
    exact .inl ⟨_, h.1.symm⟩

/-- The bits of SRC not read yet. -/
def State.bitsLeft (s : State) : Nat := s.brLeft + 8 * (s.argLen - s.sp)

theorem putReader_bitsLeft {s : State} {rd : Reader} (h : s.reader.Past rd) : (s.putReader rd).bitsLeft < s.bitsLeft := by
  have h1 := h.1
  have h2 := h.2
  simp only [Reader.left, State.reader, readBytes_length] at h1 h2
  simp only [State.bitsLeft, State.putReader]
  omega

/-- Emitting a run ends the command or leaves the cursor and the place in the stream. -/
theorem emitRun_goes (s : State) (r : Run) :
    (s.emitRun r).ended ∨
    ((s.emitRun r).status = s.status ∧ (s.emitRun r).phase = s.phase ∧ (s.emitRun r).bitsLeft = s.bitsLeft ∧
      (s.emitRun r).argLen = s.argLen) := by
  rcases emitRun_cases s r with ⟨-, h⟩ | ⟨-, -, h⟩ | ⟨-, -, h⟩
  · exact .inl (h ▸ raise_ended _ _)
  · exact .inr (by rw [h]; exact ⟨rfl, rfl, rfl, rfl⟩)
  · exact .inr (by rw [h, expandRun_frame]; exact ⟨rfl, rfl, rfl, rfl⟩)

/-- What one element of a stream does: it ends the command, or goes on with fewer bits left. -/
theorem elementStep_goes {s : State} (hb : s.status = .busy) (hp : s.phase ≠ .command) :
    ∃ t, elementStep s = .next t ∧
      (t.ended ∨ (t.status = .busy ∧ t.phase ≠ .command ∧ t.bitsLeft < s.bitsLeft ∧ t.argLen = s.argLen)) := by
  have hr : s.region ≠ .command := by
    unfold State.region
    split
    · simp
    · exact hp
  unfold elementStep State.fetch State.fetchReader State.afterFetch
  simp only [if_neg hp]
  cases hd : decodeAt s.region (s.trie.at s.tcur) s.reader with
  | short p rd => exact ⟨_, rfl, .inl (raise_ended _ _)⟩
  | noChild p rd => exact ⟨_, rfl, .inl (raise_ended _ _)⟩
  | unknownCommand c => exact ⟨_, rfl, .inl (raise_ended _ _)⟩
  | instr i rd =>
    rcases decodeAt_instr hr hd with ⟨n, rfl⟩ | ⟨hpast, hi⟩
    · exact ⟨_, rfl, .inl (finish_ended _)⟩
    · have hl := putReader_bitsLeft hpast
      have hs : (s.putReader rd).status = .busy := hb
      have ha : (s.putReader rd).argLen = s.argLen := rfl
      rcases hi with ⟨x, t, rfl⟩ | ⟨z, n, rfl⟩ | ⟨b, c, l, k, rfl⟩ | rfl | ⟨q, run, rfl, hq⟩ | ⟨c, n, rfl⟩
      · exact ⟨_, rfl, .inr ⟨hs, by simp, hl, ha⟩⟩
      · exact ⟨_, rfl, .inr ⟨hs, by simp, hl, ha⟩⟩
      · simp only [runElement, execTent]
        split
        · exact ⟨_, rfl, .inl (raise_ended _ _)⟩
        · split
          · exact ⟨_, rfl, .inl (raise_ended _ _)⟩
          · split
            · exact ⟨_, rfl, .inl (raise_ended _ _)⟩
            · split
              · exact ⟨_, rfl, .inl (raise_ended _ _)⟩
              · exact ⟨_, rfl, .inr ⟨hs, by simp, hl, ha⟩⟩
      · simp only [runElement, execTend]
        split
        · exact ⟨_, rfl, .inl (raise_ended _ _)⟩
        · refine ⟨_, rfl, ?_⟩
          split
          · exact .inl (finish_ended _)
          · refine .inr ⟨hs, by simp, ?_, ha⟩
            simp only [State.bitsLeft] at hl ⊢
            omega
      · refine ⟨(s.putReader rd).emitRun run, ?_, ?_⟩
        · have hf : followPath ((s.putReader rd).trie.at (s.putReader rd).tcur) (s.putReader rd).tcur q = .leaf run := hq _
          simp only [runElement, execCode, hf]
        · rcases emitRun_goes (s.putReader rd) run with h | ⟨h1, h2, h3, h4⟩
          · exact .inl h
          · exact .inr ⟨h1.trans hs, h2 ▸ hp, h3 ▸ hl, h4.trans ha⟩
      · refine ⟨_, rfl, ?_⟩
        rcases emitRun_goes (s.putReader rd) (runOf n c) with h | ⟨h1, h2, h3, h4⟩
        · exact .inl h
        · exact .inr ⟨h1.trans hs, h2 ▸ hp, h3 ▸ hl, h4.trans ha⟩

/-- A run of elements ends before its bound. -/
theorem runElements_ends {fuel : Nat} {s : State} (hb : s.status = .busy) (hp : s.phase ≠ .command)
    (hf : s.bitsLeft < fuel) : ∃ t, runElements fuel s = .next t ∧ t.ended := by
  induction fuel generalizing s with
  | zero => omega
  | succ n ih =>
    rw [runElements_busy hb]
    obtain ⟨t, ht, h⟩ := elementStep_goes hb hp
    rw [ht]
    rcases h with h | ⟨h1, h2, h3, -⟩
    · refine ⟨t, runElements_rest ?_, h⟩
      rcases h with h | h <;> rw [h] <;> simp
    · exact ih h1 h2 (by omega)

end Machine
end Sys2Proof
end

