-- ==== Sys2Proof/Laws/Expand.lean ====
section
/-! SUPPORT. The lane rules over sequences (R161 to R166) and the delivery of runs to RLE_DEC (R206 to R209). -/

namespace Sys2Proof.Machine

/-! ## The transform -/

@[simp] theorem xorPass_nil (rule : LaneRule) (lanes : Vector Byte 4) (pos : Nat) :
    xorPass rule lanes pos [] = ([], lanes) := rfl

theorem xorPass_cons (rule : LaneRule) (lanes : Vector Byte 4) (pos : Nat) (b : Byte) (bs : List Byte) :
    xorPass rule lanes pos (b :: bs) =
      ((laneStep rule lanes pos b).1 :: (xorPass rule (laneStep rule lanes pos b).2 (pos + 1) bs).1,
        (xorPass rule (laneStep rule lanes pos b).2 (pos + 1) bs).2) := rfl

/-- A pass keeps the length (R164, R165). -/
@[simp] theorem xorPass_length (rule : LaneRule) (lanes : Vector Byte 4) (pos : Nat) (bs : List Byte) :
    (xorPass rule lanes pos bs).1.length = bs.length := by
  induction bs generalizing lanes pos with
  | nil => rfl
  | cons b bs ih => rw [xorPass_cons, List.length_cons, List.length_cons, ih]

/-- A pass over two sequences is the pass over the first and then the second, lanes and position going along. -/
theorem xorPass_append (rule : LaneRule) (lanes : Vector Byte 4) (pos : Nat) (xs ys : List Byte) :
    xorPass rule lanes pos (xs ++ ys) =
      ((xorPass rule lanes pos xs).1 ++ (xorPass rule (xorPass rule lanes pos xs).2 (pos + xs.length) ys).1,
        (xorPass rule (xorPass rule lanes pos xs).2 (pos + xs.length) ys).2) := by
  induction xs generalizing lanes pos with
  | nil => simp
  | cons b bs ih =>
    rw [List.cons_append, xorPass_cons, ih, xorPass_cons]
    simp only [List.length_cons, List.cons_append]
    rw [show pos + 1 + bs.length = pos + (bs.length + 1) by omega]

/-! ## Nibbles -/

@[simp] theorem nibblesOf_nil : nibblesOf [] = [] := rfl

@[simp] theorem nibblesOf_append (xs ys : List Byte) : nibblesOf (xs ++ ys) = nibblesOf xs ++ nibblesOf ys := by
  simp [nibblesOf]

@[simp] theorem runNibbles_append (xs ys : List Run) : runNibbles (xs ++ ys) = runNibbles xs ++ runNibbles ys := by
  simp [runNibbles]

/-- The two nibbles of the byte `HOLD * 16 + x` (R53, R207). -/
theorem nibblesOf_pair (h n : Nibble) : nibblesOf [h ++ n] = [h, n] := by
  revert h n
  decide +kernel

/-! ## Delivery -/

/-- What one nibble sequence into the packer does, the memory kept canonical: as `Delivered` says of runs (R207 to R209). -/
def TookNibbles (s t : State) (ns : List Nibble) : Prop :=
  ∃ plain : List Byte,
    s.hold.toList ++ ns = nibblesOf plain ++ t.hold.toList ∧
    t.dpos = s.dpos + plain.length ∧
    t.dst = s.dst.storeBytes s.dpos (deXored s plain) ∧
    t.lpos = s.lpos + plain.length ∧
    t.lane = (if s.xflag then (xorPass (LaneRule.inverse Config.xorEnc) s.lane s.lpos plain).2 else s.lane) ∧
    t.outcnt = s.outcnt + ns.length ∧ t.xflag = s.xflag

theorem deXored_length (s : State) (plain : List Byte) : (deXored s plain).length = plain.length := by
  unfold deXored
  split <;> simp

theorem storeBytes_append (m : Memory) (a : Nat) (xs ys : List Byte) :
    m.storeBytes a (xs ++ ys) = (m.storeBytes a xs).storeBytes (a + xs.length) ys := by
  induction xs generalizing m a with
  | nil => rfl
  | cons b bs ih =>
    rw [List.cons_append, Memory.storeBytes, ih, Memory.storeBytes, List.length_cons,
      show a + 1 + bs.length = a + (bs.length + 1) by omega]

/-- Two deliveries in a row are one. -/
theorem TookNibbles.trans {s t u : State} {ns ms : List Nibble} (h : TookNibbles s t ns) (h' : TookNibbles t u ms) :
    TookNibbles s u (ns ++ ms) := by
  obtain ⟨p, h1, h2, h3, h4, h5, h6, h7⟩ := h
  obtain ⟨q, k1, k2, k3, k4, k5, k6, k7⟩ := h'
  refine ⟨p ++ q, ?_, ?_, ?_, ?_, ?_, ?_, k7.trans h7⟩
  · rw [← List.append_assoc, h1, List.append_assoc, k1, nibblesOf_append, List.append_assoc]
  · rw [k2, h2, List.length_append]; omega
  · rw [k3, h3, h2]
    have e : deXored s (p ++ q) = deXored s p ++ deXored t q := by
      unfold deXored
      rw [h7]
      split
      · rename_i hx
        rw [xorPass_append, h5, if_pos hx, h4]
      · rfl
    rw [e, storeBytes_append, deXored_length]
  · rw [k4, h4, List.length_append]; omega
  · rw [k5, h7, h5, h4]
    split
    · rw [xorPass_append]
    · rfl
  · rw [k6, h6, List.length_append]; omega

theorem putNibble_took (s : State) (n : Nibble) : TookNibbles s (s.putNibble n) [n] := by
  unfold State.putNibble
  cases hh : s.hold with
  | none => exact ⟨[], by simp [hh], rfl, by simp [deXored, Memory.storeBytes], rfl, by simp, rfl, rfl⟩
  | some h =>
    refine ⟨[h ++ n], ?_, ?_, ?_, ?_, ?_, ?_, ?_⟩
    · rw [hh, nibblesOf_pair]
      simp only [State.putByte]
      split <;> rfl
    case some.refine_6 => rfl
    all_goals
      simp only [State.putByte, deXored]
      split <;> rename_i hx <;> simp_all [xorPass_cons, Memory.storeBytes, State.write1]

theorem putNibbles_took (c : Nat) (n : Nibble) (s : State) :
    TookNibbles s (State.putNibbles c n s) (List.replicate c n) := by
  induction c generalizing s with
  | zero => exact ⟨[], by simp [State.putNibbles], rfl, by simp [deXored, Memory.storeBytes, State.putNibbles], rfl,
      by simp [State.putNibbles], rfl, rfl⟩
  | succ c ih =>
    have := (putNibble_took s n).trans (ih (s.putNibble n))
    rwa [List.singleton_append, ← List.replicate_succ] at this

/-- One run expanded (R206, R209). -/
theorem expandRun_took (s : State) (r : Run) : TookNibbles s (s.expandRun r) (runNibbles [r]) := by
  have e : runNibbles [r] = List.replicate (Run.count r) r.nib := by simp [runNibbles]
  exact e ▸ putNibbles_took (Run.count r) r.nib s

/-- Runs expanded one after another (R206). -/
theorem expandRuns_took (rs : List Run) (s : State) : TookNibbles s (rs.foldl State.expandRun s) (runNibbles rs) := by
  induction rs generalizing s with
  | nil => exact ⟨[], by simp [runNibbles], rfl, by simp [deXored, Memory.storeBytes], rfl, by simp, rfl, rfl⟩
  | cons r rs ih =>
    have := (expandRun_took s r).trans (ih (s.expandRun r))
    rwa [← runNibbles_append, List.singleton_append] at this

end Sys2Proof.Machine
end

