-- ==== Sys2Proof/Laws/Files.lean ====
section
/-! SUPPORT. The laws of the register files (R12, R21, R22) and of the sorted lists (R121, R141). -/

namespace Sys2Proof.Machine

/-- `key` numbers the runs without repeats (R21). -/
theorem key_injective : Function.Injective Run.key := by
  intro a b h
  obtain ⟨n, c⟩ := a
  obtain ⟨m, d⟩ := b
  have hc := c.isLt
  have hd := d.isLt
  have hv : n.toNat * 8 + c.toNat = m.toNat * 8 + d.toNat := congrArg Fin.val h
  have h1 : n.toNat = m.toNat := by omega
  have h2 : c.toNat = d.toNat := by omega
  rw [BitVec.eq_of_toNat_eq h1, BitVec.eq_of_toNat_eq h2]

/-- Reading the entry just written. -/
@[simp] theorem fileGet_fileSet_same {α : Type} (f : RunFile α) (r : Run) (v : α) : fileGet (fileSet f r v) r = v := by
  simp [fileGet, fileSet]

/-- "no entry aliases another" (R22). -/
theorem fileGet_fileSet_other {α : Type} (f : RunFile α) {r r' : Run} (v : α) (h : r ≠ r') :
    fileGet (fileSet f r v) r' = fileGet f r' := by
  have hk : (Run.key r).val ≠ (Run.key r').val := fun e => h (key_injective (Fin.ext e))
  simp [fileGet, fileSet, Vector.getElem_set_ne, hk]

theorem fileGet_fileSet {α : Type} (f : RunFile α) (r r' : Run) (v : α) :
    fileGet (fileSet f r v) r' = if r = r' then v else fileGet f r' := by
  by_cases h : r = r'
  · subst h; simp
  · rw [if_neg h, fileGet_fileSet_other f v h]

@[simp] theorem fileGet_zeroFreq (r : Run) : fileGet zeroFreq r = 0 := by simp [fileGet, zeroFreq]
@[simp] theorem fileGet_zeroLen (r : Run) : fileGet zeroLen r = 0#4 := by simp [fileGet, zeroLen]
@[simp] theorem fileGet_noCodes (r : Run) : fileGet noCodes r = none := by simp [fileGet, noCodes]

/-- What reading a codeword answers: the entry, unless it is absent or of length 0 (R22). -/
theorem codeAt_eq_some {f : RunFile (Option Codeword)} {r : Run} {cw : Codeword} :
    codeAt f r = some cw ↔ fileGet f r = some cw ∧ cw.len ≠ 0#4 := by
  simp [codeAt, Option.filter_eq_some_iff]

/-- A file with no entry of length 0 is read as it stands. -/
theorem codeAt_eq_fileGet {f : RunFile (Option Codeword)} {r : Run} (h : ∀ cw, fileGet f r = some cw → cw.len ≠ 0#4) :
    codeAt f r = fileGet f r := by
  cases hf : fileGet f r with
  | none => simp [codeAt, hf]
  | some cw => simp [codeAt, hf, h cw hf]

@[simp] theorem codeAt_noCodes (r : Run) : codeAt noCodes r = none := by simp [codeAt]

/-- A table with the invariant of R25 is read as it stands. -/
theorem CodesOk.codeAt_eq {f : RunFile (Option Codeword)} (h : CodesOk f) (r : Run) : codeAt f r = fileGet f r :=
  codeAt_eq_fileGet fun cw hc e => by simpa [e] using (h.fits r cw hc).1

/-- Every run is listed (R21). -/
theorem mem_allRuns (r : Run) : r ∈ allRuns := by
  obtain ⟨n, c⟩ := r
  revert n c
  decide +kernel

/-- The runs are listed in strictly ascending order of their keys (R21). -/
theorem allRuns_ascending : allRuns.Pairwise (fun a b => Run.key a < Run.key b) := by decide +kernel

theorem allRuns_nodup : allRuns.Nodup :=
  allRuns_ascending.imp fun h e => by subst e; exact lt_irrefl _ h

/-- Every run has its own place in the table's order, with its codeword (R172). -/
theorem mem_tableEntries {file : RunFile (Option Codeword)} {r : Run} {cw : Codeword} :
    (r, cw) ∈ tableEntries file ↔ codeAt file r = some cw := by
  unfold tableEntries
  rw [List.mem_filterMap]
  constructor
  · rintro ⟨a, -, h⟩
    cases hf : codeAt file a with
    | none => rw [hf] at h; simp at h
    | some c => rw [hf] at h; simp at h; obtain ⟨rfl, rfl⟩ := h; exact hf
  · intro h
    exact ⟨r, mem_allRuns r, by rw [h]; rfl⟩

theorem insertBy_perm {α : Type} (less : α → α → Bool) (x : α) (l : List α) : (insertBy less x l).Perm (x :: l) := by
  induction l with
  | nil => exact List.Perm.refl _
  | cons y ys ih =>
    simp only [insertBy]
    split
    · exact (ih.cons y).trans (List.Perm.swap x y ys)
    · exact List.Perm.refl _

/-- Sorting keeps the elements. -/
theorem sortBy_perm {α : Type} (less : α → α → Bool) (l : List α) : (sortBy less l).Perm l := by
  induction l with
  | nil => exact List.Perm.refl _
  | cons x xs ih => exact (insertBy_perm less x _).trans (ih.cons x)

/-- What sorting by `less` gives is sorted, when `less` is the strict part of a total order. -/
theorem sortBy_sorted {α : Type} (less : α → α → Bool)
    (trans : ∀ a b c, less b a = false → less c b = false → less c a = false)
    (asymm : ∀ a b, less a b = true → less b a = false) (l : List α) :
    (sortBy less l).Pairwise (fun a b => less b a = false) := by
  induction l with
  | nil => exact List.Pairwise.nil
  | cons x xs ih =>
    simp only [sortBy]
    generalize sortBy less xs = ys at ih
    induction ys with
    | nil => simp [insertBy]
    | cons y ys ihy =>
      rw [List.pairwise_cons] at ih
      simp only [insertBy]
      split
      · rename_i h
        rw [List.pairwise_cons]
        refine ⟨?_, ihy ih.2⟩
        intro z hz
        rcases List.mem_cons.1 ((insertBy_perm less x ys).mem_iff.1 hz) with rfl | hz
        · exact asymm _ _ h
        · exact ih.1 z hz
      · rename_i h
        rw [List.pairwise_cons]
        refine ⟨?_, by rw [List.pairwise_cons]; exact ih⟩
        intro z hz
        rcases List.mem_cons.1 hz with rfl | hz
        · simpa using h
        · exact trans _ _ _ (by simpa using h) (ih.1 z hz)

/-- FREQ counts the positions of a run (R114 e). -/
theorem fileGet_tally (rs : List Run) (r : Run) : fileGet (tally rs) r = rs.count r := by
  unfold tally
  suffices h : ∀ f : RunFile Nat, fileGet (rs.foldl (fun f r => fileSet f r (fileGet f r + 1)) f) r = fileGet f r + rs.count r by
    simpa using h zeroFreq
  induction rs with
  | nil => simp
  | cons x xs ih =>
    intro f
    rw [List.foldl_cons, ih, fileGet_fileSet, List.count_cons]
    by_cases h : x = r
    · subst h; simp; omega
    · simp [h]

end Sys2Proof.Machine
end

