-- ==== Sys2Proof/Laws/Pack.lean ====
section
/-! SUPPORT. What PACK's parts write: the table's bytes (R172, R173) and the bits of the runs (R93, R175). -/

namespace Sys2Proof.Machine

/-- The entries are appended as `tableBytes` says; no bit is pending (R173). -/
theorem packEntries_out (es : List (Run × Codeword)) (last : Option Nibble) (k : Sink) :
    (packEntries es last k).1 = { k with out := k.out ++ tableBytes last es } := by
  induction es generalizing last k with
  | nil => simp [packEntries, tableBytes]
  | cons e es ih =>
    obtain ⟨r, cw⟩ := e
    rw [packEntries, ih]
    simp only [tableBytes, Sink.write1, markerByte, entryByte]
    split <;> simp

/-- The header, the table and the terminator, byte by byte, with no bit pending (R171 to R174). -/
theorem packTable_out (x : Bool) (t : BitVec 15) (f : RunFile (Option Codeword)) :
    (packTable x t f).1 =
      { out := [(headerWord x t).extractLsb' 8 8, (headerWord x t).extractLsb' 0 8] ++
          tableBytes none (tableEntries f) ++ [0xFF#8],
        acc := 0#8, nbits := 0 } := by
  simp [packTable, packEntries_out, Sink.write1, Sink.write2BE, Sink.start, Config.terminator]

/-- One run appends its bits (R93). -/
theorem packRun_bits {k : Sink} (h : k.Ok) (f : RunFile (Option Codeword)) (r : Run) :
    (packRun f k r).bits = k.bits ++ runBits f r ∧ (packRun f k r).Ok := by
  cases hf : codeAt f r with
  | some cw =>
    simp only [packRun, runBits, hf]
    exact Sink.writeBits_bits h _ _
  | none =>
    simp only [packRun, runBits, hf]
    obtain ⟨h1, k1⟩ := Sink.writeBits_bits h Config.escCode Config.escLen
    obtain ⟨h2, k2⟩ := Sink.writeBits_bits k1 r.cm1.toNat 3
    obtain ⟨h3, k3⟩ := Sink.writeBits_bits k2 r.nib.toNat 4
    exact ⟨by rw [h3, h2, h1]; simp [encode, Config.escCode, Config.escLen], k3⟩

/-- The runs append their bits in order (R175). -/
theorem packRuns_bits {k : Sink} (h : k.Ok) (f : RunFile (Option Codeword)) (rs : List Run) :
    (rs.foldl (packRun f) k).bits = k.bits ++ rs.flatMap (runBits f) ∧ (rs.foldl (packRun f) k).Ok := by
  induction rs generalizing k with
  | nil => exact ⟨by simp, h⟩
  | cons r rs ih =>
    obtain ⟨h1, k1⟩ := packRun_bits h f r
    obtain ⟨h2, k2⟩ := ih k1
    exact ⟨by rw [List.foldl_cons, h2, h1, List.flatMap_cons, List.append_assoc], k2⟩

end Sys2Proof.Machine
end

