-- ==== Sys2Proof/Laws/PerInstr.lean ====
section
/-! SUPPORT. Statements about every instruction as syntax, one lemma per constructor. -/

namespace Sys2Proof.Laws.EncodingLength

/-- The least and the greatest length in bits of an instruction's format (R81; a command code is 8 bits, R100). -/
def formatBits : Instr → Nat × Nat
  | .hdr _ _ => (16, 16)
  | .tnib _ _ => (8, 8)
  | .tent _ _ _ _ => (16, 16)
  | .tend => (8, 8)
  | .code _ => (1, 8)
  | .esc _ _ => (13, 13)
  | .pad _ => (0, 7)
  | .encode => (8, 8)
  | .decode => (8, 8)
  | .encodeOne => (8, 8)
  | .rleEnc => (8, 8)
  | .pmSolve => (8, 8)
  | .canonGen => (8, 8)
  | .costEst => (8, 8)
  | .trialSearch => (8, 8)
  | .xorEnc => (8, 8)
  | .xorDec => (8, 8)
  | .pack => (8, 8)
  | .unpackTable => (8, 8)
  | .unpackBits => (8, 8)
  | .rleDec => (8, 8)

/-- R81: a well-formed instruction is encoded in the length of its format. -/
def Statement (i : Instr) : Prop :=
  i.wellFormed = true → (formatBits i).1 ≤ (encode i).length ∧ (encode i).length ≤ (formatBits i).2

theorem hdr (x : Bool) (t : BitVec 15) : Statement (.hdr x t) := by simp [Statement, formatBits, encode]
theorem tnib (z : BitVec 3) (n : Nibble) : Statement (.tnib z n) := by simp [Statement, formatBits, encode]
theorem tent (b : Bool) (c : BitVec 3) (l : BitVec 4) (k : Byte) : Statement (.tent b c l k) := by
  simp [Statement, formatBits, encode]
theorem tend : Statement .tend := by simp [Statement, formatBits, encode]
theorem code (path : List Bool) : Statement (.code path) := by
  intro h
  simp only [Instr.wellFormed, Bool.and_eq_true, decide_eq_true_eq] at h
  exact h.1
theorem esc (c : BitVec 3) (n : Nibble) : Statement (.esc c n) := by simp [Statement, formatBits, encode]
theorem pad (n : BitVec 3) : Statement (.pad n) := by
  intro _
  have := n.isLt
  simp only [formatBits, encode, List.length_replicate]
  omega
theorem encode : Statement .encode := by simp [Statement, formatBits, Sys2Proof.encode]
theorem decode : Statement .decode := by simp [Statement, formatBits, Sys2Proof.encode]
theorem encodeOne : Statement .encodeOne := by simp [Statement, formatBits, Sys2Proof.encode]
theorem rleEnc : Statement .rleEnc := by simp [Statement, formatBits, Sys2Proof.encode]
theorem pmSolve : Statement .pmSolve := by simp [Statement, formatBits, Sys2Proof.encode]
theorem canonGen : Statement .canonGen := by simp [Statement, formatBits, Sys2Proof.encode]
theorem costEst : Statement .costEst := by simp [Statement, formatBits, Sys2Proof.encode]
theorem trialSearch : Statement .trialSearch := by simp [Statement, formatBits, Sys2Proof.encode]
theorem xorEnc : Statement .xorEnc := by simp [Statement, formatBits, Sys2Proof.encode]
theorem xorDec : Statement .xorDec := by simp [Statement, formatBits, Sys2Proof.encode]
theorem pack : Statement .pack := by simp [Statement, formatBits, Sys2Proof.encode]
theorem unpackTable : Statement .unpackTable := by simp [Statement, formatBits, Sys2Proof.encode]
theorem unpackBits : Statement .unpackBits := by simp [Statement, formatBits, Sys2Proof.encode]
theorem rleDec : Statement .rleDec := by simp [Statement, formatBits, Sys2Proof.encode]

end Sys2Proof.Laws.EncodingLength
end

