-- ==== Sys2Proof/Tests/Slice0.lean ====
section
/-! SUPPORT. Tests: the well-formedness smoke, decoding of words written out from spec/30_encoding.md, one step or one
command per test with the result spec/95_test_vectors.md or a worked example of the rule gives, and a witness for the
hypotheses of each statement. -/

namespace Sys2Proof.Tests

-- one theorem at a time: each kernel evaluation on a thread of its own asks for more stack than a check allows
set_option Elab.async false

open Sys2Proof Sys2Proof.Machine

/-! ## Helpers -/

/-- A state with the given bytes in SRC and their number in ARG_LEN. -/
def withSrc (bs : List Byte) : State :=
  { State.reset with src := Memory.blank.storeBytes 0 bs, argLen := bs.length }

/-- A state with the given arguments of a unit operation placed. -/
def withArgs (s : State) (f : UnitArgs → UnitArgs) : State := { s with args := f s.args }

/-- In the middle of a DECODE at a place of the stream. -/
def busyAt (phase : Region) (bs : List Byte) : State :=
  { withSrc bs with status := .busy, cmd := 0x02#8, phase := phase }

/-- Whether an outcome is a next state with a property. -/
def ran (o : Host.Outcome State Fault Refusal) (p : State → Bool) : Bool :=
  match o with
  | .next t => p t
  | .fault _ => false
  | .refused _ => false

/-- Whether an outcome is a refusal. -/
def stopped (o : Host.Outcome State Fault Refusal) (r : Refusal) : Bool :=
  match o with
  | .next _ => false
  | .fault _ => false
  | .refused r' => r == r'

theorem ran_next {o : Host.Outcome State Fault Refusal} {p : State → Bool} (h : ran o p = true) :
    ∃ t, o = .next t ∧ p t = true := by
  cases o with
  | next t => exact ⟨t, rfl, h⟩
  | fault r => simp [ran] at h
  | refused r => simp [ran] at h

def run (n : Nibble) (c : BitVec 3) : Run := { nib := n, cm1 := c }
def cw (bits : Byte) (len : BitVec 4) : Option Codeword := some { bits := bits, len := len }

/-- The trie with `0 -> 0*8` and the escape leaf (R198's worked example). -/
def smallTrie : Node :=
  .inner (.leafRun (run 0 7))
    (.inner .absent (.inner .absent (.inner .absent (.inner .absent (.inner .absent .leafEsc)))))

/-- The four leaves of R128's worked example. -/
def fourLeaves : List Leaf :=
  [{ weight := 2, run := run 0 0 }, { weight := 2, run := run 1 0 }, { weight := 3, run := run 2 0 },
    { weight := 10, run := run 3 0 }]

def fourFreq : RunFile Nat :=
  fileSet (fileSet (fileSet (fileSet zeroFreq (run 0 0) 2) (run 1 0) 2) (run 2 0) 3) (run 3 0) 10

def fourLen : RunFile (BitVec 4) :=
  fileSet (fileSet (fileSet (fileSet zeroLen (run 0 0) 3) (run 1 0) 3) (run 2 0) 2) (run 3 0) 1

/-- The one-entry table `0*8 -> 0` (V-PK-5). -/
def oneCode : RunFile (Option Codeword) := fileSet noCodes (run 0 7) (cw 0 1)

/-! ## Well-formedness smoke: each check refuses an ill-formed term -/

theorem test_wf_tnib_is_tend : (Instr.tnib 7 15).wellFormed = false := by decide
theorem test_wf_tent_length_zero : (Instr.tent false 0 0 0).wellFormed = false := by decide
theorem test_wf_tent_length_nine : (Instr.tent false 7 9 0).wellFormed = false := by decide
theorem test_wf_tent_high_bit : (Instr.tent false 7 1 2).wellFormed = false := by decide
theorem test_wf_code_empty : (Instr.code []).wellFormed = false := by decide
theorem test_wf_code_nine_bits : (Instr.code (List.replicate 9 false)).wellFormed = false := by decide
theorem test_wf_code_begins_escape : (Instr.code [true, true]).wellFormed = false := by decide
theorem test_wf_code_past_escape : (Instr.code [true, true, true, true, true, true, false]).wellFormed = false := by
  decide
theorem test_wf_tent_good : (Instr.tent false 7 4 0b1110).wellFormed = true := by decide

/-! ## Decoding: words written out from the spec's encodings -/

/-- R82: flag 1, 2 tiles is 80 02. -/
theorem test_decode_hdr : decodeTableWord 16 0b1000000000000010 = some (.hdr true 2) := by decide
/-- R83: nibble 0xA is 8A. -/
theorem test_decode_tnib : decodeTableWord 8 0b10001010 = some (.tnib 0 10) := by decide
/-- R84: count 8, length 4, code 1110 is 74 0E. -/
theorem test_decode_tent : decodeTableWord 16 0b0111010000001110 = some (.tent false 7 4 0b1110) := by decide
/-- R85. -/
theorem test_decode_tend : decodeTableWord 8 0b11111111 = some .tend := by decide
/-- R86, R90: bit 0 under the table `0 -> 0*8`. -/
theorem test_decode_code :
    decodeAt .bits smallTrie { bytes := [0x00], cur := 0, nleft := 0, taken := 0 } =
      .instr (.code [false]) { bytes := [], cur := 0, nleft := 7, taken := 1 } := by decide
/-- R87: 5*3 is 111111 010 0101. -/
theorem test_decode_esc : decodeTableWord 16 0b1111110100101 = some (.esc 2 5) := by decide
/-- R87, in its place of the stream: the first bytes FD 28 of V-PK-5's bitstream. -/
theorem test_decode_esc_in_stream :
    decodeAt .bits smallTrie { bytes := [0xFD, 0x28], cur := 0, nleft := 0, taken := 0 } =
      .instr (.esc 2 5) { bytes := [], cur := 0x28, nleft := 3, taken := 2 } := by decide
/-- R88, R199: five bits left, none read. -/
theorem test_decode_pad :
    decodeAt .tail smallTrie { bytes := [], cur := 0x80, nleft := 5, taken := 0 } =
      .instr (.pad 5) { bytes := [], cur := 0x80, nleft := 5, taken := 0 } := by decide
/-- R100. -/
theorem test_decode_encode : decodeTableWord 8 0b00000001 = some .encode := by decide
theorem test_decode_decode : decodeTableWord 8 0b00000010 = some .decode := by decide
theorem test_decode_encodeOne : decodeTableWord 8 0b00000011 = some .encodeOne := by decide
theorem test_decode_rleEnc : decodeTableWord 8 0b00010000 = some .rleEnc := by decide
theorem test_decode_pmSolve : decodeTableWord 8 0b00100000 = some .pmSolve := by decide
theorem test_decode_canonGen : decodeTableWord 8 0b00110000 = some .canonGen := by decide
theorem test_decode_costEst : decodeTableWord 8 0b00110001 = some .costEst := by decide
theorem test_decode_trialSearch : decodeTableWord 8 0b00110010 = some .trialSearch := by decide
theorem test_decode_xorEnc : decodeTableWord 8 0b01000000 = some .xorEnc := by decide
theorem test_decode_xorDec : decodeTableWord 8 0b01000001 = some .xorDec := by decide
theorem test_decode_pack : decodeTableWord 8 0b01010000 = some .pack := by decide
theorem test_decode_unpackTable : decodeTableWord 8 0b01100000 = some .unpackTable := by decide
theorem test_decode_unpackBits : decodeTableWord 8 0b01100001 = some .unpackBits := by decide
theorem test_decode_rleDec : decodeTableWord 8 0b01110000 = some .rleDec := by decide
/-- R239: no command code. -/
theorem test_decode_unknown : decodeTableWord 8 0x77 = none := by decide

/-! ## Steps on words placed by withFetchWord -/

theorem test_step_hdr :
    ran (step (State.reset.withFetchWord 16 0x8002)) (fun t => t.xflag && t.tiles == 2#15 && t.sp == 2) = true := by
  decide +kernel
theorem test_step_tnib :
    ran (step (State.reset.withFetchWord 8 0x8A)) (fun t => t.ctx == some 10#4 && t.sp == 1) = true := by decide +kernel
theorem test_step_tent :
    ran (step (State.reset.withFetchWord 16 0x740E))
      (fun t => t.trie.at [true, true, true, false] == .leafRun (run 0 7)) = true := by decide +kernel
theorem test_step_tend :
    ran (step (State.reset.withFetchWord 8 0xFF)) (fun t => t.trie == escapeOnly && t.phase == .bits) = true := by
  decide +kernel
theorem test_step_esc :
    ran (step (State.reset.withFetchWord 16 0x1FA5))
      (fun t => t.outcnt == 3 && t.hold == some 5#4 && t.dst.read 0 == 0x55#8 && t.sp == 2 && t.brLeft == 3) = true := by
  decide +kernel
theorem test_step_pad : ran (step (State.reset.withFetchWord 0 0)) (fun t => t.status == .done) = true := by
  decide +kernel

/-! ## Stream elements -/

/-- V-F-12: bits 1, 0 lead to no child. -/
theorem test_code_invalid :
    ran (exec (.code [true, false]) { busyAt .bits [] with trie := smallTrie, tiles := 1 })
      (fun t => t.err == .invalidCode && t.status == .fault && t.dlen == 0) = true := by decide +kernel
/-- V-F-20: an eighth 0*8 after 57 nibbles does not fit. -/
theorem test_code_overrun :
    ran (exec (.code [false]) { busyAt .bits [] with trie := smallTrie, tiles := 1, outcnt := 57 })
      (fun t => t.err == .outputOverrun) = true := by decide +kernel
/-- S4: code 00 runs through the leaf at 0. -/
theorem test_tent_through_leaf :
    ran (exec (.tent false 7 2 0) { busyAt .table [] with ctx := some 1, trie := .inner (.leafRun (run 0 7)) .absent })
      (fun t => t.err == .malformedHeader) = true := by decide +kernel
/-- S4: code 11 stands on the escape's path. -/
theorem test_tend_escape_taken :
    ran (exec .tend { busyAt .table [] with trie := .inner .absent (.inner .absent (.leafRun (run 1 7))) })
      (fun t => t.err == .malformedHeader) = true := by decide +kernel

/-! ## Commands -/

/-- R113's worked example. -/
theorem test_rleEnc :
    ran (exec .rleEnc (withSrc [0x00, 0x00, 0x00, 0x00, 0x01]))
      (fun t => t.rleSrc == [run 0 7, run 0 0, run 1 0] && fileGet t.freq (run 1 0) == 1) = true := by decide +kernel
/-- V-RLE-2. -/
theorem test_rleEnc_across_bytes :
    ran (exec .rleEnc (withSrc [0x12, 0x22, 0x23])) (fun t => t.rleSrc == [run 1 0, run 2 3, run 3 0]) = true := by
  decide +kernel
/-- R128's worked example, V-PM-5. -/
theorem test_pmSolve :
    ran (exec .pmSolve (withArgs State.reset fun a => { a with trial := fourLeaves }))
      (fun t => t.len == fourLen) = true := by decide +kernel
/-- V-PM-2: weights 2, 3, 5 give 2, 2, 1. -/
theorem test_pmSolve_three :
    ran (exec .pmSolve (withArgs State.reset fun a =>
        { a with
          trial := [{ weight := 2, run := run 2 0 }, { weight := 3, run := run 1 0 }, { weight := 5, run := run 0 0 }] }))
      (fun t => fileGet t.len (run 2 0) == 2#4 && fileGet t.len (run 1 0) == 2#4 && fileGet t.len (run 0 0) == 1#4) =
      true := by decide +kernel
/-- R144's worked example, V-CG-4. -/
theorem test_canonGen :
    ran (exec .canonGen (withArgs State.reset fun a => { a with len := fourLen, freq := fourFreq }))
      (fun t => fileGet t.code (run 3 0) == cw 0 1 && fileGet t.code (run 2 0) == cw 2 2 &&
        fileGet t.code (run 0 0) == cw 6 3 && fileGet t.code (run 1 0) == cw 14 4) = true := by decide +kernel
/-- R147's worked example, V-CG-1. -/
theorem test_costEst :
    ran (exec .costEst (withArgs State.reset fun a =>
        { a with
          freq := fileSet (fileSet zeroFreq (run 0 0) 5) (run 1 0) 3,
          code := fileSet (fileSet noCodes (run 0 0) (cw 2 2)) (run 1 0) (cw 0 1) }))
      (fun t => t.est == 88) = true := by decide +kernel
/-- V-TS-2: trial 3 is kept over trial 2 at the equal estimate 128. -/
theorem test_trialSearch :
    ran (exec .trialSearch (withArgs State.reset fun a =>
        { a with
          freq := fileSet (fileSet (fileSet (fileSet zeroFreq (run 0 0) 5) (run 1 0) 3) (run 2 0) 2) (run 3 0) 1 }))
      (fun t => t.bestEst == some 128 && fileGet t.best (run 2 0) == cw 2 2) = true := by decide +kernel
/-- R164's worked example. -/
theorem test_xorEnc :
    ran (exec .xorEnc (withSrc [0x11, 0x22, 0x33, 0x44, 0x11, 0x22, 0x33, 0x44, 0x10, 0x20, 0x30, 0x40]))
      (fun t => t.dstBytes == [0x11, 0x22, 0x33, 0x44, 0x00, 0x00, 0x00, 0x00, 0x01, 0x02, 0x03, 0x04]) = true := by
  decide +kernel
/-- R165's worked example. -/
theorem test_xorDec :
    ran (exec .xorDec (withSrc [0x11, 0x22, 0x33, 0x44, 0x00, 0x00, 0x00, 0x00, 0x01, 0x02, 0x03, 0x04]))
      (fun t => t.dstBytes == [0x11, 0x22, 0x33, 0x44, 0x11, 0x22, 0x33, 0x44, 0x10, 0x20, 0x30, 0x40]) = true := by
  decide +kernel
/-- V-PK-5. -/
theorem test_pack :
    ran (exec .pack (withArgs State.reset fun a =>
        { a with
          tiles := 1, best := oneCode,
          rleSrc := [run 5 2, run 0 7, run 0 7, run 0 7, run 0 7, run 0 7, run 0 7, run 0 7, run 10 0, run 11 0, run 12 2] }))
      (fun t => t.dstBytes ==
        [0x00, 0x01, 0x80, 0x71, 0x00, 0xFF, 0xFD, 0x28, 0x0F, 0xC5, 0x7E, 0x2F, 0xF5, 0x80]) = true := by decide +kernel
/-- R194's worked example. -/
theorem test_unpackTable :
    ran (exec .unpackTable (withSrc [0x80, 0x02, 0x80, 0x73, 0x06, 0x81, 0x01, 0x00, 0x82, 0x02, 0x02, 0xFF, 0xDB]))
      (fun t => t.status == .done && t.xflag && t.tiles == 2#15 && t.sp == 12 &&
        t.trie.at [true, true, false] == .leafRun (run 0 7) && t.trie.at [true, false] == .leafRun (run 2 0)) = true := by
  decide +kernel
/-- V-F-14: the table has no terminator. -/
theorem test_unpackTable_short :
    ran (exec .unpackTable (withSrc [0x00, 0x01, 0x80, 0x71, 0x00])) (fun t => t.err == .ioFailure) = true := by
  decide +kernel
/-- R198's worked example. -/
theorem test_unpackBits :
    ran (exec .unpackBits (withArgs (withSrc [0xFD, 0x28, 0x0F, 0xC5, 0x7E, 0x2F, 0xF5, 0x80]) fun a =>
        { a with trie := smallTrie, tiles := 1 }))
      (fun t => t.status == .done && t.outcnt == 0 && t.brLeft == 5 &&
        t.runs == [run 5 2, run 0 7, run 0 7, run 0 7, run 0 7, run 0 7, run 0 7, run 0 7, run 10 0, run 11 0, run 12 2]) =
      true := by decide +kernel
/-- R209's worked example with XFLAG 1. -/
theorem test_rleDec :
    ran (exec .rleDec (withArgs State.reset fun a =>
        { a with
          xflag := true, tiles := 1,
          runs := [run 1 7, run 0 7, run 0 7, run 0 7, run 0 7, run 0 7, run 0 7, run 0 7] }))
      (fun t => t.dstBytes == List.replicate 32 0x11#8) = true := by decide +kernel
/-- R22: an entry of length 0 is no codeword, so COST_EST counts no entry and its run's two occurrences as escapes:
24 + 2 x 13 = 50, rounded 56. -/
theorem test_costEst_length_zero :
    ran (exec .costEst (withArgs State.reset fun a =>
        { a with freq := fileSet zeroFreq (run 0 7) 2, code := fileSet noCodes (run 0 7) (cw 0 0) }))
      (fun t => t.est == 56) = true := by decide +kernel
/-- R22, R93: PACK writes no entry for it and sends the run 0*8 by escape, 111111 111 0000; R240: what a faulted command left
in BEST, RLESRC and XFLAG does not matter. -/
theorem test_pack_length_zero :
    ran (exec .pack (withArgs (State.raise { State.reset with best := oneCode, rleSrc := [run 1 7], xflag := true } .ioFailure)
        fun a => { a with best := fileSet noCodes (run 0 7) (cw 0 0), rleSrc := [run 0 7] }))
      (fun t => t.dstBytes == [0x00, 0x00, 0xFF, 0xFF, 0x80]) = true := by decide +kernel
/-- R204: the runs of a faulted UNPACK_BITS are discarded. -/
theorem test_unpackBits_fault :
    ran (exec .unpackBits (withArgs (withSrc [0x00]) fun a => { a with trie := smallTrie, tiles := 2 }))
      (fun t => t.err == .ioFailure && t.runs == []) = true := by decide +kernel
/-- V-ENC-6: the empty input. -/
theorem test_encode_empty :
    ran (exec .encode State.reset) (fun t => t.dstBytes == [0x00, 0x00, 0xFF] && !t.xsel && t.status == .done) = true := by
  decide +kernel
/-- R218's worked example, S1. -/
theorem test_encodeOne :
    ran (exec .encodeOne (withSrc (List.replicate 32 0)))
      (fun t => t.dstBytes ==
        [0x00, 0x01, 0xFF, 0xFF, 0x87, 0xFC, 0x3F, 0xE1, 0xFF, 0x0F, 0xF8, 0x7F, 0xC3, 0xFE, 0x1F, 0xF0]) = true := by
  decide +kernel
/-- V-ENC-3, P4: eight rows 11 22 33 44. -/
theorem test_encode :
    ran (exec .encode (withSrc ((List.replicate 8 [0x11, 0x22, 0x33, 0x44]).flatten)))
      (fun t => t.xsel && t.dstBytes ==
        [0x80, 0x01, 0xFF, 0xFC, 0x8F, 0xE4, 0xBF, 0x27, 0xF9, 0x4F, 0xF8, 0x7F, 0xC3, 0xFE, 0x1F, 0xF0, 0xFF, 0x87,
          0xFC, 0x3F, 0xE0]) = true := by decide +kernel
/-- V-D-2, P2. -/
theorem test_decode_run :
    ran (exec .decode (withSrc [0x80, 0x01, 0x80, 0x71, 0x00, 0x81, 0x72, 0x02, 0xFF, 0x80, 0x00]))
      (fun t => t.dstBytes == List.replicate 32 0x11#8 && t.xsel && t.sp == 11 && t.brLeft == 7) = true := by
  decide +kernel
/-- P6: the stream runs out. -/
theorem test_decode_runs_out :
    ran (exec .decode (withSrc [0x00, 0x02, 0x80, 0x71, 0x00, 0xFF, 0x00]))
      (fun t => t.err == .ioFailure && t.dlen == 0 && t.dstBytes == []) = true := by decide +kernel

/-! ## Witnesses: for each statement with hypotheses, a state and operands that meet them -/

/-- In the bitstream of a one-tile stream whose table is `0 -> 0*8`, under DECODE. -/
def inBits (outcnt : Nat) (bs : List Byte) : State :=
  { busyAt .bits bs with trie := smallTrie, tiles := 1, outcnt := outcnt }

/-- The same under UNPACK_BITS issued alone, with the runs listed so far. -/
def inUnit (rs : List Run) (bs : List Byte) : State :=
  { busyAt .bits bs with cmd := 0x61#8, trie := smallTrie, tiles := 1, runs := rs }

theorem smallTrie_escape : ∀ p, smallTrie.at p = .leafEsc → p = escapePath := by
  intro p h
  rcases p with _ | ⟨_ | _, _ | ⟨_ | _, _ | ⟨_ | _, _ | ⟨_ | _, _ | ⟨_ | _, _ | ⟨_ | _, _ | ⟨c, p⟩⟩⟩⟩⟩⟩⟩ <;>
    first
      | rfl
      | (simp [smallTrie, Node.child] at h)

theorem fileGet_oneCode (r : Run) : fileGet oneCode r = if run 0 7 = r then cw 0 1 else none := by
  rw [oneCode, fileGet_fileSet, fileGet_noCodes]

/-- The table of one codeword meets R25's invariant. -/
theorem test_witness_codesOk : CodesOk oneCode := by
  have key : ∀ r c, fileGet oneCode r = some c → run 0 7 = r ∧ c = { bits := 0, len := 1 } := by
    intro r c h
    rw [fileGet_oneCode] at h
    split at h
    · exact ⟨by assumption, by cases h; rfl⟩
    · cases h
  refine ⟨?_, ?_, ?_⟩
  · intro r c h
    obtain ⟨-, rfl⟩ := key r c h
    decide
  · intro r₁ r₂ c₁ c₂ hne h1 h2
    exact absurd ((key r₁ c₁ h1).1.symm.trans (key r₂ c₂ h2).1) hne
  · intro r c h
    obtain ⟨-, rfl⟩ := key r c h
    decide

theorem test_witness_rest : State.reset.status ≠ .busy ∧ (busyAt .header []).status = .busy := by decide +kernel
theorem test_witness_unknown :
    decodeCommand 0x00 = none ∧ decodeCommand 0x04 = none ∧ decodeCommand 0x71 = none ∧ decodeCommand 0xFF = none := by
  decide
theorem test_witness_hostInput : State.reset.status ≠ .busy ∧ State.reset.src.wf = true := by decide +kernel
theorem test_witness_fetch_command :
    (State.reset.hostWriteCmd 0x10).status = .busy ∧ (State.reset.hostWriteCmd 0x10).phase = .command ∧
    decodeCommand (State.reset.hostWriteCmd 0x10).cmd = some .rleEnc := by decide +kernel
theorem test_witness_fetch_element :
    (inBits 0 [0x00]).status = .busy ∧ (inBits 0 [0x00]).phase ≠ .command ∧
    decodeAt (inBits 0 [0x00]).region ((inBits 0 [0x00]).trie.at (inBits 0 [0x00]).tcur)
      (inBits 0 [0x00]).reader = .instr (.code [false]) { bytes := [], cur := 0, nleft := 7, taken := 1 } := by
  decide +kernel
theorem test_witness_short :
    decodeAt (busyAt .header [0x80]).region ((busyAt .header [0x80]).trie.at []) (busyAt .header [0x80]).reader =
      .short [] { bytes := [], cur := 0x80, nleft := 0, taken := 1 } := by decide +kernel
theorem test_witness_noChild :
    decodeAt (inBits 0 [0x80]).region ((inBits 0 [0x80]).trie.at []) (inBits 0 [0x80]).reader =
      .noChild [true, false] { bytes := [], cur := 0x80, nleft := 6, taken := 1 } := by decide +kernel

/-- A busy state in the header, with the invariants, and a step from it. -/
theorem test_witness_inv : (busyAt .header [0x00, 0x01]).Inv ∧ (busyAt .header [0x00, 0x01]).StreamInv ∧
    ∃ t, step (busyAt .header [0x00, 0x01]) = .next t := by
  refine ⟨⟨?_, ?_, ?_, ?_, ?_, ?_, ?_, ?_, ?_, ?_, ?_, ?_⟩, ⟨?_, ?_, ?_, ?_, ?_⟩, ?_⟩
  case refine_3 => intro c hc; cases hc
  case refine_18 =>
    exact (ran_next (p := fun _ => true) (by decide +kernel)).imp fun t h => h.1
  all_goals decide +kernel
/-- The same in the bitstream, at the last run that fits. -/
theorem test_witness_streamInv :
    ({ inBits 56 [0x00] with dpos := 28 } : State).StreamInv ∧
    ∃ t, step { inBits 56 [0x00] with dpos := 28 } = .next t := by
  refine ⟨⟨?_, ?_, ?_, ?_, ?_⟩, ?_⟩
  case refine_6 =>
    exact (ran_next (p := fun _ => true) (by decide +kernel)).imp fun t h => h.1
  all_goals decide +kernel

theorem test_witness_roundtrip_code :
    (Instr.code [false]).wellFormed = true ∧ smallTrie.at [false] = .leafRun (run 0 7) ∧
    (⟨[], 0x01, 2, 0⟩ : Reader).unread = encode (.code [false]) ++ [true] := by decide
theorem test_witness_roundtrip_esc :
    (Instr.esc 2 5).wellFormed = true ∧ smallTrie.at escapePath = .leafEsc ∧
    (⟨[0xFD, 0x28], 0, 0, 0⟩ : Reader).unread = encode (.esc 2 5) ++ [false, false, false] := by decide
theorem test_witness_roundtrip_pad : (⟨[], 0x80, 7, 0⟩ : Reader).unread = encode (.pad 7) ++ [] := by decide
theorem test_witness_roundtrip_bytes :
    (⟨[0x80, 0x02, 0x8A, 0x74, 0x0E], 0, 0, 0⟩ : Reader).unread = encode (.hdr true 2) ++ byteBits [0x8A, 0x74, 0x0E] ∧
    (⟨[0x8A, 0x74, 0x0E], 0, 0, 0⟩ : Reader).unread = encode (.tnib 0 10) ++ byteBits [0x74, 0x0E] ∧
    (⟨[0x74, 0x0E], 0, 0, 0⟩ : Reader).unread = encode (.tent false 7 4 14) ++ [] ∧
    (⟨[0xF4, 0x0E], 0, 0, 0⟩ : Reader).unread = encode (.tent true 7 4 14) ++ [] ∧
    (⟨[0xFF], 0, 0, 0⟩ : Reader).unread = encode .tend ++ [] ∧
    (⟨[0x70], 0, 0, 0⟩ : Reader).unread = encode .rleDec ++ [] := by decide
theorem test_witness_decodedBits :
    (∀ p, smallTrie.at p = .leafEsc → p = escapePath) ∧
    decodeAt .bits smallTrie ⟨[0xFD, 0x28], 0, 0, 0⟩ = .instr (.esc 2 5) ⟨[], 0x28, 3, 2⟩ :=
  ⟨smallTrie_escape, by decide⟩
theorem test_witness_bits : 5 < 2 ^ 3 ∧ 0 < 2 ^ 0 ∧ 255 < 2 ^ 8 := by decide

theorem test_witness_header :
    (busyAt .header [0x80, 0x02]).sp + 2 ≤ (busyAt .header [0x80, 0x02]).argLen ∧
    (busyAt .header [0x80]).argLen < (busyAt .header [0x80]).sp + 2 := by decide +kernel
/-- One state for each arm of R89, a last byte of SRC among them. -/
theorem test_witness_table :
    (busyAt .table [0xFF]).src.read 0 = 0xFF#8 ∧ (busyAt .table [0xFE]).src.read 0 = 0xFE#8 ∧
    (0xFE#8).getLsbD 7 = true ∧ (busyAt .table [0x71, 0x00]).sp + 1 < (busyAt .table [0x71, 0x00]).argLen ∧
    (0x7F#8).getLsbD 7 = false ∧ (busyAt .entry [0xFF]).argLen ≤ (busyAt .entry [0xFF]).sp + 1 := by decide +kernel
/-- An entry that is accepted, one at length 8, and one for each failing test. -/
theorem test_witness_tent :
    insertAt (.leafRun (run 1 7)) (bitsOf 1 0) emptyRoot = some (.inner (.leafRun (run 1 7)) .absent) ∧
    (insertAt (.leafRun (run 1 7)) (bitsOf 8 0xFB) emptyRoot).isSome = true ∧ (busyAt .table []).ctx = none ∧
    2 ^ 1 ≤ (2#8).toNat ∧ insertAt (.leafRun (run 1 7)) (bitsOf 2 0) smallTrie = none := by decide +kernel
theorem test_witness_insert :
    Node.isLeaf (.leafRun (run 1 7)) = true ∧ Node.isInner smallTrie = true ∧
    insertAt (.leafRun (run 1 7)) [false, true] smallTrie = none ∧ Node.isLeaf (smallTrie.at [false]) = true ∧
    insertAt (.leafRun (run 1 7)) [true, true] smallTrie = none ∧ smallTrie.at [true, true] ≠ .absent ∧
    (insertAt (.leafRun (run 1 7)) [true, false] smallTrie).isSome = true := by decide
theorem test_witness_tend :
    Node.isInner emptyRoot = true ∧ emptyRoot.at escapePath = .absent ∧
    (∀ p ∈ escapePath.inits, p ≠ escapePath → Node.isLeaf (emptyRoot.at p) = false) ∧
    [true] <+: escapePath ∧ Node.isLeaf ((Node.inner .absent (.leafRun (run 1 7))).at [true]) = true ∧
    smallTrie.at escapePath ≠ .absent := by decide
/-- The last CODE and the last ESC that fit, and the first that do not. -/
theorem test_witness_runs :
    (inBits 56 []).tcur = [] ∧ (inBits 56 []).trie.at [false] = .leafRun (run 0 7) ∧
    (inBits 56 []).dst.wf = true ∧
    (inBits 56 []).delivered + Run.count (run 0 7) ≤ (inBits 56 []).tiles.toNat * 64 ∧
    (inBits 63 []).delivered + ((0#3).toNat + 1) ≤ (inBits 63 []).tiles.toNat * 64 ∧
    (inBits 57 []).tiles.toNat * 64 < (inBits 57 []).delivered + Run.count (run 0 7) ∧
    (inBits 64 []).tiles.toNat * 64 < (inBits 64 []).delivered + ((0#3).toNat + 1) := by decide +kernel
/-- The same under UNPACK_BITS alone: 56 nibbles listed, and 64. -/
theorem test_witness_unitRuns :
    (inUnit (List.replicate 7 (run 0 7)) []).delivered + Run.count (run 0 7) ≤
      (inUnit (List.replicate 7 (run 0 7)) []).tiles.toNat * 64 ∧
    (inUnit (List.replicate 7 (run 0 7)) []).delivered + ((7#3).toNat + 1) ≤
      (inUnit (List.replicate 7 (run 0 7)) []).tiles.toNat * 64 ∧
    (inUnit (List.replicate 8 (run 0 7)) []).tiles.toNat * 64 <
      (inUnit (List.replicate 8 (run 0 7)) []).delivered + Run.count (run 0 7) ∧
    (inUnit (List.replicate 8 (run 0 7)) []).tiles.toNat * 64 ≤ (inUnit (List.replicate 8 (run 0 7)) []).delivered := by
  decide +kernel
theorem test_witness_noLeaf :
    [true] ++ [false] <+: [true, false] ∧ Node.isInner (smallTrie.at [true]) = true ∧
    smallTrie.at ([true] ++ [false]) = .absent ∧ smallTrie.at escapePath = .leafEsc ∧
    Node.isLeaf (smallTrie.at [false]) = true := by decide
theorem test_witness_pad :
    (inBits 64 []).tiles.toNat * 64 ≤ (inBits 64 []).delivered ∧
    (inBits 64 []).phase = .bits ∧ (inBits 64 []).status = .busy := by decide +kernel
theorem test_witness_rleRuns : rleOf [0x12, 0x22, 0x23] = [run 1 0, run 2 3, run 3 0] := by decide
/-- Coins in weight order, a leaf and a package of equal weight among them. -/
theorem test_witness_coins :
    (leafCoins fourLeaves).Pairwise (fun a b => Coin.weight a ≤ Coin.weight b) ∧
    (package (leafCoins fourLeaves)).Pairwise (fun a b => Coin.weight a ≤ Coin.weight b) := by decide
/-- R128's domain: four leaves, and two. -/
theorem test_witness_trial :
    trialOk fourLeaves = true ∧
    trialOk [{ weight := 3, run := run 2 0 }, { weight := 10, run := run 3 0 }] = true ∧
    (withArgs State.reset fun a => { a with trial := fourLeaves }).args.trial = fourLeaves ∧
    (fourLeaves.map fun _ => 2 ^ (8 - 2)).sum ≤ 2 ^ 8 := by decide +kernel
theorem test_witness_reserved : reserved 1 1 = true ∧ reserved 252 8 = true ∧ reserved 251 8 = false := by decide
/-- Five coins make two packages. -/
theorem test_witness_package : 1 < ([Coin.leaf (run 0 0) 2, .leaf (run 1 0) 2, .leaf (run 2 0) 3, .leaf (run 3 0) 4,
    .leaf (run 4 0) 5].length) / 2 := by decide
/-- In R144's worked example D stands before C, and C has a codeword. -/
theorem test_witness_order :
    0 < (fileGet fourLen (run 3 0)).toNat ∧ canonBefore fourLen fourFreq (run 3 0) (run 2 0) = true ∧
    fileGet (canonical fourLen fourFreq) (run 2 0) = cw 2 2 := by decide +kernel
/-- The order of R144's worked example begins with D, C, A, B; nothing comes after B (R145). -/
theorem test_witness_canonOrder :
    canonOrder fourLen fourFreq = [run 3 0, run 2 0, run 0 0, run 1 0] ∧ (fileGet fourLen (run 3 0)).toNat ≤ 8 := by
  decide +kernel
/-- Both ends of `CodeAfter`: C after D, and the first run none is left for, after the code 251 of length 8. -/
theorem test_witness_codeAfter :
    candidateAfter { bits := 0, len := 1 } 2 = 2 ∧ reserved 2 2 = false ∧
    candidateAfter { bits := 251, len := 8 } 8 = 252 ∧ reserved 252 8 = true := by decide
theorem test_witness_noLen : (fileGet fourLen (run 4 0)).toNat = 0 ∧ 9 ≤ (15#4).toNat := by decide +kernel
theorem test_witness_tally : fileGet (tally [run 0 7, run 0 7]) (run 0 7) = 2 := by decide +kernel
theorem test_witness_search :
    (qualifying zeroFreq).length < 2 ∧ 2 ≤ (qualifying fourFreq).length ∧ (qualifying fourFreq).length = 4 := by
  decide +kernel
theorem test_witness_lengths :
    encodeLengthOk 32 = true ∧ encodeLengthOk 0 = true ∧ encodeLengthOk (32767 * 32) = true ∧ 33 % 32 ≠ 0 ∧
    32767 < 32768 * 32 / 32 := by decide
/-- The table of one codeword, packed, with a byte after it. -/
theorem test_witness_unpackTable :
    CodesOk oneCode ∧ (withSrc [0x80, 0x01, 0x80, 0x71, 0x00, 0xFF, 0xAA]).srcBytes =
      (packTable true 1 oneCode).1.out ++ [0xAA] := ⟨test_witness_codesOk, by decide +kernel⟩
/-- Eight runs by their codeword, from the second byte of SRC on; and the bits of an escape. -/
theorem test_witness_unpackBits :
    byteBits ((withSrc [0xAA, 0x00, 0xFF]).src.readBytes 1 ((withSrc [0xAA, 0x00, 0xFF]).argLen - 1)) =
      ((List.replicate 8 (run 0 7, [false])).flatMap Prod.snd) ++ List.replicate 8 true ∧
    smallTrie.at [false] = .leafRun (run 0 7) ∧ smallTrie.at escapePath = .leafEsc ∧
    ((List.replicate 8 (run 0 7, [false])).map fun e => Run.count e.1).sum = (1#15).toNat * 64 ∧
    encode (.esc 2 5) = escapePath ++ [false, true, false, false, true, false, true] := by decide +kernel
/-- Runs that keep R209's precondition, up to its bound, and one nibble past it. -/
theorem test_witness_rleDec :
    nibbleCount (List.replicate 8 (run 0 7)) ≤ (1#15).toNat * 64 ∧
    (1#15).toNat * 64 < nibbleCount (run 0 0 :: List.replicate 8 (run 0 7)) := by decide
/-- The runs of three bytes, which one tile holds. -/
theorem test_witness_rleRoundTrip :
    (withArgs State.reset fun a => { a with runs := rleOf [0x12, 0x22, 0x23], tiles := 1 }).args.runs =
      rleOf [0x12, 0x22, 0x23] ∧ [0x12#8, 0x22#8, 0x23#8].length ≤ (1#15).toNat * 32 := by decide +kernel
/-- Eight runs 0*8 packed with that table, and a byte after them (P1). -/
theorem test_witness_decode :
    CodesOk oneCode ∧ (runNibbles (List.replicate 8 (run 0 7))).length = (1#15).toNat * 64 ∧
    (withSrc [0x00, 0x01, 0x80, 0x71, 0x00, 0xFF, 0x00, 0xAA]).srcBytes =
      packBytes false 1 oneCode (List.replicate 8 (run 0 7)) ++ [0xAA] :=
  ⟨test_witness_codesOk, by decide +kernel, by decide +kernel⟩
theorem test_witness_command : regionOf .encode = .command ∧ regionOf .rleDec = .command := by decide
/-- A stream of no tile: the three units one after another, each ending DONE. -/
theorem test_witness_units :
    ran (exec .unpackTable (withSrc [0x00, 0x00, 0xFF])) (fun t₁ => t₁.status == .done &&
      ran (exec .unpackBits t₁.handOver) (fun t₂ => t₂.status == .done &&
        ran (exec .rleDec t₂.handOver) fun t₃ => t₃.status == .done)) = true := by decide +kernel
/-- UNPACK_TABLE ends in a fault; UNPACK_BITS ends in one after a good table. -/
theorem test_witness_units_fault :
    ran (exec .unpackTable (withSrc [0x00])) (fun t₁ => t₁.status == .fault) = true ∧
    ran (exec .unpackTable (withSrc [0x00, 0x01, 0xFF])) (fun t₁ => t₁.status == .done &&
      ran (exec .unpackBits t₁.handOver) fun t₂ => t₂.status == .fault) = true := by decide +kernel
/-- A stream that decodes, and the same with a byte after it. -/
theorem test_witness_trailing :
    ran (exec .decode (withSrc [0x00, 0x00, 0xFF])) (fun t => t.status == .done) = true ∧
    (withSrc [0x00, 0x00, 0xFF, 0x55]).srcBytes = (withSrc [0x00, 0x00, 0xFF]).srcBytes ++ [0x55] := by decide +kernel
/-- The empty input encoded, and its stream placed in SRC. -/
theorem test_witness_encodeDecode :
    State.reset.argLen % 32 = 0 ∧ State.reset.argLen / 32 ≤ 32767 ∧
    ran (exec .encode State.reset) (fun t => (withSrc [0x00, 0x00, 0xFF]).srcBytes == t.dstBytes) = true := by
  decide +kernel
theorem test_witness_sameInput :
    (withSrc [0x00, 0x01]).srcBytes = ({ withSrc [0x00, 0x01] with xflag := true, outcnt := 5 } : State).srcBytes ∧
    (withSrc [0x00, 0x01]).args = ({ withSrc [0x00, 0x01] with xflag := true, outcnt := 5 } : State).args := by
  decide +kernel

end Sys2Proof.Tests
end

section
/-! CANON_GEN hands its codes out in rising order, none of them reserved (R142 to R145): the invariant of R25. -/

namespace Sys2Proof.Machine

/-! ## Bit strings as numbers -/

/-- A string of bits that begins another is the number of the other's leading bits. -/
theorem bitsOf_prefix {m n a b : Nat} (ha : a < 2 ^ m) (hb : b < 2 ^ n) (h : bitsOf m a <+: bitsOf n b) :
    m ≤ n ∧ b / 2 ^ (n - m) = a := by
  have hmn : m ≤ n := by simpa using h.length_le
  refine ⟨hmn, ?_⟩
  obtain ⟨k, rfl⟩ := Nat.exists_eq_add_of_le hmn
  rw [bitsOf_add] at h
  have he : bitsOf m a = bitsOf m (b / 2 ^ k) :=
    (List.prefix_of_prefix_length_le h (List.prefix_append _ _) (by simp)).eq_of_length (by simp)
  have hlt : b / 2 ^ k < 2 ^ m := Nat.div_lt_of_lt_mul (by rwa [Nat.mul_comm, ← Nat.pow_add])
  simpa using (bitsOf_eq_of_lt ha hlt he).symm

/-! ## CANON_GEN -/

/-- A candidate that is not reserved meets the escape codeword in no direction (R25, R142). -/
theorem not_reserved_escape {l code : Nat} (hl : l ≤ 8) (hc : code < 2 ^ l) (hr : reserved code l = false) :
    ¬ (bitsOf l code <+: escapePath) ∧ ¬ (escapePath <+: bitsOf l code) := by
  constructor
  · intro h
    obtain ⟨hle, hv⟩ := bitsOf_prefix (n := 6) hc (by decide) h
    have : reserved code l = true := by
      subst hv
      interval_cases l <;> decide
    simp [this] at hr
  · intro h
    obtain ⟨hle, hv⟩ := bitsOf_prefix (m := 6) (by decide) hc h
    have : reserved code l = true := by
      interval_cases l <;> simp_all [reserved, Config.escLen, Config.escCode, Nat.shiftRight_eq_div_pow]
    simp [this] at hr

/-- After a candidate that is not reserved the next one still fits the length (R142). -/
theorem succ_lt_of_not_reserved {l code : Nat} (hc : code < 2 ^ l) (hr : reserved code l = false) :
    code + 1 < 2 ^ l := by
  by_contra hge
  have hcode : code = 2 ^ l - 1 := by omega
  have : reserved code l = true := by
    unfold reserved
    split
    · simp [hcode]
    · rename_i hl
      have hl : 6 ≤ l := by simp [Config.escLen] at hl; omega
      obtain ⟨k, rfl⟩ := Nat.exists_eq_add_of_le hl
      have hk := Nat.two_pow_pos k
      have h63 : (2 ^ (6 + k) - 1) / 2 ^ k = 63 := by
        rw [Nat.pow_add]
        exact Nat.div_eq_of_lt_le (by omega) (by omega)
      simp [hcode, Config.escLen, Config.escCode, Nat.shiftRight_eq_div_pow, h63]
  simp [this] at hr

/-- The codes of one length are consecutive (R144 inner loop). -/
theorem codesOf_eq_range' (l cnt code : Nat) : codesOf l cnt code = List.range' code (codesOf l cnt code).length := by
  induction cnt generalizing code with
  | zero => rfl
  | succ cnt ih =>
    rw [codesOf]
    split
    · rfl
    · rw [List.length_cons, List.range'_succ, ← ih]

theorem codesOf_length_le (l cnt code : Nat) : (codesOf l cnt code).length ≤ cnt := by
  induction cnt generalizing code with
  | zero => simp [codesOf]
  | succ cnt ih =>
    rw [codesOf]
    split
    · simp
    · simpa using ih (code + 1)

/-- No code handed out is reserved, and the candidate left over still fits the length (R142, R144). -/
theorem codesOf_free {l cnt code : Nat} (hc : code < 2 ^ l) :
    (∀ x ∈ codesOf l cnt code, reserved x l = false) ∧ code + (codesOf l cnt code).length < 2 ^ l := by
  induction cnt generalizing code with
  | zero => simpa [codesOf] using hc
  | succ cnt ih =>
    rw [codesOf]
    split
    · simpa using hc
    · rename_i hr
      have hr : reserved code l = false := by simpa using hr
      obtain ⟨hfree, hlt⟩ := ih (succ_lt_of_not_reserved hc hr)
      refine ⟨by simpa [hr] using hfree, ?_⟩
      rw [List.length_cons]
      omega

/-- A code is past another: not shorter, and past every string the other begins (R145 c). -/
def CodePast (c d : Nat × Nat) : Prop := c.2 ≤ d.2 ∧ (c.1 + 1) * 2 ^ (d.2 - c.2) ≤ d.1

/-- What `codesFrom` hands out from a base on: codes that fit their length, are not reserved and stand past the base. -/
def CodeFrom (l base : Nat) (c : Nat × Nat) : Prop :=
  l ≤ c.2 ∧ base * 2 ^ (c.2 - l) ≤ c.1 ∧ c.1 < 2 ^ c.2 ∧ reserved c.1 c.2 = false

theorem codesFrom_spec (own : Nat → Nat) {n l base : Nat} (carry : Nat) (hb : base < 2 ^ l) :
    (∀ c ∈ codesFrom own n l base carry, CodeFrom l base c ∧ c.2 < l + n) ∧
      (codesFrom own n l base carry).Pairwise CodePast := by
  induction n generalizing l base carry with
  | zero => simp [codesFrom]
  | succ n ih =>
    rw [codesFrom]
    obtain ⟨hfree, hend⟩ := codesOf_free (cnt := own l + carry) hb
    generalize hcs : codesOf l (own l + carry) base = cs at hfree hend
    have hrange : cs = List.range' base cs.length := hcs ▸ codesOf_eq_range' _ _ _
    have hmem : ∀ x ∈ cs, base ≤ x ∧ x < base + cs.length := fun x hx => by
      rwa [hrange, List.mem_range'_1] at hx
    obtain ⟨hrest, hpast⟩ := ih (l := l + 1) (own l + carry - cs.length)
      (show (base + cs.length) * 2 < 2 ^ (l + 1) by rw [Nat.pow_succ]; omega)
    have hshift : ∀ {c : Nat × Nat} {x : Nat}, CodeFrom (l + 1) ((base + cs.length) * 2) c → x ≤ base + cs.length →
        x * 2 ^ (c.2 - l) ≤ c.1 := by
      rintro ⟨v, m⟩ x ⟨hm, hv, -⟩ hx
      obtain ⟨k, rfl⟩ := Nat.exists_eq_add_of_le hm
      have e : l + 1 + k - l = k + 1 := by omega
      simp only [Nat.add_sub_cancel_left, e] at hv ⊢
      calc x * 2 ^ (k + 1) ≤ (base + cs.length) * 2 ^ (k + 1) := Nat.mul_le_mul_right _ hx
        _ = (base + cs.length) * 2 * 2 ^ k := by rw [Nat.pow_succ]; ring
        _ ≤ v := hv
    refine ⟨?_, ?_⟩
    · intro c hc
      rcases List.mem_append.1 hc with hc | hc
      · obtain ⟨x, hx, rfl⟩ := List.mem_map.1 hc
        have := hmem x hx
        exact ⟨⟨le_refl l, by simpa using this.1, by simp only; omega, hfree x hx⟩, by simp only; omega⟩
      · obtain ⟨hfrom, hlen⟩ := hrest c hc
        have ⟨hm, _, hlt, hres⟩ := hfrom
        exact ⟨⟨by omega, hshift hfrom (by omega), hlt, hres⟩, by omega⟩
    · refine List.pairwise_append.2 ⟨?_, hpast, ?_⟩
      · rw [List.pairwise_map, hrange]
        exact (List.pairwise_lt_range' _).imp fun h => ⟨le_refl l, by simpa using h⟩
      · intro c hc d hd
        obtain ⟨x, hx, rfl⟩ := List.mem_map.1 hc
        have hfrom := (hrest d hd).1
        exact ⟨by have := hfrom.1; simp only; omega, hshift hfrom (by have := hmem x hx; omega)⟩

/-- Neither of two codes, one past the other, begins the other (R145 b). -/
theorem CodePast.not_prefix {c d : Nat × Nat} (h : CodePast c d) (hc : c.1 < 2 ^ c.2) (hd : d.1 < 2 ^ d.2) :
    ¬ (bitsOf c.2 c.1 <+: bitsOf d.2 d.1) ∧ ¬ (bitsOf d.2 d.1 <+: bitsOf c.2 c.1) := by
  obtain ⟨hlen, hval⟩ := h
  constructor
  · intro hp
    obtain ⟨-, hv⟩ := bitsOf_prefix hc hd hp
    have := (Nat.le_div_iff_mul_le (Nat.two_pow_pos _)).2 hval
    omega
  · intro hp
    obtain ⟨hle, hv⟩ := bitsOf_prefix hd hc hp
    have e : d.2 = c.2 := by omega
    simp only [e, Nat.sub_self, Nat.pow_zero, Nat.mul_one, Nat.div_one] at hval hv
    omega

/-- The codeword an assigned code is stored as (R144). -/
def codewordOf (c : Nat × Nat) : Codeword := { bits := BitVec.ofNat 8 c.1, len := BitVec.ofNat 4 c.2 }

/-- What a codeword of the finished file is: an entry of the file before, or the code at the run's own place. -/
theorem assignCodes_some {rs : List Run} {cs : List (Nat × Nat)} {f : RunFile (Option Codeword)} {r : Run}
    {cw : Codeword} (h : fileGet (assignCodes rs cs f) r = some cw) :
    fileGet f r = some cw ∨ ∃ c, (r, c) ∈ rs.zip cs ∧ cw = codewordOf c := by
  induction rs generalizing cs f with
  | nil => exact .inl h
  | cons a rs ih =>
    cases cs with
    | nil => exact .inl h
    | cons c cs =>
      rcases ih h with hf | ⟨d, hd, rfl⟩
      · rw [fileGet_fileSet] at hf
        split at hf
        · rename_i e
          subst e
          exact .inr ⟨c, by simp, (Option.some.inj hf).symm⟩
        · exact .inl hf
      · exact .inr ⟨d, by simp [hd], rfl⟩

/-- The order of assignment as a comparison of numbers (R141). -/
theorem canonBefore_iff {len : RunFile (BitVec 4)} {freq : RunFile Nat} {a b : Run} :
    canonBefore len freq a b = true ↔
      (fileGet len a).toNat < (fileGet len b).toNat ∨ (fileGet len a).toNat = (fileGet len b).toNat ∧
        (fileGet freq a < fileGet freq b ∨ fileGet freq a = fileGet freq b ∧ (Run.key a).val < (Run.key b).val) := by
  simp only [canonBefore, Bool.or_eq_true, Bool.and_eq_true, decide_eq_true_eq, beq_iff_eq]
  exact Iff.rfl

/-- The order of assignment never goes down in LEN (R141). -/
theorem canonOrder_sorted (len : RunFile (BitVec 4)) (freq : RunFile Nat) :
    (canonOrder len freq).Pairwise fun a b => (fileGet len a).toNat ≤ (fileGet len b).toNat := by
  refine (sortBy_sorted _ ?_ ?_ _).imp fun {a b} h => ?_
  · intro a b c
    simp only [← Bool.not_eq_true, canonBefore_iff]
    omega
  · intro a b
    simp only [← Bool.not_eq_true, canonBefore_iff]
    omega
  · simp only [← Bool.not_eq_true, canonBefore_iff] at h
    omega

theorem mem_canonOrder {len : RunFile (BitVec 4)} {freq : RunFile Nat} {r : Run} :
    r ∈ canonOrder len freq ↔ 0 < (fileGet len r).toNat := by
  simp [canonOrder, (sortBy_perm _ _).mem_iff, mem_allRuns]

/-- The first elements of an ascending list, as many as are at most `l`, are those. -/
theorem le_of_mem_take_countP {α : Type} {val : α → Nat} {xs : List α} {l k : Nat}
    (hs : xs.Pairwise fun a b => val a ≤ val b) (hk : k ≤ xs.countP fun a => decide (val a ≤ l)) :
    ∀ a ∈ xs.take k, val a ≤ l := by
  induction xs generalizing k with
  | nil => simp
  | cons x xs ih =>
    obtain ⟨hx, hs⟩ := List.pairwise_cons.1 hs
    cases k with
    | zero => simp
    | succ k =>
      by_cases hxl : val x ≤ l
      · rw [List.countP_cons_of_pos (by simpa using hxl)] at hk
        simpa [hxl] using ih hs (by omega)
      · have hnone : xs.countP (fun a => decide (val a ≤ l)) = 0 :=
          List.countP_eq_zero.2 fun a ha => by have := hx a ha; simp; omega
        rw [List.countP_cons_of_neg (by simpa using hxl), hnone] at hk
        omega

/-- Runs in ascending order of a length get codes no shorter than it, when `own` counts the runs of each length from `l`
on and `carry` those that come from the lengths before (R143, R144). -/
theorem codesFrom_covers {own : Nat → Nat} {val : Run → Nat} {n l base carry : Nat} {rs : List Run}
    (hs : rs.Pairwise fun a b => val a ≤ val b) (hcarry : carry = rs.countP fun r => decide (val r < l))
    (hown : ∀ m, l ≤ m → own m = rs.countP fun r => decide (val r = m)) :
    ∀ p ∈ rs.zip (codesFrom own n l base carry), val p.1 ≤ p.2.2 := by
  induction n generalizing l base carry rs with
  | zero => simp [codesFrom]
  | succ n ih =>
    have hcount : own l + carry = rs.countP fun r => decide (val r ≤ l) := by
      rw [hown l (le_refl l), hcarry, Nat.add_comm]
      clear ih hown hcarry hs
      induction rs with
      | nil => rfl
      | cons r rs ihr =>
        simp only [List.countP_cons, ← ihr, decide_eq_true_eq]
        split_ifs <;> omega
    rw [codesFrom]
    generalize hcs : codesOf l (own l + carry) base = cs
    have hlen : cs.length ≤ own l + carry := hcs ▸ codesOf_length_le _ _ _
    have hfirst := le_of_mem_take_countP (k := cs.length) (l := l) hs (by omega)
    have hsplit := List.take_append_drop cs.length rs
    have hle : own l + carry ≤ rs.length := hcount ▸ List.countP_le_length
    have hcountP : ∀ p : Run → Bool, rs.countP p = (rs.take cs.length).countP p + (rs.drop cs.length).countP p :=
      fun p => by rw [← List.countP_append, hsplit]
    rw [← hsplit, List.zip_append (by simp; omega)]
    intro p hp
    rcases List.mem_append.1 hp with hp | hp
    · obtain ⟨hr, hc⟩ := List.of_mem_zip (show (p.1, p.2) ∈ _ from hp)
      obtain ⟨x, -, e⟩ := List.mem_map.1 hc
      simpa [← e] using hfirst p.1 hr
    · refine ih (hs.sublist (List.drop_sublist _ _)) ?_ ?_ p hp
      · have hall : (rs.take cs.length).countP (fun r => decide (val r ≤ l)) = cs.length := by
          rw [List.countP_eq_length.2 fun a ha => by simpa using hfirst a ha, List.length_take]
          omega
        have := hcountP fun r => decide (val r ≤ l)
        simp only [Nat.lt_succ_iff]
        omega
      · intro m hm
        have hnone : (rs.take cs.length).countP (fun r => decide (val r = m)) = 0 :=
          List.countP_eq_zero.2 fun a ha => by have := hfirst a ha; simp; omega
        rw [hown m (by omega), hcountP, hnone, Nat.zero_add]

/-- The runs and codes of CANON_GEN, pair by pair (R144). -/
def canonPairs (len : RunFile (BitVec 4)) (freq : RunFile Nat) : List (Run × Nat × Nat) :=
  (canonOrder len freq).zip (canonCodes len (canonOrder len freq))

/-- What a codeword CANON_GEN writes is. -/
theorem canonical_some {len : RunFile (BitVec 4)} {freq : RunFile Nat} {r : Run} {cw : Codeword}
    (h : fileGet (canonical len freq) r = some cw) : ∃ c, (r, c) ∈ canonPairs len freq ∧ cw = codewordOf c := by
  rcases assignCodes_some h with h | h
  · simp at h
  · exact h

/-- Each code of CANON_GEN has a length 1 to 8, fits it, and is not reserved (R142, R144). -/
theorem canonPairs_code {len : RunFile (BitVec 4)} {freq : RunFile Nat} {p : Run × Nat × Nat}
    (h : p ∈ canonPairs len freq) :
    1 ≤ p.2.2 ∧ p.2.2 ≤ 8 ∧ p.2.1 < 2 ^ p.2.2 ∧ reserved p.2.1 p.2.2 = false := by
  obtain ⟨-, hc⟩ := List.of_mem_zip (show (p.1, p.2) ∈ _ from h)
  obtain ⟨⟨hl, -, hlt, hres⟩, hmax⟩ := (codesFrom_spec _ 0 (by decide)).1 _ hc
  exact ⟨hl, by simp [Config.maxLen] at hmax; omega, hlt, hres⟩

/-- A run with a code has a LEN, and the code is no shorter (R143, R144). -/
theorem canonPairs_len {len : RunFile (BitVec 4)} {freq : RunFile Nat} {p : Run × Nat × Nat}
    (h : p ∈ canonPairs len freq) : 0 < (fileGet len p.1).toNat ∧ (fileGet len p.1).toNat ≤ p.2.2 := by
  have hmem := (List.of_mem_zip (show (p.1, p.2) ∈ _ from h)).1
  refine ⟨mem_canonOrder.1 hmem, codesFrom_covers (canonOrder_sorted len freq) ?_ ?_ p h⟩
  · refine (List.countP_eq_zero.2 fun r hr => ?_).symm
    have := mem_canonOrder.1 hr
    simp
    omega
  · intro m _
    rw [List.countP_eq_length_filter]
    rfl

/-- The path of a stored code that fits is its bits (R91). -/
theorem codewordOf_fits {c : Nat × Nat} (hl : c.2 ≤ 8) (hc : c.1 < 2 ^ c.2) :
    (codewordOf c).len.toNat = c.2 ∧ (codewordOf c).bits.toNat = c.1 ∧
      Codeword.path (codewordOf c) = bitsOf c.2 c.1 := by
  have hlen : (codewordOf c).len.toNat = c.2 := by simp [codewordOf]; omega
  have hbits : (codewordOf c).bits.toNat = c.1 := by
    have : 2 ^ c.2 ≤ 2 ^ 8 := Nat.pow_le_pow_right (by decide) hl
    simp [codewordOf]; omega
  exact ⟨hlen, hbits, by rw [Codeword.path, codewordPath, hlen, hbits]⟩

/-- Pairing keeps the order of the second list. -/
theorem zip_pairwise_snd {α β : Type} {R : β → β → Prop} {as : List α} {bs : List β} (h : bs.Pairwise R) :
    (as.zip bs).Pairwise fun p q => R p.2 q.2 := by
  induction as generalizing bs with
  | nil => exact List.Pairwise.nil
  | cons a as ih =>
    cases h with
    | nil => exact List.Pairwise.nil
    | cons hb h =>
      exact List.Pairwise.cons (fun q hq => hb q.2 (List.of_mem_zip (show (q.1, q.2) ∈ _ from hq)).2) (ih h)

/-- The codes of two runs: neither begins the other (R145 b). -/
theorem canonPairs_prefixFree {len : RunFile (BitVec 4)} {freq : RunFile Nat} {p q : Run × Nat × Nat}
    (hp : p ∈ canonPairs len freq) (hq : q ∈ canonPairs len freq) (hne : p ≠ q) :
    ¬ (bitsOf p.2.2 p.2.1 <+: bitsOf q.2.2 q.2.1) := by
  have hpast : (canonPairs len freq).Pairwise fun p q => CodePast p.2 q.2 :=
    zip_pairwise_snd (codesFrom_spec _ 0 (by decide)).2
  obtain ⟨-, -, hplt, -⟩ := canonPairs_code hp
  obtain ⟨-, -, hqlt, -⟩ := canonPairs_code hq
  have either : p ≠ q → CodePast p.2 q.2 ∨ CodePast q.2 p.2 :=
    List.Pairwise.forall_of_forall_of_flip
      (R := fun p q : Run × Nat × Nat => p ≠ q → CodePast p.2 q.2 ∨ CodePast q.2 p.2)
      (fun x _ h => absurd rfl h) (hpast.imp fun h _ => .inl h) (hpast.imp fun h _ => .inr h) hp hq
  rcases either hne with h | h
  · exact (h.not_prefix hplt hqlt).1
  · exact (h.not_prefix hqlt hplt).2

/-- CANON_GEN's table meets R25's invariant, whatever LEN and FREQ are (R145 a, b). -/
theorem canonical_codesOk (len : RunFile (BitVec 4)) (freq : RunFile Nat) : CodesOk (canonical len freq) where
  fits r cw h := by
    obtain ⟨c, hc, rfl⟩ := canonical_some h
    obtain ⟨h1, h8, hlt, -⟩ := canonPairs_code hc
    obtain ⟨hlen, hbits, -⟩ := codewordOf_fits h8 hlt
    rw [hlen, hbits]
    exact ⟨h1, h8, hlt⟩
  prefixFree r₁ r₂ cw₁ cw₂ hne h₁ h₂ := by
    obtain ⟨c, hc, rfl⟩ := canonical_some h₁
    obtain ⟨d, hd, rfl⟩ := canonical_some h₂
    obtain ⟨-, hc8, hclt, -⟩ := canonPairs_code hc
    obtain ⟨-, hd8, hdlt, -⟩ := canonPairs_code hd
    rw [(codewordOf_fits hc8 hclt).2.2, (codewordOf_fits hd8 hdlt).2.2]
    exact canonPairs_prefixFree hc hd fun e => hne (congrArg Prod.fst e)
  clearOfEscape r cw h := by
    obtain ⟨c, hc, rfl⟩ := canonical_some h
    obtain ⟨-, h8, hlt, hres⟩ := canonPairs_code hc
    rw [(codewordOf_fits h8 hlt).2.2]
    exact not_reserved_escape h8 hlt hres

/-- The code CANON_GEN leaves (R144). -/
theorem exec_canonGen (s : State) :
    ∃ t, exec .canonGen s = .next t ∧ t.code = canonical s.args.len s.args.freq := ⟨_, rfl, rfl⟩

/-- Settles O37: the codes are handed out in rising order and none is reserved. -/
theorem canonGenPrefixFree : Obligations.CanonGenPrefixFree := by
  intro s
  obtain ⟨t, ht, hcode⟩ := exec_canonGen s
  refine ⟨t, ht, hcode ▸ canonical_codesOk _ _, fun r cw h => ?_⟩
  obtain ⟨c, hc, rfl⟩ := canonical_some (hcode ▸ h)
  obtain ⟨-, h8, hlt, -⟩ := canonPairs_code hc
  rw [(codewordOf_fits h8 hlt).1]
  exact canonPairs_len (p := (r, c)) hc

end Sys2Proof.Machine
end

section
/-! DECODE as one instruction is the machine's own run (R3, R185), and a table the search keeps that costs more than
escaping every run (R19, R150). -/

namespace Sys2Proof.Machine

/-! ## Elements and steps -/

/-- An element in the middle of a stream is the machine's own step. -/
theorem elementStep_eq_step {s : State} (hb : s.status = .busy) (hp : s.phase ≠ .command) : elementStep s = step s := by
  have hr : s.region ≠ .command := by
    unfold State.region
    split
    · simp
    · exact hp
  rw [step_busy hb, elementStep, State.fetch]
  cases hd : decodeAt s.region (s.trie.at s.tcur) s.fetchReader with
  | short path rd => rfl
  | noChild path rd => rfl
  | unknownCommand code => rfl
  | instr i rd =>
    rcases decodeAt_instr hr hd with ⟨n, rfl⟩ | ⟨-, hi⟩
    · rfl
    · rcases hi with ⟨x, t, rfl⟩ | ⟨z, n, rfl⟩ | ⟨b, c, l, k, rfl⟩ | rfl | ⟨q, run, rfl, -⟩ | ⟨c, n, rfl⟩ <;> rfl

/-- A run whose first step answers a next state goes on from it. -/
theorem core_run_succ {M : Host.Core} {s t : M.State} (h : M.step s = .next t) (k : Nat) :
    M.run (k + 1) s = M.run k t := by simp only [Host.Core.run, h]

/-- A machine with no command running stays where it is (R250). -/
theorem core_run_rest {s : State} (h : s.status ≠ .busy) (k : Nat) : Sys2Proof.core.run k s = .next s := by
  induction k with
  | zero => rfl
  | succ k ih => exact (core_run_succ (M := Sys2Proof.core) (step_rest h) k).trans ih

/-- A run of elements is the machine's run of as many steps. -/
theorem runElements_eq_core_run {s : State} (hp : s.status = .busy → s.phase ≠ .command) (k : Nat) :
    runElements k s = Sys2Proof.core.run k s := by
  induction k generalizing s with
  | zero => rfl
  | succ k ih =>
    by_cases hb : s.status = .busy
    · obtain ⟨t, ht, hgoes⟩ := elementStep_goes hb (hp hb)
      have hs : step s = .next t := (elementStep_eq_step hb (hp hb)).symm.trans ht
      rw [runElements_busy hb, ht]
      refine (ih fun ht => ?_).trans (core_run_succ (M := Sys2Proof.core) hs k).symm
      rcases hgoes with (h | h) | ⟨-, h, -⟩
      · simp [h] at ht
      · simp [h] at ht
      · exact h
    · exact (runElements_rest hb).trans (core_run_rest hb _).symm

/-- Settles O56: element by element, the run of DECODE is the run of the machine's steps. -/
theorem decodeIsStepwiseRun : Obligations.DecodeIsStepwiseRun := fun s =>
  runElements_eq_core_run (s := s.decodeStart) (fun _ => by simp [State.decodeStart]) s.decodeStart.elementBound

/-! ## A costly table -/

/-- Two runs that occur twice and four that occur once: the table of the two costs two bits more than it saves. -/
def costlyRuns : List Run :=
  [⟨0#4, 0#3⟩, ⟨0#4, 0#3⟩, ⟨1#4, 0#3⟩, ⟨1#4, 0#3⟩, ⟨2#4, 0#3⟩, ⟨3#4, 0#3⟩, ⟨4#4, 0#3⟩, ⟨5#4, 0#3⟩]

/-- The state that searches a table for them. -/
def costlyState : State :=
  { State.reset with args := { State.reset.args with freq := tally costlyRuns } }

/-- The search keeps a table of 136 bits, where eight escapes take 128 (R149). -/
theorem costlyState_bestEst :
    ({ costlyState.startAll 0x32#8 with freq := costlyState.args.freq }.searchTrials).bestEst = some 136 := by
  decide +kernel

/-- Settles O43: TRIAL_SEARCH is never offered the empty table. -/
theorem searchCanExceedAllEscape : Obligations.SearchCanExceedAllEscape :=
  ⟨costlyState, _, costlyRuns, 136, rfl, rfl, costlyState_bestEst, by decide⟩

end Sys2Proof.Machine
end

section
/-! What ENCODE writes (R149, R216 to R218), and that the parts it is made of lose nothing: RLE_ENC (R114) and the
transform (R166). -/

namespace Sys2Proof.Machine

/-! ## RLE_ENC -/

@[simp] theorem runNibbles_cons (r : Run) (rs : List Run) :
    runNibbles (r :: rs) = List.replicate (Run.count r) r.nib ++ runNibbles rs := by simp [runNibbles]

/-- A run grown by one nibble (R113). -/
theorem count_grown {r : Run} (h : r.cm1 ≠ 7#3) : Run.count { nib := r.nib, cm1 := r.cm1 + 1#3 } = Run.count r + 1 := by
  have hlt := r.cm1.isLt
  have hne : r.cm1.toNat ≠ 7 := fun e => h (BitVec.eq_of_toNat_eq e)
  simp only [Run.count, BitVec.toNat_add, BitVec.toNat_ofNat]
  omega

/-- The runs made from an open run and the nibbles after it stand for those nibbles (R112, R114). -/
theorem runNibbles_rleRuns_some (r : Run) (xs : List Nibble) :
    runNibbles (rleRuns (some r) xs) = List.replicate (Run.count r) r.nib ++ xs := by
  induction xs generalizing r with
  | nil => simp [rleRuns, runNibbles]
  | cons x xs ih =>
    rw [rleRuns]
    split
    · rename_i h
      obtain ⟨rfl, hc⟩ := h
      rw [ih, count_grown hc, List.replicate_succ', List.append_assoc]
      rfl
    · rw [runNibbles_cons, ih]
      rfl

/-- "the concatenation of the runs' expansions" is the input's nibbles (R114 a). -/
theorem runNibbles_rleOf (bs : List Byte) : runNibbles (rleOf bs) = nibblesOf bs := by
  unfold rleOf
  cases nibblesOf bs with
  | nil => rfl
  | cons x xs => rw [rleRuns, runNibbles_rleRuns_some]; rfl

theorem nibblesOf_length (bs : List Byte) : (nibblesOf bs).length = 2 * bs.length := by
  simp [nibblesOf, Nat.mul_comm]

/-- A byte is its high and its low nibble (R53). -/
theorem byte_of_nibbles (b : Byte) : b.extractLsb' 4 4 ++ b.extractLsb' 0 4 = b := by
  revert b
  decide +kernel

/-- Bytes are told apart by their nibbles (R53). -/
theorem nibblesOf_injective : Function.Injective nibblesOf := by
  intro xs
  induction xs with
  | nil =>
    intro ys h
    cases ys with
    | nil => rfl
    | cons y ys => simp [nibblesOf] at h
  | cons x xs ih =>
    intro ys h
    cases ys with
    | nil => simp [nibblesOf] at h
    | cons y ys =>
      simp only [nibblesOf, List.flatMap_cons, List.cons_append, List.nil_append, List.cons.injEq] at h
      obtain ⟨hhi, hlo, hrest⟩ := h
      rw [← byte_of_nibbles x, hhi, hlo, byte_of_nibbles, ih hrest]

/-! ## The transform -/

/-- One step of a lane rule undone by the other (R166). -/
theorem laneStep_inverse (rule : LaneRule) (lanes : Vector Byte 4) (pos : Nat) (b : Byte) :
    laneStep (LaneRule.inverse rule) lanes pos (laneStep rule lanes pos b).1 = (b, (laneStep rule lanes pos b).2) := by
  cases rule <;> simp [laneStep, LaneRule.inverse, BitVec.xor_comm]

/-- The two lane rules are inverse to each other on sequences (R166). -/
theorem xorPass_inverse (rule : LaneRule) (lanes : Vector Byte 4) (pos : Nat) (bs : List Byte) :
    xorPass (LaneRule.inverse rule) lanes pos (xorPass rule lanes pos bs).1 = (bs, (xorPass rule lanes pos bs).2) := by
  induction bs generalizing lanes pos with
  | nil => rfl
  | cons b bs ih => rw [xorPass_cons, xorPass_cons, laneStep_inverse, ih]

/-! ## TRIAL_SEARCH -/

/-- The state of a trial before its table is compared with the best (R149). -/
def State.tried (s : State) (t : Nat) : State :=
  ((({ s with trialSize := t }).solveTrial (trialLeaves s.qual t)).generate).estimate

theorem trial_eq (s : State) (t : Nat) : s.trial t = (s.tried t).keepBest := rfl

section
variable (s : State) (t : Nat)

@[simp] theorem tried_code : (s.tried t).code = canonical (solve (trialLeaves s.qual t)) s.freq := by
  simp only [State.tried, estimate_code]
  rw [State.generate, State.solveTrial]
@[simp] theorem tried_est : (s.tried t).est = costOf (canonical (solve (trialLeaves s.qual t)) s.freq) s.freq := by
  rw [State.tried, State.estimate, State.generate, State.solveTrial]
@[simp] theorem tried_best : (s.tried t).best = s.best := by simp [State.tried]
@[simp] theorem tried_bestEst : (s.tried t).bestEst = s.bestEst := by simp [State.tried]
@[simp] theorem tried_freq : (s.tried t).freq = s.freq := by simp [State.tried]
@[simp] theorem tried_qual : (s.tried t).qual = s.qual := by simp [State.tried]

end

/-- What keeping the better table does (R149). -/
theorem keepBest_cases (s : State) :
    (betterThan s.est s.bestEst = true ∧ s.keepBest = { s with best := s.code, bestEst := some s.est }) ∨
    (betterThan s.est s.bestEst = false ∧ s.keepBest = s) := by
  unfold State.keepBest
  cases betterThan s.est s.bestEst <;> simp

/-- What a trial's choice depends on. -/
structure SameSearch (s s' : State) : Prop where
  freq : s.freq = s'.freq
  qual : s.qual = s'.qual
  best : s.best = s'.best
  bestEst : s.bestEst = s'.bestEst

theorem SameSearch.keepBest {s s' : State} (h : SameSearch s s') (hcode : s.code = s'.code) (hest : s.est = s'.est) :
    SameSearch s.keepBest s'.keepBest := by
  rcases keepBest_cases s with ⟨hb, e⟩ | ⟨hb, e⟩ <;> rcases keepBest_cases s' with ⟨hb', e'⟩ | ⟨hb', e'⟩
  · rw [e, e']
    exact ⟨h.freq, h.qual, hcode, congrArg some hest⟩
  · rw [hest, h.bestEst, hb'] at hb
    cases hb
  · rw [hest, h.bestEst, hb'] at hb
    cases hb
  · rwa [e, e']

theorem SameSearch.trial {s s' : State} (h : SameSearch s s') (t : Nat) : SameSearch (s.trial t) (s'.trial t) := by
  have htried : SameSearch (s.tried t) (s'.tried t) :=
    ⟨by simp [h.freq], by simp [h.qual], by simp [h.best], by simp [h.bestEst]⟩
  rw [trial_eq, trial_eq]
  exact htried.keepBest (by simp [h.freq, h.qual]) (by simp [h.freq, h.qual])

theorem SameSearch.trials {s s' : State} (h : SameSearch s s') (n : Nat) :
    SameSearch (State.trials n s) (State.trials n s') := by
  induction n generalizing s s' with
  | zero => exact h
  | succ n ih => exact ih (h.trial (n + 2))

/-- The state the trials start from (R149). -/
def State.searchStart (s : State) : State :=
  { s with best := noCodes, bestEst := none, qual := qualifying s.freq, trialSize := 0 }

theorem searchTrials_eq (s : State) :
    s.searchTrials = State.trials ((qualifying s.freq).length - 1) s.searchStart := rfl

/-- The table TRIAL_SEARCH keeps follows from FREQ alone (R149). -/
theorem searchTrials_congr {s s' : State} (h : s.freq = s'.freq) : s.searchTrials.best = s'.searchTrials.best := by
  have hstart : SameSearch s.searchStart s'.searchStart := ⟨h, congrArg qualifying h, rfl, rfl⟩
  rw [searchTrials_eq, searchTrials_eq, h]
  exact (hstart.trials _).best

theorem searchTrials_best (s : State) : s.searchTrials.best = searchBest s.freq := searchTrials_congr rfl

theorem keepBest_codesOk {s : State} (hcode : CodesOk s.code) (hbest : CodesOk s.best) : CodesOk s.keepBest.best := by
  rcases keepBest_cases s with ⟨-, e⟩ | ⟨-, e⟩ <;> rwa [e]

theorem trials_codesOk {s : State} (h : CodesOk s.best) (n : Nat) : CodesOk (State.trials n s).best := by
  induction n generalizing s with
  | zero => exact h
  | succ n ih =>
    have hcode : CodesOk (s.tried (n + 2)).code := by
      rw [tried_code]
      exact canonical_codesOk _ _
    have hbest : CodesOk (s.tried (n + 2)).best := by rwa [tried_best]
    exact ih (keepBest_codesOk hcode hbest)

theorem noCodes_codesOk : CodesOk noCodes where
  fits r cw h := by simp at h
  prefixFree r₁ r₂ cw₁ cw₂ _ h := by simp at h
  clearOfEscape r cw h := by simp at h

/-- The table TRIAL_SEARCH keeps meets R25's invariant: it is CANON_GEN's, or empty (R149). -/
theorem searchBest_codesOk (freq : RunFile Nat) : CodesOk (searchBest freq) := by
  unfold searchBest
  rw [searchTrials_eq]
  exact trials_codesOk noCodes_codesOk _

/-! ## The passes of ENCODE -/

/-- What a pass leaves alone, as far as the end of a command asks (R26, R218). -/
structure PassKeeps (s t : State) : Prop where
  err : t.err = s.err
  xsel : t.xsel = s.xsel
  dst : t.dst = s.dst
  dpos : t.dpos = s.dpos
  xbuf : t.xbuf = s.xbuf
  cand0 : t.cand0 = s.cand0

theorem PassKeeps.refl (s : State) : PassKeeps s s := ⟨rfl, rfl, rfl, rfl, rfl, rfl⟩

theorem PassKeeps.trans {s t u : State} (h : PassKeeps s t) (h' : PassKeeps t u) : PassKeeps s u :=
  ⟨h'.err.trans h.err, h'.xsel.trans h.xsel, h'.dst.trans h.dst, h'.dpos.trans h.dpos, h'.xbuf.trans h.xbuf,
    h'.cand0.trans h.cand0⟩

theorem keepBest_keeps (s : State) : PassKeeps s s.keepBest ∧ s.keepBest.rleSrc = s.rleSrc := by
  rcases keepBest_cases s with ⟨-, e⟩ | ⟨-, e⟩ <;> rw [e] <;> exact ⟨⟨rfl, rfl, rfl, rfl, rfl, rfl⟩, rfl⟩

theorem trial_keeps (s : State) (t : Nat) : PassKeeps s (s.trial t) ∧ (s.trial t).rleSrc = s.rleSrc := by
  have htried : PassKeeps s (s.tried t) := by constructor <;> simp [State.tried]
  obtain ⟨hkeeps, hrle⟩ := keepBest_keeps (s.tried t)
  exact ⟨htried.trans hkeeps, hrle.trans (by simp [State.tried])⟩

/-- The trials keep what a pass keeps, and RLESRC (R149). -/
theorem trials_keeps (n : Nat) (s : State) :
    PassKeeps s (State.trials n s) ∧ (State.trials n s).rleSrc = s.rleSrc := by
  induction n generalizing s with
  | zero => exact ⟨.refl s, rfl⟩
  | succ n ih =>
    obtain ⟨hkeeps, hrle⟩ := ih (s.trial (n + 2))
    obtain ⟨hkeeps', hrle'⟩ := trial_keeps s (n + 2)
    exact ⟨hkeeps'.trans hkeeps, hrle.trans hrle'⟩

theorem searchTrials_keeps (s : State) : PassKeeps s s.searchTrials ∧ s.searchTrials.rleSrc = s.rleSrc := by
  have hstart : PassKeeps s s.searchStart := by constructor <;> rw [State.searchStart]
  obtain ⟨hkeeps, hrle⟩ := trials_keeps ((qualifying s.freq).length - 1) s.searchStart
  rw [searchTrials_eq]
  exact ⟨hstart.trans hkeeps, hrle⟩

/-- A pass: the candidate it makes, and what it leaves alone (R218). -/
theorem encodePass_spec (s : State) (bs : List Byte) (x : Bool) :
    (s.encodePass bs x).packed = passBytes bs x ∧ PassKeeps s (s.encodePass bs x) := by
  have hstart : PassKeeps s (s.passStart.rleEncode bs) := by constructor <;> simp
  obtain ⟨hkeeps, hrle⟩ := searchTrials_keeps (s.passStart.rleEncode bs)
  have hbest := searchTrials_best (s.passStart.rleEncode bs)
  rw [State.encodePass]
  generalize (s.passStart.rleEncode bs).searchTrials = u at *
  refine ⟨?_, (hstart.trans hkeeps).trans (by constructor <;> simp)⟩
  rw [State.packed]
  simp [hbest, hrle, State.rleEncode, passBytes]

/-- Whether ENCODE keeps the transformed candidate: when it is strictly smaller (R217). -/
def keepsTransform (bs : List Byte) : Bool :=
  decide ((passBytes (xorStream Config.xorEnc bs) true).length < (passBytes bs false).length)

/-- The bytes the kept candidate encodes (R216). -/
def keptView (bs : List Byte) : List Byte := if keepsTransform bs then xorStream Config.xorEnc bs else bs

/-- What ENCODE writes (R216, R217). -/
def encodeBytes (bs : List Byte) : List Byte := passBytes (keptView bs) (keepsTransform bs)

theorem encodeBytes_eq (bs : List Byte) :
    encodeBytes bs =
      if (passBytes (xorStream Config.xorEnc bs) true).length < (passBytes bs false).length then
        passBytes (xorStream Config.xorEnc bs) true
      else passBytes bs false := by
  unfold encodeBytes keptView keepsTransform
  split <;> rename_i h
  · rw [if_pos (by simpa using h), h]
  · rw [if_neg (by simpa using h), eq_false_of_ne_true h]

/-- What the host sees once a whole sequence is put into DST and the command ends (R69, R216). -/
theorem deliver_hostView (s : State) (bs : List Byte) :
    (s.deliver bs).finish.hostView =
      { status := Status.code .done, err := Err.code s.err, dlen := bs.length, xsel := s.xsel, dst := bs } := by
  have hdst : (s.deliver bs).finish.dstBytes = bs := readBytes_storeBytes blank_wf 0 bs
  rw [State.hostView, hdst]
  rfl

/-- The end of ENCODE, from the state both candidates stand in (R217). -/
def State.choose (s : State) : State :=
  if s.cand1.length < s.cand0.length then { s.deliver s.cand1 with xsel := true }.finish
  else { s.deliver s.cand0 with xsel := false }.finish

theorem choose_hostView (s : State) :
    s.choose.hostView =
      { status := Status.code .done, err := Err.code s.err,
        dlen := (if s.cand1.length < s.cand0.length then s.cand1 else s.cand0).length,
        xsel := decide (s.cand1.length < s.cand0.length),
        dst := if s.cand1.length < s.cand0.length then s.cand1 else s.cand0 } := by
  by_cases h : s.cand1.length < s.cand0.length
  · rw [State.choose, if_pos h, if_pos h, decide_eq_true h]
    exact deliver_hostView { s with xsel := true } s.cand1
  · rw [State.choose, if_neg h, if_neg h, decide_eq_false h]
    exact deliver_hostView { s with xsel := false } s.cand0

/-- Between the passes: the plain candidate is kept and the transformed view made (R216). -/
def State.transformed (s : State) (bs : List Byte) : State := { s with cand0 := s.packed }.xorEncode bs

@[simp] theorem transformed_err (s : State) (bs : List Byte) : (s.transformed bs).err = s.err := by
  simp [State.transformed]
@[simp] theorem transformed_cand0 (s : State) (bs : List Byte) : (s.transformed bs).cand0 = s.packed := by
  simp [State.transformed]
@[simp] theorem transformed_xbuf (s : State) (bs : List Byte) :
    (s.transformed bs).xbuf = xorStream Config.xorEnc bs := by rw [State.transformed, State.xorEncode]

/-- After the second pass: the transformed candidate is kept (R216). -/
def State.keepSecond (s : State) : State := { s with cand1 := s.packed, sp := s.argLen }

/-- The state in which ENCODE has both candidates of its input (R216). -/
def State.bothPasses (s : State) : State :=
  let s3 := (s.encodePass s.srcBytes false).transformed s.srcBytes
  (s3.encodePass s3.xbuf true).keepSecond

theorem bothPasses_spec (s : State) :
    s.bothPasses.err = s.err ∧ s.bothPasses.cand0 = passBytes s.srcBytes false ∧
      s.bothPasses.cand1 = passBytes (xorStream Config.xorEnc s.srcBytes) true := by
  obtain ⟨hplain, hkept⟩ := encodePass_spec s s.srcBytes false
  rw [State.bothPasses, transformed_xbuf]
  generalize s.encodePass s.srcBytes false = s2 at *
  obtain ⟨hmoved, hkept'⟩ := encodePass_spec (s2.transformed s.srcBytes) (xorStream Config.xorEnc s.srcBytes) true
  generalize (s2.transformed s.srcBytes).encodePass (xorStream Config.xorEnc s.srcBytes) true = s4 at *
  refine ⟨?_, ?_, hmoved⟩
  · exact hkept'.err.trans ((transformed_err _ _).trans hkept.err)
  · exact hkept'.cand0.trans ((transformed_cand0 _ _).trans hplain)

theorem exec_encode_of_ok {s : State} (h : encodeLengthOk s.argLen = true) :
    exec .encode s = .next (s.startAll 0x01#8).bothPasses.choose := by
  rw [exec, execEncode, if_pos h]
  exact (apply_ite Host.Outcome.next _ _ _).symm

/-- What the host sees of ENCODE on an accepted length (R216, R217). -/
theorem exec_encode_hostView {s t : State} (h : encodeLengthOk s.argLen = true) (ht : exec .encode s = .next t) :
    t.hostView =
      { status := Status.code .done, err := Err.code .none, dlen := (encodeBytes s.srcBytes).length,
        xsel := keepsTransform s.srcBytes, dst := encodeBytes s.srcBytes } := by
  rw [exec_encode_of_ok h, Host.Outcome.next.injEq] at ht
  obtain ⟨herr, h0, h1⟩ := bothPasses_spec (s.startAll 0x01#8)
  have hsrc : (s.startAll 0x01#8).srcBytes = s.srcBytes := by simp [State.srcBytes]
  rw [← ht, choose_hostView, herr, h0, h1, hsrc, startAll_err, encodeBytes_eq, keepsTransform]

end Sys2Proof.Machine
end

section
/-! What PACK writes, laid out as the stream DECODE reads (R171 to R176), and the trie its table builds (R192, R194). -/

namespace Sys2Proof.Machine

/-! ## The bytes of PACK -/

theorem writeBit_prefix (k : Sink) (b : Bool) : k.out <+: (k.writeBit b).out := by
  unfold Sink.writeBit
  split
  · exact List.prefix_append _ _
  · exact List.prefix_refl _

theorem writeBits_prefix (k : Sink) (v n : Nat) : k.out <+: (k.writeBits v n).out := by
  unfold Sink.writeBits
  generalize bitsOf n v = bs
  induction bs generalizing k with
  | nil => exact List.prefix_refl _
  | cons b bs ih => exact (writeBit_prefix k b).trans (ih _)

theorem flush_prefix (k : Sink) : k.out <+: k.flush.out := by
  unfold Sink.flush
  split
  · exact List.prefix_refl _
  · exact List.prefix_append _ _

theorem packRun_prefix (f : RunFile (Option Codeword)) (k : Sink) (r : Run) : k.out <+: (packRun f k r).out := by
  unfold packRun
  cases codeAt f r with
  | some cw => exact writeBits_prefix _ _ _
  | none => exact ((writeBits_prefix _ _ _).trans (writeBits_prefix _ _ _)).trans (writeBits_prefix _ _ _)

theorem packRuns_prefix (f : RunFile (Option Codeword)) (k : Sink) (rs : List Run) :
    k.out <+: (rs.foldl (packRun f) k).out := by
  induction rs generalizing k with
  | nil => exact List.prefix_refl _
  | cons r rs ih => exact (packRun_prefix f k r).trans (ih _)

/-- PACK writes the header, the table and the terminator, and after them the runs' bits, completed to a byte with zeros
(R171 to R175). -/
theorem packBytes_layout (x : Bool) (t : BitVec 15) (f : RunFile (Option Codeword)) (rs : List Run) :
    ∃ (body : List Byte) (pad : Nat),
      packBytes x t f rs = (headerWord x t).extractLsb' 8 8 :: (headerWord x t).extractLsb' 0 8 ::
        (tableBytes none (tableEntries f) ++ 0xFF#8 :: body) ∧
      byteBits body = rs.flatMap (runBits f) ++ List.replicate pad false := by
  have hok : (packTable x t f).1.Ok := by simp [packTable_out, Sink.Ok]
  have hempty : (packTable x t f).1.bits = byteBits (packTable x t f).1.out := by
    simp [packTable_out, Sink.bits, bitsOf]
  obtain ⟨hbits, hok'⟩ := packRuns_bits hok f rs
  obtain ⟨body, hbody⟩ := (packRuns_prefix f (packTable x t f).1 rs).trans (flush_prefix _)
  obtain ⟨-, hflush⟩ := Sink.flush_bits hok'
  rw [← hbody, byteBits_append, hbits, hempty, List.append_assoc] at hflush
  refine ⟨body, _, ?_, List.append_cancel_left hflush⟩
  rw [packBytes, packSink, ← hbody, packTable_out]
  simp

/-! ## The trie -/

/-- The node a missing child becomes on the way of an insertion (R192). -/
def Node.opened (node : Node) : Node := if node = .absent then emptyRoot else node

/-- A node with one child put in place. -/
def Node.withChild (node : Node) (bit : Bool) (n : Node) : Node :=
  match node with
  | .inner clear set => if bit then .inner clear n else .inner n set
  | .absent => .absent
  | .leafRun r => .leafRun r
  | .leafEsc => .leafEsc

theorem emptyRoot_at {q : List Bool} (h : q ≠ []) : emptyRoot.at q = .absent := by
  cases q with
  | nil => exact absurd rfl h
  | cons b q => cases b <;> simp [emptyRoot, Node.child]

/-- Opening a missing child changes nothing below it, and makes no leaf (R192). -/
theorem opened_at {node : Node} {q : List Bool} (h : q ≠ []) : (Node.opened node).at q = node.at q := by
  unfold Node.opened
  split
  · rename_i e
    rw [e, emptyRoot_at h, Node.at_absent]
  · rfl

theorem opened_inner {node : Node} (h : Node.isLeaf node = false) : Node.isInner (Node.opened node) = true := by
  unfold Node.opened
  cases node <;> simp_all [Node.isLeaf, Node.isInner, emptyRoot]

theorem withChild_child {node : Node} (h : Node.isInner node = true) (bit b : Bool) (n : Node) :
    (Node.withChild node bit n).child b = if b = bit then n else node.child b := by
  cases node with
  | inner clear set => cases bit <;> cases b <;> rfl
  | absent => cases h
  | leafRun r => cases h
  | leafEsc => cases h

theorem withChild_inner {node : Node} (h : Node.isInner node = true) (bit : Bool) (n : Node) :
    Node.isInner (Node.withChild node bit n) = true := by
  cases node with
  | inner clear set => cases bit <;> rfl
  | absent => cases h
  | leafRun r => cases h
  | leafEsc => cases h

/-- The last bit of an insertion puts the leaf in the free place (R192). -/
theorem insertAt_last {leaf node : Node} {bit : Bool} (h : Node.isInner node = true)
    (hfree : node.child bit = .absent) :
    insertAt leaf [bit] node = some (Node.withChild node bit leaf) := by
  cases node with
  | inner clear set => cases bit <;> simp_all [insertAt, Node.child, Node.withChild]
  | absent => cases h
  | leafRun r => cases h
  | leafEsc => cases h

/-- Any other bit goes down to the child, opened when it is missing (R192). -/
theorem insertAt_down {leaf node : Node} {bit next : Bool} {path : List Bool} (h : Node.isInner node = true) :
    insertAt leaf (bit :: next :: path) node =
      (insertAt leaf (next :: path) (Node.opened (node.child bit))).map (Node.withChild node bit) := by
  cases node with
  | inner clear set => cases bit <;> rfl
  | absent => cases h
  | leafRun r => cases h
  | leafEsc => cases h

/-- What a trie is after a leaf has been put at the end of a path: the leaf there, inner nodes on the way, everything
else as before (R192). -/
structure Inserted (leaf : Node) (path : List Bool) (node node' : Node) : Prop where
  root : Node.isInner node' = true
  below : ∀ q, node'.at (path ++ q) = leaf.at q
  way : ∀ q, q <+: path → q ≠ path → Node.isInner (node'.at q) = true
  other : ∀ q, ¬ path <+: q → ¬ q <+: path → node'.at q = node.at q

theorem Inserted.last {leaf node : Node} {bit : Bool} (h : Node.isInner node = true) :
    Inserted leaf [bit] node (Node.withChild node bit leaf) where
  root := withChild_inner h bit leaf
  below q := by simp [withChild_child h]
  way q hq hne := by
    have : q = [] := by
      cases q with
      | nil => rfl
      | cons b q => obtain ⟨rfl, hq⟩ := List.cons_prefix_cons.1 hq; simp_all
    simpa [this] using withChild_inner h bit leaf
  other q hpq hqp := by
    cases q with
    | nil => simp at hqp
    | cons b q =>
      have hb : b ≠ bit := fun e => hpq (by simp [e])
      simp [withChild_child h, hb]

theorem Inserted.down {leaf node n : Node} {bit : Bool} {path : List Bool} (h : Node.isInner node = true)
    (hn : Inserted leaf path (Node.opened (node.child bit)) n) :
    Inserted leaf (bit :: path) node (Node.withChild node bit n) where
  root := withChild_inner h bit n
  below q := by simpa [withChild_child h] using hn.below q
  way q hq hne := by
    cases q with
    | nil => exact withChild_inner h bit n
    | cons b q =>
      obtain ⟨rfl, hqp⟩ := List.cons_prefix_cons.1 hq
      simpa [withChild_child h] using hn.way q hqp fun e => hne (by rw [e])
  other q hpq hqp := by
    cases q with
    | nil => simp at hqp
    | cons b q =>
      by_cases hb : b = bit
      · subst hb
        rw [List.cons_prefix_cons] at hpq hqp
        have hq : q ≠ [] := fun e => hqp ⟨rfl, e ▸ List.nil_prefix⟩
        simpa [withChild_child h, opened_at hq] using
          hn.other q (fun hp => hpq ⟨rfl, hp⟩) fun hp => hqp ⟨rfl, hp⟩
      · simp [withChild_child h, hb]

/-- An insertion succeeds when the end position is free and no leaf stands on the way (R192). -/
theorem insertAt_free {leaf node : Node} {path : List Bool} (hp : path ≠ []) (h : Node.isInner node = true)
    (hway : ∀ q, q <+: path → Node.isLeaf (node.at q) = false) (hend : node.at path = .absent) :
    ∃ node', insertAt leaf path node = some node' ∧ Inserted leaf path node node' := by
  induction path generalizing node with
  | nil => exact absurd rfl hp
  | cons bit path ih =>
    cases path with
    | nil => exact ⟨_, insertAt_last h (by simpa using hend), Inserted.last h⟩
    | cons next path =>
      have hchild : ∀ q, q <+: next :: path → Node.isLeaf ((node.child bit).at q) = false := fun q hq => by
        simpa using hway (bit :: q) (List.cons_prefix_cons.2 ⟨rfl, hq⟩)
      have hinner := opened_inner (node := node.child bit) (by simpa using hchild [] List.nil_prefix)
      obtain ⟨n, hn, hins⟩ := ih (node := Node.opened (node.child bit)) (by simp) hinner
        (fun q hq => by
          cases q with
          | nil => revert hinner; cases Node.opened (node.child bit) <;> simp [Node.isInner, Node.isLeaf]
          | cons b q => rw [opened_at (by simp)]; exact hchild _ hq)
        (by rw [opened_at (by simp)]; simpa using hend)
      exact ⟨_, by rw [insertAt_down h, hn]; rfl, Inserted.down h hins⟩

/-- A trie that holds exactly the given leaves at the given paths: each leaf is there, there is no other leaf, and no
inner node but the root and those on the way to a leaf (R33, R190). -/
structure TrieHolds (node : Node) (es : List (List Bool × Node)) : Prop where
  root : Node.isInner node = true
  leaf : ∀ e ∈ es, Node.isLeaf e.2 = true ∧ node.at e.1 = e.2
  only : ∀ q, Node.isLeaf (node.at q) = true → ∃ e ∈ es, e.1 = q
  way : ∀ q, Node.isInner (node.at q) = true → q = [] ∨ ∃ e ∈ es, q <+: e.1

theorem TrieHolds.empty : TrieHolds emptyRoot [] where
  root := rfl
  leaf e he := by cases he
  only q hq := by
    cases q with
    | nil => cases hq
    | cons b q => rw [emptyRoot_at (by simp)] at hq; cases hq
  way q hq := by
    cases q with
    | nil => exact .inl rfl
    | cons b q => rw [emptyRoot_at (by simp)] at hq; cases hq

theorem leaf_at_cons {leaf : Node} (h : Node.isLeaf leaf = true) {q : List Bool} (hq : q ≠ []) :
    leaf.at q = .absent := by
  cases q with
  | nil => exact absurd rfl hq
  | cons b q => cases leaf <;> simp_all [Node.isLeaf, Node.child]

/-- A path that meets none of the trie's paths can be inserted, and is held besides them (R188, R192). -/
theorem TrieHolds.insert {node leaf : Node} {es : List (List Bool × Node)} {path : List Bool} (h : TrieHolds node es)
    (hp : path ≠ []) (hl : Node.isLeaf leaf = true) (hfree : ∀ e ∈ es, ¬ e.1 <+: path ∧ ¬ path <+: e.1) :
    ∃ node', insertAt leaf path node = some node' ∧ TrieHolds node' (es ++ [(path, leaf)]) := by
  have hway : ∀ q, q <+: path → Node.isLeaf (node.at q) = false := fun q hq => by
    by_contra hleaf
    obtain ⟨e, he, rfl⟩ := h.only q (by simpa using hleaf)
    exact (hfree e he).1 hq
  have hend : node.at path = .absent := by
    cases hn : node.at path with
    | absent => rfl
    | inner clear set =>
      rcases h.way path (by rw [hn]; rfl) with e | ⟨e, he, hpe⟩
      · exact absurd e hp
      · exact absurd hpe (hfree e he).2
    | leafRun r => have := hway path (List.prefix_refl _); rw [hn] at this; cases this
    | leafEsc => have := hway path (List.prefix_refl _); rw [hn] at this; cases this
  obtain ⟨node', hins, hi⟩ := insertAt_free (leaf := leaf) hp h.root hway hend
  have hpath : node'.at path = leaf := by simpa using hi.below []
  have hbelow : ∀ q, path <+: q → q ≠ path → node'.at q = .absent := by
    rintro q ⟨q', rfl⟩ hne
    rw [hi.below, leaf_at_cons hl fun e => hne (by simp [e])]
  have hcases : ∀ q, q = path ∨ node'.at q = .absent ∨ (q <+: path ∧ Node.isInner (node'.at q) = true) ∨
      node'.at q = node.at q := fun q => by
    by_cases hq : q = path
    · exact .inl hq
    · by_cases hpq : path <+: q
      · exact .inr (.inl (hbelow q hpq hq))
      · by_cases hqp : q <+: path
        · exact .inr (.inr (.inl ⟨hqp, hi.way q hqp hq⟩))
        · exact .inr (.inr (.inr (hi.other q hpq hqp)))
  refine ⟨node', hins, ⟨hi.root, ?_, ?_, ?_⟩⟩
  · intro e he
    rcases List.mem_append.1 he with he | he
    · obtain ⟨hleaf, hat⟩ := h.leaf e he
      exact ⟨hleaf, (hi.other e.1 (hfree e he).2 (hfree e he).1).trans hat⟩
    · obtain rfl := List.mem_singleton.1 he
      exact ⟨hl, hpath⟩
  · intro q hq
    rcases hcases q with rfl | ha | ⟨-, hin⟩ | hs
    · exact ⟨_, List.mem_append_right _ (List.mem_singleton_self _), rfl⟩
    · rw [ha] at hq; cases hq
    · revert hq hin; cases node'.at q <;> simp [Node.isInner, Node.isLeaf]
    · obtain ⟨e, he, heq⟩ := h.only q (hs ▸ hq)
      exact ⟨e, List.mem_append_left _ he, heq⟩
  · intro q hq
    rcases hcases q with rfl | ha | ⟨hqp, -⟩ | hs
    · exact .inr ⟨_, List.mem_append_right _ (List.mem_singleton_self _), List.prefix_refl _⟩
    · rw [ha] at hq; cases hq
    · exact .inr ⟨_, List.mem_append_right _ (List.mem_singleton_self _), hqp⟩
    · rcases h.way q (hs ▸ hq) with e | ⟨e, he, hpe⟩
      · exact .inl e
      · exact .inr ⟨e, List.mem_append_left _ he, hpe⟩

end Sys2Proof.Machine
end

section
/-! The elements of a stream one by one (R82 to R90), and that DECODE ends where they lead (R220). -/

namespace Sys2Proof
namespace Machine

/-! ## Reading on -/

/-- A reader is another some bytes on. -/
def Reader.Took (rd rd' : Reader) : Prop := ∃ k, rd'.bytes = rd.bytes.drop k ∧ rd'.taken = rd.taken + k

theorem Reader.Took.refl (rd : Reader) : Reader.Took rd rd := ⟨0, by simp, by simp⟩

theorem Reader.Took.trans {a b c : Reader} (h : Reader.Took a b) (h' : Reader.Took b c) : Reader.Took a c := by
  obtain ⟨k, hb, ht⟩ := h
  obtain ⟨l, hb', ht'⟩ := h'
  exact ⟨k + l, by rw [hb', hb, List.drop_drop], by omega⟩

theorem readBit_took {rd rd' : Reader} {b : Bool} (h : rd.readBit = some (b, rd')) : Reader.Took rd rd' := by
  obtain ⟨bytes, cur, nleft, taken⟩ := rd
  cases nleft with
  | succ n =>
    simp only [Reader.readBit, Option.some.injEq, Prod.mk.injEq] at h
    obtain ⟨-, rfl⟩ := h
    exact ⟨0, by simp, by simp⟩
  | zero =>
    cases bytes with
    | nil => simp [Reader.readBit, Reader.read1] at h
    | cons c cs =>
      simp only [Reader.readBit, Reader.read1, Option.some.injEq, Prod.mk.injEq] at h
      obtain ⟨-, rfl⟩ := h
      exact ⟨1, by simp, by simp⟩

theorem readBits_took {n v w : Nat} {rd rd' : Reader} (h : Reader.readBits n v rd = some (w, rd')) :
    Reader.Took rd rd' := by
  induction n generalizing v rd with
  | zero =>
    simp only [Reader.readBits, Option.some.injEq, Prod.mk.injEq] at h
    exact h.2 ▸ .refl rd
  | succ n ih =>
    rw [Reader.readBits] at h
    split at h
    · cases h
    · rename_i b rd1 h1
      exact (readBit_took h1).trans (ih h)

theorem readBytes_drop (m : Memory) (a n k : Nat) : (m.readBytes a n).drop k = m.readBytes (a + k) (n - k) := by
  by_cases h : k ≤ n
  · obtain ⟨j, rfl⟩ := Nat.exists_eq_add_of_le h
    rw [readBytes_append, List.drop_left' (readBytes_length m a k), Nat.add_sub_cancel_left]
  · rw [List.drop_eq_nil_of_le (by rw [readBytes_length]; omega), show n - k = 0 by omega]
    rfl

/-- The cursor put where a reader stands reads on from there (R27). -/
theorem putReader_unread {s : State} {rd : Reader} (h : Reader.Took s.reader rd) :
    (s.putReader rd).reader.unread = rd.unread := by
  obtain ⟨k, hb, ht⟩ := h
  have hbytes : (s.putReader rd).reader.bytes = rd.bytes := by
    have hk : rd.taken = k := by simpa [State.reader] using ht
    have hdrop := readBytes_drop s.src s.sp (s.argLen - s.sp) k
    rw [Nat.sub_sub] at hdrop
    simp only [hb, State.reader, putReader_src, putReader_argLen, hdrop]
    rw [State.putReader, hk]
  rw [Reader.unread, Reader.unread, hbytes]
  rfl

/-- The bytes at a cursor some places on. -/
theorem reader_bytes_drop (s t : State) (k : Nat) (hsrc : t.src = s.src) (harg : t.argLen = s.argLen)
    (hsp : t.sp = s.sp + k) : t.reader.bytes = s.reader.bytes.drop k := by
  simp only [State.reader, hsrc, harg, hsp, readBytes_drop, Nat.sub_sub]

/-! ## The walk -/

/-- Walking along a path of the trie reads its bits (R90, R195). -/
theorem walk_path {node : Node} {path stood rest : List Bool} {rd : Reader} (h : node.at path ≠ .absent)
    (hu : rd.unread = path ++ rest) :
    ∃ rd', walk node stood rd = walk (node.at path) (stood ++ path) rd' ∧ rd'.unread = rest ∧ Reader.Took rd rd' := by
  induction path generalizing node stood rd with
  | nil => exact ⟨rd, by simp, hu, .refl rd⟩
  | cons b path ih =>
    obtain ⟨rd1, h1, hu1, -⟩ := Reader.readBit_of_unread hu
    cases node with
    | inner clear set =>
      obtain ⟨rd', hw, hu', ht⟩ :=
        ih (node := (Node.inner clear set).child b) (stood := stood ++ [b]) (by simpa using h) hu1
      refine ⟨rd', ?_, hu', (readBit_took h1).trans ht⟩
      rw [walk, h1, Node.at_cons, List.append_cons stood b path, ← hw]
      cases b <;> rfl
    | absent => simp [Node.child] at h
    | leafRun r => simp [Node.child] at h
    | leafEsc => simp [Node.child] at h

theorem decodeBits_path {node : Node} {path rest : List Bool} {rd : Reader} (hp : path ≠ [])
    (h : node.at path ≠ .absent) (hu : rd.unread = path ++ rest) :
    ∃ rd', decodeBits node rd = walk (node.at path) path rd' ∧ rd'.unread = rest ∧ Reader.Took rd rd' := by
  cases path with
  | nil => exact absurd rfl hp
  | cons b path =>
    obtain ⟨rd1, h1, hu1, -⟩ := Reader.readBit_of_unread hu
    obtain ⟨rd', hw, hu', ht⟩ := walk_path (node := node.child b) (stood := [b]) (by simpa using h) hu1
    refine ⟨rd', ?_, hu', (readBit_took h1).trans ht⟩
    rw [decodeBits, h1, Node.at_cons]
    exact hw

/-- The bits of a codeword in the trie are a CODE element (R86, R195). -/
theorem decodeBits_code {node : Node} {path rest : List Bool} {rd : Reader} {r : Run} (hp : path ≠ [])
    (h : node.at path = .leafRun r) (hu : rd.unread = path ++ rest) :
    ∃ rd', decodeBits node rd = .instr (.code path) rd' ∧ rd'.unread = rest ∧ Reader.Took rd rd' := by
  obtain ⟨rd', hd, hu', ht⟩ := decodeBits_path (node := node) hp (by simp [h]) hu
  exact ⟨rd', by rw [hd, h, walk], hu', ht⟩

/-- A field read back from its bits (R63). -/
theorem ofNat_bitsValue_bitsOf {n : Nat} (v : BitVec n) :
    BitVec.ofNat n (0 * 2 ^ n + bitsValue (bitsOf n v.toNat)) = v := by
  rw [Nat.zero_mul, Nat.zero_add, bitsValue_bitsOf, Nat.mod_eq_of_lt v.isLt, BitVec.ofNat_toNat, BitVec.setWidth_eq]

/-- The escape codeword and seven field bits are an ESC element (R87). -/
theorem decodeBits_esc {node : Node} {c : BitVec 3} {n : Nibble} {rest : List Bool} {rd : Reader}
    (h : node.at escapePath = .leafEsc) (hu : rd.unread = encode (.esc c n) ++ rest) :
    ∃ rd', decodeBits node rd = .instr (.esc c n) rd' ∧ rd'.unread = rest ∧ Reader.Took rd rd' := by
  have hu : rd.unread = escapePath ++ (bitsOf 3 c.toNat ++ (bitsOf 4 n.toNat ++ rest)) := by
    rw [hu, encode, List.append_assoc, List.append_assoc]
    rfl
  obtain ⟨rd1, hd, hu1, ht1⟩ := decodeBits_path (node := node) (by decide) (by simp [h]) hu
  obtain ⟨rd2, h2, hu2, -⟩ := Reader.readBits_of_unread 0 (bitsOf_length 3 c.toNat) hu1
  obtain ⟨rd3, h3, hu3, -⟩ := Reader.readBits_of_unread 0 (bitsOf_length 4 n.toNat) hu2
  refine ⟨rd3, ?_, hu3, (ht1.trans (readBits_took h2)).trans (readBits_took h3)⟩
  rw [hd, h, walk, decodeEscFields, h2]
  simp only [h3, ofNat_bitsValue_bitsOf]

/-- Following a path to a leaf (R195). -/
theorem followPath_leaf {node : Node} {path stood : List Bool} {r : Run} (h : node.at path = .leafRun r) :
    followPath node stood path = .leaf r := by
  induction path generalizing node stood with
  | nil => simp only [Node.at_nil] at h; rw [h, followPath]
  | cons b path ih =>
    cases node with
    | inner clear set =>
      rw [Node.at_cons] at h
      cases b <;> exact ih h
    | absent => simp [Node.child] at h
    | leafRun r => simp [Node.child] at h
    | leafEsc => simp [Node.child] at h

/-! ## Element after element -/

/-- One element of a stream leads from one state to the next. -/
def Stepped (s t : State) : Prop := s.status = .busy ∧ elementStep s = .next t

/-- A state some elements on. -/
def Reaches : State → State → Prop := Relation.ReflTransGen Stepped

/-- A run of elements that ends, ends in the state at rest the elements lead to. -/
theorem Reaches.unique {fuel : Nat} {s t t' : State} (h : Reaches s t) (ht : t.status ≠ .busy)
    (hr : runElements fuel s = .next t') (ht' : t'.status ≠ .busy) : t' = t := by
  induction h using Relation.ReflTransGen.head_induction_on generalizing fuel with
  | refl => rw [runElements_rest ht] at hr; cases hr; rfl
  | head hstep _ ih =>
    obtain ⟨hb, he⟩ := hstep
    cases fuel with
    | zero => rw [runElements] at hr; cases hr; exact absurd hb ht'
    | succ fuel => rw [runElements_busy hb, he] at hr; exact ih hr

theorem ended_not_busy {s : State} (h : s.ended) : s.status ≠ .busy := by
  rcases h with h | h <;> rw [h] <;> simp

/-- DECODE ends in the state at rest that its elements lead to (R220, R269). -/
theorem exec_decode_reaches {s t : State} (h : Reaches s.decodeStart t) (ht : t.status ≠ .busy) :
    exec .decode s = .next t := by
  have hfuel : s.decodeStart.bitsLeft < s.decodeStart.elementBound := by
    simp only [State.bitsLeft, State.elementBound]
    omega
  obtain ⟨t', hr, hend⟩ := runElements_ends (s := s.decodeStart) rfl (by simp [State.decodeStart]) hfuel
  exact h.unique ht hr (ended_not_busy hend) ▸ hr

/-- An element the decoder reads is given its meaning (R90). -/
theorem elementStep_of_decode {s : State} {i : Instr} {rd : Reader} (hp : s.phase ≠ .command)
    (hd : decodeAt s.region (s.trie.at s.tcur) s.reader = .instr i rd) :
    elementStep s = runElement i (s.putReader rd) := by
  rw [elementStep, State.fetch, State.fetchReader, if_neg hp, hd]
  simp only [State.afterFetch, if_neg hp]

/-- Before the bitstream the place in the stream is as stored (R89). -/
theorem region_of_not_bits {s : State} (h : s.phase ≠ .bits) : s.region = s.phase := by
  rw [State.region, if_neg fun hb => h hb.1]

theorem reader_of_bytes {s : State} {bs : List Byte} (h : s.reader.bytes = bs) :
    s.reader = { bytes := bs, cur := s.brCur, nleft := s.brLeft, taken := 0 } := by
  rw [← h]
  rfl

/-- Two bytes at the header are HDR (R82). -/
theorem elementStep_hdr {s : State} {hi lo : Byte} {rest : List Byte} (hp : s.phase = .header)
    (hb : s.reader.bytes = hi :: lo :: rest) :
    elementStep s =
      .next { s with
        sp := s.sp + 2, xflag := (hi ++ lo).getLsbD 15, tiles := (hi ++ lo).setWidth 15, phase := .table } := by
  have hd : decodeAt s.region (s.trie.at s.tcur) s.reader =
      .instr (.hdr ((hi ++ lo).getLsbD 15) ((hi ++ lo).setWidth 15))
        { bytes := rest, cur := s.brCur, nleft := s.brLeft, taken := 2 } := by
    rw [region_of_not_bits (by simp [hp]), hp, reader_of_bytes hb]
    rfl
  rw [elementStep_of_decode (by simp [hp]) hd]
  rfl

/-- A byte 0x80 to 0xFE of the table is TNIB (R83, R89). -/
theorem elementStep_tnib {s : State} {b : Byte} {rest : List Byte} (hp : s.phase = .table)
    (hb : s.reader.bytes = b :: rest) (hne : b ≠ 0xFF#8) (htop : b.getLsbD 7 = true) :
    elementStep s = .next { s with sp := s.sp + 1, ctx := some (b.extractLsb' 0 4), phase := .entry } := by
  have hd : decodeAt s.region (s.trie.at s.tcur) s.reader =
      .instr (.tnib (b.extractLsb' 4 3) (b.extractLsb' 0 4))
        { bytes := rest, cur := s.brCur, nleft := s.brLeft, taken := 1 } := by
    rw [region_of_not_bits (by simp [hp]), hp, reader_of_bytes hb]
    simp only [decodeAt, decodeTable, Reader.read1, Config.terminator, if_neg hne, if_pos htop]
  rw [elementStep_of_decode (by simp [hp]) hd]
  rfl

/-- Two bytes of the table whose first has its top bit clear are TENT, after a marker and elsewhere (R84, R89). -/
theorem elementStep_tent {s : State} {b k : Byte} {rest : List Byte} (hp : s.phase = .table ∨ s.phase = .entry)
    (hb : s.reader.bytes = b :: k :: rest) (htop : b.getLsbD 7 = false) :
    elementStep s = execTent false (b.extractLsb' 4 3) (b.extractLsb' 0 4) k { s with sp := s.sp + 2 } := by
  have hd : decodeAt s.region (s.trie.at s.tcur) s.reader =
      .instr (.tent false (b.extractLsb' 4 3) (b.extractLsb' 0 4) k)
        { bytes := rest, cur := s.brCur, nleft := s.brLeft, taken := 2 } := by
    have hne : b ≠ Config.terminator := by rintro rfl; exact absurd htop (by decide)
    rcases hp with hp | hp
    · rw [region_of_not_bits (by simp [hp]), hp, reader_of_bytes hb]
      simp only [decodeAt, decodeTable, decodeEntryFrom, Reader.read1, if_neg hne, htop, Bool.false_eq_true, if_false]
    · rw [region_of_not_bits (by simp [hp]), hp, reader_of_bytes hb]
      simp only [decodeAt, decodeEntry, decodeEntryFrom, Reader.read1, htop]
  rw [elementStep_of_decode (by rcases hp with hp | hp <;> simp [hp]) hd]
  rfl

/-- The byte 0xFF of the table is TEND (R85, R89). -/
theorem elementStep_tend {s : State} {rest : List Byte} (hp : s.phase = .table) (hb : s.reader.bytes = 0xFF#8 :: rest) :
    elementStep s = execTend { s with sp := s.sp + 1 } := by
  have hd : decodeAt s.region (s.trie.at s.tcur) s.reader =
      .instr .tend { bytes := rest, cur := s.brCur, nleft := s.brLeft, taken := 1 } := by
    rw [region_of_not_bits (by simp [hp]), hp, reader_of_bytes hb]
    rfl
  rw [elementStep_of_decode (by simp [hp]) hd]
  rfl

end Machine
end Sys2Proof
end

section
/-! DECODE of what PACK writes, the loops: the table's entries, the runs' bits (R176, R194, R198). -/

namespace Sys2Proof.Machine

/-! ## The table -/

/-- A TENT that passes the four tests (R188). -/
theorem execTent_good {s : State} {b : Bool} {c : BitVec 3} {l : BitVec 4} {k : Byte} {n : Nibble} {trie : Node}
    (hctx : s.ctx = some n) (hl : 1 ≤ l.toNat ∧ l.toNat ≤ 8) (hk : k.toNat < 2 ^ l.toNat)
    (hins : insertAt (.leafRun (runOf n c)) (codewordPath k l) s.trie = some trie) :
    execTent b c l k s = .next { s with trie := trie, phase := .table } := by
  have hlen : ¬ (l.toNat = 0 ∨ 9 ≤ l.toNat) := by omega
  rw [execTent, hctx]
  simp only [if_neg hlen, if_neg (Nat.not_le.2 hk), hins]

/-- The marker byte read back (R83, R173). -/
theorem markerByte_fields (n : Nibble) :
    markerByte n ≠ 0xFF#8 ∧ (markerByte n).getLsbD 7 = true ∧ (markerByte n).extractLsb' 0 4 = n := by
  revert n
  decide +kernel

/-- The length/count byte read back (R84, R173). -/
theorem entryByte_fields (r : Run) (cw : Codeword) :
    (entryByte r cw).getLsbD 7 = false ∧ (entryByte r cw).extractLsb' 4 3 = r.cm1 ∧
      (entryByte r cw).extractLsb' 0 4 = cw.len := by
  have h : ∀ (c : BitVec 3) (l : BitVec 4), (BitVec.ofNat 8 (c.toNat * 16 + l.toNat)).getLsbD 7 = false ∧
      (BitVec.ofNat 8 (c.toNat * 16 + l.toNat)).extractLsb' 4 3 = c ∧
      (BitVec.ofNat 8 (c.toNat * 16 + l.toNat)).extractLsb' 0 4 = l := by decide +kernel
  exact h r.cm1 cw.len

theorem tableBytes_cons (last : Option Nibble) (r : Run) (cw : Codeword) (es : List (Run × Codeword)) :
    tableBytes last ((r, cw) :: es) =
      (if last = some r.nib then [] else [markerByte r.nib]) ++
        entryByte r cw :: cw.bits :: tableBytes (some r.nib) es := by
  rw [tableBytes, List.append_assoc]
  rfl

/-- A codeword fits its length, 1 to 8 (R25). -/
def Fits (cw : Codeword) : Prop := 1 ≤ cw.len.toNat ∧ cw.len.toNat ≤ 8 ∧ cw.bits.toNat < 2 ^ cw.len.toNat

/-- The state after some entries of the table: SP, CTX and the trie have moved (R187). -/
def State.tableAt (s : State) (sp : Nat) (ctx : Option Nibble) (trie : Node) : State :=
  { s with sp := sp, ctx := ctx, trie := trie, phase := .table }

/-- The state after a marker (R187). -/
def State.markedWith (s : State) (n : Nibble) : State := { s with sp := s.sp + 1, ctx := some n, phase := .entry }

/-- One entry, its nibble in force. -/
theorem reaches_tent {s : State} {r : Run} {cw : Codeword} {trie : Node} {more : List Byte} (hb : s.status = .busy)
    (hp : s.phase = .table ∨ s.phase = .entry) (hctx : s.ctx = some r.nib)
    (hfits : Fits cw) (hins : insertAt (.leafRun r) (Codeword.path cw) s.trie = some trie)
    (hbytes : s.reader.bytes = entryByte r cw :: cw.bits :: more) :
    Reaches s (s.tableAt (s.sp + 2) (some r.nib) trie) ∧
      (s.tableAt (s.sp + 2) (some r.nib) trie).reader.bytes = more := by
  obtain ⟨htop, hcm1, hlen⟩ := entryByte_fields r cw
  obtain ⟨h1, h8, hk⟩ := hfits
  constructor
  · refine .single ⟨hb, ?_⟩
    have hgood := execTent_good (s := { s with sp := s.sp + 2 }) (b := false) (c := r.cm1) (n := r.nib) hctx ⟨h1, h8⟩ hk
      hins
    rw [elementStep_tent hp hbytes htop, hcm1, hlen, hgood, State.tableAt, hctx]
  · rw [reader_bytes_drop s (s.tableAt (s.sp + 2) (some r.nib) trie) 2 rfl rfl rfl, hbytes]
    rfl

/-- One entry with its marker, when the nibble changes (R173, R187). -/
theorem reaches_entry {s : State} {r : Run} {cw : Codeword} {trie : Node} {more : List Byte} (hb : s.status = .busy)
    (hp : s.phase = .table) (hfits : Fits cw)
    (hins : insertAt (.leafRun r) (Codeword.path cw) s.trie = some trie)
    (hbytes : s.reader.bytes = (if s.ctx = some r.nib then [] else [markerByte r.nib]) ++
      entryByte r cw :: cw.bits :: more) :
    ∃ sp, Reaches s (s.tableAt sp (some r.nib) trie) ∧ (s.tableAt sp (some r.nib) trie).reader.bytes = more := by
  by_cases hctx : s.ctx = some r.nib
  · rw [if_pos hctx] at hbytes
    exact ⟨_, reaches_tent hb (.inl hp) hctx hfits hins hbytes⟩
  · rw [if_neg hctx] at hbytes
    obtain ⟨hne, htop, hnib⟩ := markerByte_fields r.nib
    have hmark : Stepped s (s.markedWith r.nib) :=
      ⟨hb, by rw [elementStep_tnib hp hbytes hne htop, hnib, State.markedWith]⟩
    have hrest : (s.markedWith r.nib).reader.bytes = entryByte r cw :: cw.bits :: more := by
      rw [reader_bytes_drop s (s.markedWith r.nib) 1 rfl rfl rfl, hbytes]
      rfl
    obtain ⟨hreach, hmore⟩ := reaches_tent (s := s.markedWith r.nib) hb (.inr rfl) rfl hfits hins hrest
    exact ⟨_, .head hmark hreach, hmore⟩

/-- Where a table entry's leaf stands in the trie (R190). -/
def entryLeaf (e : Run × Codeword) : List Bool × Node := (Codeword.path e.2, .leafRun e.1)

/-- Neither of two paths begins the other. -/
def Apart (p q : List Bool) : Prop := ¬ p <+: q ∧ ¬ q <+: p

theorem path_ne_nil {cw : Codeword} (h : 1 ≤ cw.len.toNat) : Codeword.path cw ≠ [] := by
  intro e
  have := congrArg List.length e
  simp [Codeword.path, codewordPath] at this
  omega

/-- The entries of a table whose paths are apart are all inserted (R187, R188). -/
theorem reaches_table {es : List (Run × Codeword)} {s : State} {ds : List (List Bool × Node)} {more : List Byte}
    (hb : s.status = .busy) (hp : s.phase = .table) (hholds : TrieHolds s.trie ds) (hfits : ∀ e ∈ es, Fits e.2)
    (hapart : (ds.map Prod.fst ++ es.map fun e => Codeword.path e.2).Pairwise Apart)
    (hbytes : s.reader.bytes = tableBytes s.ctx es ++ more) :
    ∃ sp ctx trie, Reaches s (s.tableAt sp ctx trie) ∧ (s.tableAt sp ctx trie).reader.bytes = more ∧
      TrieHolds trie (ds ++ es.map entryLeaf) := by
  induction es generalizing s ds with
  | nil =>
    have hself : s.tableAt s.sp s.ctx s.trie = s := by rw [State.tableAt, ← hp]
    exact ⟨s.sp, s.ctx, s.trie, hself ▸ .refl, hself ▸ hbytes, by simpa using hholds⟩
  | cons e es ih =>
    obtain ⟨r, cw⟩ := e
    have hfit : Fits cw := hfits (r, cw) (by simp)
    rw [tableBytes_cons, List.append_assoc] at hbytes
    obtain ⟨-, -, hcross⟩ := List.pairwise_append.1 hapart
    obtain ⟨trie, hins, hholds'⟩ := hholds.insert (path := Codeword.path cw) (leaf := .leafRun r) (path_ne_nil hfit.1)
      rfl fun d hd => hcross d.1 (List.mem_map_of_mem hd) (Codeword.path cw) (by simp)
    obtain ⟨sp, hreach, hmore⟩ := reaches_entry hb hp hfit hins hbytes
    obtain ⟨sp', ctx', trie', hreach', hmore', hholds''⟩ := ih (s := s.tableAt sp (some r.nib) trie)
      (ds := ds ++ [(Codeword.path cw, Node.leafRun r)]) hb rfl hholds' (fun e he => hfits e (by simp [he]))
      (by simpa using hapart) hmore
    exact ⟨sp', ctx', trie', hreach.trans hreach', hmore', by simpa [entryLeaf] using hholds''⟩

/-- The entries of a table with R25's invariant fit their lengths and are apart, from each other and from the escape. -/
theorem CodesOk.entries {f : RunFile (Option Codeword)} (h : CodesOk f) :
    (∀ e ∈ tableEntries f, Fits e.2 ∧ Apart (Codeword.path e.2) escapePath) ∧
      ((tableEntries f).map fun e => Codeword.path e.2).Pairwise Apart := by
  have hmem : ∀ e ∈ tableEntries f, fileGet f e.1 = some e.2 := fun e he => by
    rw [← h.codeAt_eq]
    exact mem_tableEntries.1 he
  have hruns : (tableEntries f).Pairwise fun a b => a.1 ≠ b.1 := by
    refine List.Pairwise.filterMap _ (fun a a' hne b hb b' hb' => ?_) allRuns_nodup
    obtain ⟨-, -, rfl⟩ := Option.map_eq_some_iff.1 hb
    obtain ⟨-, -, rfl⟩ := Option.map_eq_some_iff.1 hb'
    exact hne
  refine ⟨fun e he => ⟨h.fits _ _ (hmem e he), h.clearOfEscape _ _ (hmem e he)⟩, ?_⟩
  rw [List.pairwise_map]
  refine hruns.imp_of_mem fun {a b} ha hb hne => ?_
  exact ⟨h.prefixFree _ _ _ _ hne (hmem a ha) (hmem b hb), h.prefixFree _ _ _ _ hne.symm (hmem b hb) (hmem a ha)⟩

/-- A trie that holds a table: every codeword leads to its run's leaf, the escape codeword to the escape leaf (R33). -/
structure TrieOf (f : RunFile (Option Codeword)) (trie : Node) : Prop where
  code : ∀ r cw, codeAt f r = some cw → trie.at (Codeword.path cw) = .leafRun r
  escape : trie.at escapePath = .leafEsc

/-- The state at the bitstream (R194). -/
def State.bitsAt (s : State) (sp : Nat) (ctx : Option Nibble) (trie : Node) : State :=
  { s with sp := sp, ctx := ctx, trie := trie, brCur := 0#8, brLeft := 0, tcur := [], phase := .bits }

/-- A TEND that finds the escape codeword free (R193, R194). -/
theorem execTend_good {s : State} {trie : Node} (hins : insertAt .leafEsc escapePath s.trie = some trie)
    (honly : s.tableOnly = false) : execTend s = .next (s.bitsAt s.sp s.ctx trie) := by
  have hnot : (s.bitsAt s.sp s.ctx trie).tableOnly = false := honly
  have hif : (if (s.bitsAt s.sp s.ctx trie).tableOnly then (s.bitsAt s.sp s.ctx trie).finish
    else s.bitsAt s.sp s.ctx trie) = s.bitsAt s.sp s.ctx trie := by rw [hnot]; rfl
  rw [execTend, hins, ← hif]
  rfl

/-- From the table's first byte to the bitstream (R187, R193, R194). -/
theorem reaches_bits {f : RunFile (Option Codeword)} {s : State} {body : List Byte} (hf : CodesOk f)
    (hb : s.status = .busy) (hp : s.phase = .table) (honly : s.tableOnly = false) (htrie : s.trie = emptyRoot)
    (hbytes : s.reader.bytes = tableBytes s.ctx (tableEntries f) ++ 0xFF#8 :: body) :
    ∃ sp ctx trie, Reaches s (s.bitsAt sp ctx trie) ∧ (s.bitsAt sp ctx trie).reader.unread = byteBits body ∧
      TrieOf f trie := by
  obtain ⟨hentries, hpaths⟩ := hf.entries
  obtain ⟨sp, ctx, trie, hreach, hmore, hholds⟩ := reaches_table (ds := []) hb hp (htrie ▸ TrieHolds.empty)
    (fun e he => (hentries e he).1) (by simpa using hpaths) hbytes
  obtain ⟨trie', hins, hholds'⟩ := hholds.insert (path := escapePath) (leaf := .leafEsc) (by decide) rfl fun d hd => by
    rw [List.nil_append] at hd
    obtain ⟨e, he, rfl⟩ := List.mem_map.1 hd
    exact (hentries e he).2
  have hend : Stepped (s.tableAt sp ctx trie) (s.bitsAt (sp + 1) ctx trie') := by
    have hgood := execTend_good (s := { s.tableAt sp ctx trie with sp := sp + 1 }) hins honly
    exact ⟨hb, (elementStep_tend rfl hmore).trans hgood⟩
  refine ⟨sp + 1, ctx, trie', hreach.tail hend, ?_, ?_, ?_⟩
  · rw [Reader.unread, reader_bytes_drop (s.tableAt sp ctx trie) (s.bitsAt (sp + 1) ctx trie') 1 rfl rfl rfl, hmore]
    rfl
  · intro r cw hcw
    exact (hholds'.leaf (Codeword.path cw, .leafRun r)
      (by simp only [List.nil_append, List.mem_append, List.mem_map]
          exact .inl ⟨(r, cw), mem_tableEntries.2 hcw, rfl⟩)).2
  · exact (hholds'.leaf (escapePath, .leafEsc) (by simp)).2

/-! ## The bitstream -/

/-- In the bitstream of a stream whose table is `f`, between two runs, under DECODE. -/
structure InBits (f : RunFile (Option Codeword)) (s : State) : Prop where
  busy : s.status = .busy
  phase : s.phase = .bits
  atRoot : s.tcur = []
  trie : TrieOf f s.trie
  expands : s.runsOnly = false

theorem region_bits {s : State} (hp : s.phase = .bits) (h : s.delivered < s.expectedNibbles) : s.region = .bits := by
  have h : ¬ s.tiles.toNat * Config.tileNibbles ≤ s.delivered := Nat.not_le.2 h
  rw [State.region, if_neg fun hb => h hb.2, hp]

theorem region_tail {s : State} (hp : s.phase = .bits) (h : s.expectedNibbles ≤ s.delivered) : s.region = .tail :=
  if_pos ⟨hp, h⟩

/-- A run put on the list, the cursor back at the root (R195, R198). -/
def State.listed (s : State) (r : Run) : State := { s with tcur := [], runs := s.runs ++ [r] }

/-- A run that fits is expanded (R198, R209). -/
theorem emitRun_expands {s : State} {r : Run} (h : s.delivered + Run.count r ≤ s.expectedNibbles)
    (hr : s.runsOnly = false) : s.emitRun r = (s.listed r).expandRun r := by
  rcases emitRun_cases s r with ⟨ho, -⟩ | ⟨-, ho, -⟩ | ⟨-, -, e⟩
  · omega
  · rw [hr] at ho; cases ho
  · exact e

/-- The bits of a run are one element, which emits it (R93, R198). -/
theorem elementStep_run {f : RunFile (Option Codeword)} {s : State} {r : Run} {rest : List Bool} (hf : CodesOk f)
    (h : InBits f s) (hroom : s.delivered < s.expectedNibbles) (hu : s.reader.unread = runBits f r ++ rest) :
    ∃ rd, elementStep s = .next ((s.putReader rd).emitRun r) ∧ (s.putReader rd).reader.unread = rest := by
  have hphase : s.phase ≠ .command := by simp [h.phase]
  have hroot : s.trie.at s.tcur = s.trie := by rw [h.atRoot, Node.at_nil]
  cases hc : codeAt f r with
  | some cw =>
    have hne : Codeword.path cw ≠ [] := path_ne_nil (hf.fits r cw (hf.codeAt_eq r ▸ hc)).1
    have hleaf := h.trie.code r cw hc
    rw [runBits, hc] at hu
    obtain ⟨rd, hd, hu', htook⟩ := decodeBits_code hne hleaf hu
    refine ⟨rd, ?_, (putReader_unread htook).trans hu'⟩
    rw [elementStep_of_decode (i := .code (Codeword.path cw)) (rd := rd) hphase
      (by rw [region_bits h.phase hroom, hroot]; exact hd), runElement, execCode]
    simp only [putReader_trie, putReader_tcur, hroot, followPath_leaf hleaf]
  | none =>
    rw [runBits, hc] at hu
    obtain ⟨rd, hd, hu', htook⟩ := decodeBits_esc h.trie.escape hu
    refine ⟨rd, ?_, (putReader_unread htook).trans hu'⟩
    rw [elementStep_of_decode (i := .esc r.cm1 r.nib) (rd := rd) hphase
      (by rw [region_bits h.phase hroom, hroot]; exact hd), runElement, execEsc, runOf]

/-- One run read and expanded (R198, R209). -/
theorem stepped_run {f : RunFile (Option Codeword)} {s : State} {r : Run} {rest : List Bool} (hf : CodesOk f)
    (h : InBits f s) (hfits : s.outcnt + Run.count r ≤ s.expectedNibbles)
    (hu : s.reader.unread = runBits f r ++ rest) :
    ∃ t, Stepped s t ∧ InBits f t ∧ TookNibbles s t (runNibbles [r]) ∧ t.tiles = s.tiles ∧ t.reader.unread = rest := by
  have hdel := delivered_expanded h.expands
  obtain ⟨rd, hstep, hrest⟩ := elementStep_run hf h (by rw [hdel]; simp only [Run.count] at hfits; omega) hu
  have he : (s.putReader rd).emitRun r = ((s.putReader rd).listed r).expandRun r :=
    emitRun_expands (s := s.putReader rd) (by rw [← hdel] at hfits; exact hfits) h.expands
  have htook := expandRun_took ((s.putReader rd).listed r) r
  refine ⟨_, ⟨h.busy, hstep⟩, ?_⟩
  rw [he]
  refine ⟨?_, htook, ?_, ?_⟩
  · rw [expandRun_frame]
    exact ⟨h.busy, h.phase, rfl, h.trie, h.expands⟩
  · rw [expandRun_frame]
    rfl
  · rw [expandRun_frame]
    exact hrest

end Sys2Proof.Machine
end

section
/-! DECODE gives back what ENCODE was given (R16, R176, R221). -/

namespace Sys2Proof.Machine

@[simp] theorem runNibbles_singleton_length (r : Run) : (runNibbles [r]).length = Run.count r := by simp [runNibbles]

theorem TookNibbles.refl (s : State) : TookNibbles s s [] :=
  ⟨[], by simp, rfl, by simp [deXored, Memory.storeBytes], rfl, by simp, rfl, rfl⟩

theorem TookNibbles.outcnt {s t : State} {ns : List Nibble} (h : TookNibbles s t ns) :
    t.outcnt = s.outcnt + ns.length := by
  obtain ⟨plain, -, -, -, -, -, h, -⟩ := h
  exact h

theorem TookNibbles.xflag {s t : State} {ns : List Nibble} (h : TookNibbles s t ns) : t.xflag = s.xflag := by
  obtain ⟨plain, -, -, -, -, -, -, h⟩ := h
  exact h

/-- The bits of runs that do not pass the announced output deliver those runs (R198). -/
theorem reaches_runs {f : RunFile (Option Codeword)} {rs : List Run} {s : State} {rest : List Bool} (hf : CodesOk f)
    (h : InBits f s) (hfits : s.outcnt + (runNibbles rs).length ≤ s.expectedNibbles)
    (hu : s.reader.unread = rs.flatMap (runBits f) ++ rest) :
    ∃ t, Reaches s t ∧ InBits f t ∧ TookNibbles s t (runNibbles rs) ∧ t.tiles = s.tiles ∧ t.reader.unread = rest := by
  induction rs generalizing s with
  | nil => exact ⟨s, .refl, h, .refl s, rfl, by simpa using hu⟩
  | cons r rs ih =>
    have hlen : (runNibbles (r :: rs)).length = Run.count r + (runNibbles rs).length := by simp
    rw [List.flatMap_cons, List.append_assoc] at hu
    obtain ⟨t, hstep, ht, htook, htiles, hrest⟩ := stepped_run hf h (by omega) hu
    have hcnt := htook.outcnt
    rw [runNibbles_singleton_length] at hcnt
    obtain ⟨u, hreach, hu', htook', htiles', hrest'⟩ := ih ht
      (by rw [State.expectedNibbles, htiles]; rw [State.expectedNibbles] at hfits; omega) hrest
    refine ⟨u, .head hstep hreach, hu', ?_, htiles'.trans htiles, hrest'⟩
    have := htook.trans htook'
    rwa [← runNibbles_append] at this

/-- With the output complete the next element is PAD, and the command ends (R199, R220). -/
theorem stepped_pad {f : RunFile (Option Codeword)} {s : State} (h : InBits f s)
    (hfull : s.outcnt = s.expectedNibbles) :
    Stepped s ({ s with xsel := s.xflag } : State).finish := by
  have hd : decodeAt s.region (s.trie.at s.tcur) s.reader = .instr (.pad (BitVec.ofNat 3 s.brLeft)) s.reader := by
    rw [region_tail h.phase (by rw [delivered_expanded h.expands, hfull])]
    rfl
  refine ⟨h.busy, ?_⟩
  rw [elementStep_of_decode (by simp [h.phase]) hd, runElement, execPad]
  have hself : s.putReader s.reader = s := rfl
  rw [hself, h.expands]
  rfl

/-- What runs that stand for whole bytes leave in DST, from the start of a command on (R206 to R208). -/
theorem TookNibbles.bytes {s t : State} {bs : List Byte} (h : TookNibbles s t (nibblesOf bs)) (hhold : s.hold = none)
    (hdpos : s.dpos = 0) (hdst : s.dst = Memory.blank) :
    t.dpos = bs.length ∧ t.dst.readBytes 0 bs.length = deXored s bs := by
  obtain ⟨plain, hnib, hpos, hstore, -, -, -, -⟩ := h
  rw [hhold, Option.toList_none, List.nil_append] at hnib
  have hlen := congrArg List.length hnib
  rw [List.length_append, nibblesOf_length, nibblesOf_length] at hlen
  have hthold : t.hold = none := by
    cases ht : t.hold with
    | none => rfl
    | some n => rw [ht] at hlen; simp at hlen; omega
  rw [hthold, Option.toList_none, List.append_nil] at hnib
  obtain rfl := nibblesOf_injective hnib
  refine ⟨by rw [hpos, hdpos, Nat.zero_add], ?_⟩
  have := readBytes_storeBytes blank_wf 0 (deXored s bs)
  rwa [deXored_length, ← hdst, ← hdpos, ← hstore, hdpos] at this

/-! ## The header -/

theorem headerWord_toNat (x : Bool) (t : BitVec 15) : (headerWord x t).toNat = x.toNat * 32768 + t.toNat := by
  have := t.isLt
  have := Bool.toNat_le x
  rw [headerWord, BitVec.toNat_ofNat, Nat.mod_eq_of_lt (by omega)]

/-- The header's two bytes read back (R82, R171). -/
theorem headerWord_fields (x : Bool) (t : BitVec 15) :
    (((headerWord x t).extractLsb' 8 8 ++ (headerWord x t).extractLsb' 0 8).getLsbD 15 = x) ∧
      (((headerWord x t).extractLsb' 8 8 ++ (headerWord x t).extractLsb' 0 8).setWidth 15 = t) := by
  have hsplit : (headerWord x t).extractLsb' 8 8 ++ (headerWord x t).extractLsb' 0 8 = headerWord x t := by
    apply BitVec.eq_of_toNat_eq
    rw [BitVec.toNat_append, ← Nat.shiftLeft_add_eq_or_of_lt (BitVec.isLt _)]
    simp only [BitVec.extractLsb'_toNat, Nat.shiftRight_eq_div_pow, Nat.shiftLeft_eq]
    have := (headerWord x t).isLt
    omega
  rw [hsplit]
  have hlt := t.isLt
  constructor
  · rw [← BitVec.testBit_toNat, headerWord_toNat, Nat.mul_comm, show (32768 : Nat) = 2 ^ 15 from rfl,
      Nat.testBit_two_pow_mul_add _ hlt]
    cases x <;> rfl
  · apply BitVec.eq_of_toNat_eq
    rw [BitVec.toNat_setWidth, headerWord_toNat]
    omega

/-! ## The whole stream -/

/-- DECODE's start state once the header is read (R186). -/
def State.afterHeader (s : State) (x : Bool) (tiles : BitVec 15) : State :=
  { s.decodeStart with sp := 2, xflag := x, tiles := tiles, phase := .table }

/-- DECODE of a stream PACK wrote for a table with R25's invariant and runs that stand for the announced bytes, whatever
follows it: those bytes, through the inverse transform when flagged (R176, R199, R220). -/
theorem exec_decode_packed {s : State} {x : Bool} {tiles : BitVec 15} {f : RunFile (Option Codeword)} {rs : List Run}
    {bs rest : List Byte} (hf : CodesOk f) (hruns : runNibbles rs = nibblesOf bs) (hlen : bs.length = tiles.toNat * 32)
    (hsrc : s.srcBytes = packBytes x tiles f rs ++ rest) :
    ∃ t, exec .decode s = .next t ∧ t.status = .done ∧ t.xsel = x ∧ t.dlen = bs.length ∧
      t.dstBytes = if x then xorStream (LaneRule.inverse Config.xorEnc) bs else bs := by
  obtain ⟨body, pad, hlayout, hbody⟩ := packBytes_layout x tiles f rs
  obtain ⟨hflag, htiles⟩ := headerWord_fields x tiles
  have hstart : s.decodeStart.reader.bytes = s.srcBytes := rfl
  rw [hsrc, hlayout, List.cons_append, List.cons_append, List.append_assoc, List.cons_append] at hstart
  have hhdr : Stepped s.decodeStart (s.afterHeader x tiles) := by
    refine ⟨rfl, ?_⟩
    rw [elementStep_hdr rfl hstart, hflag, htiles]
    rfl
  have htable : (s.afterHeader x tiles).reader.bytes =
      tableBytes (s.afterHeader x tiles).ctx (tableEntries f) ++ 0xFF#8 :: (body ++ rest) := by
    rw [reader_bytes_drop s.decodeStart (s.afterHeader x tiles) 2 rfl rfl rfl, hstart]
    rfl
  obtain ⟨sp, ctx, trie, hreach, hunread, htrie⟩ := reaches_bits hf rfl rfl rfl rfl htable
  have hbits : InBits f ((s.afterHeader x tiles).bitsAt sp ctx trie) := ⟨rfl, rfl, rfl, htrie, rfl⟩
  rw [byteBits_append, hbody, List.append_assoc] at hunread
  have hexp : ((s.afterHeader x tiles).bitsAt sp ctx trie).expectedNibbles = (runNibbles rs).length := by
    rw [hruns, nibblesOf_length, hlen, State.expectedNibbles, Config.tileNibbles]
    show tiles.toNat * 64 = _
    omega
  have hout : ((s.afterHeader x tiles).bitsAt sp ctx trie).outcnt = 0 := rfl
  obtain ⟨t, hreach', ht, htook, htt, -⟩ := reaches_runs hf hbits (by rw [hexp, hout, Nat.zero_add]) hunread
  have hfull : t.outcnt = t.expectedNibbles := by
    rw [htook.outcnt, State.expectedNibbles, htt, ← State.expectedNibbles, hexp, hout, Nat.zero_add]
  have hpad := stepped_pad ht hfull
  refine ⟨_, exec_decode_reaches ((hreach.head hhdr).trans (hreach'.tail hpad)) (by simp), rfl, ?_, ?_⟩
  · rw [finish_xsel, htook.xflag]
    rfl
  · rw [hruns] at htook
    obtain ⟨hpos, hdst⟩ := htook.bytes rfl rfl rfl
    refine ⟨hpos, ?_⟩
    have hview : (State.finish { t with xsel := t.xflag }).dstBytes = t.dst.readBytes 0 t.dpos := rfl
    rw [hview, hpos, hdst]
    rfl

/-! ## ENCODE and DECODE -/

theorem exec_encode_inv {s t : State} (h : encodeLengthOk s.argLen = true) (ht : exec .encode s = .next t) :
    t.dstBytes = encodeBytes s.srcBytes ∧ t.xsel = keepsTransform s.srcBytes := by
  have hview := exec_encode_hostView h ht
  rw [State.hostView, HostView.mk.injEq] at hview
  obtain ⟨-, -, -, hxsel, hdst⟩ := hview
  exact ⟨hdst, hxsel⟩

/-- Undoing the transform of the kept view gives the input (R166, R217). -/
theorem keptView_undone (bs : List Byte) :
    (if keepsTransform bs then xorStream (LaneRule.inverse Config.xorEnc) (keptView bs) else keptView bs) = bs := by
  unfold keptView
  cases keepsTransform bs with
  | false => rfl
  | true => exact congrArg Prod.fst (xorPass_inverse Config.xorEnc zeroLanes 0 bs)

theorem keptView_length (bs : List Byte) : (keptView bs).length = bs.length := by
  unfold keptView
  cases keepsTransform bs with
  | false => rfl
  | true => exact xorPass_length _ _ _ _

/-- Settles O59: the stream ENCODE keeps is PACK's, for a table of CANON_GEN and the runs of the view it encodes. -/
theorem encodeDecodeRoundTrip : Obligations.EncodeDecodeRoundTrip := by
  intro s t s' hmod htiles ht hsrc
  have hok : encodeLengthOk s.argLen = true := by simp [encodeLengthOk, Config.tileBytes, Config.maxTiles, hmod, htiles]
  obtain ⟨hdst, hxsel⟩ := exec_encode_inv hok ht
  have harg : s.srcBytes.length = s.argLen := readBytes_length _ _ _
  have hview := keptView_length s.srcBytes
  have htilesOf : (tilesOf (keptView s.srcBytes)).toNat = s.argLen / 32 := by
    rw [tilesOf, BitVec.toNat_ofNat, hview, harg, Config.tileBytes, Nat.mod_eq_of_lt (by omega)]
  obtain ⟨u, hu, hdone, hux, -, hubytes⟩ := exec_decode_packed (s := s') (bs := keptView s.srcBytes) (rest := [])
    (searchBest_codesOk _) (runNibbles_rleOf _) (by rw [htilesOf, hview, harg]; omega)
    (show s'.srcBytes = passBytes (keptView s.srcBytes) (keepsTransform s.srcBytes) ++ [] by
      rw [List.append_nil, hsrc, hdst, encodeBytes])
  exact ⟨u, hu, hdone, hubytes.trans (keptView_undone _), hux.trans hxsel.symm⟩

end Sys2Proof.Machine
end

section
/-! What the host sees of a command follows from SRC's valid bytes and the command's arguments (R20, R222, R240). -/

namespace Sys2Proof.Machine

/-! ## What a table entry does -/

/-- The trie after a TENT, if its tests pass (R188). -/
def tentTrie (ctx : Option Nibble) (trie : Node) (c : BitVec 3) (l : BitVec 4) (k : Byte) : Option Node :=
  match ctx with
  | none => none
  | some n =>
    if l.toNat = 0 ∨ 9 ≤ l.toNat then none
    else if 2 ^ l.toNat ≤ k.toNat then none
    else insertAt (.leafRun (runOf n c)) (codewordPath k l) trie

/-- TENT reads CTX and the trie, and writes the trie or raises MalformedHeader (R187, R188). -/
theorem execTent_eq (b : Bool) (c : BitVec 3) (l : BitVec 4) (k : Byte) (s : State) :
    execTent b c l k s =
      match tentTrie s.ctx s.trie c l k with
      | none => .next (s.raise .malformedHeader)
      | some trie => .next { s with trie := trie, phase := .table } := by
  unfold execTent tentTrie
  cases s.ctx with
  | none => rfl
  | some n =>
    by_cases hl : l.toNat = 0 ∨ 9 ≤ l.toNat
    · simp only [if_pos hl]
    · by_cases hk : 2 ^ l.toNat ≤ k.toNat
      · simp only [if_neg hl, if_pos hk]
      · simp only [if_neg hl, if_neg hk] <;> rfl

/-- TEND reads the trie, and goes to the bitstream, where UNPACK_TABLE ends, or raises MalformedHeader (R193, R194). -/
theorem execTend_eq (s : State) :
    execTend s =
      match insertAt .leafEsc escapePath s.trie with
      | none => .next (s.raise .malformedHeader)
      | some trie =>
        .next (if s.tableOnly then (s.bitsAt s.sp s.ctx trie).finish else s.bitsAt s.sp s.ctx trie) := by
  rw [execTend]
  rfl

/-- A run that fits is put on the list, when runs only are asked for (R198). -/
theorem emitRun_lists {s : State} {r : Run} (h : s.delivered + Run.count r ≤ s.expectedNibbles)
    (hr : s.runsOnly = true) : s.emitRun r = s.listed r := by
  rcases emitRun_cases s r with ⟨ho, -⟩ | ⟨-, -, e⟩ | ⟨-, ho, -⟩
  · omega
  · exact e
  · rw [hr] at ho; cases ho

/-! ## The same state with another input -/

/-- The state with another SRC, other arguments, another XFLAG and TILES: all that the start of a command leaves but
ARG_LEN (R40). -/
def State.withInput (s : State) (src : Memory) (args : UnitArgs) (xflag : Bool) (tiles : BitVec 15) : State :=
  { s with src := src, args := args, xflag := xflag, tiles := tiles }

/-- The outcome with a change made to the next state. -/
def onNext (g : State → State) : Host.Outcome State Fault Refusal → Host.Outcome State Fault Refusal
  | .next s => .next (g s)
  | .fault r => .fault r
  | .refused r => .refused r

theorem startAll_withInput (s s' : State) (h : s'.argLen = s.argLen) (code : Byte) :
    s'.startAll code = (s.startAll code).withInput s'.src s'.args s'.xflag s'.tiles := by
  unfold State.startAll State.beginCommand State.withInput
  rw [h]

section
variable (s : State) (src : Memory) (args : UnitArgs) (xflag : Bool) (tiles : BitVec 15)

/-- RLE_DEC reads XFLAG, and no other input (R209). -/
theorem withInput_putNibble (n : Nibble) :
    (s.withInput src args s.xflag tiles).putNibble n = (s.putNibble n).withInput src args s.xflag tiles := by
  unfold State.putNibble State.putByte
  cases hh : s.hold with
  | none => simp only [State.withInput, hh]
  | some h =>
    simp only [State.withInput, hh]
    split <;> rfl

theorem withInput_putNibbles (c : Nat) (n : Nibble) :
    State.putNibbles c n (s.withInput src args s.xflag tiles) =
      (State.putNibbles c n s).withInput src args s.xflag tiles := by
  induction c generalizing s with
  | zero => rfl
  | succ c ih =>
    have := ih (s.putNibble n)
    rw [(putNibble_took s n).xflag] at this
    rw [State.putNibbles, withInput_putNibble, this, State.putNibbles]

theorem withInput_expandRun (r : Run) :
    (s.withInput src args s.xflag tiles).expandRun r = (s.expandRun r).withInput src args s.xflag tiles :=
  withInput_putNibbles s src args tiles (Run.count r) r.nib

theorem withInput_expandRuns (rs : List Run) :
    rs.foldl State.expandRun (s.withInput src args s.xflag tiles) =
      (rs.foldl State.expandRun s).withInput src args s.xflag tiles := by
  induction rs generalizing s with
  | nil => rfl
  | cons r rs ih =>
    have := ih (s.expandRun r)
    rw [(expandRun_took s r).xflag] at this
    rw [List.foldl_cons, withInput_expandRun, this, List.foldl_cons]

variable {s} {xflag}

/-- XFLAG matters to no element when the runs are listed only (R198). -/
theorem withInput_emitRun (hx : xflag = s.xflag ∨ s.runsOnly = true) (r : Run) :
    (s.withInput src args xflag s.tiles).emitRun r = (s.emitRun r).withInput src args xflag s.tiles := by
  have hroom : (s.withInput src args xflag s.tiles).expectedNibbles = s.expectedNibbles := rfl
  have hdel : (s.withInput src args xflag s.tiles).delivered = s.delivered := rfl
  have honly : (s.withInput src args xflag s.tiles).runsOnly = s.runsOnly := rfl
  by_cases h : s.expectedNibbles < s.delivered + Run.count r
  · rw [State.emitRun, State.emitRun, hroom, hdel, if_pos h, if_pos h]
    rfl
  · cases ho : s.runsOnly with
    | true =>
      rw [emitRun_lists (by rw [hroom, hdel]; omega) (honly.trans ho), emitRun_lists (by omega) ho]
      rfl
    | false =>
      obtain rfl : xflag = s.xflag := hx.resolve_right (by simp [ho])
      rw [emitRun_expands (by rw [hroom, hdel]; omega) (honly.trans ho), emitRun_expands (by omega) ho]
      exact withInput_expandRun (s.listed r) src args s.tiles r

theorem withInput_execTent (b : Bool) (c : BitVec 3) (l : BitVec 4) (k : Byte) :
    execTent b c l k (s.withInput src args xflag tiles) =
      onNext (·.withInput src args xflag tiles) (execTent b c l k s) := by
  rw [execTent_eq, execTent_eq]
  show (match tentTrie s.ctx s.trie c l k with | none => _ | some trie => _) = _
  cases tentTrie s.ctx s.trie c l k <;> rfl

theorem withInput_execTend :
    execTend (s.withInput src args xflag tiles) = onNext (·.withInput src args xflag tiles) (execTend s) := by
  have honly : (s.withInput src args xflag tiles).tableOnly = s.tableOnly := rfl
  rw [execTend_eq, execTend_eq, honly]
  show (match insertAt .leafEsc escapePath s.trie with | none => _ | some trie => _) = _
  cases insertAt .leafEsc escapePath s.trie with
  | none => rfl
  | some trie => cases s.tableOnly <;> rfl

theorem withInput_execCode (hx : xflag = s.xflag ∨ s.runsOnly = true) (path : List Bool) :
    execCode path (s.withInput src args xflag s.tiles) =
      onNext (·.withInput src args xflag s.tiles) (execCode path s) := by
  have hemit := withInput_emitRun src args hx
  simp only [execCode]
  rw [show followPath ((s.withInput src args xflag s.tiles).trie.at (s.withInput src args xflag s.tiles).tcur)
    (s.withInput src args xflag s.tiles).tcur path = followPath (s.trie.at s.tcur) s.tcur path from rfl]
  cases followPath (s.trie.at s.tcur) s.tcur path with
  | leaf r => exact congrArg Host.Outcome.next (hemit r)
  | noChild tcur => rfl
  | noCodeword => rfl

theorem withInput_execPad (hx : xflag = s.xflag ∨ s.runsOnly = true) (n : BitVec 3) :
    execPad n (s.withInput src args xflag tiles) = onNext (·.withInput src args xflag tiles) (execPad n s) := by
  have honly : (s.withInput src args xflag tiles).runsOnly = s.runsOnly := rfl
  simp only [execPad, honly, onNext]
  cases ho : s.runsOnly with
  | true => rfl
  | false =>
    obtain rfl : xflag = s.xflag := hx.resolve_right (by simp [ho])
    rfl

/-- Every element but HDR does the same whatever the input, where XFLAG and TILES are the same or not read. -/
theorem withInput_runElement {i : Instr} (hi : ∀ x t, i ≠ .hdr x t) (hx : xflag = s.xflag ∨ s.runsOnly = true) :
    runElement i (s.withInput src args xflag s.tiles) =
      onNext (·.withInput src args xflag s.tiles) (runElement i s) := by
  cases i with
  | hdr x t => exact absurd rfl (hi x t)
  | tnib z n => rfl
  | tent b c l k => exact withInput_execTent src args s.tiles b c l k
  | tend => exact withInput_execTend src args s.tiles
  | code path => exact withInput_execCode src args hx path
  | esc c n => exact congrArg Host.Outcome.next (withInput_emitRun src args hx (runOf n c))
  | pad n => exact withInput_execPad src args s.tiles hx n
  | _ => rfl

end

/-! ## Two runs over the same bytes -/

/-- What an element leaves as it was: SRC, ARG_LEN, the command, the header's fields (R26, R38). -/
structure KeepsInput (s t : State) : Prop where
  src : t.src = s.src
  argLen : t.argLen = s.argLen
  runsOnly : t.runsOnly = s.runsOnly
  xflag : t.xflag = s.xflag
  tiles : t.tiles = s.tiles

theorem emitRun_keepsInput (s : State) (r : Run) : KeepsInput s (s.emitRun r) := by
  rcases emitRun_cases s r with ⟨-, e⟩ | ⟨-, -, e⟩ | ⟨-, -, e⟩
  · rw [e]; exact ⟨rfl, rfl, rfl, rfl, rfl⟩
  · rw [e]; exact ⟨rfl, rfl, rfl, rfl, rfl⟩
  · rw [e, expandRun_frame]; exact ⟨rfl, rfl, rfl, rfl, rfl⟩

/-- Every element but HDR, which writes the header's fields (R186). -/
theorem runElement_keepsInput {i : Instr} {s t : State} (hi : ∀ x n, i ≠ .hdr x n) (h : runElement i s = .next t) :
    KeepsInput s t := by
  cases i with
  | hdr x n => exact absurd rfl (hi x n)
  | tnib z n => cases h; exact ⟨rfl, rfl, rfl, rfl, rfl⟩
  | tent b c l k =>
    rw [runElement, execTent_eq] at h
    cases hn : tentTrie s.ctx s.trie c l k <;> rw [hn] at h <;> cases h <;> exact ⟨rfl, rfl, rfl, rfl, rfl⟩
  | tend =>
    rw [runElement, execTend_eq] at h
    cases hn : insertAt .leafEsc escapePath s.trie with
    | none => rw [hn] at h; cases h; exact ⟨rfl, rfl, rfl, rfl, rfl⟩
    | some trie => rw [hn] at h; cases h; split <;> exact ⟨rfl, rfl, rfl, rfl, rfl⟩
  | code path =>
    rw [runElement, execCode] at h
    cases hn : followPath (s.trie.at s.tcur) s.tcur path with
    | leaf r => rw [hn] at h; cases h; exact emitRun_keepsInput s r
    | noChild tcur => rw [hn] at h; cases h; exact ⟨rfl, rfl, rfl, rfl, rfl⟩
    | noCodeword => rw [hn] at h; cases h
  | esc c n => cases h; exact emitRun_keepsInput s _
  | pad n => cases h; exact ⟨rfl, rfl, rfl, rfl, rfl⟩
  | _ => cases h

/-- One element by what the decoder answers (R60, R197, R202). -/
theorem elementStep_eq {s : State} (hp : s.phase ≠ .command) :
    elementStep s =
      match decodeAt s.region (s.trie.at s.tcur) s.reader with
      | .instr i rd => runElement i (s.putReader rd)
      | .short path rd => .next (State.raise { s.putReader rd with tcur := s.tcur ++ path } .ioFailure)
      | .noChild path rd => .next (State.raise { s.putReader rd with tcur := s.tcur ++ path.dropLast } .invalidCode)
      | .unknownCommand _ => .next s.refuse := by
  rw [elementStep, State.fetch, State.fetchReader, if_neg hp]
  simp only [State.afterFetch, if_neg hp]
  cases decodeAt s.region (s.trie.at s.tcur) s.reader <;> rfl

/-- Two states that only their input tells apart, the bytes of SRC the command may read being the same; past the header
XFLAG and TILES are the same too, or XFLAG is not read. -/
def Alike (s s' : State) : Prop :=
  ∃ src args xflag tiles, s' = s.withInput src args xflag tiles ∧ (∀ a, a < s.argLen → src.read a = s.src.read a) ∧
    (s.status = .busy → s.phase ≠ .header → tiles = s.tiles ∧ (xflag = s.xflag ∨ s.runsOnly = true))

theorem Alike.hostView {s s' : State} (h : Alike s s') : s.hostView = s'.hostView := by
  obtain ⟨src, args, xflag, tiles, rfl, -, -⟩ := h
  rfl

/-- A command that has ended has no stream left to read. -/
theorem Alike.of_rest {s : State} {src : Memory} (args : UnitArgs) (xflag : Bool) (tiles : BitVec 15)
    (h : s.status ≠ .busy) (hread : ∀ a, a < s.argLen → src.read a = s.src.read a) :
    Alike s (s.withInput src args xflag tiles) :=
  ⟨src, args, xflag, tiles, rfl, hread, fun hb => absurd hb h⟩

theorem withInput_reader {s : State} {src : Memory} (args : UnitArgs) (xflag : Bool) (tiles : BitVec 15)
    (hread : ∀ a, a < s.argLen → src.read a = s.src.read a) :
    (s.withInput src args xflag tiles).reader = s.reader := by
  have hbytes : src.readBytes s.sp (s.argLen - s.sp) = s.src.readBytes s.sp (s.argLen - s.sp) :=
    readBytes_congr fun i hi => hread (s.sp + i) (by omega)
  rw [State.reader, State.reader, ← hbytes]
  rfl

/-- At the header nothing but HDR is read (R82). -/
theorem decodeAt_header_instr {node : Node} {rd rd' : Reader} {i : Instr}
    (h : decodeAt .header node rd = .instr i rd') :
    ∃ x t, i = .hdr x t := by
  simp only [decodeAt, decodeHeader] at h
  split at h
  · cases h
  · cases h; exact ⟨_, _, rfl⟩

/-- One element keeps two states alike. -/
theorem elementStep_alike {s s' t t' : State} (h : Alike s s') (hb : s.status = .busy) (hp : s.phase ≠ .command)
    (ht : elementStep s = .next t) (ht' : elementStep s' = .next t') : Alike t t' := by
  obtain ⟨src, args, xflag, tiles, rfl, hread, hfields⟩ := h
  have hregion : (s.withInput src args xflag tiles).region = s.region := by
    by_cases hh : s.phase = .header
    · have hnot : s.phase ≠ .bits := by simp [hh]
      exact (region_of_not_bits (s := s.withInput src args xflag tiles) hnot).trans (region_of_not_bits hnot).symm
    · obtain ⟨rfl, -⟩ := hfields hb hh
      rfl
  have hsame : decodeAt (s.withInput src args xflag tiles).region
      ((s.withInput src args xflag tiles).trie.at (s.withInput src args xflag tiles).tcur)
      (s.withInput src args xflag tiles).reader = decodeAt s.region (s.trie.at s.tcur) s.reader := by
    rw [hregion, withInput_reader args xflag tiles hread]
    rfl
  rw [elementStep_eq hp] at ht
  rw [elementStep_eq (s := s.withInput src args xflag tiles) hp, hsame] at ht'
  cases hd : decodeAt s.region (s.trie.at s.tcur) s.reader with
  | short path rd => rw [hd] at ht ht'; cases ht; cases ht'; exact .of_rest args xflag tiles (by simp) hread
  | noChild path rd => rw [hd] at ht ht'; cases ht; cases ht'; exact .of_rest args xflag tiles (by simp) hread
  | unknownCommand code =>
    rw [hd] at ht ht'; cases ht; cases ht'; exact .of_rest args xflag tiles (by simp [State.refuse]) hread
  | instr i rd =>
    rw [hd] at ht ht'
    by_cases hi : ∃ x n, i = .hdr x n
    · obtain ⟨x, n, rfl⟩ := hi
      cases ht
      cases ht'
      exact ⟨src, args, x, n, rfl, hread, fun _ _ => ⟨rfl, .inl rfl⟩⟩
    · have hi : ∀ x n, i ≠ .hdr x n := fun x n e => hi ⟨x, n, e⟩
      have hh : s.phase ≠ .header := fun hh => by
        rw [region_of_not_bits (by simp [hh]), hh] at hd
        obtain ⟨x, n, e⟩ := decodeAt_header_instr hd
        exact hi x n e
      obtain ⟨rfl, hx⟩ := hfields hb hh
      have hk := runElement_keepsInput hi ht
      have hmap := withInput_runElement src args (s := s.putReader rd) hi hx
      have ht' : onNext (·.withInput src args xflag s.tiles) (runElement i (s.putReader rd)) = .next t' :=
        hmap.symm.trans ht'
      have ht : runElement i (s.putReader rd) = .next t := ht
      rw [ht] at ht'
      cases ht'
      refine ⟨src, args, xflag, s.tiles, rfl, ?_, fun _ _ => ⟨hk.tiles.symm, ?_⟩⟩
      · rw [hk.argLen, hk.src]
        exact hread
      · rw [hk.xflag, hk.runsOnly]
        exact hx

/-- A run of elements keeps two states alike. -/
theorem runElements_alike {fuel : Nat} {s s' t t' : State} (h : Alike s s') (hp : s.status = .busy → s.phase ≠ .command)
    (ht : runElements fuel s = .next t) (ht' : runElements fuel s' = .next t') : Alike t t' := by
  induction fuel generalizing s s' with
  | zero =>
    rw [runElements] at ht ht'
    cases ht
    cases ht'
    exact h
  | succ fuel ih =>
    have hstatus : s'.status = s.status ∧ s'.phase = s.phase := by
      obtain ⟨src, args, xflag, tiles, rfl, -, -⟩ := h
      exact ⟨rfl, rfl⟩
    by_cases hb : s.status = .busy
    · have hb' := hstatus.1.trans hb
      obtain ⟨u, hu, hgoes⟩ := elementStep_goes hb (hp hb)
      obtain ⟨u', hu', -⟩ := elementStep_goes hb' (hstatus.2 ▸ hp hb)
      rw [runElements_busy hb, hu] at ht
      rw [runElements_busy hb', hu'] at ht'
      refine ih (elementStep_alike h hb (hp hb) hu hu') (fun hbusy => ?_) ht ht'
      rcases hgoes with hend | ⟨-, hphase, -⟩
      · exact absurd hbusy (ended_not_busy hend)
      · exact hphase
    · rw [runElements_rest hb] at ht
      rw [runElements_rest (by rw [hstatus.1]; exact hb)] at ht'
      cases ht
      cases ht'
      exact h

end Sys2Proof.Machine
end

section
/-! What the host sees of each command, as a function of SRC's valid bytes and the arguments. -/

namespace Sys2Proof.Machine

/-! ## Commands that read a stream -/

/-- The same valid bytes of SRC: the same ARG_LEN and the same reads below it (R38). -/
theorem srcBytes_eq_iff {s s' : State} :
    s.srcBytes = s'.srcBytes ↔ s'.argLen = s.argLen ∧ ∀ a, a < s.argLen → s'.src.read a = s.src.read a := by
  constructor
  · intro h
    have hlen : s'.argLen = s.argLen := by
      have := congrArg List.length h
      simpa [State.srcBytes, readBytes_length] using this.symm
    refine ⟨hlen, fun a ha => ?_⟩
    have := congrArg (·[a]?) h
    simp only [State.srcBytes, readBytes_getElem?, hlen, if_pos ha, Option.some.injEq, Nat.zero_add] at this
    exact this.symm
  · rintro ⟨hlen, hread⟩
    rw [State.srcBytes, State.srcBytes, hlen]
    exact readBytes_congr fun i hi => (hread (0 + i) (by omega)).symm

/-- Runs over a stream from states alike show the host the same (R220). -/
theorem runElements_hostView {s s' t t' : State} (h : Alike s s') (hp : s.phase ≠ .command)
    (ht : runElements s.elementBound s = .next t) (ht' : runElements s'.elementBound s' = .next t') :
    t.hostView = t'.hostView := by
  have hbound : s'.elementBound = s.elementBound := by
    obtain ⟨src, args, xflag, tiles, rfl, -, -⟩ := h
    rfl
  exact (runElements_alike h (fun _ => hp) ht (hbound ▸ ht')).hostView

/-- DECODE and UNPACK_TABLE start alike: they read the header before they read XFLAG and TILES (R186). -/
theorem alike_at_header {s s' : State} (h : s.srcBytes = s'.srcBytes) {code : Byte} (g : State → State)
    (hg : ∀ (u : State) src args xflag tiles,
      g (u.withInput src args xflag tiles) = (g u).withInput src args xflag tiles)
    (hin : ∀ u, (g u).phase = .header ∧ (g u).argLen = u.argLen ∧ (g u).src = u.src) :
    Alike (g (s.startAll code)) (g (s'.startAll code)) := by
  obtain ⟨hlen, hread⟩ := srcBytes_eq_iff.1 h
  obtain ⟨hphase, harg, hsrc⟩ := hin (s.startAll code)
  refine ⟨s'.src, s'.args, s'.xflag, s'.tiles, ?_, ?_, fun _ hne => absurd hphase hne⟩
  · rw [startAll_withInput s s' hlen, hg]
  · rw [harg, hsrc]
    exact hread

theorem decode_hostView {s s' t t' : State} (h : s.srcBytes = s'.srcBytes) (ht : exec .decode s = .next t)
    (ht' : exec .decode s' = .next t') : t.hostView = t'.hostView :=
  runElements_hostView
    (alike_at_header h (fun u => u.tableStart.expandStart) (fun _ _ _ _ _ => rfl) fun _ => ⟨rfl, rfl, rfl⟩)
    (by simp) ht ht'

theorem unpackTable_hostView {s s' t t' : State} (h : s.srcBytes = s'.srcBytes) (ht : exec .unpackTable s = .next t)
    (ht' : exec .unpackTable s' = .next t') : t.hostView = t'.hostView :=
  runElements_hostView (alike_at_header h State.tableStart (fun _ _ _ _ _ => rfl) fun _ => ⟨rfl, rfl, rfl⟩)
    (by simp [State.tableStart]) ht ht'

theorem unpackBits_hostView {s s' t t' : State} (h : s.srcBytes = s'.srcBytes) (hargs : s.args = s'.args)
    (ht : exec .unpackBits s = .next t) (ht' : exec .unpackBits s' = .next t') : t.hostView = t'.hostView := by
  obtain ⟨hlen, hread⟩ := srcBytes_eq_iff.1 h
  have halike : Alike (s.startAll 0x61#8).bitsStart (s'.startAll 0x61#8).bitsStart := by
    refine ⟨s'.src, s'.args, s'.xflag, s'.args.tiles, ?_, hread, fun _ _ => ⟨by rw [← hargs]; rfl, .inr rfl⟩⟩
    rw [startAll_withInput s s' hlen]
    simp only [State.bitsStart, State.withInput, startAll_args, hargs]
  exact runElements_hostView halike (by simp [State.bitsStart]) ht ht'

/-! ## The other commands -/

/-- The host's view of a command that ended with the given bytes in DST (R69). -/
def deliveredView (bs : List Byte) : HostView :=
  { status := Status.code .done, err := Err.code .none, dlen := bs.length, xsel := false, dst := bs }

/-- The host's view of a refused command (R239). -/
def refusedView : HostView :=
  { status := Status.code .fault, err := Err.code .cmdRefused, dlen := 0, xsel := false, dst := [] }

/-- A state at the end of a command that wrote nothing to DST (R40). -/
structure Quiet (s : State) : Prop where
  err : s.err = .none
  xsel : s.xsel = false
  dpos : s.dpos = 0

theorem Quiet.finish_hostView {s : State} (h : Quiet s) : s.finish.hostView = deliveredView [] := by
  rw [State.hostView, State.dstBytes]
  simp only [finish_status, finish_err, finish_dlen, finish_xsel, finish_dst, h.err, h.xsel, h.dpos]
  rfl

theorem deliver_view {s : State} (bs : List Byte) (herr : s.err = .none) (hxsel : s.xsel = false) :
    (s.deliver bs).finish.hostView = deliveredView bs := by
  rw [deliver_hostView, herr, hxsel, deliveredView]

theorem rleEnc_hostView {s t : State} (h : exec .rleEnc s = .next t) : t.hostView = deliveredView [] := by
  cases h
  exact Quiet.finish_hostView ⟨by simp, by simp, by simp⟩

theorem pmSolve_hostView {s t : State} (h : exec .pmSolve s = .next t) : t.hostView = deliveredView [] := by
  cases h
  split <;> exact Quiet.finish_hostView ⟨by simp, by simp, by simp⟩

theorem canonGen_hostView {s t : State} (h : exec .canonGen s = .next t) : t.hostView = deliveredView [] := by
  cases h
  exact Quiet.finish_hostView ⟨by simp, by simp, by simp⟩

theorem costEst_hostView {s t : State} (h : exec .costEst s = .next t) : t.hostView = deliveredView [] := by
  cases h
  exact Quiet.finish_hostView ⟨by simp, by simp, by simp⟩

theorem trialSearch_hostView {s t : State} (h : exec .trialSearch s = .next t) : t.hostView = deliveredView [] := by
  cases h
  obtain ⟨hk, -⟩ := searchTrials_keeps { s.startAll 0x32#8 with freq := s.args.freq }
  exact Quiet.finish_hostView ⟨by rw [hk.err]; simp, by rw [hk.xsel]; simp, by rw [hk.dpos]; simp⟩

theorem xorEnc_hostView {s t : State} (h : exec .xorEnc s = .next t) :
    t.hostView = deliveredView (xorStream Config.xorEnc s.srcBytes) := by
  cases h
  exact deliver_view (s := { (s.startAll 0x40#8).xorEncode s.srcBytes with sp := s.argLen }) _ (by simp) (by simp)

theorem xorDec_hostView {s t : State} (h : exec .xorDec s = .next t) :
    t.hostView = deliveredView (xorStream (LaneRule.inverse Config.xorEnc) s.srcBytes) := by
  cases h
  exact deliver_view (s := s.startAll 0x41#8) (xorStream (LaneRule.inverse Config.xorEnc) s.srcBytes) (by simp)
    (by simp)

theorem pack_hostView {s t : State} (h : exec .pack s = .next t) :
    t.hostView = deliveredView (packBytes s.args.xflag s.args.tiles s.args.best s.args.rleSrc) := by
  cases h
  exact deliver_view _ (by simp) (by simp)

/-- A pass's candidate kept in its place (R218). -/
def State.keepOne (s : State) (x : Bool) : State :=
  if x then { s with cand1 := s.packed } else { s with cand0 := s.packed }

theorem exec_encodeOne_of_ok {s : State} (h : encodeLengthOk s.argLen = true) :
    exec .encodeOne s =
      let u := (s.startAll 0x03#8).encodePass (s.startAll 0x03#8).srcBytes s.args.xflag
      .next ({ (u.keepOne s.args.xflag).deliver u.packed with sp := (s.startAll 0x03#8).argLen }).finish := by
  rw [exec, execEncodeOne, if_pos h]
  rfl

theorem exec_refused {s : State} (h : encodeLengthOk s.argLen = false) :
    exec .encode s = .next (s.startAll 0x01#8).refuse ∧ exec .encodeOne s = .next (s.startAll 0x03#8).refuse := by
  rw [exec, exec, execEncode, execEncodeOne, h]
  exact ⟨rfl, rfl⟩

theorem refuse_hostView (s : State) : s.refuse.hostView = refusedView := rfl

theorem encodeOne_hostView {s t : State} (h : exec .encodeOne s = .next t) :
    t.hostView =
      if encodeLengthOk s.argLen then deliveredView (passBytes s.srcBytes s.args.xflag) else refusedView := by
  cases hok : encodeLengthOk s.argLen with
  | false =>
    rw [(exec_refused hok).2, Host.Outcome.next.injEq] at h
    rw [← h, refuse_hostView]
    rfl
  | true =>
    have hsrc : (s.startAll 0x03#8).srcBytes = s.srcBytes := by simp [State.srcBytes]
    obtain ⟨hpacked, hk⟩ := encodePass_spec (s.startAll 0x03#8) s.srcBytes s.args.xflag
    rw [exec_encodeOne_of_ok hok, hsrc, Host.Outcome.next.injEq] at h
    generalize (s.startAll 0x03#8).encodePass s.srcBytes s.args.xflag = u at *
    have hkept : (u.keepOne s.args.xflag).err = u.err ∧ (u.keepOne s.args.xflag).xsel = u.xsel := by
      unfold State.keepOne
      split <;> exact ⟨rfl, rfl⟩
    rw [← h, if_pos rfl, ← hpacked]
    exact deliver_view (s := { u.keepOne s.args.xflag with sp := s.argLen }) u.packed
      (hkept.1.trans (hk.err.trans (by simp))) (hkept.2.trans (hk.xsel.trans (by simp)))

theorem encode_hostView {s t : State} (h : exec .encode s = .next t) :
    t.hostView =
      if encodeLengthOk s.argLen then
        { deliveredView (encodeBytes s.srcBytes) with xsel := keepsTransform s.srcBytes }
      else refusedView := by
  cases hok : encodeLengthOk s.argLen with
  | false =>
    rw [(exec_refused hok).1, Host.Outcome.next.injEq] at h
    rw [← h, refuse_hostView]
    rfl
  | true => rw [exec_encode_hostView hok h, if_pos rfl, deliveredView]

/-- The state RLE_DEC issued alone expands its runs from (R209). -/
def State.rleStart (s : State) : State :=
  { s.startAll 0x70#8 with runs := s.args.runs, xflag := s.args.xflag, tiles := s.args.tiles }.expandStart

/-- RLE_DEC of its list of runs (R209). -/
def State.expandAll (s : State) : State :=
  if nibbleCount s.runs ≤ s.expectedNibbles then s.runs.foldl State.expandRun s else s.expandOutside

theorem expandAll_hostView (s : State) (src : Memory) (args : UnitArgs) :
    (s.withInput src args s.xflag s.tiles).expandAll.finish.hostView = s.expandAll.finish.hostView := by
  have hroom : (s.withInput src args s.xflag s.tiles).expectedNibbles = s.expectedNibbles := rfl
  have hruns : (s.withInput src args s.xflag s.tiles).runs = s.runs := rfl
  unfold State.expandAll
  rw [hroom, hruns]
  split
  · rw [withInput_expandRuns]
    rfl
  · rfl

theorem exec_rleDec (s : State) : exec .rleDec s = .next s.rleStart.expandAll.finish := rfl

theorem rleDec_hostView {s s' t t' : State} (h : s.srcBytes = s'.srcBytes) (hargs : s.args = s'.args)
    (ht : exec .rleDec s = .next t) (ht' : exec .rleDec s' = .next t') : t.hostView = t'.hostView := by
  obtain ⟨hlen, -⟩ := srcBytes_eq_iff.1 h
  have hstart : s'.rleStart = s.rleStart.withInput s'.src s'.args s.rleStart.xflag s.rleStart.tiles := by
    rw [State.rleStart, startAll_withInput s s' hlen, ← hargs]
    rfl
  rw [exec_rleDec, Host.Outcome.next.injEq] at ht ht'
  rw [← ht, ← ht', hstart, expandAll_hostView]

/-- Settles O60: ENCODE and the unit operations answer a function of their input, and two runs over streams of the same
bytes stay alike. -/
theorem resultsDependOnInputOnly : Obligations.ResultsDependOnInputOnly := by
  intro s s' h
  have hlen : s'.argLen = s.argLen := (srcBytes_eq_iff.1 h).1
  have hencode : ∀ t t', exec .encode s = .next t → exec .encode s' = .next t' → t.hostView = t'.hostView :=
    fun t t' ht ht' => by rw [encode_hostView ht, encode_hostView ht', hlen, h]
  refine ⟨hencode, fun t t' => decode_hostView h, fun hargs i hi t t' ht ht' => ?_⟩
  cases i with
  | hdr x n => cases hi
  | tnib z n => cases hi
  | tent b c l k => cases b <;> cases hi
  | tend => cases hi
  | code path => cases hi
  | esc c n => cases hi
  | pad n => cases hi
  | encode => exact hencode t t' ht ht'
  | decode => exact decode_hostView h ht ht'
  | encodeOne => rw [encodeOne_hostView ht, encodeOne_hostView ht', hlen, h, hargs]
  | rleEnc => rw [rleEnc_hostView ht, rleEnc_hostView ht']
  | pmSolve => rw [pmSolve_hostView ht, pmSolve_hostView ht']
  | canonGen => rw [canonGen_hostView ht, canonGen_hostView ht']
  | costEst => rw [costEst_hostView ht, costEst_hostView ht']
  | trialSearch => rw [trialSearch_hostView ht, trialSearch_hostView ht']
  | xorEnc => rw [xorEnc_hostView ht, xorEnc_hostView ht', h]
  | xorDec => rw [xorDec_hostView ht, xorDec_hostView ht', h]
  | pack => rw [pack_hostView ht, pack_hostView ht', hargs]
  | unpackTable => exact unpackTable_hostView h ht ht'
  | unpackBits => exact unpackBits_hostView h hargs ht ht'
  | rleDec => exact rleDec_hostView h hargs ht ht'

end Sys2Proof.Machine
end

section
/-! What one step can do, said once: the fetch, the elements of a stream, the commands; and the frame of a step: SRC,
ARG_LEN and the arguments (R38, R71). -/

namespace Sys2Proof.Machine

/-! ## The host's write of CMD -/

/-- Settles O2: `startAll` is R40's middle column, field by field. -/
theorem cmdWriteStartsOrIsIgnored : Obligations.CmdWriteStartsOrIsIgnored := by
  intro s c
  refine ⟨fun h => ?_, fun h => ?_, rfl⟩
  · rw [State.hostWriteCmd, h]
  · unfold State.hostWriteCmd
    cases hs : s.status with
    | busy => exact absurd hs h
    | idle => rfl
    | done => rfl
    | fault => rfl

/-! ## The fetch -/

/-- Whether an instruction is read at a place: its own, or, a TENT, right after a marker (R89). -/
def ReadAt (r : Region) (i : Instr) : Prop := r = regionOf i ∨ (r = .entry ∧ ∃ b c l k, i = .tent b c l k)

/-- Fewer than 8 bits are unread in the reader the decoder answers with (R62). -/
def Decoded.HoldsBits : Decoded → Prop
  | .instr _ rd => rd.nleft ≤ 7
  | .short _ rd => rd.nleft ≤ 7
  | .noChild _ rd => rd.nleft ≤ 7
  | .unknownCommand _ => True

theorem read1_nleft {rd rd' : Reader} {b : Byte} (h : rd.read1 = some (b, rd')) : rd'.nleft = rd.nleft := by
  unfold Reader.read1 at h
  split at h
  · cases h
  · cases h; rfl

theorem readBits_nleft {n v w : Nat} {rd rd' : Reader} (hn : rd.nleft ≤ 7)
    (h : Reader.readBits n v rd = some (w, rd')) : rd'.nleft ≤ 7 := by
  induction n generalizing v rd with
  | zero => cases h; exact hn
  | succ n ih =>
    rw [Reader.readBits] at h
    split at h
    · cases h
    · rename_i b rd1 h1
      exact ih ((Reader.readBit_some h1).2 (by omega)) h

theorem drained_nleft (rd : Reader) : rd.drained.nleft ≤ 7 := Nat.zero_le 7

theorem decodeEscFields_holdsBits (path : List Bool) {rd : Reader} (hn : rd.nleft ≤ 7) :
    Decoded.HoldsBits (decodeEscFields path rd) := by
  unfold decodeEscFields
  split
  · exact drained_nleft rd
  · rename_i c rd1 h1
    split
    · exact drained_nleft rd
    · rename_i n rd2 h2
      exact readBits_nleft (readBits_nleft hn h1) h2

theorem walk_holdsBits (node : Node) (path : List Bool) {rd : Reader} (hn : rd.nleft ≤ 7) :
    Decoded.HoldsBits (walk node path rd) := by
  induction node generalizing path rd with
  | absent => exact hn
  | leafRun r => exact hn
  | leafEsc => exact decodeEscFields_holdsBits path hn
  | inner clear set ihc ihs =>
    rw [walk]
    split
    · exact drained_nleft rd
    · rename_i b rd1 h1
      have hn1 := (Reader.readBit_some h1).2 (by omega)
      cases b with
      | true => exact ihs _ hn1
      | false => exact ihc _ hn1

theorem decodeEntryFrom_holdsBits (b : Byte) {rd : Reader} (hn : rd.nleft ≤ 7) :
    Decoded.HoldsBits (decodeEntryFrom b rd) := by
  unfold decodeEntryFrom
  split
  · exact drained_nleft rd
  · rename_i k rd1 h1
    exact (read1_nleft h1).trans_le hn

/-- The decoder never leaves a whole byte unread in the bit reader (R62). -/
theorem decodeAt_holdsBits (r : Region) (node : Node) {rd : Reader} (hn : rd.nleft ≤ 7) :
    Decoded.HoldsBits (decodeAt r node rd) := by
  cases r with
  | command =>
    simp only [decodeAt]
    split
    · exact drained_nleft rd
    · rename_i code rd1 h1
      split
      · trivial
      · exact (read1_nleft h1).trans_le hn
  | header =>
    simp only [decodeAt, decodeHeader, Reader.read2BE]
    cases h1 : rd.read1 with
    | none => exact drained_nleft rd
    | some p =>
      obtain ⟨hi, rd1⟩ := p
      simp only
      cases h2 : rd1.read1 with
      | none => exact drained_nleft rd
      | some q => exact ((read1_nleft h2).trans (read1_nleft h1)).trans_le hn
  | table =>
    simp only [decodeAt, decodeTable]
    split
    · exact drained_nleft rd
    · rename_i b rd1 h1
      have hn1 := (read1_nleft h1).trans_le hn
      split
      · exact hn1
      · split
        · exact hn1
        · exact decodeEntryFrom_holdsBits b hn1
  | entry =>
    simp only [decodeAt, decodeEntry]
    split
    · exact drained_nleft rd
    · rename_i b rd1 h1
      exact decodeEntryFrom_holdsBits b ((read1_nleft h1).trans_le hn)
  | bits =>
    simp only [decodeAt, decodeBits]
    split
    · exact drained_nleft rd
    · rename_i b rd1 h1
      exact walk_holdsBits _ _ ((Reader.readBit_some h1).2 (by omega))
  | tail => exact hn

theorem decodeEntryFrom_tent {b : Byte} {rd rd' : Reader} {i : Instr} (h : decodeEntryFrom b rd = .instr i rd') :
    ∃ c l k, i = .tent (b.getLsbD 7) c l k := by
  unfold decodeEntryFrom at h
  split at h
  · cases h
  · cases h; exact ⟨_, _, _, rfl⟩

theorem decodeCommand_region {code : Byte} {i : Instr} (h : decodeCommand code = some i) : regionOf i = .command := by
  have hall : ∀ c : Byte, ∀ i ∈ decodeCommand c, regionOf i = .command := by decide +kernel
  exact hall code i h

/-- An instruction is read at its own place of the stream (R89, R90). -/
theorem decodeAt_readAt {r : Region} {node : Node} {rd rd' : Reader} {i : Instr}
    (h : decodeAt r node rd = .instr i rd') : ReadAt r i := by
  cases r with
  | command =>
    simp only [decodeAt] at h
    split at h
    · cases h
    · split at h
      · cases h
      · rename_i hc
        cases h
        exact .inl (decodeCommand_region hc).symm
  | header =>
    obtain ⟨x, t, rfl⟩ := decodeAt_header_instr h
    exact .inl rfl
  | table =>
    simp only [decodeAt, decodeTable] at h
    split at h
    · cases h
    · split at h
      · cases h; exact .inl rfl
      · split at h
        · cases h; exact .inl rfl
        · rename_i htop
          obtain ⟨c, l, k, rfl⟩ := decodeEntryFrom_tent h
          exact .inl (by rw [regionOf, if_neg htop])
  | entry =>
    simp only [decodeAt, decodeEntry] at h
    split at h
    · cases h
    · obtain ⟨c, l, k, rfl⟩ := decodeEntryFrom_tent h
      exact .inr ⟨rfl, _, _, _, _, rfl⟩
  | bits =>
    obtain ⟨-, ⟨q, r, rfl, -⟩ | ⟨c, n, rfl⟩⟩ := decodeBits_instr h
    · exact .inl rfl
    · exact .inl rfl
  | tail =>
    cases h
    exact .inl rfl

/-- What the decoder answers a fetch inside a stream leaves no whole byte unread (R62). -/
theorem fetch_holdsBits {s : State} (hp : s.phase ≠ .command) (hn : s.brLeft ≤ 7) :
    Decoded.HoldsBits (decodeAt s.region (s.trie.at s.tcur) s.fetchReader) := by
  rw [State.fetchReader, if_neg hp]
  exact decodeAt_holdsBits s.region (s.trie.at s.tcur) hn

/-- After a fetch the cursor stands where some reader stands; a command's leaves it where it was (R27). -/
theorem afterFetch_eq_putReader {s : State} {rd : Reader} (h : s.phase ≠ .command → s.brLeft ≤ 7 → rd.nleft ≤ 7) :
    ∃ rd' : Reader, (s.brLeft ≤ 7 → rd'.nleft ≤ 7) ∧ s.afterFetch rd = s.putReader rd' := by
  unfold State.afterFetch
  split
  · exact ⟨s.reader, id, rfl⟩
  · rename_i hp
    exact ⟨rd, h hp, rfl⟩

/-- A fetch that delivers an instruction moves the cursor alone (R27). -/
theorem fetch_instr {s u : State} {i : Instr} (h : s.fetch = .instr i u) :
    ReadAt s.region i ∧ ∃ rd : Reader, (s.brLeft ≤ 7 → rd.nleft ≤ 7) ∧ u = s.putReader rd := by
  have hbits := fetch_holdsBits (s := s)
  unfold State.fetch at h
  cases hd : decodeAt s.region (s.trie.at s.tcur) s.fetchReader with
  | short path rd => rw [hd] at h; cases h
  | noChild path rd => rw [hd] at h; cases h
  | unknownCommand code => rw [hd] at h; cases h
  | instr j rd =>
    rw [hd] at h hbits
    cases h
    exact ⟨decodeAt_readAt hd, afterFetch_eq_putReader hbits⟩

/-- A fetch that raises leaves the fault state of some error, the cursor and TCUR moved (R197, R202, R239). -/
theorem fetch_raised {s t : State} (h : s.fetch = .raised t) :
    ∃ (rd : Reader) (tcur : List Bool) (k : Err), k ≠ .none ∧ (s.brLeft ≤ 7 → rd.nleft ≤ 7) ∧
      t = State.raise { s.putReader rd with tcur := tcur } k := by
  have hbits := fetch_holdsBits (s := s)
  unfold State.fetch at h
  cases hd : decodeAt s.region (s.trie.at s.tcur) s.fetchReader with
  | instr i rd => rw [hd] at h; cases h
  | short path rd =>
    rw [hd] at h hbits
    obtain ⟨rd', hn, he⟩ := afterFetch_eq_putReader hbits
    cases h
    exact ⟨rd', s.tcur ++ path, .ioFailure, by decide, hn, by rw [he]⟩
  | noChild path rd =>
    rw [hd] at h hbits
    obtain ⟨rd', hn, he⟩ := afterFetch_eq_putReader hbits
    cases h
    exact ⟨rd', s.tcur ++ path.dropLast, .invalidCode, by decide, hn, by rw [he]⟩
  | unknownCommand code =>
    rw [hd] at h
    cases h
    exact ⟨s.reader, s.tcur, .cmdRefused, by decide, id, rfl⟩

/-! ## The elements of a stream -/

/-- A leaf that an insertion put in place stands at the end of its path (R192). -/
theorem insertAt_at {leaf node node' : Node} {path : List Bool} (h : insertAt leaf path node = some node') :
    node'.at path = leaf := by
  induction path generalizing node node' with
  | nil => cases node <;> cases h
  | cons bit path ih =>
    cases node with
    | inner clear set =>
      have hinner : Node.isInner (Node.inner clear set) = true := rfl
      cases path with
      | nil =>
        cases bit with
        | true =>
          simp only [insertAt, if_true, Option.ite_none_right_eq_some, Option.some.injEq] at h
          rw [← h.2]
          rfl
        | false =>
          simp only [insertAt, Bool.false_eq_true, if_false, Option.ite_none_right_eq_some, Option.some.injEq] at h
          rw [← h.2]
          rfl
      | cons next path =>
        rw [insertAt_down hinner, Option.map_eq_some_iff] at h
        obtain ⟨n, hn, rfl⟩ := h
        rw [Node.at_cons, withChild_child hinner, if_pos rfl]
        exact ih hn
    | absent => simp [insertAt] at h
    | leafRun r => simp [insertAt] at h
    | leafEsc => simp [insertAt] at h

/-- What a stream element can do to a state (R82 to R88, R186 to R201): write the header's fields, set the nibble context,
put a leaf into the trie, go to the bitstream (where UNPACK_TABLE ends), deliver a run that fits, end the command, or raise a
fault. -/
inductive ElementDoes (s : State) : Instr → State → Prop
  | header (x : Bool) (n : BitVec 15) : ElementDoes s (.hdr x n) { s with xflag := x, tiles := n, phase := .table }
  | marker (z : BitVec 3) (n : Nibble) : ElementDoes s (.tnib z n) { s with ctx := some n, phase := .entry }
  | entry (b : Bool) (c : BitVec 3) (l : BitVec 4) (k : Byte) (trie : Node) :
      ElementDoes s (.tent b c l k) { s with trie := trie, phase := .table }
  | tableEnd (trie : Node) (h : trie.at escapePath = .leafEsc) : ElementDoes s .tend (s.bitsAt s.sp s.ctx trie)
  | tableDone (trie : Node) : ElementDoes s .tend (s.bitsAt s.sp s.ctx trie).finish
  | listed (i : Instr) (r : Run) (hi : regionOf i = .bits) (hfits : s.delivered + Run.count r ≤ s.expectedNibbles)
      (honly : s.runsOnly = true) : ElementDoes s i (s.listed r)
  | expanded (i : Instr) (r : Run) (hi : regionOf i = .bits) (hfits : s.delivered + Run.count r ≤ s.expectedNibbles)
      (honly : s.runsOnly = false) : ElementDoes s i ((s.listed r).expandRun r)
  | complete (n : BitVec 3) (x : Bool) : ElementDoes s (.pad n) { s with xsel := x }.finish
  | fault (i : Instr) (tcur : List Bool) (k : Err) (hk : k ≠ .none) :
      ElementDoes s i (State.raise { s with tcur := tcur } k)

theorem emitRun_does (s : State) {i : Instr} (r : Run) (hi : regionOf i = .bits) :
    ElementDoes s i (s.emitRun r) := by
  rcases emitRun_cases s r with ⟨-, e⟩ | ⟨hfits, honly, e⟩ | ⟨hfits, honly, e⟩
  · exact e ▸ .fault i [] .outputOverrun (by decide)
  · exact e ▸ .listed i r hi hfits honly
  · exact e ▸ .expanded i r hi hfits honly

theorem runElement_does {s t : State} {i : Instr} (h : runElement i s = .next t) : ElementDoes s i t := by
  cases i with
  | hdr x n => cases h; exact .header x n
  | tnib z n => cases h; exact .marker z n
  | tent b c l k =>
    rw [runElement, execTent_eq] at h
    cases hn : tentTrie s.ctx s.trie c l k with
    | none => rw [hn] at h; cases h; exact .fault _ s.tcur .malformedHeader (by decide)
    | some trie => rw [hn] at h; cases h; exact .entry b c l k trie
  | tend =>
    rw [runElement, execTend_eq] at h
    cases hn : insertAt .leafEsc escapePath s.trie with
    | none => rw [hn] at h; cases h; exact .fault _ s.tcur .malformedHeader (by decide)
    | some trie =>
      rw [hn] at h
      cases h
      split
      · exact .tableDone trie
      · exact .tableEnd trie (insertAt_at hn)
  | code path =>
    rw [runElement, execCode] at h
    cases hn : followPath (s.trie.at s.tcur) s.tcur path with
    | leaf r => rw [hn] at h; cases h; exact emitRun_does s r rfl
    | noChild tcur => rw [hn] at h; cases h; exact .fault _ tcur .invalidCode (by decide)
    | noCodeword => rw [hn] at h; cases h
  | esc c n => cases h; exact emitRun_does s _ rfl
  | pad n => cases h; exact .complete n _
  | _ => cases h

/-- Outside the commands the dispatcher gives an instruction its meaning as an element. -/
theorem exec_eq_runElement {i : Instr} (hi : regionOf i ≠ .command) (s : State) : exec i s = runElement i s := by
  cases i with
  | hdr x n => rfl
  | tnib z n => rfl
  | tent b c l k => rfl
  | tend => rfl
  | code path => rfl
  | esc c n => rfl
  | pad n => rfl
  | _ => exact absurd rfl hi

/-! ## The commands -/

/-- The state with what TRIAL_SEARCH writes taken from another (R26, R149). -/
def State.searched (s u : State) : State :=
  { s with
    len := u.len, code := u.code, est := u.est, best := u.best, bestEst := u.bestEst, qual := u.qual,
    trialSize := u.trialSize, forest := u.forest }

theorem tried_frame (s : State) (t : Nat) : s.tried t = s.searched (s.tried t) := rfl

theorem keepBest_frame (s : State) : s.keepBest = s.searched s.keepBest := by
  rcases keepBest_cases s with ⟨-, e⟩ | ⟨-, e⟩ <;> rw [e] <;> rfl

theorem trial_frame (s : State) (t : Nat) : s.trial t = s.searched (s.trial t) := by
  have htried := tried_frame s t
  have hkept := keepBest_frame (s.tried t)
  rw [trial_eq]
  generalize (s.tried t).keepBest = v at *
  generalize s.tried t = u at *
  rw [hkept, htried]
  rfl

/-- The trials touch what the search owns, and nothing else (R26, R149). -/
theorem trials_frame (n : Nat) (s : State) : State.trials n s = s.searched (State.trials n s) := by
  induction n generalizing s with
  | zero => rfl
  | succ n ih =>
    have hfirst := trial_frame s (n + 2)
    have hrest := ih (s.trial (n + 2))
    rw [State.trials]
    generalize State.trials n (s.trial (n + 2)) = u at *
    rw [hrest, hfirst]
    rfl

theorem searchTrials_frame (s : State) : s.searchTrials = s.searched s.searchTrials := by
  rw [searchTrials_eq]
  have hframe := trials_frame ((qualifying s.freq).length - 1) s.searchStart
  generalize State.trials ((qualifying s.freq).length - 1) s.searchStart = u at *
  rw [hframe]
  rfl

/-- The bit writer is empty after PACK (R65). -/
theorem packSink_empty (x : Bool) (t : BitVec 15) (f : RunFile (Option Codeword)) (rs : List Run) :
    (packSink x t f rs).acc = 0#8 ∧ (packSink x t f rs).nbits = 0 := by
  have hok : (packTable x t f).1.Ok := by simp [packTable_out, Sink.Ok]
  obtain ⟨-, hok'⟩ := packRuns_bits hok f rs
  rw [packSink]
  generalize rs.foldl (packRun f) (packTable x t f).1 = k at hok'
  obtain ⟨-, hacc⟩ := hok'
  unfold Sink.flush
  split
  · rename_i h0
    rw [h0] at hacc
    exact ⟨BitVec.eq_of_toNat_eq (by simpa using hacc), h0⟩
  · exact ⟨rfl, rfl⟩

/-- A pass of ENCODE touches what its units own, and leaves the bit writer empty (R26, R218). -/
theorem encodePass_frame (s : State) (bs : List Byte) (x : Bool) :
    s.encodePass bs x =
      { s.searched (s.encodePass bs x) with
        rleSrc := rleOf bs, freq := tally (rleOf bs), curRun := none, xflag := x, tiles := tilesOf bs,
        lastNib := (s.encodePass bs x).lastNib, bwAcc := 0#8, bwBits := 0 } := by
  have hframe := searchTrials_frame (s.passStart.rleEncode bs)
  rw [State.encodePass]
  generalize (s.passStart.rleEncode bs).searchTrials = u at *
  obtain ⟨hacc, hbits⟩ := packSink_empty x (tilesOf bs) u.best (rleOf bs)
  rw [hframe, ← hacc, ← hbits]
  rfl

/-- What a command keeps on the way to its end: SRC, ARG_LEN and the arguments; no error, DST canonical below the write
cursor, fewer than 8 bits in BR and BW (R28, R38, R62). -/
structure Working (s u : State) : Prop where
  src : u.src = s.src
  argLen : u.argLen = s.argLen
  args : u.args = s.args
  err : u.err = .none
  dstForm : u.dst.wf = true
  dstBelow : ∀ c ∈ u.dst.cells, c.1 < u.dpos
  unreadBits : u.brLeft ≤ 7
  pendingBits : u.bwBits ≤ 7

theorem Working.start (s : State) (code : Byte) : Working s (s.startAll code) where
  src := rfl
  argLen := rfl
  args := rfl
  err := rfl
  dstForm := rfl
  dstBelow c hc := by cases hc
  unreadBits := Nat.zero_le 7
  pendingBits := Nat.zero_le 7

theorem Working.deliver {s u : State} (h : Working s u) (bs : List Byte) : Working s (u.deliver bs) :=
  { h with
    dstForm := storeBytes_wf blank_wf 0 bs
    dstBelow := storeBytes_below (fun c hc => by cases hc) (by simp) }

theorem Working.searched {s u : State} (h : Working s u) (v : State) : Working s (u.searched v) :=
  { h with }

theorem Working.encodePass {s u : State} (h : Working s u) (bs : List Byte) (x : Bool) :
    Working s (u.encodePass bs x) := by
  have hframe := encodePass_frame u bs x
  generalize u.encodePass bs x = v at *
  rw [hframe]
  exact { h with pendingBits := Nat.zero_le 7 }

theorem Working.transformed {s u : State} (h : Working s u) (bs : List Byte) : Working s (u.transformed bs) :=
  { h with }

theorem Working.keepSecond {s u : State} (h : Working s u) : Working s u.keepSecond := { h with }

theorem Working.bothPasses {s u : State} (h : Working s u) : Working s u.bothPasses :=
  (((h.encodePass u.srcBytes false).transformed u.srcBytes).encodePass _ true).keepSecond

/-- Runs expanded one after another touch DST, its cursor, the lanes, HOLD and OUTCNT alone (R206, R209). -/
theorem expandRuns_frame (rs : List Run) (s : State) :
    rs.foldl State.expandRun s =
      { s with
        dst := (rs.foldl State.expandRun s).dst, dpos := (rs.foldl State.expandRun s).dpos,
        lane := (rs.foldl State.expandRun s).lane, lpos := (rs.foldl State.expandRun s).lpos,
        hold := (rs.foldl State.expandRun s).hold, outcnt := (rs.foldl State.expandRun s).outcnt } := by
  induction rs generalizing s with
  | nil => rfl
  | cons r rs ih =>
    rw [List.foldl_cons, ih, expandRun_frame]

/-- Nibbles delivered keep DST canonical below its cursor (R28, R208). -/
theorem TookNibbles.dst_ok {s t : State} {ns : List Nibble} (h : TookNibbles s t ns) (hform : s.dst.wf = true)
    (hbelow : ∀ c ∈ s.dst.cells, c.1 < s.dpos) : t.dst.wf = true ∧ ∀ c ∈ t.dst.cells, c.1 < t.dpos := by
  obtain ⟨plain, -, hpos, hdst, -⟩ := h
  rw [hdst, hpos]
  refine ⟨storeBytes_wf hform _ _, storeBytes_below (fun c hc => ?_) (by rw [deXored_length])⟩
  exact (hbelow c hc).trans_le (Nat.le_add_right _ _)

theorem Working.expandRuns {s u : State} (h : Working s u) (rs : List Run) :
    Working s (rs.foldl State.expandRun u) := by
  obtain ⟨hform, hbelow⟩ := (expandRuns_took rs u).dst_ok h.dstForm h.dstBelow
  rw [expandRuns_frame]
  exact { h with dstForm := hform, dstBelow := hbelow }

/-- How a command comes to its end (R269): DONE or refused after its work, or through the elements of a stream, read from a
place of the stream with the results hidden (R30, R40). -/
inductive CommandDoes (s : State) : State → Prop
  | done (u : State) (h : Working s u) : CommandDoes s u.finish
  | refused (u : State) (h : Working s u) : CommandDoes s u.refuse
  | stream (u t : State) (h : Working s u) (hbusy : u.status = .busy) (hphase : u.phase = .header ∨ u.phase = .bits)
      (hhidden : u.dlen = 0 ∧ u.xsel = false) (hrun : runElements u.elementBound u = .next t) : CommandDoes s t

theorem choose_does {s u : State} (h : Working s u) : CommandDoes s u.choose := by
  unfold State.choose
  split
  · exact .done _ { h.deliver u.cand1 with }
  · exact .done _ { h.deliver u.cand0 with }

theorem exec_encode_does {s t : State} (h : exec .encode s = .next t) : CommandDoes s t := by
  cases hok : encodeLengthOk s.argLen with
  | false => rw [(exec_refused hok).1] at h; cases h; exact .refused _ (.start s _)
  | true =>
    rw [exec_encode_of_ok hok, Host.Outcome.next.injEq] at h
    exact h ▸ choose_does (Working.start s 0x01#8).bothPasses

theorem Working.keepOne {s u : State} (h : Working s u) (x : Bool) : Working s (u.keepOne x) := by
  unfold State.keepOne
  split
  · exact { h with }
  · exact { h with }

theorem exec_encodeOne_does {s t : State} (h : exec .encodeOne s = .next t) : CommandDoes s t := by
  cases hok : encodeLengthOk s.argLen with
  | false => rw [(exec_refused hok).2] at h; cases h; exact .refused _ (.start s _)
  | true =>
    have hpass := (Working.start s 0x03#8).encodePass (s.startAll 0x03#8).srcBytes s.args.xflag
    rw [exec_encodeOne_of_ok hok, Host.Outcome.next.injEq] at h
    generalize (s.startAll 0x03#8).encodePass (s.startAll 0x03#8).srcBytes s.args.xflag = u at *
    rw [← h]
    exact .done _ { (hpass.keepOne s.args.xflag).deliver u.packed with }

theorem exec_trialSearch_does {s t : State} (h : exec .trialSearch s = .next t) : CommandDoes s t := by
  have hstart : Working s { s.startAll 0x32#8 with freq := s.args.freq } := { Working.start s 0x32#8 with }
  have hsearched := hstart.searched { s.startAll 0x32#8 with freq := s.args.freq }.searchTrials
  rw [← searchTrials_frame] at hsearched
  rw [exec, execTrialSearch, Host.Outcome.next.injEq] at h
  rw [← h]
  exact .done _ hsearched

theorem Working.rleStart (s : State) : Working s s.rleStart := { Working.start s 0x70#8 with }

theorem Working.expandAll {s u : State} (h : Working s u) : Working s u.expandAll := by
  unfold State.expandAll
  split
  · exact h.expandRuns u.runs
  · exact { h.deliver (Config.unstatedExpansion u.runs u.xflag u.tiles).bytes with }

theorem exec_command_does {s t : State} {i : Instr} (hi : regionOf i = .command) (h : exec i s = .next t) :
    CommandDoes s t := by
  cases i with
  | encode => exact exec_encode_does h
  | decode => exact .stream s.decodeStart t { Working.start s 0x02#8 with } rfl (.inl rfl) ⟨rfl, rfl⟩ h
  | encodeOne => exact exec_encodeOne_does h
  | rleEnc => cases h; exact .done _ { Working.start s 0x10#8 with }
  | pmSolve => cases h; split <;> exact .done _ { Working.start s 0x20#8 with }
  | canonGen => cases h; exact .done _ { Working.start s 0x30#8 with }
  | costEst => cases h; exact .done _ { Working.start s 0x31#8 with }
  | trialSearch => exact exec_trialSearch_does h
  | xorEnc => cases h; exact .done _ { (Working.start s 0x40#8).deliver _ with }
  | xorDec => cases h; exact .done _ { (Working.start s 0x41#8).deliver _ with }
  | pack =>
    cases h
    have hempty := (packSink_empty s.args.xflag s.args.tiles s.args.best s.args.rleSrc).2
    exact .done _ { (Working.start s 0x50#8).deliver _ with pendingBits := by simp [hempty] }
  | unpackTable =>
    exact .stream (s.startAll 0x60#8).tableStart t { Working.start s 0x60#8 with } rfl (.inl rfl) ⟨rfl, rfl⟩ h
  | unpackBits =>
    exact .stream (s.startAll 0x61#8).bitsStart t { Working.start s 0x61#8 with } rfl (.inr rfl) ⟨rfl, rfl⟩ h
  | rleDec => rw [exec_rleDec] at h; cases h; exact .done _ (Working.rleStart s).expandAll
  | hdr x n => cases hi
  | tnib z n => cases hi
  | tent b c l k => cases b <;> cases hi
  | tend => cases hi
  | code path => cases hi
  | esc c n => cases hi
  | pad n => cases hi

/-! ## The step -/

/-- What a fetch in a stream and the element's meaning do: the fetch raises a fault, or the element does its work from the
state with the cursor past it. -/
inductive StreamDoes (s : State) : State → Prop
  | raised (rd : Reader) (tcur : List Bool) (k : Err) (hk : k ≠ .none) (hn : s.brLeft ≤ 7 → rd.nleft ≤ 7) :
      StreamDoes s (State.raise { s.putReader rd with tcur := tcur } k)
  | element (i : Instr) (rd : Reader) (t : State) (hr : ReadAt s.region i) (hn : s.brLeft ≤ 7 → rd.nleft ≤ 7)
      (h : ElementDoes (s.putReader rd) i t) : StreamDoes s t

theorem elementStep_does {s t : State} (h : elementStep s = .next t) : StreamDoes s t := by
  unfold elementStep at h
  cases hf : s.fetch with
  | raised u =>
    rw [hf] at h
    cases h
    obtain ⟨rd, tcur, k, hk, hn, rfl⟩ := fetch_raised hf
    exact .raised rd tcur k hk hn
  | instr i u =>
    rw [hf] at h
    obtain ⟨hr, rd, hn, rfl⟩ := fetch_instr hf
    exact .element i rd t hr hn (runElement_does h)

/-- A step at rest does nothing; a step of a running command is that of a stream, or the whole command in CMD. -/
theorem step_does {s t : State} (h : step s = .next t) :
    (s.status ≠ .busy ∧ t = s) ∨ (s.status = .busy ∧ StreamDoes s t) ∨
      ∃ rd : Reader, CommandDoes (s.putReader rd) t := by
  by_cases hb : s.status = .busy
  · refine .inr ?_
    rw [step_busy hb] at h
    cases hf : s.fetch with
    | raised u =>
      rw [hf] at h
      cases h
      obtain ⟨rd, tcur, k, hk, hn, rfl⟩ := fetch_raised hf
      exact .inl ⟨hb, .raised rd tcur k hk hn⟩
    | instr i u =>
      rw [hf] at h
      obtain ⟨hr, rd, hn, rfl⟩ := fetch_instr hf
      by_cases hi : regionOf i = .command
      · exact .inr ⟨rd, exec_command_does hi h⟩
      · exact .inl ⟨hb, .element i rd t hr hn (runElement_does ((exec_eq_runElement hi _).symm.trans h))⟩
  · rw [step_rest hb] at h
    cases h
    exact .inl ⟨hb, rfl⟩

/-! ## The input stays -/

/-- SRC, ARG_LEN and the arguments are the same. -/
structure SameInput (s t : State) : Prop where
  src : t.src = s.src
  argLen : t.argLen = s.argLen
  args : t.args = s.args

theorem SameInput.trans {s t u : State} (h : SameInput s t) (h' : SameInput t u) : SameInput s u :=
  ⟨h'.src.trans h.src, h'.argLen.trans h.argLen, h'.args.trans h.args⟩

theorem Working.sameInput {s u : State} (h : Working s u) : SameInput s u := { h with }

theorem ElementDoes.sameInput {s t : State} {i : Instr} (h : ElementDoes s i t) : SameInput s t := by
  cases h with
  | expanded _ r hi hfits honly => rw [expandRun_frame]; exact ⟨rfl, rfl, rfl⟩
  | _ => exact ⟨rfl, rfl, rfl⟩

theorem StreamDoes.sameInput {s t : State} (h : StreamDoes s t) : SameInput s t := by
  cases h with
  | raised rd tcur k hk hn => exact ⟨rfl, rfl, rfl⟩
  | element i rd t hr hn he => exact { he.sameInput with }

theorem CommandDoes.sameInput {s t : State} (h : CommandDoes s t) : SameInput s t := by
  cases h with
  | done u hw => exact { hw with }
  | refused u hw => exact { hw with }
  | stream u t hw hbusy hphase hhidden hrun =>
    exact runElements_keeps (P := SameInput s) (fun u v hu _ hv => hu.trans (elementStep_does hv).sameInput)
      hw.sameInput hrun

/-- Settles O11, from what a step can do. -/
theorem stepLeavesInput : Obligations.StepLeavesInput := by
  intro s t h
  have hsame : SameInput s t := by
    rcases step_does h with ⟨-, rfl⟩ | ⟨-, hd⟩ | ⟨rd, hd⟩
    · exact ⟨rfl, rfl, rfl⟩
    · exact hd.sameInput
    · exact { hd.sameInput with }
  exact ⟨hsame.src, hsame.argLen, hsame.args⟩

end Sys2Proof.Machine
end

section
/-! Every step keeps the invariant of the registers, the memories and the cursors (R28, R30, R62, R69, R231, R236). -/

namespace Sys2Proof.Machine

/-- A command at work in a state with the invariant. -/
theorem State.Inv.working {s : State} (h : s.Inv) (hb : s.status = .busy) : Working s s :=
  { h with src := rfl, argLen := rfl, args := rfl, err := h.errInFault.2 (by simp [hb]) }

/-- The end of a command (R69). -/
theorem Working.finish_inv {s u : State} (h : Working s u) (hsrc : s.src.wf = true) : u.finish.Inv where
  srcForm := h.src ▸ hsrc
  dstForm := h.dstForm
  dstBelow := h.dstBelow
  errInFault := by simp [h.err]
  faultEmpty hf := by cases hf
  idleEmpty hi := by cases hi
  doneLength _ := rfl
  busyHidden hb := by cases hb
  restPhase _ := rfl
  notTail := by simp
  unreadBits := h.unreadBits
  pendingBits := h.pendingBits

/-- Raising a fault empties the output (R236). -/
theorem raise_inv {s : State} {k : Err} (hsrc : s.src.wf = true) (hk : k ≠ .none) (hr : s.brLeft ≤ 7)
    (hw : s.bwBits ≤ 7) : (s.raise k).Inv where
  srcForm := hsrc
  dstForm := rfl
  dstBelow c hc := by cases hc
  errInFault := by simp [hk]
  faultEmpty _ := ⟨rfl, rfl, rfl, rfl⟩
  idleEmpty hi := by cases hi
  doneLength hd := by cases hd
  busyHidden hb := by cases hb
  restPhase _ := rfl
  notTail := by simp
  unreadBits := hr
  pendingBits := hw

/-- A command at work in the middle of a stream, its results hidden (R30, R40). -/
theorem Working.stream_inv {s u : State} (h : Working s u) (hsrc : s.src.wf = true) (hb : u.status = .busy)
    (hp : u.phase ≠ .tail) (hhidden : u.dlen = 0 ∧ u.xsel = false) : u.Inv where
  srcForm := h.src ▸ hsrc
  dstForm := h.dstForm
  dstBelow := h.dstBelow
  errInFault := by simp [h.err, hb]
  faultEmpty hf := by rw [hb] at hf; cases hf
  idleEmpty hi := by rw [hb] at hi; cases hi
  doneLength hd := by rw [hb] at hd; cases hd
  busyHidden _ := hhidden
  restPhase hne := absurd hb hne
  notTail := hp
  unreadBits := h.unreadBits
  pendingBits := h.pendingBits

theorem Working.listed {s u : State} (h : Working s u) (r : Run) : Working s (u.listed r) := { h with }

theorem ElementDoes.inv {s t : State} {i : Instr} (hs : s.Inv) (hb : s.status = .busy) (h : ElementDoes s i t) :
    t.Inv := by
  have hw := hs.working hb
  have hsrc := hs.srcForm
  have hhidden := hs.busyHidden hb
  cases h with
  | header x n => exact Working.stream_inv (s := s) { hw with } hsrc hb (by simp) hhidden
  | marker z n => exact Working.stream_inv (s := s) { hw with } hsrc hb (by simp) hhidden
  | entry b c l k trie => exact Working.stream_inv (s := s) { hw with } hsrc hb (by simp) hhidden
  | tableEnd trie ht =>
    exact Working.stream_inv (s := s) { hw with unreadBits := Nat.zero_le 7 } hsrc hb (by simp [State.bitsAt]) hhidden
  | tableDone trie => exact Working.finish_inv (s := s) { hw with unreadBits := Nat.zero_le 7 } hsrc
  | listed _ r hi hfits honly => exact (hw.listed r).stream_inv hsrc hb hs.notTail hhidden
  | expanded _ r hi hfits honly =>
    have he := (hw.listed r).expandRuns [r]
    have hframe := expandRun_frame (s.listed r) r
    refine he.stream_inv hsrc ?_ ?_ ?_
    · exact (congrArg State.status hframe).trans hb
    · exact fun hp => hs.notTail ((congrArg State.phase hframe).symm.trans hp)
    · exact ⟨(congrArg State.dlen hframe).trans hhidden.1, (congrArg State.xsel hframe).trans hhidden.2⟩
  | complete n x => exact Working.finish_inv (s := s) { hw with } hsrc
  | fault _ tcur k hk => exact raise_inv hsrc hk hs.unreadBits hs.pendingBits

theorem putReader_inv {s : State} {rd : Reader} (hs : s.Inv) (hn : rd.nleft ≤ 7) : (s.putReader rd).Inv :=
  { hs with unreadBits := hn }

theorem StreamDoes.inv {s t : State} (hs : s.Inv) (hb : s.status = .busy) (h : StreamDoes s t) : t.Inv := by
  cases h with
  | raised rd tcur k hk hn => exact raise_inv hs.srcForm hk (hn hs.unreadBits) hs.pendingBits
  | element i rd t hr hn he => exact he.inv (putReader_inv hs (hn hs.unreadBits)) hb

/-- A command needs no more than SRC in canonical form: it starts everything else (R40). -/
theorem CommandDoes.inv {s t : State} (hsrc : s.src.wf = true) (h : CommandDoes s t) : t.Inv := by
  cases h with
  | done u hw => exact hw.finish_inv hsrc
  | refused u hw => exact raise_inv (hw.src ▸ hsrc) (by decide) hw.unreadBits hw.pendingBits
  | stream u t hw hbusy hphase hhidden hrun =>
    have hu : u.Inv := hw.stream_inv hsrc hbusy (by rcases hphase with h | h <;> simp [h]) hhidden
    exact runElements_keeps (P := State.Inv) (fun u v hu hb hv => (elementStep_does hv).inv hu hb) hu hrun

/-- Settles O9, from what a step can do. -/
theorem stepKeepsInv : Obligations.StepKeepsInv := by
  intro s t hs h
  rcases step_does h with ⟨-, rfl⟩ | ⟨hb, hd⟩ | ⟨rd, hd⟩
  · exact hs
  · exact hd.inv hs hb
  · exact hd.inv (s := s.putReader rd) hs.srcForm

end Sys2Proof.Machine
end

section
/-! Every step keeps the invariant of a decode in progress (R33, R193, R195, R201, R207). -/

namespace Sys2Proof.Machine

theorem streamInv_of_rest {s : State} (h : s.status ≠ .busy) : s.StreamInv where
  early hb := absurd hb h
  fits hb := absurd hb h
  paired hb := absurd hb h
  escape hb := absurd hb h
  atRoot hb := absurd hb h

/-- Every command comes to its end (R269). -/
theorem CommandDoes.ended {s t : State} (h : CommandDoes s t) : t.ended := by
  cases h with
  | done u hw => exact finish_ended u
  | refused u hw => exact raise_ended u .cmdRefused
  | stream u t hw hbusy hphase hhidden hrun =>
    have hfuel : u.bitsLeft < u.elementBound := by
      simp only [State.bitsLeft, State.elementBound]
      omega
    obtain ⟨t', hrun', hend⟩ := runElements_ends hbusy (by rcases hphase with h | h <;> simp [h]) hfuel
    rw [hrun, Host.Outcome.next.injEq] at hrun'
    exact hrun' ▸ hend

/-- Before the bitstream nothing is output (R194, R209). -/
def NoOutput (s : State) : Prop := s.outcnt = 0 ∧ s.hold = none ∧ s.dpos = 0 ∧ s.runs = []

/-- The invariant of a stream at a place before the bitstream. -/
theorem streamInv_of_early {s : State} (hp : s.phase ≠ .bits) (h : NoOutput s) : s.StreamInv where
  early _ _ := h
  fits _ hb := absurd hb hp
  paired _ hb := absurd hb hp
  escape _ hb := absurd hb hp
  atRoot _ hb := absurd hb hp

/-- The place an element is read at is the stored one; in the bitstream PAD may stand instead (R198, R199). -/
theorem region_eq_phase {s : State} (h : s.region ≠ .tail) : s.region = s.phase := by
  unfold State.region at *
  split at h
  · exact absurd rfl h
  · rename_i hc; rw [if_neg hc]

theorem delivered_listed {s : State} (r : Run) (honly : s.runsOnly = true) :
    (s.listed r).delivered = s.delivered + Run.count r := by
  rw [delivered_runsOnly honly, delivered_runsOnly (s := s.listed r) honly, State.listed, nibbleCount_append]
  simp [nibbleCount]

/-- Nibbles delivered in pairs: two to a byte of DST, an odd one in HOLD (R207). -/
def Paired (s : State) : Prop := 2 * s.dpos + (if s.hold.isSome then 1 else 0) = s.outcnt

theorem hold_length (s : State) : s.hold.toList.length = if s.hold.isSome then 1 else 0 := by
  cases s.hold <;> rfl

theorem TookNibbles.paired {s t : State} {ns : List Nibble} (h : TookNibbles s t ns) (hs : Paired s) : Paired t := by
  obtain ⟨plain, hnib, hpos, -, -, -, hcnt, -⟩ := h
  have hlen := congrArg List.length hnib
  rw [List.length_append, List.length_append, nibblesOf_length, hold_length, hold_length] at hlen
  unfold Paired at *
  omega

/-- The elements before the bitstream stand before the bitstream (R89). -/
theorem ReadAt.early {s : State} {i : Instr} (hr : ReadAt s.region i)
    (hi : regionOf i = .header ∨ regionOf i = .table ∨ regionOf i = .entry) :
    s.phase = .header ∨ s.phase = .table ∨ s.phase = .entry := by
  have hregion : s.region = .header ∨ s.region = .table ∨ s.region = .entry := by
    rcases hr with hr | ⟨hr, -⟩
    · rwa [hr]
    · exact .inr (.inr hr)
  rwa [← region_eq_phase (by rcases hregion with h | h | h <;> simp [h])]

/-- CODE and ESC stand in the bitstream (R90). -/
theorem ReadAt.bits {s : State} {i : Instr} (hr : ReadAt s.region i) (hi : regionOf i = .bits) : s.phase = .bits := by
  rcases hr with hr | ⟨-, b, c, l, k, rfl⟩
  · rw [hi] at hr
    rw [← region_eq_phase (by simp [hr]), hr]
  · cases b <;> cases hi

/-- The invariant once the table is complete: nothing is delivered, and the escape leaf is in place (R193, R194). -/
theorem streamInv_at_bits {s : State} {trie : Node} (hno : NoOutput s) (ht : trie.at escapePath = .leafEsc) :
    (s.bitsAt s.sp s.ctx trie).StreamInv := by
  obtain ⟨hcnt, hhold, hpos, hruns⟩ := hno
  refine ⟨fun _ hp => by simp [State.bitsAt] at hp, fun _ _ => ?_, fun _ _ _ => ?_, fun _ _ => ht, fun _ _ => rfl⟩
  · have hnone : (s.bitsAt s.sp s.ctx trie).delivered = 0 := by
      unfold State.delivered State.bitsAt
      split
      · simp [hruns, nibbleCount]
      · exact hcnt
    rw [hnone]
    exact Nat.zero_le _
  · simp [State.bitsAt, hcnt, hhold, hpos]

/-- A run that fits keeps the invariant, when runs only are asked for (R198). -/
theorem listed_streamInv {s : State} {r : Run} (hs : s.StreamInv) (hb : s.status = .busy) (hp : s.phase = .bits)
    (hfits : s.delivered + Run.count r ≤ s.expectedNibbles) (honly : s.runsOnly = true) : (s.listed r).StreamInv where
  early _ h := by rcases h with h | h | h <;> simp [State.listed, hp] at h
  fits _ _ := delivered_listed r honly ▸ hfits
  paired _ _ h := by rw [show (s.listed r).runsOnly = s.runsOnly from rfl, honly] at h; cases h
  escape _ _ := hs.escape hb hp
  atRoot _ _ := rfl

/-- A run that fits keeps the invariant, when it is expanded as well (R198, R201, R207). -/
theorem expanded_streamInv {s : State} {r : Run} (hs : s.StreamInv) (hb : s.status = .busy) (hp : s.phase = .bits)
    (hfits : s.delivered + Run.count r ≤ s.expectedNibbles) (honly : s.runsOnly = false) :
    ((s.listed r).expandRun r).StreamInv := by
  have hpaired : Paired ((s.listed r).expandRun r) :=
    (expandRun_took (s.listed r) r).paired (hs.paired hb hp honly)
  have hframe := expandRun_frame (s.listed r) r
  rw [delivered_expanded honly] at hfits
  generalize (s.listed r).expandRun r = t at *
  have honly' : t.runsOnly = false := by rw [hframe]; exact honly
  refine ⟨fun _ h => ?_, fun _ _ => ?_, fun _ _ _ => hpaired, fun _ _ => ?_, fun _ _ => ?_⟩
  · rw [hframe] at h
    rcases h with h | h | h <;> simp [State.listed, hp] at h
  · rw [delivered_expanded honly', hframe]
    exact hfits
  · rw [hframe]
    exact hs.escape hb hp
  · rw [hframe]
    rfl

theorem ElementDoes.streamInv {s t : State} {i : Instr} (hs : s.StreamInv) (hb : s.status = .busy)
    (hr : ReadAt s.region i) (h : ElementDoes s i t) : t.StreamInv := by
  cases h with
  | header x n => exact streamInv_of_early (by simp) (hs.early hb (hr.early (.inl rfl)))
  | marker z n => exact streamInv_of_early (by simp) (hs.early hb (hr.early (.inr (.inl rfl))))
  | entry b c l k trie =>
    exact streamInv_of_early (by simp) (hs.early hb (hr.early (by cases b <;> simp [regionOf])))
  | tableEnd trie ht => exact streamInv_at_bits (hs.early hb (hr.early (.inr (.inl rfl)))) ht
  | tableDone trie => exact streamInv_of_rest (by simp)
  | listed _ r hi hfits honly => exact listed_streamInv hs hb (hr.bits hi) hfits honly
  | expanded _ r hi hfits honly => exact expanded_streamInv hs hb (hr.bits hi) hfits honly
  | complete n x => exact streamInv_of_rest (by simp)
  | fault _ tcur k hk => exact streamInv_of_rest (by simp)

theorem putReader_streamInv {s : State} (hs : s.StreamInv) (rd : Reader) : (s.putReader rd).StreamInv := { hs with }

/-- Settles O10, from what a step can do: a fault and the end of a command leave no stream, and every element keeps the
invariant of its place. -/
theorem stepKeepsStreamInv : Obligations.StepKeepsStreamInv := by
  intro s t hs h
  rcases step_does h with ⟨-, rfl⟩ | ⟨hb, hd⟩ | ⟨rd, hd⟩
  · exact hs
  · cases hd with
    | raised rd tcur k hk hn => exact streamInv_of_rest (by simp)
    | element i rd t hr hn he => exact he.streamInv (putReader_streamInv hs rd) hb hr
  · exact streamInv_of_rest (ended_not_busy hd.ended)

end Sys2Proof.Machine
end

section
/-! What delivering runs does to DST: CODE, ESC and RLE_DEC (R198, R206 to R209). -/

namespace Sys2Proof.Machine

/-- What is delivered stands in DST from the old write cursor on, and nothing else of it changes (R208). -/
theorem TookNibbles.delivered {s t : State} {rs : List Run} (hform : s.dst.wf = true)
    (h : TookNibbles s t (runNibbles rs)) : Delivered s t rs := by
  obtain ⟨plain, hnib, hpos, hdst, hlpos, hlane, hcnt, -⟩ := h
  refine ⟨plain, hnib, hpos, ?_, fun a ha => ?_, hlpos, hlane, hcnt⟩
  · rw [hdst, ← deXored_length s plain]
    exact readBytes_storeBytes hform s.dpos (deXored s plain)
  · rw [hdst, read_storeBytes hform]
    split
    · rename_i hle
      rw [List.getElem?_eq_none (by rw [deXored_length]; omega), Option.getD_none]
    · rfl

/-- A run that fits is listed and, unless runs only are asked for, expanded (R198, R209). -/
theorem emitRun_result {s : State} {r : Run} (hform : s.dst.wf = true)
    (hfits : s.delivered + Run.count r ≤ s.expectedNibbles) :
    (s.cmd = 0x61#8 → s.emitRun r = s.listed r) ∧
    (s.cmd ≠ 0x61#8 → Delivered s (s.emitRun r) [r] ∧
      s.emitRun r =
        { s.listed r with
          outcnt := (s.emitRun r).outcnt, dst := (s.emitRun r).dst, dpos := (s.emitRun r).dpos,
          lane := (s.emitRun r).lane, lpos := (s.emitRun r).lpos, hold := (s.emitRun r).hold }) := by
  refine ⟨fun hcmd => emitRun_lists hfits (by simp [State.runsOnly, hcmd]), fun hcmd => ?_⟩
  rw [emitRun_expands hfits (by simp [State.runsOnly, hcmd])]
  have htook : TookNibbles s ((s.listed r).expandRun r) (runNibbles [r]) := expandRun_took (s.listed r) r
  have hframe := expandRun_frame (s.listed r) r
  refine ⟨htook.delivered hform, ?_⟩
  generalize (s.listed r).expandRun r = t at *
  rw [hframe]

/-- Settles O22: the bits lead to the run's leaf, and the run is emitted. -/
theorem codeResult : Obligations.CodeResult := by
  intro path r s hroot hleaf hform hfits
  obtain ⟨hlist, hexpand⟩ := emitRun_result (r := r) hform hfits
  have hexec : exec (.code path) s = .next (s.emitRun r) := by
    rw [exec, execCode, hroot, Node.at_nil, followPath_leaf hleaf]
  have hlisted : s.listed r = { s with runs := s.runs ++ [r] } := by rw [State.listed, ← hroot]
  rw [hlisted] at hlist hexpand
  exact ⟨s.emitRun r, hexec, hlist, hexpand⟩

/-- Settles O23: the inline run is emitted. -/
theorem escResult : Obligations.EscResult := fun c n s hform hfits =>
  ⟨s.emitRun (runOf n c), rfl, emitRun_result (r := runOf n c) hform hfits⟩

theorem expandAll_frame (s : State) :
    s.expandAll =
      { s with
        dst := s.expandAll.dst, dpos := s.expandAll.dpos, hold := s.expandAll.hold, outcnt := s.expandAll.outcnt,
        lane := s.expandAll.lane, lpos := s.expandAll.lpos } := by
  unfold State.expandAll
  split
  · exact expandRuns_frame s.runs s
  · rfl

/-- Settles O28: within R209's precondition the runs are expanded one after another, from an empty DST. -/
theorem rleDecResult : Obligations.RleDecResult := by
  intro s
  have hframe := expandAll_frame s.rleStart
  refine ⟨s.rleStart.expandAll.finish, exec_rleDec s, fun hfits => ?_, ?_⟩
  · have hall : s.rleStart.expandAll = s.args.runs.foldl State.expandRun s.rleStart := if_pos hfits
    obtain ⟨plain, hnib, hpos, hdst, hlpos, hlane, hcnt, -⟩ := expandRuns_took s.args.runs s.rleStart
    rw [← hall] at hnib hpos hdst hlpos hlane hcnt
    generalize s.rleStart.expandAll = t at *
    have hlen : t.dpos = plain.length := hpos.trans (Nat.zero_add _)
    have hbytes : t.dst.readBytes 0 t.dpos = deXored s.rleStart plain := by
      rw [hdst, hlen, ← deXored_length s.rleStart plain]
      exact readBytes_storeBytes blank_wf 0 _
    exact ⟨plain, hnib.symm, hbytes, hlen, hcnt.trans (Nat.zero_add _), hlpos.trans (Nat.zero_add _), hlane⟩
  · generalize s.rleStart.expandAll = t at *
    rw [hframe]
    rfl

end Sys2Proof.Machine
end

section
/-! UNPACK_BITS issued alone over the codewords and escapes of a sequence of runs (R198, R199). -/

namespace Sys2Proof.Machine

/-- Bits that stand for a run in a trie: the path to its leaf, or an escape (R86, R87). -/
def SentAs (trie : Node) (e : Run × List Bool) : Prop :=
  (e.2 ≠ [] ∧ trie.at e.2 = .leafRun e.1) ∨
    (trie.at escapePath = .leafEsc ∧ e.2 = encode (.esc e.1.cm1 e.1.nib))

/-- In the bitstream, between two runs, under UNPACK_BITS issued alone. -/
structure Listing (s : State) : Prop where
  busy : s.status = .busy
  phase : s.phase = .bits
  atRoot : s.tcur = []
  only : s.runsOnly = true

/-- The bits of a run are one element, which emits it (R198). -/
theorem elementStep_sent {s : State} {e : Run × List Bool} {rest : List Bool} (h : Listing s)
    (hsent : SentAs s.trie e) (hroom : s.delivered < s.expectedNibbles) (hu : s.reader.unread = e.2 ++ rest) :
    ∃ rd, elementStep s = .next ((s.putReader rd).emitRun e.1) ∧ (s.putReader rd).reader.unread = rest := by
  have hphase : s.phase ≠ .command := by simp [h.phase]
  have hroot : s.trie.at s.tcur = s.trie := by rw [h.atRoot, Node.at_nil]
  rcases hsent with ⟨hne, hleaf⟩ | ⟨hesc, hbits⟩
  · obtain ⟨rd, hd, hu', htook⟩ := decodeBits_code hne hleaf hu
    refine ⟨rd, ?_, (putReader_unread htook).trans hu'⟩
    rw [elementStep_of_decode (i := .code e.2) (rd := rd) hphase
      (by rw [region_bits h.phase hroom, hroot]; exact hd), runElement, execCode]
    simp only [putReader_trie, putReader_tcur, hroot, followPath_leaf hleaf]
  · rw [hbits] at hu
    obtain ⟨rd, hd, hu', htook⟩ := decodeBits_esc hesc hu
    refine ⟨rd, ?_, (putReader_unread htook).trans hu'⟩
    rw [elementStep_of_decode (i := .esc e.1.cm1 e.1.nib) (rd := rd) hphase
      (by rw [region_bits h.phase hroom, hroot]; exact hd), runElement, execEsc, runOf]

/-- The state with runs listed and the cursor where another state's is. -/
def State.listedUpTo (s t : State) (rs : List Run) : State :=
  { s with runs := s.runs ++ rs, sp := t.sp, brCur := t.brCur, brLeft := t.brLeft }

/-- One run read and listed (R198). -/
theorem stepped_sent {s : State} {e : Run × List Bool} {rest : List Bool} (h : Listing s) (hsent : SentAs s.trie e)
    (hfits : s.delivered + Run.count e.1 ≤ s.expectedNibbles) (hu : s.reader.unread = e.2 ++ rest) :
    ∃ t, Stepped s t ∧ t = s.listedUpTo t [e.1] ∧ t.reader.unread = rest := by
  obtain ⟨rd, hstep, hrest⟩ :=
    elementStep_sent h hsent (Nat.lt_of_lt_of_le (Nat.lt_add_of_pos_right (Nat.succ_pos _)) hfits) hu
  rw [emitRun_lists (s := s.putReader rd) hfits h.only] at hstep
  refine ⟨_, ⟨h.busy, hstep⟩, ?_, hrest⟩
  rw [State.listed, putReader_runs, State.listedUpTo, ← h.atRoot]
  rfl

/-- What UNPACK_BITS alone has delivered after listing runs (R198). -/
theorem listedUpTo_delivered {s : State} (h : s.runsOnly = true) (t : State) (rs : List Run) :
    (s.listedUpTo t rs).delivered = s.delivered + nibbleCount rs := by
  rw [delivered_runsOnly h, delivered_runsOnly (s := s.listedUpTo t rs) h, State.listedUpTo, nibbleCount_append]

/-- The runs are read and listed one after another, as long as they fit (R198). -/
theorem reaches_sent {es : List (Run × List Bool)} {s : State} {rest : List Bool} (h : Listing s)
    (hsent : ∀ e ∈ es, SentAs s.trie e) (hfits : s.delivered + nibbleCount (es.map Prod.fst) ≤ s.expectedNibbles)
    (hu : s.reader.unread = es.flatMap Prod.snd ++ rest) :
    ∃ t, Reaches s t ∧ t = s.listedUpTo t (es.map Prod.fst) ∧ t.reader.unread = rest := by
  induction es generalizing s with
  | nil => exact ⟨s, .refl, by simp [State.listedUpTo], by simpa using hu⟩
  | cons e es ih =>
    have hcount : nibbleCount ((e :: es).map Prod.fst) = Run.count e.1 + nibbleCount (es.map Prod.fst) := by
      simp [nibbleCount]
    rw [List.flatMap_cons, List.append_assoc] at hu
    rw [hcount] at hfits
    obtain ⟨t, hstep, ht, hrest⟩ := stepped_sent h (hsent e (by simp)) (by omega) hu
    have hlisting : Listing t := by rw [ht]; exact ⟨h.busy, h.phase, h.atRoot, h.only⟩
    have htrie : t.trie = s.trie := by rw [ht]; rfl
    have hroom : t.delivered + nibbleCount (es.map Prod.fst) ≤ t.expectedNibbles := by
      have hexp : t.expectedNibbles = s.expectedNibbles := by rw [ht]; rfl
      have hone : nibbleCount [e.1] = Run.count e.1 := by simp [nibbleCount]
      rw [hexp, ht, listedUpTo_delivered h.only, hone]
      omega
    obtain ⟨u, hreach, hu', hrest'⟩ := ih hlisting (fun e' he => htrie ▸ hsent e' (by simp [he])) hroom hrest
    refine ⟨u, .head hstep hreach, ?_, hrest'⟩
    rw [hu', ht]
    simp [State.listedUpTo]

/-- With the output complete UNPACK_BITS alone ends (R199). -/
theorem stepped_listed {s : State} (h : Listing s) (hfull : s.expectedNibbles ≤ s.delivered) :
    Stepped s s.finish := by
  have hd : decodeAt s.region (s.trie.at s.tcur) s.reader = .instr (.pad (BitVec.ofNat 3 s.brLeft)) s.reader := by
    rw [region_tail h.phase hfull]
    rfl
  refine ⟨h.busy, ?_⟩
  rw [elementStep_of_decode (by simp [h.phase]) hd, runElement, execPad,
    show s.putReader s.reader = s from rfl, h.only]
  rfl

/-- The state UNPACK_BITS reads its elements from (R198). -/
def State.bitsAlone (s : State) : State := (s.startAll 0x61#8).bitsStart

/-- UNPACK_BITS ends in the state at rest that its elements lead to (R198, R269). -/
theorem exec_unpackBits_reaches {s t : State} (h : Reaches s.bitsAlone t) (ht : t.status ≠ .busy) :
    exec .unpackBits s = .next t := by
  have hfuel : s.bitsAlone.bitsLeft < s.bitsAlone.elementBound := by
    simp only [State.bitsLeft, State.elementBound]
    omega
  obtain ⟨t', hr, hend⟩ := runElements_ends (s := s.bitsAlone) rfl (by simp [State.bitsAlone, State.bitsStart]) hfuel
  exact h.unique ht hr (ended_not_busy hend) ▸ hr

/-- Settles O49, by induction over the runs. -/
theorem unpackBitsResult : Obligations.UnpackBitsResult := by
  intro s es rest hsent hbits hsum
  have hlisting : Listing s.bitsAlone := ⟨rfl, rfl, rfl, rfl⟩
  have hcount : nibbleCount (es.map Prod.fst) = s.bitsAlone.expectedNibbles := by
    rw [nibbleCount, List.map_map]
    exact hsum
  have hnone : s.bitsAlone.delivered = 0 := rfl
  obtain ⟨t, hreach, ht, hrest⟩ := reaches_sent (rest := rest) hlisting hsent (by omega) hbits
  have hdone : Stepped t t.finish := by
    refine stepped_listed (by rw [ht]; exact ⟨rfl, rfl, rfl, rfl⟩) ?_
    rw [ht, listedUpTo_delivered hlisting.only, hnone, hcount, Nat.zero_add]
    rfl
  refine ⟨t.finish, exec_unpackBits_reaches (hreach.tail hdone) (by simp), hrest, ?_⟩
  generalize es.map Prod.fst = rs at *
  rw [ht]
  rfl

end Sys2Proof.Machine
end

section
/-! COST_EST in closed form (R147): a marker for each nibble value in the table, an entry for each codeword, and each run's
bits. -/

namespace Sys2Proof.Machine

/-- How many times the nibble changes along a table, `last` the nibble before it (R147, R173). -/
def markersFrom : (last : Option Nibble) → List Nibble → Nat
  | _, [] => 0
  | last, n :: ns => (if last = some n then 0 else 1) + markersFrom (some n) ns

/-- The table's share: a marker at each new nibble, an entry and the codeword's bits for each coded run (R147). -/
theorem tableCost_eq (freq : RunFile Nat) (last : Option Nibble) (es : List (Run × Codeword)) :
    tableCost freq last es =
      8 * markersFrom last (es.map fun e => e.1.nib) + 16 * es.length +
        (es.map fun e => e.2.len.toNat * fileGet freq e.1).sum := by
  induction es generalizing last with
  | nil => rfl
  | cons e es ih =>
    rw [tableCost, ih]
    simp only [List.map_cons, List.length_cons, List.sum_cons, markersFrom, Config.markerBits, Config.entryBits]
    split <;> omega

theorem length_dedup_cons (n : Nibble) (ns : List Nibble) :
    (n :: ns).dedup.length = (ns.filter fun m => m ≠ n).dedup.length + 1 := by
  rw [← List.card_toFinset, ← List.card_toFinset, List.toFinset_cons, List.toFinset_filter]
  simp only [decide_eq_true_eq]
  rw [Finset.filter_ne', ← Finset.erase_insert_eq_erase, Finset.card_erase_add_one (Finset.mem_insert_self _ _)]

/-- In a table in ascending order the nibble changes once for each value that is new (R172). -/
theorem markersFrom_ascending {ns : List Nibble} {last : Option Nibble}
    (hns : ns.Pairwise fun a b => a.toNat ≤ b.toNat) (hlast : ∀ l ∈ last, ∀ n ∈ ns, l.toNat ≤ n.toNat) :
    markersFrom last ns = (ns.filter fun n => last ≠ some n).dedup.length := by
  induction ns generalizing last with
  | nil => rfl
  | cons n ns ih =>
    obtain ⟨hhead, htail⟩ := List.pairwise_cons.1 hns
    have hrest := ih (last := some n) htail fun l hl m hm => by
      obtain rfl := Option.mem_some_iff.1 hl
      exact hhead m hm
    rw [markersFrom, hrest]
    by_cases hnew : last = some n
    · rw [if_pos hnew, hnew, List.filter_cons_of_neg (by simp), Nat.zero_add]
    · have hkeep : ns.filter (fun m => last ≠ some m) = ns := by
        rw [List.filter_eq_self]
        intro m hm
        rw [decide_eq_true_eq]
        rintro rfl
        have hle := hlast m rfl n (by simp)
        exact hnew (congrArg some (BitVec.eq_of_toNat_eq (Nat.le_antisymm (hhead m hm) hle)).symm)
      rw [if_neg hnew, List.filter_cons_of_pos (by simpa using hnew), hkeep, length_dedup_cons, Nat.add_comm]
      simp [eq_comm]

/-- The entries of a table stand in ascending order of their nibbles (R172). -/
theorem tableEntries_nibbles (f : RunFile (Option Codeword)) :
    ((tableEntries f).map fun e => e.1.nib).Pairwise fun a b => a.toNat ≤ b.toNat := by
  rw [List.pairwise_map]
  refine List.Pairwise.filterMap _ (fun a a' hlt b hb b' hb' => ?_) allRuns_ascending
  obtain ⟨-, -, rfl⟩ := Option.map_eq_some_iff.1 hb
  obtain ⟨-, -, rfl⟩ := Option.map_eq_some_iff.1 hb'
  have hkeys : a.nib.toNat * 8 + a.cm1.toNat < a'.nib.toNat * 8 + a'.cm1.toNat := hlt
  have hcount := a'.cm1.isLt
  show a.nib.toNat ≤ a'.nib.toNat
  omega

/-- The bits a run's occurrences take: its codeword's length or the 13 bits of an escape, each (R147). -/
def runCost (code : RunFile (Option Codeword)) (freq : RunFile Nat) (r : Run) : Nat :=
  (match codeAt code r with | some cw => cw.len.toNat | none => 13) * fileGet freq r

/-- The coded runs' bits and the escaped runs' make up those of all runs (R147). -/
theorem coded_add_escaped (code : RunFile (Option Codeword)) (freq : RunFile Nat) (rs : List Run) :
    ((rs.filterMap fun r => (codeAt code r).map fun cw => (r, cw)).map fun e =>
        e.2.len.toNat * fileGet freq e.1).sum + escapeCost code freq rs = (rs.map (runCost code freq)).sum := by
  induction rs with
  | nil => rfl
  | cons r rs ih =>
    rw [List.map_cons, List.sum_cons, ← ih, escapeCost, runCost]
    cases hc : codeAt code r with
    | some cw =>
      rw [List.filterMap_cons_some (b := (r, cw)) (by rw [hc]; rfl), if_neg (by simp)]
      simp only [List.map_cons, List.sum_cons]
      omega
    | none =>
      rw [List.filterMap_cons_none (by rw [hc]; rfl)]
      simp only [true_and, Config.escBits]
      split <;> omega

/-- The estimate in closed form (R147). -/
theorem costOf_eq (code : RunFile (Option Codeword)) (freq : RunFile Nat) :
    costOf code freq =
      (24 + 16 * (tableEntries code).length + 8 * ((tableEntries code).map fun e => e.1.nib).dedup.length +
        (allRuns.map (runCost code freq)).sum + 7) / 8 * 8 := by
  have hmarkers : markersFrom none ((tableEntries code).map fun e => e.1.nib) =
      ((tableEntries code).map fun e => e.1.nib).dedup.length := by
    rw [markersFrom_ascending (tableEntries_nibbles code) fun l hl => by cases hl]
    simp
  have hruns := coded_add_escaped code freq allRuns
  rw [← tableEntries] at hruns
  rw [costOf, roundup8, tableCost_eq, hmarkers, ← hruns, Config.fixedOverheadBits]
  generalize escapeCost code freq allRuns = escaped
  omega

/-- Settles O39. -/
theorem costEstResult : Obligations.CostEstResult := by
  intro s
  have hcost := costOf_eq s.args.code s.args.freq
  rw [exec, execCostEst, State.estimate, hcost]
  rfl

end Sys2Proof.Machine
end

section
/-! What PACK leaves: the header, the table, the terminator and the padded bits (R171 to R175). -/

namespace Sys2Proof.Machine

/-- The bytes after the table hold the runs' bits, and fewer than 8 zeros complete the last (R65, R175). -/
theorem packBytes_body {x : Bool} {t : BitVec 15} {f : RunFile (Option Codeword)} {rs : List Run} {body : List Byte}
    (h : packBytes x t f rs = (packTable x t f).1.out ++ body) :
    ∃ pad, pad < 8 ∧ byteBits body = rs.flatMap (runBits f) ++ List.replicate pad false := by
  have hok : (packTable x t f).1.Ok := by simp [packTable_out, Sink.Ok]
  have hempty : (packTable x t f).1.bits = byteBits (packTable x t f).1.out := by
    simp [packTable_out, Sink.bits, bitsOf]
  obtain ⟨hbits, hok'⟩ := packRuns_bits hok f rs
  obtain ⟨-, hflush⟩ := Sink.flush_bits hok'
  rw [← packSink, ← packBytes, h, byteBits_append, hbits, hempty, List.append_assoc] at hflush
  exact ⟨_, Nat.mod_lt _ (by decide), List.append_cancel_left hflush⟩

/-- The header's two bytes, the high one first (R51, R171). -/
theorem headerWord_bytes (x : Bool) (t : BitVec 15) :
    (headerWord x t).extractLsb' 8 8 = BitVec.ofNat 8 ((x.toNat * 32768 + t.toNat) / 256) ∧
      (headerWord x t).extractLsb' 0 8 = BitVec.ofNat 8 ((x.toNat * 32768 + t.toNat) % 256) := by
  have hword := headerWord_toNat x t
  constructor
  · apply BitVec.eq_of_toNat_eq
    rw [BitVec.extractLsb'_toNat, BitVec.toNat_ofNat, hword, Nat.shiftRight_eq_div_pow]
  · apply BitVec.eq_of_toNat_eq
    rw [BitVec.extractLsb'_toNat, BitVec.toNat_ofNat, hword, Nat.shiftRight_zero, Nat.mod_mod]

/-- The state PACK issued alone starts from (R40, R100). -/
def State.packStart (s : State) : State :=
  { s.startAll 0x50#8 with
    xflag := s.args.xflag, tiles := s.args.tiles, best := s.args.best, rleSrc := s.args.rleSrc }

theorem exec_pack (s : State) :
    exec .pack s = .next ((s.packStart.afterPack).deliver s.packStart.packed).finish := rfl

/-- What the end of a command shows of bytes put into DST as a whole (R69). -/
theorem deliver_dstBytes (s : State) (bs : List Byte) : (s.deliver bs).finish.dstBytes = bs :=
  readBytes_storeBytes blank_wf 0 bs

/-- Settles O47: PACK's bytes are laid out as R171 to R175 say. -/
theorem packResult : Obligations.PackResult := by
  intro s
  obtain ⟨body, -, hlayout, -⟩ := packBytes_layout s.args.xflag s.args.tiles s.args.best s.args.rleSrc
  obtain ⟨pad, hpad, hbody⟩ := packBytes_body (body := body) (hlayout.trans (by simp [packTable_out]))
  obtain ⟨hhi, hlo⟩ := headerWord_bytes s.args.xflag s.args.tiles
  obtain ⟨hacc, hbits⟩ := packSink_empty s.args.xflag s.args.tiles s.args.best s.args.rleSrc
  have hpacked : s.packStart.packed = packBytes s.args.xflag s.args.tiles s.args.best s.args.rleSrc := rfl
  refine ⟨_, body, pad, exec_pack s, ?_, hbody, hpad, ?_⟩
  · rw [deliver_dstBytes, hpacked, hlayout, hhi, hlo]
    simp
  · rw [deliver_dstBytes]
    have hsink : s.packStart.afterPack =
        { s.packStart with lastNib := s.packStart.afterPack.lastNib, bwAcc := 0#8, bwBits := 0 } := by
      rw [← hacc, ← hbits]
      rfl
    generalize s.packStart.packed = bs
    generalize s.packStart.afterPack = u at *
    rw [hsink]
    rfl

end Sys2Proof.Machine
end

section
/-! What the bit writer is given is what the bit reader reads (R62 to R65). -/

namespace Sys2Proof.Machine

/-- `WriteBits(v, n)` for each `(v, n)` of a list, in order (R64). -/
def Sink.writeAll (k : Sink) (vs : List (Nat × Nat)) : Sink := vs.foldl (fun k w => k.writeBits w.1 w.2) k

/-- The bits of a list of `(value, width)`, in the order they are sent (R52). -/
def fieldBits (vs : List (Nat × Nat)) : List Bool := vs.flatMap fun w => bitsOf w.2 w.1

theorem fieldBits_length (vs : List (Nat × Nat)) : (fieldBits vs).length = (vs.map Prod.snd).sum := by
  simp [fieldBits, List.length_flatMap]

theorem Sink.writeAll_bits {k : Sink} (h : k.Ok) (vs : List (Nat × Nat)) :
    (k.writeAll vs).bits = k.bits ++ fieldBits vs ∧ (k.writeAll vs).Ok := by
  induction vs generalizing k with
  | nil => exact ⟨(List.append_nil _).symm, h⟩
  | cons w vs ih =>
    obtain ⟨hbits, hok⟩ := Sink.writeBits_bits h w.1 w.2
    obtain ⟨hrest, hok'⟩ := ih hok
    refine ⟨?_, hok'⟩
    calc ((k.writeBits w.1 w.2).writeAll vs).bits
        = (k.writeBits w.1 w.2).bits ++ fieldBits vs := hrest
      _ = k.bits ++ (bitsOf w.2 w.1 ++ fieldBits vs) := by rw [hbits, List.append_assoc]
      _ = k.bits ++ fieldBits (w :: vs) := rfl

/-- A reader at the start of a byte sequence has all of its bits before it (R52, R62). -/
theorem unread_start (bs : List Byte) :
    (Reader.mk bs 0#8 0 0).unread = byteBits bs := rfl

/-- Flush ends the byte sequence: what was written to an empty output, and fewer than 8 zero bits (R65). -/
theorem flush_writeBits_writeAll (vs : List (Nat × Nat)) (v n : Nat) :
    (((Sink.start.writeAll vs).writeBits v n).flush).nbits = 0 ∧
      ∃ pad, pad < 8 ∧ byteBits ((Sink.start.writeAll vs).writeBits v n).flush.out =
        fieldBits vs ++ (bitsOf n v ++ List.replicate pad false) := by
  obtain ⟨hall, hok⟩ := Sink.writeAll_bits Sink.start_ok vs
  obtain ⟨hlast, hok'⟩ := Sink.writeBits_bits hok v n
  obtain ⟨hempty, hbytes⟩ := Sink.flush_bits hok'
  have hstart : Sink.start.bits = [] := rfl
  rw [hlast, hall, hstart, List.nil_append, List.append_assoc] at hbytes
  exact ⟨hempty, _, Nat.mod_lt _ (by decide), hbytes⟩

/-- Settles O15: the reader walks the same bit string the writer laid out, first the earlier values, then `v`, then
Flush's zeros. -/
theorem writtenBitsReadBack : Obligations.WrittenBitsReadBack := by
  intro vs v n hv
  obtain ⟨hempty, pad, hpad, hbytes⟩ := flush_writeBits_writeAll vs v n
  obtain ⟨rd, hread, hunread, -⟩ :=
    Reader.readBits_of_unread 0 (fieldBits_length vs) ((unread_start _).trans hbytes)
  obtain ⟨rd', hread', hunread', -⟩ := Reader.readBits_of_unread 0 (bitsOf_length n v) hunread
  refine ⟨_, rfl, hempty, rd, ?_, rd', ?_, ?_, ?_⟩
  · rw [Nat.zero_mul, Nat.zero_add] at hread
    exact hread
  · rw [hread', bitsValue_bitsOf, Nat.mod_eq_of_lt hv, Nat.zero_mul, Nat.zero_add]
  · rw [hunread', List.length_replicate]
    exact Nat.le_of_lt_succ hpad
  · rw [hunread']
    exact fun b hb => List.eq_of_mem_replicate hb

end Sys2Proof.Machine
end

section
/-! What a step does where the decoder answers no element: the end of SRC and a missing child are faults (R60, R197). -/

namespace Sys2Proof.Machine

/-- The end of SRC inside an element raises IoFailure, TCUR left where the walk stood (R60, R202). -/
theorem step_of_short {s : State} {path : List Bool} {rd : Reader} (hb : s.status = .busy) (hp : s.phase ≠ .command)
    (h : decodeAt s.region (s.trie.at s.tcur) s.reader = .short path rd) :
    step s = .next (State.raise { s.putReader rd with tcur := s.tcur ++ path } .ioFailure) := by
  rw [← elementStep_eq_step hb hp, elementStep_eq hp, h]

/-- A bit that selects no child raises InvalidCode, TCUR left where the bit was read (R197). -/
theorem step_of_noChild {s : State} {path : List Bool} {rd : Reader} (hb : s.status = .busy)
    (hp : s.phase ≠ .command) (h : decodeAt s.region (s.trie.at s.tcur) s.reader = .noChild path rd) :
    step s = .next (State.raise { s.putReader rd with tcur := s.tcur ++ path.dropLast } .invalidCode) := by
  rw [← elementStep_eq_step hb hp, elementStep_eq hp, h]

/-- What R236 and R204 leave of the command that raised a fault. -/
theorem raise_discards (s : State) (k : Err) :
    (s.raise k).status = .fault ∧ (s.raise k).err = k ∧ (s.raise k).dlen = 0 ∧ (s.raise k).xsel = false ∧
      (s.raise k).dst = Memory.blank ∧ (s.raise k).runs = [] :=
  ⟨rfl, rfl, rfl, rfl, rfl, rfl⟩

/-- Settles O6: each answer of the decoder leads to the state its fault leaves. -/
theorem streamErrorsRaise : Obligations.StreamErrorsRaise := by
  intro s hb hp
  constructor
  · intro path rd hshort
    exact ⟨_, step_of_short hb hp hshort, raise_discards _ .ioFailure⟩
  · intro path rd hchild
    exact ⟨_, step_of_noChild hb hp hchild, raise_discards _ .invalidCode⟩

end Sys2Proof.Machine
end

section
/-! The host's moves on SRC, ARG_LEN and the arguments: no move while BUSY, else what it writes (R71, U9). -/

namespace Sys2Proof.Machine

theorem hostWriteArgLen_eq (s : State) (n : Nat) :
    s.hostWriteArgLen n =
      if s.status = .busy then .fault .hostWriteWhileBusy else .next { s with argLen := n } := by
  rw [State.hostWriteArgLen]
  cases s.status <;> rfl

theorem hostWriteSrc_eq (s : State) (a : Nat) (bs : List Byte) :
    s.hostWriteSrc a bs =
      if s.status = .busy then .fault .hostWriteWhileBusy else .next { s with src := s.src.storeBytes a bs } := by
  rw [State.hostWriteSrc]
  cases s.status <;> rfl

theorem hostWriteArgs_eq (s : State) (u : UnitArgs) :
    s.hostWriteArgs u =
      if s.status = .busy then .fault .hostWriteWhileBusy else .next { s with args := u } := by
  rw [State.hostWriteArgs]
  cases s.status <;> rfl

/-- A stored sequence leaves every address outside it as it was. -/
theorem read_storeBytes_outside {m : Memory} (h : m.wf = true) {a x : Nat} {bs : List Byte}
    (hx : x < a ∨ a + bs.length ≤ x) : (m.storeBytes a bs).read x = m.read x := by
  rw [read_storeBytes h]
  rcases hx with hbelow | habove
  · rw [if_neg (by omega)]
  · rw [if_pos (by omega), List.getElem?_eq_none (by omega), Option.getD_none]

/-- Settles O4: each move by its equation, SRC by the laws of a stored sequence. -/
theorem hostInputMoves : Obligations.HostInputMoves := by
  intro s a n bs u
  rw [hostWriteSrc_eq, hostWriteArgLen_eq, hostWriteArgs_eq]
  constructor
  · intro hb
    simp only [if_pos hb, and_self]
  · intro hrest
    simp only [if_neg hrest]
    refine ⟨trivial, trivial, _, rfl, rfl, fun hwf => ?_⟩
    exact ⟨storeBytes_wf hwf a bs, readBytes_storeBytes hwf a bs, fun x hx => read_storeBytes_outside hwf hx⟩

end Sys2Proof.Machine
end

section
/-! What the readers take is what they answer, bit for bit, and the other way round (R51, R52, R60, R63). -/

namespace Sys2Proof.Machine

/-! ## The fields of a byte and of the header's word -/

/-- The bits of a marker or of an entry's first byte, field by field (R83, R84). -/
theorem bitsOf_byte (b : Byte) :
    bitsOf 8 b.toNat =
      b.getLsbD 7 :: (bitsOf 3 (b.extractLsb' 4 3).toNat ++ bitsOf 4 (b.extractLsb' 0 4).toNat) := by
  have hmid : bitsOf 3 (b.toNat / 2 ^ 4) = bitsOf 3 (b.extractLsb' 4 3).toNat :=
    bitsOf_congr (by rw [BitVec.extractLsb'_toNat, Nat.shiftRight_eq_div_pow, Nat.mod_mod])
  have hlow : bitsOf 4 b.toNat = bitsOf 4 (b.extractLsb' 0 4).toNat :=
    bitsOf_congr (by rw [BitVec.extractLsb'_toNat, Nat.shiftRight_zero, Nat.mod_mod])
  calc bitsOf 8 b.toNat
      = b.getLsbD 7 :: bitsOf (3 + 4) b.toNat := rfl
    _ = _ := by rw [bitsOf_add, hmid, hlow]

/-- Every top bit, count field and low nibble are those of a byte. -/
theorem exists_byte_of_fields (x : Bool) (c : BitVec 3) (n : Nibble) :
    ∃ b : Byte, b.getLsbD 7 = x ∧ b.extractLsb' 4 3 = c ∧ b.extractLsb' 0 4 = n := by
  refine ⟨BitVec.ofBool x ++ c ++ n, ?_⟩
  revert x c n
  decide +kernel

/-- The bits of the header's word: the flag, then the tile count (R82). -/
theorem bitsOf_word (w : BitVec 16) :
    bitsOf 16 w.toNat = w.getLsbD 15 :: bitsOf 15 (w.setWidth 15).toNat := by
  have hlow : bitsOf 15 w.toNat = bitsOf 15 (w.setWidth 15).toNat :=
    bitsOf_congr (by rw [BitVec.toNat_setWidth, Nat.mod_mod])
  rw [← hlow]
  rfl

/-- A big-endian word is its high byte's bits, then its low byte's (R51, R52). -/
theorem bitsOf_append (hi lo : Byte) : bitsOf 16 (hi ++ lo).toNat = bitsOf 8 hi.toNat ++ bitsOf 8 lo.toNat := by
  have hword : (hi ++ lo).toNat = hi.toNat * 2 ^ 8 + lo.toNat := by
    rw [BitVec.toNat_append, ← Nat.shiftLeft_add_eq_or_of_lt lo.isLt, Nat.shiftLeft_eq]
  have hlo := lo.isLt
  rw [hword, bitsOf_add 8 8]
  congr 1
  · exact congrArg (bitsOf 8) (by omega)
  · exact bitsOf_congr (by omega)

/-- Every flag and tile count are the header's fields of some two bytes (R82, R171). -/
theorem exists_word_of_fields (x : Bool) (t : BitVec 15) :
    ∃ hi lo : Byte, (hi ++ lo).getLsbD 15 = x ∧ (hi ++ lo).setWidth 15 = t :=
  ⟨_, _, headerWord_fields x t⟩

theorem bitsOf_byte_injective {a b : Byte} (h : bitsOf 8 a.toNat = bitsOf 8 b.toNat) : a = b :=
  BitVec.eq_of_toNat_eq (bitsOf_eq_of_lt a.isLt b.isLt h)

/-! ## Reading bytes -/

/-- `Read1` with no bit pending takes a byte's bits (R60). -/
theorem read1_unread {rd rd' : Reader} {b : Byte} (hn : rd.nleft = 0) (h : rd.read1 = some (b, rd')) :
    rd.unread = bitsOf 8 b.toNat ++ rd'.unread ∧ rd'.nleft = 0 := by
  refine ⟨?_, (read1_nleft h).trans hn⟩
  obtain ⟨bytes, cur, nleft, taken⟩ := rd
  cases hn
  cases bytes with
  | nil => cases h
  | cons c cs =>
    cases h
    exact Reader.unread_cons

/-- A byte's bits, with none pending, are what `Read1` answers (R60). -/
theorem read1_of_unread {rd : Reader} {b : Byte} {rest : List Bool} (hn : rd.nleft = 0)
    (hu : rd.unread = bitsOf 8 b.toNat ++ rest) :
    ∃ rd', rd.read1 = some (b, rd') ∧ rd'.unread = rest ∧ rd'.nleft = 0 := by
  cases h : rd.read1 with
  | none =>
    have hnone : rd.readBit = none := by simp only [Reader.readBit, hn, h]
    rw [Reader.readBit_none.1 hnone] at hu
    cases hu
  | some p =>
    obtain ⟨b', rd'⟩ := p
    obtain ⟨hu', hn'⟩ := read1_unread hn h
    obtain ⟨hbits, hrest⟩ := List.append_inj (hu'.symm.trans hu) (by rw [bitsOf_length, bitsOf_length])
    exact ⟨rd', by rw [bitsOf_byte_injective hbits], hrest, hn'⟩

/-- `Read2BE` with no bit pending takes a word's bits (R60). -/
theorem read2BE_unread {rd rd' : Reader} {w : BitVec 16} (hn : rd.nleft = 0) (h : rd.read2BE = some (w, rd')) :
    rd.unread = bitsOf 16 w.toNat ++ rd'.unread := by
  unfold Reader.read2BE at h
  split at h
  · cases h
  · rename_i hi rd1 h1
    split at h
    · cases h
    · rename_i lo rd2 h2
      cases h
      obtain ⟨hu1, hn1⟩ := read1_unread hn h1
      rw [hu1, (read1_unread hn1 h2).1, bitsOf_append, List.append_assoc]

/-- A word's bits, with none pending, are what `Read2BE` answers (R60). -/
theorem read2BE_of_unread {rd : Reader} {hi lo : Byte} {rest : List Bool} (hn : rd.nleft = 0)
    (hu : rd.unread = bitsOf 16 (hi ++ lo).toNat ++ rest) :
    ∃ rd', rd.read2BE = some (hi ++ lo, rd') ∧ rd'.unread = rest := by
  rw [bitsOf_append, List.append_assoc] at hu
  obtain ⟨rd1, h1, hu1, hn1⟩ := read1_of_unread hn hu
  obtain ⟨rd2, h2, hu2, -⟩ := read1_of_unread hn1 hu1
  exact ⟨rd2, by simp only [Reader.read2BE, h1, h2], hu2⟩

/-! ## Reading bits -/

/-- `ReadBits(n)` takes `n` bits and answers their number after the value so far (R63). -/
theorem readBits_unread {n v w : Nat} {rd rd' : Reader} (h : Reader.readBits n v rd = some (w, rd')) :
    ∃ xs : List Bool, xs.length = n ∧ rd.unread = xs ++ rd'.unread ∧ w = v * 2 ^ n + bitsValue xs := by
  induction n generalizing v rd with
  | zero =>
    cases h
    exact ⟨[], rfl, rfl, by simp [bitsValue]⟩
  | succ n ih =>
    rw [Reader.readBits] at h
    split at h
    · cases h
    · rename_i b rd1 h1
      obtain ⟨xs, hlen, hu, hw⟩ := ih h
      refine ⟨b :: xs, by rw [List.length_cons, hlen], by rw [(Reader.readBit_some h1).1, hu, List.cons_append], ?_⟩
      rw [hw, bitsValue_cons, hlen, Nat.pow_succ]
      ring

/-- A field read by `ReadBits` is sent as the bits it was read from (R63, R64). -/
theorem bitsOf_ofNat_bitsValue {n : Nat} {xs : List Bool} (h : xs.length = n) :
    bitsOf n (BitVec.ofNat n (0 * 2 ^ n + bitsValue xs)).toNat = xs := by
  subst h
  calc bitsOf xs.length (BitVec.ofNat xs.length (0 * 2 ^ xs.length + bitsValue xs)).toNat
      = bitsOf xs.length (bitsValue xs) :=
        bitsOf_congr (by rw [BitVec.toNat_ofNat, Nat.mod_mod, Nat.zero_mul, Nat.zero_add])
    _ = xs := bitsOf_bitsValue xs

end Sys2Proof.Machine
end

section
/-! What the decoder takes from SRC is the encoding of what it answers (R82 to R90, R100). -/

namespace Sys2Proof.Machine

/-- The two bytes of a TENT, field by field (R84). -/
theorem encode_tent (b k : Byte) :
    encode (.tent (b.getLsbD 7) (b.extractLsb' 4 3) (b.extractLsb' 0 4) k) = bitsOf 8 b.toNat ++ bitsOf 8 k.toNat := by
  rw [bitsOf_byte b, encode, List.cons_append]

/-- The byte of a marker, field by field (R83). -/
theorem encode_tnib {b : Byte} (htop : b.getLsbD 7 = true) :
    encode (.tnib (b.extractLsb' 4 3) (b.extractLsb' 0 4)) = bitsOf 8 b.toNat := by
  rw [bitsOf_byte b, htop, encode]

/-- A command is sent as the code it is recognised by (R100). -/
theorem encode_of_decodeCommand {code : Byte} {i : Instr} (h : decodeCommand code = some i) :
    encode i = bitsOf 8 code.toNat := by
  have hall : ∀ c : Byte, ∀ i ∈ decodeCommand c, encode i = bitsOf 8 c.toNat := by decide +kernel
  exact hall code i h

theorem decodeHeader_unread {rd rd' : Reader} {i : Instr} (hn : rd.nleft = 0) (h : decodeHeader rd = .instr i rd') :
    rd.unread = encode i ++ rd'.unread := by
  unfold decodeHeader at h
  split at h
  · cases h
  · rename_i w rd1 h1
    cases h
    rw [read2BE_unread hn h1, bitsOf_word, encode]

theorem decodeEntryFrom_unread {b : Byte} {rd rd' : Reader} {i : Instr} (hn : rd.nleft = 0)
    (h : decodeEntryFrom b rd = .instr i rd') : bitsOf 8 b.toNat ++ rd.unread = encode i ++ rd'.unread := by
  unfold decodeEntryFrom at h
  split at h
  · cases h
  · rename_i k rd1 h1
    cases h
    rw [(read1_unread hn h1).1, encode_tent, List.append_assoc]

theorem decodeEntry_unread {rd rd' : Reader} {i : Instr} (hn : rd.nleft = 0) (h : decodeEntry rd = .instr i rd') :
    rd.unread = encode i ++ rd'.unread := by
  unfold decodeEntry at h
  split at h
  · cases h
  · rename_i b rd1 h1
    obtain ⟨hu1, hn1⟩ := read1_unread hn h1
    exact hu1.trans (decodeEntryFrom_unread hn1 h)

theorem decodeTable_unread {rd rd' : Reader} {i : Instr} (hn : rd.nleft = 0) (h : decodeTable rd = .instr i rd') :
    rd.unread = encode i ++ rd'.unread := by
  unfold decodeTable at h
  split at h
  · cases h
  · rename_i b rd1 h1
    obtain ⟨hu1, hn1⟩ := read1_unread hn h1
    split at h
    · rename_i hend
      cases h
      rw [hu1, hend]
      rfl
    · split at h
      · rename_i htop
        cases h
        rw [hu1, encode_tnib htop]
      · exact hu1.trans (decodeEntryFrom_unread hn1 h)

theorem decodeEscFields_unread {rd rd' : Reader} {i : Instr} (h : decodeEscFields escapePath rd = .instr i rd') :
    escapePath ++ rd.unread = encode i ++ rd'.unread := by
  unfold decodeEscFields at h
  split at h
  · cases h
  · rename_i c rd1 h1
    split at h
    · cases h
    · rename_i n rd2 h2
      cases h
      obtain ⟨xs, hxs, hu1, rfl⟩ := readBits_unread h1
      obtain ⟨ys, hys, hu2, rfl⟩ := readBits_unread h2
      rw [encode, bitsOf_ofNat_bitsValue hxs, bitsOf_ofNat_bitsValue hys, hu1, hu2, List.append_assoc, List.append_assoc]
      rfl

/-- The walk takes the bits of the element it answers, `path` those it has taken before: a codeword's are the path
itself, an escape's are 111111, where alone an escape leaf stands, and the fields (R90, R193). -/
theorem walk_unread {node : Node} {path : List Bool} {rd rd' : Reader} {i : Instr}
    (hesc : ∀ p, node.at p = .leafEsc → path ++ p = escapePath) (h : walk node path rd = .instr i rd') :
    path ++ rd.unread = encode i ++ rd'.unread := by
  induction node generalizing path rd with
  | absent => cases h
  | leafRun r => cases h; rfl
  | leafEsc =>
    have hpath : path = escapePath := (List.append_nil path).symm.trans (hesc [] rfl)
    subst hpath
    exact decodeEscFields_unread h
  | inner clear set ihc ihs =>
    rw [walk] at h
    split at h
    · cases h
    · rename_i b rd1 h1
      rw [(Reader.readBit_some h1).1, List.append_cons]
      have hesc' : ∀ p, ((Node.inner clear set).child b).at p = .leafEsc → path ++ [b] ++ p = escapePath := by
        intro p hp
        rw [← List.append_cons]
        exact hesc (b :: p) (by rw [Node.at_cons]; exact hp)
      cases b with
      | true => exact ihs hesc' h
      | false => exact ihc hesc' h

theorem decodeBits_unread {node : Node} {rd rd' : Reader} {i : Instr}
    (hesc : ∀ p, node.at p = .leafEsc → p = escapePath) (h : decodeBits node rd = .instr i rd') :
    rd.unread = encode i ++ rd'.unread := by
  unfold decodeBits at h
  split at h
  · cases h
  · rename_i b rd1 h1
    rw [(Reader.readBit_some h1).1]
    exact walk_unread (path := [b]) (fun p hp => hesc (b :: p) (by rw [Node.at_cons]; exact hp)) h

theorem decodeAt_command_unread {node : Node} {rd rd' : Reader} {i : Instr} (hn : rd.nleft = 0)
    (h : decodeAt .command node rd = .instr i rd') : rd.unread = encode i ++ rd'.unread := by
  simp only [decodeAt] at h
  split at h
  · cases h
  · rename_i code rd1 h1
    split at h
    · cases h
    · rename_i hcode
      cases h
      rw [(read1_unread hn h1).1, encode_of_decodeCommand hcode]

/-- Settles O14, position by position: a command and the byte elements by their fields, the bitstream by the walk. -/
theorem decodedBitsAreTheEncoding : Obligations.DecodedBitsAreTheEncoding := by
  intro r node rd rd' i htail _ hbyte hesc h
  cases r with
  | command => exact decodeAt_command_unread (hbyte (by decide)) h
  | header => exact decodeHeader_unread (hbyte (by decide)) h
  | table => exact decodeTable_unread (hbyte (by decide)) h
  | entry => exact decodeEntry_unread (hbyte (by decide)) h
  | bits => exact decodeBits_unread hesc h
  | tail => exact absurd rfl htail

end Sys2Proof.Machine
end

section
/-! Decode of encode is the instruction, at its own position (R82 to R90, R100). -/

namespace Sys2Proof.Machine

/-- The decoder answers `i` at its own position and leaves `rest` unread. -/
def ReadsBack (node : Node) (rd : Reader) (i : Instr) (rest : List Bool) : Prop :=
  ∃ rd', decodeAt (regionOf i) node rd = .instr i rd' ∧ rd'.unread = rest

/-- Every command has a code (R100). -/
theorem exists_code_of_command {i : Instr} (h : regionOf i = .command) : ∃ code, decodeCommand code = some i := by
  cases i with
  | encode => exact ⟨0x01#8, rfl⟩
  | decode => exact ⟨0x02#8, rfl⟩
  | encodeOne => exact ⟨0x03#8, rfl⟩
  | rleEnc => exact ⟨0x10#8, rfl⟩
  | pmSolve => exact ⟨0x20#8, rfl⟩
  | canonGen => exact ⟨0x30#8, rfl⟩
  | costEst => exact ⟨0x31#8, rfl⟩
  | trialSearch => exact ⟨0x32#8, rfl⟩
  | xorEnc => exact ⟨0x40#8, rfl⟩
  | xorDec => exact ⟨0x41#8, rfl⟩
  | pack => exact ⟨0x50#8, rfl⟩
  | unpackTable => exact ⟨0x60#8, rfl⟩
  | unpackBits => exact ⟨0x61#8, rfl⟩
  | rleDec => exact ⟨0x70#8, rfl⟩
  | tent b c l k => cases b <;> cases h
  | _ => cases h

section
variable {node : Node} {rd : Reader} {rest : List Bool} (hn : rd.nleft = 0)
include hn

/-- A code of R100 reads back as its command. -/
theorem readsBack_command {i : Instr} {code : Byte} (hcode : decodeCommand code = some i)
    (hu : rd.unread = encode i ++ rest) : ReadsBack node rd i rest := by
  rw [encode_of_decodeCommand hcode] at hu
  obtain ⟨rd', h, hu', -⟩ := read1_of_unread hn hu
  exact ⟨rd', by simp only [decodeCommand_region hcode, decodeAt, h, hcode], hu'⟩

theorem readsBack_hdr {x : Bool} {t : BitVec 15} (hu : rd.unread = encode (.hdr x t) ++ rest) :
    ReadsBack node rd (.hdr x t) rest := by
  obtain ⟨hi, lo, rfl, rfl⟩ := exists_word_of_fields x t
  rw [encode, ← bitsOf_word] at hu
  obtain ⟨rd', h, hu'⟩ := read2BE_of_unread hn hu
  exact ⟨rd', by simp only [regionOf, decodeAt, decodeHeader, h], hu'⟩

/-- A marker reads back: the one byte with its top bit set that is none is TEND's, which is not well formed (R83, R89). -/
theorem readsBack_tnib {z : BitVec 3} {n : Nibble} (hwf : (Instr.tnib z n).wellFormed = true)
    (hu : rd.unread = encode (.tnib z n) ++ rest) : ReadsBack node rd (.tnib z n) rest := by
  obtain ⟨b, htop, rfl, rfl⟩ := exists_byte_of_fields true z n
  have hend : b ≠ Config.terminator := by
    rintro rfl
    exact absurd hwf (by decide)
  rw [encode_tnib htop] at hu
  obtain ⟨rd', h, hu', -⟩ := read1_of_unread hn hu
  exact ⟨rd', by simp only [regionOf, decodeAt, decodeTable, h, if_neg hend, if_pos htop], hu'⟩

theorem readsBack_tend (hu : rd.unread = encode .tend ++ rest) : ReadsBack node rd .tend rest := by
  obtain ⟨rd', h, hu', -⟩ := read1_of_unread (b := Config.terminator) hn hu
  exact ⟨rd', by simp only [regionOf, decodeAt, decodeTable, h, if_true], hu'⟩

/-- A TENT with its top bit clear reads back as a byte of the table, one with its top bit set after a marker (R84, R89). -/
theorem readsBack_tent {x : Bool} {c : BitVec 3} {l : BitVec 4} {k : Byte}
    (hu : rd.unread = encode (.tent x c l k) ++ rest) : ReadsBack node rd (.tent x c l k) rest := by
  obtain ⟨b, rfl, rfl, rfl⟩ := exists_byte_of_fields x c l
  rw [encode_tent, List.append_assoc] at hu
  obtain ⟨rd1, h1, hu1, hn1⟩ := read1_of_unread hn hu
  obtain ⟨rd2, h2, hu2, -⟩ := read1_of_unread hn1 hu1
  refine ⟨rd2, ?_, hu2⟩
  cases htop : b.getLsbD 7 with
  | true => simp only [regionOf, if_true, decodeAt, decodeEntry, h1, decodeEntryFrom, h2, htop]
  | false =>
    have hend : b ≠ Config.terminator := by
      rintro rfl
      exact absurd htop (by decide)
    simp only [regionOf, decodeAt, decodeTable, h1, if_neg hend, htop, Bool.false_eq_true, if_false, decodeEntryFrom, h2]

end

theorem readsBack_code {node : Node} {rd : Reader} {path rest : List Bool} {r : Run}
    (hwf : (Instr.code path).wellFormed = true) (hleaf : node.at path = .leafRun r)
    (hu : rd.unread = encode (.code path) ++ rest) : ReadsBack node rd (.code path) rest := by
  have hne : path ≠ [] := by
    rintro rfl
    exact absurd hwf (by decide)
  obtain ⟨rd', h, hu', -⟩ := decodeBits_code hne hleaf hu
  exact ⟨rd', h, hu'⟩

theorem readsBack_esc {node : Node} {rd : Reader} {c : BitVec 3} {n : Nibble} {rest : List Bool}
    (hleaf : node.at escapePath = .leafEsc) (hu : rd.unread = encode (.esc c n) ++ rest) :
    ReadsBack node rd (.esc c n) rest := by
  obtain ⟨rd', h, hu', -⟩ := decodeBits_esc hleaf hu
  exact ⟨rd', h, hu'⟩

/-- PAD's bits are not read: they are what is left of the byte (R88, R199). -/
theorem readsBack_pad {node : Node} {rd : Reader} {n : BitVec 3} (h : rd.nleft = n.toNat) :
    ReadsBack node rd (.pad n) rd.unread :=
  ⟨rd, by simp only [regionOf, decodeAt, h, BitVec.ofNat_toNat, BitVec.setWidth_eq], rfl⟩

/-- Settles O13: a command by its code, an element by its constructor. -/
theorem decodeEncodeAgree : Obligations.DecodeEncodeAgree := by
  intro i node rd rest hwf _ hu hbyte hcode hesc hpad
  by_cases hcommand : regionOf i = .command
  · obtain ⟨code, hdecode⟩ := exists_code_of_command hcommand
    have hplace : regionOf i ≠ .bits ∧ regionOf i ≠ .tail := by simp [hcommand]
    rw [if_neg hplace.2]
    exact readsBack_command (hbyte hplace.1 hplace.2) hdecode hu
  · cases i with
    | hdr x t => exact readsBack_hdr (hbyte (by simp [regionOf]) (by simp [regionOf])) hu
    | tnib z n => exact readsBack_tnib (hbyte (by simp [regionOf]) (by simp [regionOf])) hwf hu
    | tent x c l k =>
      have hplace : regionOf (.tent x c l k) ≠ .bits ∧ regionOf (.tent x c l k) ≠ .tail := by
        cases x <;> simp [regionOf]
      rw [if_neg hplace.2]
      exact readsBack_tent (hbyte hplace.1 hplace.2) hu
    | tend => exact readsBack_tend (hbyte (by decide) (by decide)) hu
    | code path =>
      obtain ⟨r, hleaf⟩ := hcode path rfl
      exact readsBack_code hwf hleaf hu
    | esc c n => exact readsBack_esc (hesc c n rfl) hu
    | pad n => exact readsBack_pad (hpad n rfl)
    | _ => exact absurd rfl hcommand

end Sys2Proof.Machine
end

section
/-! What a step runs: the command in CMD, or the element at the cursor (R27, R30, R89); and a code that is none (R239). -/

namespace Sys2Proof.Machine

/-! ## The command in CMD -/

/-- With the phase at the command the fetch decodes the byte in CMD and moves no cursor (R30, R239). -/
theorem fetch_command {s : State} (hp : s.phase = .command) :
    s.fetch =
      match decodeCommand s.cmd with
      | none => .raised s.refuse
      | some i => .instr i s := by
  have hregion : s.region = .command := (region_of_not_bits (by simp [hp])).trans hp
  rw [State.fetch, hregion, State.fetchReader, if_pos hp]
  simp only [decodeAt, Reader.read1]
  cases decodeCommand s.cmd with
  | none => rfl
  | some i => simp only [State.afterFetch, if_pos hp]

theorem step_of_command {s : State} {i : Instr} (hb : s.status = .busy) (hp : s.phase = .command)
    (h : decodeCommand s.cmd = some i) : step s = exec i s := by
  rw [step_busy hb, fetch_command hp, h]

/-- A code that is none of R100's is refused (R239). -/
theorem step_of_unknown {s : State} (hb : s.status = .busy) (hp : s.phase = .command)
    (h : decodeCommand s.cmd = none) : step s = .next s.refuse := by
  rw [step_busy hb, fetch_command hp, h]

/-- The fourteen codes of R100. -/
theorem decodeCommand_eq_none_iff (c : Byte) :
    decodeCommand c = none ↔
      c.toNat ∉ [0x01, 0x02, 0x03, 0x10, 0x20, 0x30, 0x31, 0x32, 0x40, 0x41, 0x50, 0x60, 0x61, 0x70] := by
  revert c
  decide +kernel

/-- Settles O3: the start of the command is all a refused one leaves (R40). -/
theorem unknownCommandRefused : Obligations.UnknownCommandRefused := by
  refine ⟨decodeCommand_eq_none_iff, fun s c hrest hc => ?_⟩
  obtain ⟨-, hstart, -⟩ := cmdWriteStartsOrIsIgnored s c
  rw [hstart hrest, step_of_unknown (startAll_status s c) (startAll_phase s c) hc]
  rfl

/-! ## The element at the cursor -/

/-- In a stream a step gives the element its meaning, the cursor moved past it (R27, R89, R90). -/
theorem step_of_element {s : State} {i : Instr} {rd : Reader} (hb : s.status = .busy) (hp : s.phase ≠ .command)
    (h : decodeAt s.region (s.trie.at s.tcur) s.reader = .instr i rd) : step s = exec i (s.putReader rd) := by
  rw [step_busy hb, State.fetch, State.fetchReader, if_neg hp, h]
  simp only [State.afterFetch, if_neg hp]

/-- Settles O5: the command in CMD, the element at the cursor. -/
theorem stepRunsDecodedInstruction : Obligations.StepRunsDecodedInstruction :=
  ⟨fun _ _ hb hp h => step_of_command hb hp h, fun _ _ _ hb hp h => step_of_element hb hp h⟩

/-! ## The table -/

/-- With a byte of SRC at the cursor the reader has it before it (R27). -/
theorem reader_bytes_cons {s : State} (h : s.sp < s.argLen) :
    s.reader.bytes = s.src.read s.sp :: s.src.readBytes (s.sp + 1) (s.argLen - (s.sp + 1)) := by
  have hlen : s.argLen - s.sp = s.argLen - (s.sp + 1) + 1 := by omega
  rw [State.reader, hlen]
  rfl

/-- The places of the table where a byte begins an entry: a byte with its top bit clear, or any byte after a marker (R89). -/
def State.AtEntry (s : State) (b : Byte) : Prop := (s.phase = .table ∧ b.getLsbD 7 = false) ∨ s.phase = .entry

/-- At an entry the decoder reads on from its first byte (R89). -/
theorem decodeAt_entry {s : State} {b : Byte} {rest : List Byte} (hp : s.AtEntry b) (hbytes : s.reader.bytes = b :: rest)
    (node : Node) :
    decodeAt s.region node s.reader =
      decodeEntryFrom b { bytes := rest, cur := s.brCur, nleft := s.brLeft, taken := 1 } := by
  rw [reader_of_bytes hbytes]
  rcases hp with ⟨hp, htop⟩ | hp
  · have hend : b ≠ Config.terminator := by
      rintro rfl
      exact absurd htop (by decide)
    rw [region_of_not_bits (by simp [hp]), hp]
    simp only [decodeAt, decodeTable, Reader.read1, if_neg hend, htop, Bool.false_eq_true, if_false]
  · rw [region_of_not_bits (by simp [hp]), hp]
    rfl

theorem State.AtEntry.not_command {s : State} {b : Byte} (h : s.AtEntry b) : s.phase ≠ .command := by
  rcases h with ⟨h, -⟩ | h <;> simp [h]

/-- The two bytes of an entry are a TENT, whatever its top bit after a marker (R84, R89). -/
theorem step_tent {s : State} {b k : Byte} {rest : List Byte} (hb : s.status = .busy) (hp : s.AtEntry b)
    (hbytes : s.reader.bytes = b :: k :: rest) :
    step s = exec (.tent (b.getLsbD 7) (b.extractLsb' 4 3) (b.extractLsb' 0 4) k) { s with sp := s.sp + 2 } :=
  step_of_element (rd := { bytes := rest, cur := s.brCur, nleft := s.brLeft, taken := 2 }) hb hp.not_command
    (decodeAt_entry hp hbytes _)

/-- An entry cut off after its first byte is an IoFailure (R60, R187). -/
theorem step_tent_short {s : State} {b : Byte} (hb : s.status = .busy) (hp : s.AtEntry b) (hbytes : s.reader.bytes = [b]) :
    ∃ t, step s = .next t ∧ t.status = .fault ∧ t.err = .ioFailure :=
  ⟨_, step_of_short hb hp.not_command (decodeAt_entry hp hbytes _), rfl, rfl⟩

/-- Settles O18: the terminator, a marker, an entry. -/
theorem tableDispatch : Obligations.TableDispatch := by
  intro s b hb hsp hread
  have hbytes := reader_bytes_cons hsp
  rw [hread] at hbytes
  refine ⟨fun hp hend => ?_, fun hp hend htop => ?_, fun hp => ⟨fun hmore => ?_, fun hlast => ?_⟩⟩
  · rw [← elementStep_eq_step hb (by simp [hp]), elementStep_tend hp (hend ▸ hbytes)]
    rfl
  · rw [← elementStep_eq_step hb (by simp [hp]), elementStep_tnib hp hbytes hend htop]
  · have hlen : s.argLen - (s.sp + 1) = s.argLen - (s.sp + 2) + 1 := by omega
    rw [hlen] at hbytes
    exact step_tent hb hp hbytes
  · rw [Nat.sub_eq_zero_of_le hlast] at hbytes
    exact step_tent_short hb hp hbytes

end Sys2Proof.Machine
end

section
/-! Single elements: TNIB, PAD, and a CODE whose bits lead to no leaf (R83, R88, R197); and words of the opcode table. -/

namespace Sys2Proof.Machine

/-- Settles O17: bits 6 to 4 are not looked at (D19). -/
theorem tnibResult : Obligations.TnibResult := fun _ _ _ => rfl

/-- Settles O12: each word at the place the model reads it at (assumption 4). -/
theorem specWordsDecode : Obligations.SpecWordsDecode := by
  unfold Obligations.SpecWordsDecode
  decide

/-! ## PAD -/

/-- PAD ends the command, its bits unread (R88, R199, R220). -/
theorem exec_pad (n : BitVec 3) (s : State) :
    exec (.pad n) s = .next
      { s with
        xsel := if s.cmd = 0x61#8 then s.xsel else s.xflag, status := .done, dlen := s.dpos, phase := .command } := by
  have hxsel : (if s.runsOnly then s.xsel else s.xflag) = if s.cmd = 0x61#8 then s.xsel else s.xflag := by
    simp only [State.runsOnly, beq_iff_eq]
  rw [← hxsel]
  rfl

/-- Settles O26: with the output complete the decoder answers PAD and takes no bit (R199). -/
theorem padEndsCommand : Obligations.PadEndsCommand := by
  refine ⟨exec_pad, fun s hb hp hfull => ?_⟩
  have hdecode : decodeAt s.region (s.trie.at s.tcur) s.reader = .instr (.pad (BitVec.ofNat 3 s.brLeft)) s.reader := by
    rw [region_tail hp hfull]
    rfl
  rw [step_of_element hb (by simp [hp]) hdecode]
  exact exec_pad _ s

/-! ## CODE -/

/-- Following a path that leads somewhere, then what is left of it (R195). -/
theorem followPath_append {node : Node} {stood p q : List Bool} (h : node.at p ≠ .absent) :
    followPath node stood (p ++ q) = followPath (node.at p) (stood ++ p) q := by
  induction p generalizing node stood with
  | nil => rw [Node.at_nil, List.nil_append, List.append_nil]
  | cons b p ih =>
    cases node with
    | inner clear set =>
      rw [Node.at_cons] at h
      rw [Node.at_cons, List.append_cons stood b p, ← ih h]
      cases b <;> rfl
    | absent => simp [Node.child] at h
    | leafRun r => simp [Node.child] at h
    | leafEsc => simp [Node.child] at h

theorem not_absent_of_inner {node : Node} (h : Node.isInner node = true) : node ≠ .absent := by
  rintro rfl
  cases h

theorem not_absent_of_leaf {node : Node} (h : Node.isLeaf node = true) : node ≠ .absent := by
  rintro rfl
  cases h

/-- A bit that selects no child ends the walk where it was read, whatever follows (R197). -/
theorem followPath_noChild {node : Node} {p q : List Bool} {bit : Bool} (hinner : Node.isInner (node.at p) = true)
    (habsent : node.at (p ++ [bit]) = .absent) : followPath node [] (p ++ [bit] ++ q) = .noChild p := by
  rw [Node.at_append, Node.at_cons, Node.at_nil] at habsent
  rw [List.append_assoc, followPath_append (not_absent_of_inner hinner), List.nil_append]
  cases hn : node.at p with
  | inner clear set =>
    rw [hn] at habsent
    cases bit with
    | true =>
      change set = .absent at habsent
      subst habsent
      simp [followPath]
    | false =>
      change clear = .absent at habsent
      subst habsent
      simp [followPath]
  | absent => rw [hn] at hinner; cases hinner
  | leafRun r => rw [hn] at hinner; cases hinner
  | leafEsc => rw [hn] at hinner; cases hinner

/-- Bits that stop at an inner node are no codeword (R90). -/
theorem followPath_inner {node : Node} {path stood : List Bool} (h : Node.isInner (node.at path) = true) :
    followPath node stood path = .noCodeword := by
  rw [← List.append_nil path, followPath_append (not_absent_of_inner h)]
  cases hn : node.at path with
  | inner clear set => rfl
  | absent => rw [hn] at h; cases h
  | leafRun r => rw [hn] at h; cases h
  | leafEsc => rw [hn] at h; cases h

/-- Bits that come to the escape leaf are no codeword (R90). -/
theorem followPath_escape {node : Node} {path stood : List Bool} (h : node.at path = .leafEsc) :
    followPath node stood path = .noCodeword := by
  rw [← List.append_nil path, followPath_append (by simp [h]), h]
  rfl

/-- Bits that run past a leaf are no codeword (R90). -/
theorem followPath_pastLeaf {node : Node} {p stood : List Bool} {bit : Bool} {q : List Bool}
    (h : Node.isLeaf (node.at p) = true) : followPath node stood (p ++ bit :: q) = .noCodeword := by
  rw [followPath_append (not_absent_of_leaf h)]
  cases hn : node.at p with
  | leafRun r => rfl
  | leafEsc => rfl
  | absent => rw [hn] at h; cases h
  | inner clear set => rw [hn] at h; cases h

/-- CODE from the root of the trie, where a bit selects no child (R197). -/
theorem exec_code_noChild {path p : List Bool} {s : State} (hroot : s.tcur = [])
    (h : followPath s.trie [] path = .noChild p) :
    exec (.code path) s = .next (({ s with tcur := p }).raise .invalidCode) := by
  rw [exec, execCode, hroot, Node.at_nil, h]

/-- CODE from the root of the trie, with bits that are no codeword (assumption 8). -/
theorem exec_code_noCodeword {path : List Bool} {s : State} (hroot : s.tcur = [])
    (h : followPath s.trie [] path = .noCodeword) : exec (.code path) s = .refused .codeNotInTable := by
  rw [exec, execCode, hroot, Node.at_nil, h]

/-- Settles O25, by where the bits lead. -/
theorem codeWithoutLeaf : Obligations.CodeWithoutLeaf := by
  intro path s hroot
  constructor
  · rintro p bit ⟨q, rfl⟩ hinner habsent
    exact exec_code_noChild hroot (followPath_noChild hinner habsent)
  · rintro (hinner | hesc | ⟨p, ⟨q, rfl⟩, hne, hleaf⟩)
    · exact exec_code_noCodeword hroot (followPath_inner hinner)
    · exact exec_code_noCodeword hroot (followPath_escape hesc)
    · cases q with
      | nil => exact absurd (List.append_nil p).symm hne
      | cons bit q => exact exec_code_noCodeword hroot (followPath_pastLeaf hleaf)

end Sys2Proof.Machine
end

section
/-! RLE_ENC issued alone: the runs are greedy, and FREQ counts them (R112 to R114). -/

namespace Sys2Proof.Machine

/-- Two neighbours RLE_ENC does not join: another nibble begins, or the run before is full (R112). -/
def SplitAfter (a b : Run) : Prop := a.nib ≠ b.nib ∨ Run.count a = 8

/-- The run that cannot take one more position is the one of 8 (R112). -/
theorem count_full {r : Run} (h : r.cm1 = 7#3) : Run.count r = 8 := by
  simp [Run.count, h]

/-- The first run made from an open run is of its nibble, however far it grows (R113). -/
theorem nib_of_mem_head?_rleRuns {r b : Run} {xs : List Nibble} (h : b ∈ (rleRuns (some r) xs).head?) :
    b.nib = r.nib := by
  induction xs generalizing r with
  | nil => cases h; rfl
  | cons x xs ih =>
    rw [rleRuns] at h
    split at h
    · have hgrown := ih h
      exact hgrown
    · cases h; rfl

/-- The runs made from an open run are greedy: one is closed only where the next nibble does not fit it (R112). -/
theorem isChain_rleRuns_some (r : Run) (xs : List Nibble) : (rleRuns (some r) xs).IsChain SplitAfter := by
  induction xs generalizing r with
  | nil => exact .singleton r
  | cons x xs ih =>
    rw [rleRuns]
    split
    · exact ih _
    · rename_i hclosed
      refine (ih _).cons fun b hb => ?_
      rw [SplitAfter, nib_of_mem_head?_rleRuns hb]
      by_cases hnib : r.nib = x
      · exact .inr (count_full (by_contra fun hroom => hclosed ⟨hnib.symm, hroom⟩))
      · exact .inl hnib

/-- The segmentation is the greedy one (R112, R114 c). -/
theorem isChain_rleOf (bs : List Byte) : (rleOf bs).IsChain SplitAfter := by
  unfold rleOf
  cases nibblesOf bs with
  | nil => exact .nil
  | cons x xs => exact isChain_rleRuns_some _ xs

/-- FREQ adds up to the number of runs, each key being in the file once (R22, R114 d). -/
theorem sum_fileGet_tally (rs : List Run) : (allRuns.map (fileGet (tally rs))).sum = rs.length := by
  calc (allRuns.map (fileGet (tally rs))).sum
      = (allRuns.map fun r => rs.count r).sum := by simp only [funext (fileGet_tally rs)]
    _ = ∑ r ∈ allRuns.toFinset, (rs : Multiset Run).count r := by
      simp only [List.sum_toFinset _ allRuns_nodup, Multiset.coe_count]
    _ = rs.length := Multiset.sum_count_eq_card fun r _ => List.mem_toFinset.2 (mem_allRuns r)

/-- RLE_ENC leaves the runs of SRC, FREQ and SP over the start-of-command state (R40, R113). -/
theorem exec_rleEnc (s : State) :
    exec .rleEnc s = .next
      { s.startAll 0x10#8 with
        status := .done, rleSrc := rleOf s.srcBytes, freq := tally (rleOf s.srcBytes), sp := s.argLen } := rfl

/-- Settles O27, from the facts about the runs of SRC. -/
theorem rleEncResult : Obligations.RleEncResult := fun s =>
  ⟨_, exec_rleEnc s, runNibbles_rleOf s.srcBytes, isChain_rleOf s.srcBytes, fileGet_tally _, sum_fileGet_tally _, rfl⟩

end Sys2Proof.Machine
end

section
/-! MERGE and PACKAGE on lists of coins (R125, R126): the coins kept, the weight order, and what the first coins of the
result are made of. -/

namespace Sys2Proof.Machine

/-! ## Lists of coins -/

/-- The weight of a list of coins, all together. -/
def totalWeight (cs : List Coin) : Nat := (cs.map Coin.weight).sum

@[simp] theorem totalWeight_nil : totalWeight [] = 0 := rfl

@[simp] theorem totalWeight_cons (c : Coin) (cs : List Coin) : totalWeight (c :: cs) = c.weight + totalWeight cs := by
  simp [totalWeight]

@[simp] theorem totalWeight_append (cs ds : List Coin) : totalWeight (cs ++ ds) = totalWeight cs + totalWeight ds := by
  simp [totalWeight]

theorem totalWeight_perm {cs ds : List Coin} (h : cs.Perm ds) : totalWeight cs = totalWeight ds :=
  (h.map Coin.weight).sum_eq

/-- Coins in non-decreasing weight order (R125). -/
def CheapestFirst (cs : List Coin) : Prop := cs.Pairwise fun a b => Coin.weight a ≤ Coin.weight b

theorem cheapestFirst_cons {c : Coin} {cs : List Coin} :
    CheapestFirst (c :: cs) ↔ (∀ d ∈ cs, c.weight ≤ d.weight) ∧ CheapestFirst cs := List.pairwise_cons

/-- In weight order the first coins are the cheapest, as many of them as a sublist has. -/
theorem totalWeight_take_le_of_sublist {cs ds : List Coin} (hcs : CheapestFirst cs) (h : ds.Sublist cs) {i : Nat}
    (hi : i ≤ ds.length) : totalWeight (cs.take i) ≤ totalWeight ds := by
  induction h generalizing i with
  | slnil => simp
  | @cons ds cs c h ih =>
    obtain ⟨hc, hcs⟩ := cheapestFirst_cons.1 hcs
    have hrest := ih hcs hi
    cases i with
    | zero => simp
    | succ i =>
      have hlt : i < cs.length := by have := h.length_le; omega
      have hle := hc _ (List.getElem_mem hlt)
      rw [List.take_add_one, List.getElem?_eq_getElem hlt] at hrest
      simp only [List.take_succ_cons, totalWeight_cons, totalWeight_append, Option.toList_some, totalWeight_nil] at *
      omega
  | @cons_cons ds cs c h ih =>
    obtain ⟨-, hcs⟩ := cheapestFirst_cons.1 hcs
    cases i with
    | zero => simp
    | succ i => simpa using ih hcs (i := i) (by simpa using hi)

/-- In weight order the first coins are the cheapest, in whatever order the others are listed. -/
theorem totalWeight_take_le {cs ds : List Coin} (hcs : CheapestFirst cs) (h : ds.Subperm cs) {i : Nat}
    (hi : i ≤ ds.length) : totalWeight (cs.take i) ≤ totalWeight ds := by
  obtain ⟨es, hperm, hsub⟩ := h
  rw [← totalWeight_perm hperm]
  exact totalWeight_take_le_of_sublist hcs hsub (hperm.length_eq ▸ hi)

/-! ## MERGE -/

@[simp] theorem merge_nil_left (ps : List Coin) : merge [] ps = ps := rfl

@[simp] theorem merge_nil_right (ls : List Coin) : merge ls [] = ls := by
  induction ls with
  | nil => rfl
  | cons l ls ih => rw [merge, mergeWith, ih]

/-- The leaf first at equal weight (R125, D8). -/
theorem merge_cons_cons (l : Coin) (ls : List Coin) (p : Coin) (ps : List Coin) :
    merge (l :: ls) (p :: ps) =
      if Coin.weight l ≤ Coin.weight p then l :: merge ls (p :: ps) else p :: merge (l :: ls) ps := rfl

/-- The recursion of R125's three equations, as an induction. -/
theorem merge_induction {motive : List Coin → List Coin → Prop} (nil_left : ∀ ps, motive [] ps)
    (nil_right : ∀ ls, motive ls [])
    (leaf : ∀ l ls p ps, Coin.weight l ≤ Coin.weight p → motive ls (p :: ps) → motive (l :: ls) (p :: ps))
    (package : ∀ l ls p ps, ¬ Coin.weight l ≤ Coin.weight p → motive (l :: ls) ps → motive (l :: ls) (p :: ps))
    (ls ps : List Coin) : motive ls ps := by
  induction ls generalizing ps with
  | nil => exact nil_left ps
  | cons l ls ihl =>
    induction ps with
    | nil => exact nil_right _
    | cons p ps ihp =>
      by_cases h : Coin.weight l ≤ Coin.weight p
      · exact leaf l ls p ps h (ihl _)
      · exact package l ls p ps h ihp

/-- MERGE keeps all coins of both lists (R125). -/
theorem merge_perm (ls ps : List Coin) : (merge ls ps).Perm (ls ++ ps) := by
  induction ls, ps using merge_induction with
  | nil_left ps => exact .refl _
  | nil_right ls => simp
  | leaf l ls p ps h ih => rw [merge_cons_cons, if_pos h]; exact ih.cons l
  | package l ls p ps h ih => rw [merge_cons_cons, if_neg h]; exact (ih.cons p).trans List.perm_middle.symm

theorem length_merge (ls ps : List Coin) : (merge ls ps).length = ls.length + ps.length := by
  simpa using (merge_perm ls ps).length_eq

theorem mem_merge {ls ps : List Coin} {c : Coin} : c ∈ merge ls ps ↔ c ∈ ls ∨ c ∈ ps := by
  rw [(merge_perm ls ps).mem_iff, List.mem_append]

/-- MERGE keeps non-decreasing weight order (R125). -/
theorem merge_cheapestFirst {ls ps : List Coin} (hls : CheapestFirst ls) (hps : CheapestFirst ps) :
    CheapestFirst (merge ls ps) := by
  induction ls, ps using merge_induction with
  | nil_left ps => exact hps
  | nil_right ls => simpa using hls
  | leaf l ls p ps h ih =>
    obtain ⟨hl, hls⟩ := cheapestFirst_cons.1 hls
    obtain ⟨hp, -⟩ := cheapestFirst_cons.1 hps
    rw [merge_cons_cons, if_pos h]
    refine cheapestFirst_cons.2 ⟨fun d hd => ?_, ih hls hps⟩
    rcases mem_merge.1 hd with hd | hd
    · exact hl d hd
    · rcases List.mem_cons.1 hd with rfl | hd
      · exact h
      · exact h.trans (hp d hd)
  | package l ls p ps h ih =>
    obtain ⟨hl, -⟩ := cheapestFirst_cons.1 hls
    obtain ⟨hp, hps⟩ := cheapestFirst_cons.1 hps
    rw [merge_cons_cons, if_neg h]
    refine cheapestFirst_cons.2 ⟨fun d hd => ?_, ih hls hps⟩
    rcases mem_merge.1 hd with hd | hd
    · rcases List.mem_cons.1 hd with rfl | hd
      · omega
      · have := hl d hd; omega
    · exact hp d hd

/-- The first coins of a merged list are first coins of the two (R125). -/
theorem prefix_merge {ls ps cs : List Coin} (h : cs <+: merge ls ps) :
    ∃ xs ys, xs <+: ls ∧ ys <+: ps ∧ cs.Perm (xs ++ ys) := by
  induction ls, ps using merge_induction generalizing cs with
  | nil_left ps => exact ⟨[], cs, List.nil_prefix, h, .refl _⟩
  | nil_right ls => exact ⟨cs, [], by simpa using h, List.nil_prefix, by simp⟩
  | leaf l ls p ps hw ih =>
    rw [merge_cons_cons, if_pos hw, List.prefix_cons_iff] at h
    rcases h with rfl | ⟨ds, rfl, h⟩
    · exact ⟨[], [], List.nil_prefix, List.nil_prefix, .refl _⟩
    · obtain ⟨xs, ys, hxs, hys, hperm⟩ := ih h
      exact ⟨l :: xs, ys, List.cons_prefix_cons.2 ⟨rfl, hxs⟩, hys, hperm.cons l⟩
  | package l ls p ps hw ih =>
    rw [merge_cons_cons, if_neg hw, List.prefix_cons_iff] at h
    rcases h with rfl | ⟨ds, rfl, h⟩
    · exact ⟨[], [], List.nil_prefix, List.nil_prefix, .refl _⟩
    · obtain ⟨xs, ys, hxs, hys, hperm⟩ := ih h
      exact ⟨xs, p :: ys, hxs, List.cons_prefix_cons.2 ⟨rfl, hys⟩, (hperm.cons p).trans List.perm_middle.symm⟩

/-- Settles O30, part by part. -/
theorem mergeRule : Obligations.MergeRule :=
  ⟨merge_nil_left, merge_nil_right, merge_cons_cons, merge_perm, fun _ _ => merge_cheapestFirst⟩

/-! ## PACKAGE -/

@[simp] theorem package_nil : package [] = [] := rfl

@[simp] theorem package_single (a : Coin) : package [a] = [] := rfl

@[simp] theorem package_cons_cons (a b : Coin) (cs : List Coin) : package (a :: b :: cs) = .pkg a b :: package cs := rfl

@[simp] theorem length_package (cs : List Coin) : (package cs).length = cs.length / 2 := by
  induction cs using package.induct with
  | case1 a b cs ih => simp only [package_cons_cons, List.length_cons, ih]; omega
  | case2 a => simp
  | case3 => simp

/-- The first `m` packages are those of the first `2 m` coins (R126). -/
theorem take_package (cs : List Coin) (m : Nat) : (package cs).take m = package (cs.take (2 * m)) := by
  induction cs using package.induct generalizing m with
  | case1 a b cs ih =>
    cases m with
    | zero => simp
    | succ m => simp [Nat.mul_succ, ih]
  | case2 a => cases m <;> simp [Nat.mul_succ]
  | case3 => simp

/-- Package `i` is of the coins `2 i` and `2 i + 1` (R126). -/
theorem getElem?_package {cs : List Coin} {i : Nat} (h : i < cs.length / 2) :
    ∃ a b, cs[2 * i]? = some a ∧ cs[2 * i + 1]? = some b ∧ (package cs)[i]? = some (.pkg a b) := by
  induction cs using package.induct generalizing i with
  | case1 a b cs ih =>
    cases i with
    | zero => exact ⟨a, b, by simp⟩
    | succ i =>
      obtain ⟨x, y, hx, hy, hxy⟩ := ih (i := i) (by simp only [List.length_cons] at h; omega)
      exact ⟨x, y, by simp [Nat.mul_succ, hx, hy, hxy]⟩
  | case2 a => simp at h
  | case3 => simp at h

/-- Packages have the leaves of their coins, an odd last coin left out (R126). -/
theorem leaves_package (cs : List Coin) :
    (package cs).flatMap Coin.leaves = (cs.take (2 * (cs.length / 2))).flatMap Coin.leaves := by
  induction cs using package.induct with
  | case1 a b cs ih =>
    have hlen : 2 * ((a :: b :: cs).length / 2) = 2 * (cs.length / 2) + 2 := by simp only [List.length_cons]; omega
    rw [hlen]
    simp [ih, Coin.leaves]
  | case2 a => simp
  | case3 => simp

/-- Packages weigh what their coins weigh, an odd last coin left out (R126). -/
theorem totalWeight_package (cs : List Coin) :
    totalWeight (package cs) = totalWeight (cs.take (2 * (cs.length / 2))) := by
  induction cs using package.induct with
  | case1 a b cs ih =>
    have hlen : 2 * ((a :: b :: cs).length / 2) = 2 * (cs.length / 2) + 2 := by simp only [List.length_cons]; omega
    rw [hlen]
    simp [ih, Coin.weight, Nat.add_assoc]
  | case2 a => simp
  | case3 => simp

/-- A package's two coins are coins of the list (R126). -/
theorem mem_package {cs : List Coin} {p : Coin} (h : p ∈ package cs) : ∃ a ∈ cs, ∃ b ∈ cs, p = .pkg a b := by
  obtain ⟨i, hi, rfl⟩ := List.mem_iff_getElem.1 h
  obtain ⟨a, b, ha, hb, hab⟩ := getElem?_package (by simpa using hi)
  rw [List.getElem?_eq_getElem hi] at hab
  exact ⟨a, List.mem_of_getElem? ha, b, List.mem_of_getElem? hb, Option.some.inj hab⟩

/-- PACKAGE keeps non-decreasing weight order (R126). -/
theorem package_cheapestFirst {cs : List Coin} (h : CheapestFirst cs) : CheapestFirst (package cs) := by
  induction cs using package.induct with
  | case1 a b cs ih =>
    obtain ⟨ha, h⟩ := cheapestFirst_cons.1 h
    obtain ⟨hb, h⟩ := cheapestFirst_cons.1 h
    refine cheapestFirst_cons.2 ⟨fun p hp => ?_, ih h⟩
    obtain ⟨x, hx, y, hy, rfl⟩ := mem_package hp
    have := ha x (by simp [hx])
    have := hb y hy
    simp only [Coin.weight]
    omega
  | case2 a => exact List.Pairwise.nil
  | case3 => exact List.Pairwise.nil

/-- Settles O31, part by part. -/
theorem packageRule : Obligations.PackageRule := fun cs =>
  ⟨length_package cs, fun _ => getElem?_package, leaves_package cs, totalWeight_package cs, package_cheapestFirst⟩

end Sys2Proof.Machine
end

section
/-! The package-merge theorem (R120, R124 to R130): the accepted coins of PM_SOLVE are a choice of leaves at each of the
denominations, of the face value asked for, and no choice of that value weighs less. -/

namespace Sys2Proof.Machine

/-! ## Choices of leaves at each denomination -/

/-- The weight of a list of leaves, all together. -/
def leavesWeight (ls : List Leaf) : Nat := (ls.map Leaf.weight).sum

@[simp] theorem leavesWeight_append (ls ms : List Leaf) :
    leavesWeight (ls ++ ms) = leavesWeight ls + leavesWeight ms := by simp [leavesWeight]

/-- The face value of the leaves chosen at each denomination, the largest denomination first, in units of the smallest
(R124). -/
def faceValue : List (List Leaf) → Nat
  | [] => 0
  | ls :: rest => ls.length * 2 ^ rest.length + faceValue rest

/-- Leaves chosen at each of some denominations, each leaf at most once at each (R124). -/
def ChosenFrom (trial : List Leaf) (sel : List (List Leaf)) : Prop := ∀ ls ∈ sel, ls.Sublist trial

theorem chosenFrom_cons {trial ls : List Leaf} {sel : List (List Leaf)} :
    ChosenFrom trial (ls :: sel) ↔ ls.Sublist trial ∧ ChosenFrom trial sel := List.forall_mem_cons

theorem ChosenFrom.subset {trial : List Leaf} {sel : List (List Leaf)} (h : ChosenFrom trial sel) :
    ∀ l ∈ sel.flatten, l ∈ trial := fun _ hl =>
  have ⟨ls, hls, hmem⟩ := List.mem_flatten.1 hl
  (h ls hls).subset hmem

/-! ## The leaf coins and the levels -/

@[simp] theorem length_leafCoins (ls : List Leaf) : (leafCoins ls).length = ls.length := by simp [leafCoins]

@[simp] theorem leaves_leafCoins (ls : List Leaf) : (leafCoins ls).flatMap Coin.leaves = ls.map Leaf.run := by
  induction ls with
  | nil => rfl
  | cons l ls ih => simpa [leafCoins, Coin.leaves] using ih

@[simp] theorem totalWeight_leafCoins (ls : List Leaf) : totalWeight (leafCoins ls) = leavesWeight ls := by
  simp [totalWeight, leavesWeight, leafCoins, Coin.weight, Function.comp_def]

theorem prefix_leafCoins {ls : List Leaf} {cs : List Coin} (h : cs <+: leafCoins ls) :
    ∃ ms, ms <+: ls ∧ cs = leafCoins ms := by
  obtain ⟨ms, hms, rfl⟩ := List.prefix_map_iff.1 h
  exact ⟨ms, hms, rfl⟩

@[simp] theorem levels_zero_pkgs (leaves : List Coin) : (levels leaves 0).pkgs = [] := rfl

theorem levels_succ_pkgs (leaves : List Coin) (d : Nat) :
    (levels leaves (d + 1)).pkgs = package (merge leaves (levels leaves d).pkgs) := rfl

theorem levels_cheapestFirst {leaves : List Coin} (h : CheapestFirst leaves) (d : Nat) :
    CheapestFirst (levels leaves d).pkgs := by
  induction d with
  | zero => exact List.Pairwise.nil
  | succ d ih => exact package_cheapestFirst (merge_cheapestFirst h ih)

/-- The first `m` packages of a level, opened: `2 m` coins, some first leaves and some first packages of the level before
(R125, R126). -/
theorem take_levels_succ {leaves : List Coin} {d m : Nat} (hm : m ≤ (levels leaves (d + 1)).pkgs.length) :
    ∃ xs ps, xs <+: leaves ∧ ps <+: (levels leaves d).pkgs ∧ xs.length + ps.length = 2 * m ∧
      (((levels leaves (d + 1)).pkgs.take m).flatMap Coin.leaves).Perm
        (xs.flatMap Coin.leaves ++ ps.flatMap Coin.leaves) ∧
      totalWeight ((levels leaves (d + 1)).pkgs.take m) = totalWeight xs + totalWeight ps := by
  rw [levels_succ_pkgs, take_package, leaves_package, totalWeight_package]
  rw [levels_succ_pkgs, length_package] at hm
  obtain ⟨xs, ps, hxs, hps, hperm⟩ := prefix_merge (List.take_prefix (2 * m) (merge leaves (levels leaves d).pkgs))
  have hlen : ((merge leaves (levels leaves d).pkgs).take (2 * m)).length = 2 * m := List.length_take_of_le (by omega)
  refine ⟨xs, ps, hxs, hps, ?_, ?_⟩
  · rw [← List.length_append, ← hperm.length_eq, hlen]
  · rw [List.take_of_length_le (by omega), ← List.flatMap_append, ← totalWeight_append]
    exact ⟨hperm.flatMap_right _, totalWeight_perm hperm⟩

/-- The first `m` packages of a level are a choice of leaves of face value `m`, each the size of a package (R124, R127). -/
theorem exists_chosen_of_packages (trial : List Leaf) (d : Nat) :
    ∀ m ≤ (levels (leafCoins trial) d).pkgs.length, ∃ sel, sel.length = d ∧ ChosenFrom trial sel ∧
      faceValue sel = m * 2 ^ d ∧
      (((levels (leafCoins trial) d).pkgs.take m).flatMap Coin.leaves).Perm (sel.flatten.map Leaf.run) ∧
      totalWeight ((levels (leafCoins trial) d).pkgs.take m) = leavesWeight sel.flatten := by
  induction d with
  | zero =>
    intro m hm
    obtain rfl : m = 0 := by simpa using hm
    exact ⟨[], rfl, by simp [ChosenFrom], rfl, by simp, rfl⟩
  | succ d ih =>
    intro m hm
    obtain ⟨xs, ps, hxs, hps, hlen, hleaves, hweight⟩ := take_levels_succ hm
    obtain ⟨ls, hls, rfl⟩ := prefix_leafCoins hxs
    obtain ⟨sel, rfl, hsel, hvalue, hpleaves, hpweight⟩ := ih ps.length hps.length_le
    rw [← List.prefix_iff_eq_take.1 hps] at hpleaves hpweight
    refine ⟨ls :: sel, rfl, chosenFrom_cons.2 ⟨hls.sublist, hsel⟩, ?_, ?_, ?_⟩
    · rw [faceValue, hvalue, ← Nat.add_mul, ← length_leafCoins, hlen, Nat.pow_succ]
      ring
    · simpa using hleaves.trans (hpleaves.append_left _)
    · simpa [hweight] using hpweight

/-- The package-merge theorem (R120, G1): of the packages of a level there are as many as any choice of leaves has face value
for, and the cheapest of them weigh no more than the choice. -/
theorem packages_cheapest {trial : List Leaf} (hsorted : CheapestFirst (leafCoins trial)) :
    ∀ {sel : List (List Leaf)} {m : Nat}, ChosenFrom trial sel → m * 2 ^ sel.length ≤ faceValue sel →
      m ≤ (levels (leafCoins trial) sel.length).pkgs.length ∧
      totalWeight ((levels (leafCoins trial) sel.length).pkgs.take m) ≤ leavesWeight sel.flatten
  | [], m, _, hm => by
    obtain rfl : m = 0 := by simpa [faceValue] using hm
    simp
  | ls :: rest, m, hsel, hm => by
    obtain ⟨hls, hrest⟩ := chosenFrom_cons.1 hsel
    have hpos := Nat.two_pow_pos rest.length
    -- as many packages of the level before as the rest of the choice has face value for
    obtain ⟨hlen, hweight⟩ :=
      packages_cheapest hsorted (m := faceValue rest / 2 ^ rest.length) hrest (Nat.div_mul_le_self _ _)
    have htwo : 2 * m ≤ ls.length + faceValue rest / 2 ^ rest.length := by
      rw [← Nat.mul_add_div hpos, Nat.le_div_iff_mul_le hpos]
      calc 2 * m * 2 ^ rest.length = m * 2 ^ (ls :: rest).length := by rw [List.length_cons, Nat.pow_succ]; ring
        _ ≤ faceValue (ls :: rest) := hm
        _ = 2 ^ rest.length * ls.length + faceValue rest := by rw [faceValue, Nat.mul_comm]
    generalize faceValue rest / 2 ^ rest.length = i at *
    rw [List.length_cons, levels_succ_pkgs, take_package, length_package, totalWeight_package]
    have hps := levels_cheapestFirst hsorted rest.length
    generalize (levels (leafCoins trial) rest.length).pkgs = ps at *
    -- the choice, those packages in place of the rest of it, is among the coins of the level
    have hsub : (leafCoins ls ++ ps.take i).Subperm (merge (leafCoins trial) ps) :=
      ((hls.map _).append (List.take_sublist i ps)).subperm.trans (merge_perm _ _).symm.subperm
    have hcheap := totalWeight_take_le (i := 2 * m) (merge_cheapestFirst hsorted hps) hsub (by simp; omega)
    have hcoins := hsub.length_le
    simp only [totalWeight_append, totalWeight_leafCoins, List.length_append, length_leafCoins, List.length_take] at *
    refine ⟨by omega, ?_⟩
    rw [List.take_of_length_le (by simp; omega), List.flatten_cons, leavesWeight_append]
    omega

end Sys2Proof.Machine
end

section
/-! PM_SOLVE: the lengths it reads back are how often each leaf was chosen (R127), so they obey Kraft's inequality and cost no
more than any other lengths that do (R120, R128, R130). -/

namespace Sys2Proof.Machine

/-! ## R128's domain -/

theorem distinctRuns_iff {rs : List Run} : distinctRuns rs = true ↔ rs.Nodup := by
  induction rs with
  | nil => simp [distinctRuns]
  | cons r rs ih => simp [distinctRuns, ih]

theorem leafBefore_iff {a b : Leaf} :
    leafBefore a b = true ↔ a.weight < b.weight ∨ a.weight = b.weight ∧ Run.key a.run < Run.key b.run := by
  simp [leafBefore]

theorem leafBefore_trans {a b c : Leaf} (hab : leafBefore a b = true) (hbc : leafBefore b c = true) :
    leafBefore a c = true := by
  rw [leafBefore_iff] at *
  omega

theorem inOrder_iff {ls : List Leaf} :
    inOrder leafBefore ls = true ↔ ls.Pairwise fun a b => leafBefore a b = true := by
  have : IsTrans Leaf fun a b => leafBefore a b = true := ⟨fun _ _ _ => leafBefore_trans⟩
  rw [← List.isChain_iff_pairwise]
  induction ls with
  | nil => simp [inOrder]
  | cons a ls ih =>
    cases ls with
    | nil => simp [inOrder]
    | cons b ls => simp [inOrder, List.isChain_cons_cons, ih]

/-- R128's domain, clause by clause. -/
structure TrialDomain (trial : List Leaf) : Prop where
  two : 2 ≤ trial.length
  most : trial.length ≤ 128
  ordered : trial.Pairwise fun a b => leafBefore a b = true
  distinct : (trial.map Leaf.run).Nodup
  weights : ∀ l ∈ trial, 2 ≤ l.weight

theorem trialOk_iff {trial : List Leaf} : trialOk trial = true ↔ TrialDomain trial := by
  simp only [trialOk, Bool.and_eq_true, decide_eq_true_eq, inOrder_iff, distinctRuns_iff, List.all_eq_true]
  exact ⟨fun ⟨⟨⟨⟨htwo, hmost⟩, hordered⟩, hdistinct⟩, hweights⟩ => ⟨htwo, hmost, hordered, hdistinct, hweights⟩,
    fun ⟨htwo, hmost, hordered, hdistinct, hweights⟩ => ⟨⟨⟨⟨htwo, hmost⟩, hordered⟩, hdistinct⟩, hweights⟩⟩

theorem TrialDomain.cheapestFirst {trial : List Leaf} (h : TrialDomain trial) : CheapestFirst (leafCoins trial) := by
  refine List.pairwise_map.2 (h.ordered.imp fun {a b} hab => ?_)
  rw [leafBefore_iff] at hab
  simp only [Coin.weight]
  omega

/-! ## Sums over a trial -/

/-- A sum over leaves of a trial, leaf by leaf. -/
theorem sum_eq_sum_count {trial ls : List Leaf} (hnodup : trial.Nodup) (hsub : ∀ l ∈ ls, l ∈ trial) (f : Leaf → Nat) :
    (ls.map f).sum = (trial.map fun l => ls.count l * f l).sum := by
  rw [← List.sum_toFinset _ hnodup, Finset.sum_list_map_count]
  refine Finset.sum_subset (fun l hl => by simpa using hsub l (by simpa using hl)) fun l _ hl => ?_
  rw [List.count_eq_zero_of_not_mem (by simpa using hl), zero_smul]

/-- Runs of a trial's leaves are counted as the leaves are, the runs being distinct. -/
theorem count_map_run {trial ls : List Leaf} (hdistinct : (trial.map Leaf.run).Nodup) (hsub : ∀ l ∈ ls, l ∈ trial)
    {l : Leaf} (hl : l ∈ trial) : (ls.map Leaf.run).count l.run = ls.count l := by
  simp only [List.count, List.countP_map]
  refine List.countP_congr fun x hx => ?_
  simpa using ⟨fun e => List.inj_on_of_nodup_map hdistinct (hsub x hx) hl e, fun e => congrArg Leaf.run e⟩

/-! ## Kraft's inequality -/

/-- A leaf chosen at some denominations, the largest among them or not, has at most the face value that leaves Kraft's share
of it (R130 c). -/
theorem kraft_share_succ {e c d : Nat} (he : e ≤ 1) (hc : c ≤ d) :
    e * 2 ^ d + 2 ^ (d + 1 - (e + c)) ≤ 2 ^ (d - c) + 2 ^ d := by
  obtain rfl | rfl : e = 0 ∨ e = 1 := by omega
  · have hle : 2 ^ (d - c) ≤ 2 ^ d := Nat.pow_le_pow_right (by omega) (by omega)
    rw [show d + 1 - (0 + c) = d - c + 1 by omega, Nat.pow_succ]
    omega
  · rw [show d + 1 - (1 + c) = d - c by omega]
    omega

/-- No leaf is chosen more often than there are denominations (R130 b). -/
theorem ChosenFrom.count_le {trial : List Leaf} (hnodup : trial.Nodup) (l : Leaf) {sel : List (List Leaf)}
    (hsel : ChosenFrom trial sel) : sel.flatten.count l ≤ sel.length := by
  induction sel with
  | nil => simp
  | cons ls rest ih =>
    obtain ⟨hls, hrest⟩ := chosenFrom_cons.1 hsel
    have hone := List.nodup_iff_count_le_one.1 (hnodup.sublist hls) l
    have := ih hrest
    simp only [List.flatten_cons, List.count_append, List.length_cons]
    omega

/-- What a choice of leaves leaves of the face value of all of them is at least Kraft's sum (R130 c). -/
theorem ChosenFrom.faceValue_add_kraft_le {trial : List Leaf} (hnodup : trial.Nodup) {sel : List (List Leaf)}
    (hsel : ChosenFrom trial sel) :
    faceValue sel + (trial.map fun l => 2 ^ (sel.length - sel.flatten.count l)).sum ≤ trial.length * 2 ^ sel.length := by
  induction sel with
  | nil => simp [faceValue]
  | cons ls rest ih =>
    obtain ⟨hls, hrest⟩ := chosenFrom_cons.1 hsel
    have hvalue : ls.length * 2 ^ rest.length = (trial.map fun l => ls.count l * 2 ^ rest.length).sum := by
      rw [← sum_eq_sum_count hnodup (fun _ hl => hls.subset hl), List.map_const', List.sum_replicate, smul_eq_mul]
    have hshare : (trial.map fun l => ls.count l * 2 ^ rest.length).sum +
          (trial.map fun l => 2 ^ (rest.length + 1 - (ls ++ rest.flatten).count l)).sum ≤
        (trial.map fun l => 2 ^ (rest.length - rest.flatten.count l)).sum + trial.length * 2 ^ rest.length := by
      rw [← smul_eq_mul trial.length, ← List.sum_replicate, ← List.map_const', ← List.sum_map_add, ← List.sum_map_add]
      refine List.sum_le_sum fun l _ => ?_
      rw [List.count_append]
      exact kraft_share_succ (List.nodup_iff_count_le_one.1 (hnodup.sublist hls) l) (hrest.count_le hnodup l)
    have := ih hrest
    rw [faceValue, hvalue, List.length_cons, List.flatten_cons, Nat.pow_succ, ← Nat.mul_assoc]
    omega

/-! ## The choice that stands for given lengths -/

/-- The leaves chosen for given lengths: each at as many denominations as its length, the largest first (R124). -/
def chosenBy (trial : List Leaf) (len : Run → Nat) : (d : Nat) → List (List Leaf)
  | 0 => []
  | d + 1 => (trial.filter fun l => decide (0 < len l.run)) :: chosenBy trial (fun r => len r - 1) d

@[simp] theorem length_chosenBy (trial : List Leaf) (len : Run → Nat) (d : Nat) :
    (chosenBy trial len d).length = d := by
  induction d generalizing len with
  | zero => rfl
  | succ d ih => simp [chosenBy, ih]

theorem chosenBy_chosenFrom (trial : List Leaf) (len : Run → Nat) (d : Nat) :
    ChosenFrom trial (chosenBy trial len d) := by
  induction d generalizing len with
  | zero => simp [chosenBy, ChosenFrom]
  | succ d ih => exact chosenFrom_cons.2 ⟨List.filter_sublist, ih _⟩

/-- Kraft's sum at one more denomination: a leaf with a length is chosen there and has one less to go, a leaf
without one leaves that denomination's value over (R130 c). -/
theorem kraftSum_succ (ls : List Leaf) (len : Run → Nat) (d : Nat) :
    (ls.map fun l => 2 ^ (d - (len l.run - 1))).sum + ls.length * 2 ^ d =
      (ls.filter fun l => decide (0 < len l.run)).length * 2 ^ d + (ls.map fun l => 2 ^ (d + 1 - len l.run)).sum := by
  induction ls with
  | nil => simp
  | cons l ls ih =>
    cases h : len l.run with
    | zero =>
      simp only [List.map_cons, List.sum_cons, List.length_cons, List.filter_cons, h, lt_irrefl, decide_false,
        Bool.false_eq_true, if_false, Nat.zero_sub, Nat.sub_zero, Nat.pow_succ, Nat.succ_mul]
      omega
    | succ k =>
      simp only [List.map_cons, List.sum_cons, List.length_cons, List.filter_cons, h, Nat.succ_pos, decide_true, if_true,
        Nat.add_sub_cancel, Nat.add_sub_add_right, Nat.succ_mul]
      omega

/-- The face value of the choice is at least what Kraft's sum leaves of all leaves (R130 c). -/
theorem le_faceValue_chosenBy (trial : List Leaf) (len : Run → Nat) (d : Nat) :
    trial.length * 2 ^ d ≤ faceValue (chosenBy trial len d) + (trial.map fun l => 2 ^ (d - len l.run)).sum := by
  induction d generalizing len with
  | zero => simp [chosenBy]
  | succ d ih =>
    have hrest := ih fun r => len r - 1
    have hfirst := kraftSum_succ trial len d
    rw [chosenBy, faceValue, length_chosenBy, Nat.pow_succ, ← Nat.mul_assoc]
    omega

/-- The cost of lengths, the first denomination apart: each leaf with a length once, and one less of each length (R120). -/
theorem cost_succ (ls : List Leaf) (len : Run → Nat) :
    leavesWeight (ls.filter fun l => decide (0 < len l.run)) + (ls.map fun l => (len l.run - 1) * l.weight).sum =
      (ls.map fun l => len l.run * l.weight).sum := by
  unfold leavesWeight
  induction ls with
  | nil => rfl
  | cons l ls ih =>
    cases h : len l.run with
    | zero => simpa [h] using ih
    | succ k => simp [h, ← ih, Nat.succ_mul]; omega

/-- The choice weighs at most the sum of length times weight (R120). -/
theorem leavesWeight_chosenBy_le (trial : List Leaf) (len : Run → Nat) (d : Nat) :
    leavesWeight (chosenBy trial len d).flatten ≤ (trial.map fun l => len l.run * l.weight).sum := by
  induction d generalizing len with
  | zero => simp [chosenBy, leavesWeight]
  | succ d ih =>
    have hrest := ih fun r => len r - 1
    rw [chosenBy, List.flatten_cons, leavesWeight_append, ← cost_succ]
    omega

/-! ## LEN -/

/-- LEN counts a run's copies (R127), as far as four bits go. -/
theorem fileGet_readLengths (rs : List Run) (r : Run) : fileGet (readLengths rs) r = BitVec.ofNat 4 (rs.count r) := by
  suffices h : ∀ f : RunFile (BitVec 4), fileGet (rs.foldl (fun f r => fileSet f r (fileGet f r + 1#4)) f) r =
      fileGet f r + BitVec.ofNat 4 (rs.count r) by
    simpa [readLengths] using h zeroLen
  induction rs with
  | nil => simp
  | cons x xs ih =>
    intro f
    rw [List.foldl_cons, ih, fileGet_fileSet]
    by_cases h : x = r
    · subst h
      rw [if_pos rfl, List.count_cons_self, BitVec.ofNat_add, BitVec.add_assoc, BitVec.add_comm 1#4]
    · rw [if_neg h, List.count_cons_of_ne h]

section
variable {trial : List Leaf}

/-- Lengths under Kraft's inequality stand for a choice of the face value PM_SOLVE asks for: it has enough packages, and those
it accepts weigh no more (R120, R130 a). -/
theorem accepted_cheapest (h : TrialDomain trial) {len : Run → Nat}
    (hkraft : (trial.map fun l => 2 ^ (Config.maxLen - len l.run)).sum ≤ 2 ^ Config.maxLen) :
    trial.length - 1 ≤ (levels (leafCoins trial) Config.maxLen).pkgs.length ∧
    totalWeight ((levels (leafCoins trial) Config.maxLen).pkgs.take (trial.length - 1)) ≤
      (trial.map fun l => len l.run * l.weight).sum := by
  have hvalue : (trial.length - 1) * 2 ^ (chosenBy trial len Config.maxLen).length ≤
      faceValue (chosenBy trial len Config.maxLen) := by
    have := le_faceValue_chosenBy trial len Config.maxLen
    rw [length_chosenBy, Nat.sub_mul]
    omega
  obtain ⟨hlen, hweight⟩ := packages_cheapest h.cheapestFirst (chosenBy_chosenFrom trial len _) hvalue
  rw [length_chosenBy] at hlen hweight
  exact ⟨hlen, hweight.trans (leavesWeight_chosenBy_le trial len _)⟩

/-- PM_SOLVE's packages are enough: all lengths 8 obey Kraft's inequality (R130 a). -/
theorem length_packages (h : TrialDomain trial) :
    trial.length - 1 ≤ (levels (leafCoins trial) Config.maxLen).pkgs.length := by
  refine (accepted_cheapest h (len := fun _ => Config.maxLen) ?_).1
  have := h.most
  simp [Config.maxLen]
  omega

/-- What PM_SOLVE writes (R127, R130): the lengths of the trial's runs are how often each leaf is chosen in a choice of leaves
of face value `n - 1` at the eight denominations, whose weight is that of the accepted coins. -/
theorem solve_eq_chosen (h : TrialDomain trial) :
    ∃ sel, sel.length = 8 ∧ ChosenFrom trial sel ∧ faceValue sel = (trial.length - 1) * 2 ^ 8 ∧
      (∀ r, fileGet (solve trial) r = BitVec.ofNat 4 ((sel.flatten.map Leaf.run).count r)) ∧
      (∀ l ∈ trial, (fileGet (solve trial) l.run).toNat = sel.flatten.count l) ∧
      totalWeight ((levels (leafCoins trial) Config.maxLen).pkgs.take (trial.length - 1)) = leavesWeight sel.flatten := by
  obtain ⟨sel, hlen, hsel, hvalue, hleaves, hweight⟩ :=
    exists_chosen_of_packages trial Config.maxLen (trial.length - 1) (length_packages h)
  have hget : ∀ r, fileGet (solve trial) r = BitVec.ofNat 4 ((sel.flatten.map Leaf.run).count r) := fun r => by
    rw [solve, fileGet_readLengths, acceptedRuns, hleaves.count_eq]
  refine ⟨sel, hlen, hsel, hvalue, hget, fun l hl => ?_, hweight⟩
  have hcount := hsel.count_le h.distinct.of_map l
  rw [hlen, Config.maxLen] at hcount
  rw [hget, count_map_run h.distinct hsel.subset hl, BitVec.toNat_ofNat, Nat.mod_eq_of_lt (by omega)]

/-- Kraft's inequality (R130 c). -/
theorem solve_kraft (h : TrialDomain trial) :
    (trial.map fun l => 2 ^ (8 - (fileGet (solve trial) l.run).toNat)).sum ≤ 2 ^ 8 := by
  obtain ⟨sel, hlen, hsel, hvalue, -, hcount, -⟩ := solve_eq_chosen h
  have hkraft := hsel.faceValue_add_kraft_le h.distinct.of_map
  rw [hlen, hvalue] at hkraft
  rw [List.map_congr_left fun l hl => by rw [hcount l hl]]
  have := h.two
  omega

/-- "every run of the trial ends with `1 <= LEN <= 8`" (R130 b). -/
theorem solve_range (h : TrialDomain trial) {l : Leaf} (hl : l ∈ trial) :
    1 ≤ (fileGet (solve trial) l.run).toNat ∧ (fileGet (solve trial) l.run).toNat ≤ 8 := by
  constructor
  · -- a leaf of length 0 fills Kraft's sum, and there is another leaf
    by_contra hnone
    have hzero : (fileGet (solve trial) l.run).toNat = 0 := by omega
    have hkraft := solve_kraft h
    obtain ⟨xs, ys, rfl⟩ := List.append_of_mem hl
    have hshares (ls : List Leaf) :
        ls.length ≤ (ls.map fun x => 2 ^ (8 - (fileGet (solve (xs ++ l :: ys)) x.run).toNat)).sum := by
      rw [← List.length_map]
      exact List.length_le_sum_of_one_le _ (List.forall_mem_map.2 fun _ _ => Nat.one_le_two_pow)
    have htwo := h.two
    have hxs := hshares xs
    have hys := hshares ys
    simp only [List.map_append, List.map_cons, List.sum_append, List.sum_cons, List.length_append, List.length_cons,
      hzero] at hkraft htwo
    omega
  · obtain ⟨sel, hlen, hsel, -, -, hcount, -⟩ := solve_eq_chosen h
    rw [hcount l hl, ← hlen]
    exact hsel.count_le h.distinct.of_map l

/-- "runs outside the trial keep `LEN = 0`" (R130 d). -/
theorem solve_outside (h : TrialDomain trial) {r : Run} (hr : r ∉ trial.map Leaf.run) : fileGet (solve trial) r = 0#4 := by
  obtain ⟨sel, -, hsel, -, hget, -, -⟩ := solve_eq_chosen h
  have hmem : r ∉ sel.flatten.map Leaf.run := fun hmem => hr <| by
    obtain ⟨l, hl, rfl⟩ := List.mem_map.1 hmem
    exact List.mem_map_of_mem (hsel.subset l hl)
  rw [hget, List.count_eq_zero_of_not_mem hmem]

/-- PM_SOLVE's lengths cost no more than any lengths that obey Kraft's inequality (R120). -/
theorem solve_optimal (h : TrialDomain trial) {len : Run → Nat}
    (hkraft : (trial.map fun l => 2 ^ (8 - len l.run)).sum ≤ 2 ^ 8) :
    (trial.map fun l => (fileGet (solve trial) l.run).toNat * l.weight).sum ≤
      (trial.map fun l => len l.run * l.weight).sum := by
  obtain ⟨sel, -, hsel, -, -, hcount, hweight⟩ := solve_eq_chosen h
  calc (trial.map fun l => (fileGet (solve trial) l.run).toNat * l.weight).sum
      = (trial.map fun l => sel.flatten.count l * l.weight).sum := by
        rw [List.map_congr_left fun l hl => by rw [hcount l hl]]
    _ = leavesWeight sel.flatten := (sum_eq_sum_count h.distinct.of_map hsel.subset _).symm
    _ ≤ (trial.map fun l => len l.run * l.weight).sum := hweight ▸ (accepted_cheapest h hkraft).2

end

/-! ## The command -/

/-- PM_SOLVE's next state on any trial list: LEN over the start-of-command state (R40, R128). -/
theorem exec_pmSolve (s : State) :
    exec .pmSolve s = .next { s.startAll 0x20#8 with
      status := .done
      len := if trialOk s.args.trial then solve s.args.trial
        else Config.unstatedLengths (s.args.trial.map fun l => (l.weight, l.run)) } := by
  rw [exec, execPmSolve, startAll_args]
  split <;> rfl

theorem exec_pmSolve_len {s t : State} (hok : trialOk s.args.trial = true) (h : exec .pmSolve s = .next t) :
    t.len = solve s.args.trial := by
  rw [exec_pmSolve, if_pos hok, Host.Outcome.next.injEq] at h
  rw [← h]

/-- Settles O34. -/
theorem pmSolveAlwaysEnds : Obligations.PmSolveAlwaysEnds := fun s => ⟨_, exec_pmSolve s, rfl⟩

/-- Settles O32, from R130's facts about the solver. -/
theorem pmSolveResult : Obligations.PmSolveResult := by
  intro s hok
  have h := trialOk_iff.1 hok
  refine ⟨_, exec_pmSolve s, ?_⟩
  rw [if_pos hok]
  exact ⟨fun l hl => solve_range h hl, fun r hr => solve_outside h hr, solve_kraft h, rfl⟩

/-- Settles O35, from the package-merge theorem. -/
theorem pmSolveOptimal : Obligations.PmSolveOptimal := by
  intro s t alt hok ht _ hkraft
  rw [exec_pmSolve_len hok ht]
  exact solve_optimal (trialOk_iff.1 hok) hkraft

/-- Of two lengths from 1 on that together cost no more than 1 and 1 do, one with a weight is 1. -/
theorem eq_one_of_cost_le {x y u v : Nat} (hx : 1 ≤ x) (hy : 1 ≤ y) (hu : 0 < u) (h : x * u + y * v ≤ u + v) : x = 1 := by
  have hv : v ≤ y * v := Nat.le_mul_of_pos_left v hy
  have hle : x * u ≤ 1 * u := by omega
  exact Nat.le_antisymm (Nat.le_of_mul_le_mul_right hle hu) hx

/-- Settles O33: length 1 for both obeys Kraft's inequality, and no other lengths from 1 on cost as little. -/
theorem pmSolveTwoRuns : Obligations.PmSolveTwoRuns := by
  intro s t a b hok harg ht
  have h := trialOk_iff.1 hok
  have hcost := solve_optimal h (len := fun _ => 1) (by simp)
  have hlen := exec_pmSolve_len (by rwa [harg]) ht
  rw [harg] at hlen
  have ha := (solve_range h (l := a) (by simp)).1
  have hb := (solve_range h (l := b) (by simp)).1
  have hwa := Nat.zero_lt_of_lt (h.weights a (by simp))
  have hwb := Nat.zero_lt_of_lt (h.weights b (by simp))
  simp only [List.map_cons, List.map_nil, List.sum_cons, List.sum_nil, Nat.one_mul, Nat.add_zero] at hcost
  rw [hlen]
  exact ⟨BitVec.eq_of_toNat_eq (eq_one_of_cost_le ha hb hwa hcost),
    BitVec.eq_of_toNat_eq (eq_one_of_cost_le (v := a.weight) hb ha hwb (by omega))⟩

end Sys2Proof.Machine
end

section
/-! QUAL and TRIAL_SEARCH: the qualifying leaves in order (R121), the trials in PM_SOLVE's domain (R122, R128), and the trial
the search keeps (R149, R151). -/

namespace Sys2Proof.Machine

/-! ## The qualifying leaves -/

/-- The leaf of a run (R121). -/
def leafOf (freq : RunFile Nat) (r : Run) : Leaf := { weight := fileGet freq r, run := r }

theorem qualifying_perm (freq : RunFile Nat) :
    (qualifying freq).Perm ((allRuns.filter fun r => decide (2 ≤ fileGet freq r)).map (leafOf freq)) :=
  sortBy_perm _ _

/-- A leaf for every run of frequency 2 or more (R121). -/
theorem mem_qualifying {freq : RunFile Nat} {l : Leaf} :
    l ∈ qualifying freq ↔ l.weight = fileGet freq l.run ∧ 2 ≤ l.weight := by
  rw [(qualifying_perm freq).mem_iff, List.mem_map]
  constructor
  · rintro ⟨r, hr, rfl⟩
    exact ⟨rfl, of_decide_eq_true (List.mem_filter.1 hr).2⟩
  · rintro ⟨hweight, htwo⟩
    exact ⟨l.run, by simp [mem_allRuns, ← hweight, htwo], by rw [leafOf, ← hweight]⟩

/-- One leaf for each run (R121). -/
theorem qualifying_distinct (freq : RunFile Nat) : ((qualifying freq).map Leaf.run).Nodup := by
  have hperm := (qualifying_perm freq).map Leaf.run
  rw [List.map_map, show Leaf.run ∘ leafOf freq = id from rfl, List.map_id] at hperm
  exact hperm.nodup_iff.2 (allRuns_nodup.filter _)

theorem length_qualifying_le (freq : RunFile Nat) : (qualifying freq).length ≤ 128 := by
  rw [(qualifying_perm freq).length_eq, List.length_map]
  exact List.length_filter_le _ _

/-- The leaves stand cheapest first, no two at the same place (R121, D7). -/
theorem qualifying_ordered (freq : RunFile Nat) :
    (qualifying freq).Pairwise fun a b => leafBefore a b = true := by
  have hsorted : (qualifying freq).Pairwise fun a b => leafBefore b a = false := by
    refine sortBy_sorted _ ?_ ?_ _ <;> simp only [← Bool.not_eq_true, leafBefore_iff] <;> omega
  refine (hsorted.and (List.pairwise_map.1 (qualifying_distinct freq))).imp fun {a b} ⟨hnot, hne⟩ => ?_
  have hkey : (Run.key a.run).val ≠ (Run.key b.run).val := fun e => hne (key_injective (Fin.ext e))
  rw [← Bool.not_eq_true, leafBefore_iff] at hnot
  rw [leafBefore_iff]
  omega

/-- Every trial of two leaves or more is in PM_SOLVE's domain (R122, R128). -/
theorem trialLeaves_domain {freq : RunFile Nat} {t : Nat} (htwo : 2 ≤ t) (ht : t ≤ (qualifying freq).length) :
    TrialDomain (trialLeaves (qualifying freq) t) := by
  have hsub : (trialLeaves (qualifying freq) t).Sublist (qualifying freq) := List.drop_sublist _ _
  have hlen : (trialLeaves (qualifying freq) t).length = t := by rw [trialLeaves, List.length_drop]; omega
  exact {
    two := by omega
    most := hsub.length_le.trans (length_qualifying_le freq)
    ordered := (qualifying_ordered freq).sublist hsub
    distinct := (qualifying_distinct freq).sublist (hsub.map _)
    weights := fun l hl => (mem_qualifying.1 (hsub.subset hl)).2 }

/-- Settles O42, part by part. -/
theorem qualifyingLeaves : Obligations.QualifyingLeaves := fun freq =>
  ⟨fun _ => mem_qualifying, qualifying_ordered freq, fun _ htwo ht => trialOk_iff.2 (trialLeaves_domain htwo ht)⟩

/-! ## The trial the search keeps -/

/-- The estimate of the trial of size `t` (R122, R149). -/
def trialCost (freq : RunFile Nat) (t : Nat) : Nat := costOf (trialTable freq t) freq

/-- The best so far is the trial of size `k`: of the sizes from `t` to `q`, the cheapest, the largest among equals (R149). -/
structure State.Keeps (s : State) (t q k : Nat) : Prop where
  least : t ≤ k
  most : k ≤ q
  best : s.best = trialTable s.freq k
  bestEst : s.bestEst = some (trialCost s.freq k)
  cheapest : ∀ u, t ≤ u → u ≤ q → trialCost s.freq k ≤ trialCost s.freq u
  largest : ∀ u, k < u → u ≤ q → trialCost s.freq k < trialCost s.freq u

/-- The working state of the search outside its results: QUAL from FREQ, the forest discarded (R121, R131). -/
structure State.Searching (s : State) : Prop where
  qual : s.qual = qualifying s.freq
  forest : s.forest = { coins := [], pkgs := [] }

@[simp] theorem keepBest_freq (s : State) : s.keepBest.freq = s.freq := by
  rcases keepBest_cases s with ⟨-, e⟩ | ⟨-, e⟩ <;> rw [e]

@[simp] theorem keepBest_qual (s : State) : s.keepBest.qual = s.qual := by
  rcases keepBest_cases s with ⟨-, e⟩ | ⟨-, e⟩ <;> rw [e]

@[simp] theorem keepBest_forest (s : State) : s.keepBest.forest = s.forest := by
  rcases keepBest_cases s with ⟨-, e⟩ | ⟨-, e⟩ <;> rw [e]

@[simp] theorem trial_freq (s : State) (t : Nat) : (s.trial t).freq = s.freq := by simp [trial_eq]

@[simp] theorem trial_qual (s : State) (t : Nat) : (s.trial t).qual = s.qual := by simp [trial_eq]

/-- The forest of a trial is discarded (R32, R131). -/
@[simp] theorem trial_forest (s : State) (t : Nat) : (s.trial t).forest = { coins := [], pkgs := [] } := by
  simp [trial_eq, State.tried]

theorem State.Searching.trial {s : State} (h : s.Searching) (t : Nat) : (s.trial t).Searching :=
  ⟨by simp [h.qual], by simp⟩

theorem State.Searching.tried_results {s : State} (h : s.Searching) (t : Nat) :
    (s.tried t).code = trialTable s.freq t ∧ (s.tried t).est = trialCost s.freq t := by
  simp [trialTable, trialCost, h.qual]

/-- The first trial is kept: its estimate is below +inf (R149). -/
theorem State.Searching.trial_first {s : State} (h : s.Searching) (hnone : s.bestEst = none) (q : Nat) :
    (s.trial q).Keeps q q q := by
  obtain ⟨hcode, hest⟩ := h.tried_results q
  have hkept : s.trial q = { s.tried q with best := (s.tried q).code, bestEst := some (s.tried q).est } := by
    rw [trial_eq, State.keepBest, if_pos (by simp [hnone, betterThan])]
  exact {
    least := le_rfl
    most := le_rfl
    best := by rw [trial_freq, hkept, ← hcode]
    bestEst := by rw [trial_freq, hkept, ← hest]
    cheapest := fun u hu hq => by rw [Nat.le_antisymm hq hu]
    largest := fun u hu hq => by omega }

/-- A trial one size smaller is kept when it costs strictly less, and else the one before stays (R149, R151). -/
theorem State.Searching.trial_next {s : State} (h : s.Searching) {t q k : Nat} (hkeeps : s.Keeps (t + 1) q k) :
    ∃ k', (s.trial t).Keeps t q k' := by
  obtain ⟨hleast, hmost, hbest, hbestEst, hcheapest, hlargest⟩ := hkeeps
  obtain ⟨hcode, hest⟩ := h.tried_results t
  rcases keepBest_cases (s.tried t) with ⟨hless, hkept⟩ | ⟨hless, hkept⟩ <;>
    simp only [betterThan, tried_bestEst, hbestEst, hest, decide_eq_true_eq, decide_eq_false_iff_not] at hless
  · refine ⟨t, le_rfl, by omega, ?_, ?_, ?_, ?_⟩ <;> rw [trial_freq]
    · rw [trial_eq, hkept, ← hcode]
    · rw [trial_eq, hkept, ← hest]
    · intro u hu hq
      rcases hu.eq_or_lt with rfl | hu
      · exact le_rfl
      · exact hless.le.trans (hcheapest u hu hq)
    · exact fun u hu hq => hless.trans_le (hcheapest u hu hq)
  · refine ⟨k, by omega, hmost, ?_, ?_, ?_, ?_⟩ <;> rw [trial_freq]
    · rw [trial_eq, hkept, tried_best, hbest]
    · rw [trial_eq, hkept, tried_bestEst, hbestEst]
    · intro u hu hq
      rcases hu.eq_or_lt with rfl | hu
      · exact Nat.le_of_not_lt hless
      · exact hcheapest u hu hq
    · exact hlargest

/-- The trials keep FREQ, and QUAL and the forest as a search has them. -/
theorem State.Searching.trials {s : State} (h : s.Searching) (n : Nat) :
    (State.trials n s).freq = s.freq ∧ (State.trials n s).Searching := by
  induction n generalizing s with
  | zero => exact ⟨rfl, h⟩
  | succ n ih => simpa [State.trials] using ih (h.trial (n + 2))

/-- The trials down to size 2 keep the cheapest of all, the largest among equals (R149, R151). -/
theorem State.Searching.trials_keep {s : State} (h : s.Searching) {n q k : Nat} (hkeeps : s.Keeps (n + 2) q k) :
    ∃ k', (State.trials n s).Keeps 2 q k' := by
  induction n generalizing s k with
  | zero => exact ⟨k, hkeeps⟩
  | succ n ih =>
    obtain ⟨k', hkeeps'⟩ := h.trial_next hkeeps
    exact ih (h.trial _) hkeeps'

/-! ## The command -/

/-- The state TRIAL_SEARCH issued alone starts its trials from (R40, R149). -/
def State.searchAlone (s : State) : State := { s.startAll 0x32#8 with freq := s.args.freq }.searchStart

theorem searchAlone_searching (s : State) : s.searchAlone.Searching := ⟨rfl, rfl⟩

theorem exec_trialSearch (s : State) :
    exec .trialSearch s = .next (State.trials ((qualifying s.args.freq).length - 1) s.searchAlone).finish := rfl

/-- TRIAL_SEARCH issued alone writes what the search owns, over the start-of-command state (R26, R40). -/
theorem trialSearch_frame {s t : State} (h : exec .trialSearch s = .next t) :
    t = { s.startAll 0x32#8 with
          status := .done, freq := s.args.freq, best := t.best, bestEst := t.bestEst, qual := t.qual,
          trialSize := t.trialSize, len := t.len, code := t.code, est := t.est } := by
  rw [exec_trialSearch, Host.Outcome.next.injEq] at h
  have hframe := trials_frame ((qualifying s.args.freq).length - 1) s.searchAlone
  obtain ⟨-, -, hforest⟩ := (searchAlone_searching s).trials ((qualifying s.args.freq).length - 1)
  generalize State.trials ((qualifying s.args.freq).length - 1) s.searchAlone = u at *
  rw [← h, hframe, State.searched, hforest]
  rfl

/-- With two qualifying runs or more the search keeps a trial (R122, R149). -/
theorem searchAlone_keeps {s : State} (hq : 2 ≤ (qualifying s.args.freq).length) :
    ∃ k, (State.trials ((qualifying s.args.freq).length - 1) s.searchAlone).Keeps 2 (qualifying s.args.freq).length k := by
  have hsearch := searchAlone_searching s
  generalize (qualifying s.args.freq).length = q at *
  obtain ⟨n, rfl⟩ := Nat.exists_eq_add_of_le' hq
  rw [Nat.add_succ_sub_one, State.trials]
  exact (hsearch.trial (n + 2)).trials_keep (hsearch.trial_first rfl (n + 2))

/-- Settles O41: no trial below two qualifying runs, and the trial kept from two on. -/
theorem trialSearchResult : Obligations.TrialSearchResult := by
  intro s
  obtain ⟨hfreq, hqual, -⟩ := (searchAlone_searching s).trials ((qualifying s.args.freq).length - 1)
  refine ⟨_, exec_trialSearch s, ?_, ?_, ?_, trialSearch_frame (exec_trialSearch s)⟩
  · rw [finish_qual, hqual, hfreq]
    rfl
  · intro hfew
    rw [show (qualifying s.args.freq).length - 1 = 0 by omega, finish_best, finish_bestEst, finish_len, finish_code]
    exact ⟨rfl, rfl, rfl, rfl⟩
  · intro hq
    obtain ⟨k, hkeeps⟩ := searchAlone_keeps hq
    obtain ⟨hleast, hmost, hbest, hbestEst, hcheapest, hlargest⟩ := hkeeps
    rw [hfreq] at hbest hbestEst hcheapest hlargest
    rw [finish_best, finish_bestEst]
    exact ⟨k, hleast, hmost, hbest, hbestEst, fun u hu hle => ⟨hcheapest u hu hle, fun hk => hlargest u hk hle⟩⟩

end Sys2Proof.Machine
end

section
/-! The estimate of COST_EST is exact (R148): it is what PACK writes, in bits (R175). -/

namespace Sys2Proof.Machine

/-! ## The bytes of a packed sequence -/

/-- A table takes a byte for each marker and two for each entry (R173). -/
theorem length_tableBytes (last : Option Nibble) (es : List (Run × Codeword)) :
    (tableBytes last es).length = markersFrom last (es.map fun e => e.1.nib) + 2 * es.length := by
  induction es generalizing last with
  | nil => rfl
  | cons e es ih =>
    simp only [tableBytes, List.length_append, ih, List.map_cons, markersFrom, List.length_cons, List.length_nil]
    split <;> simp only [List.length_nil, List.length_cons] <;> omega

/-- The bytes before the bitstream: the header's two, the table's, the terminator (R171 to R174). -/
theorem length_packTable (x : Bool) (t : BitVec 15) (f : RunFile (Option Codeword)) :
    (packTable x t f).1.out.length =
      3 + markersFrom none ((tableEntries f).map fun e => e.1.nib) + 2 * (tableEntries f).length := by
  rw [packTable_out]
  simp only [List.length_append, length_tableBytes, List.length_cons, List.length_nil]
  omega

/-- PACK writes whole bytes: the table's, and the runs' bits completed to a byte (R65, R175). -/
theorem length_packBytes (x : Bool) (t : BitVec 15) (f : RunFile (Option Codeword)) (rs : List Run) :
    8 * (packBytes x t f rs).length =
      roundup8 (8 * (packTable x t f).1.out.length + (rs.flatMap (runBits f)).length) := by
  obtain ⟨body, hbody⟩ := (packRuns_prefix f (packTable x t f).1 rs).trans (flush_prefix _)
  have hpack : packBytes x t f rs = (packTable x t f).1.out ++ body := hbody.symm
  obtain ⟨pad, hpad, hbits⟩ := packBytes_body hpack
  have hlen := congrArg List.length hbits
  rw [byteBits_length, List.length_append, List.length_replicate] at hlen
  rw [hpack, List.length_append, roundup8]
  omega

/-! ## The bits of the runs -/

/-- A run's occurrences cost the bits PACK sends for it, each: its codeword or the 13 bits of an escape (R93, R147,
R175). -/
theorem runCost_eq (f : RunFile (Option Codeword)) (freq : RunFile Nat) (r : Run) :
    runCost f freq r = (runBits f r).length * fileGet freq r := by
  cases hf : codeAt f r with
  | some cw => simp only [runCost, runBits, hf, Codeword.path, codewordPath, bitsOf_length]
  | none =>
    simp only [runCost, runBits, hf]
    rfl

/-- A sum over a sequence of runs, each run's share counted as often as it occurs (R22, R114 e). -/
theorem sum_mul_tally (w : Run → Nat) (rs : List Run) :
    (allRuns.map fun r => w r * fileGet (tally rs) r).sum = (rs.map w).sum := by
  calc (allRuns.map fun r => w r * fileGet (tally rs) r).sum
      = ∑ r ∈ allRuns.toFinset, rs.count r • w r := by
        simp only [fileGet_tally, List.sum_toFinset _ allRuns_nodup, smul_eq_mul, Nat.mul_comm]
    _ = ∑ r ∈ rs.toFinset, rs.count r • w r :=
        (Finset.sum_subset (fun r _ => List.mem_toFinset.2 (mem_allRuns r)) fun r _ hr => by
          rw [List.count_eq_zero_of_not_mem fun h => hr (List.mem_toFinset.2 h), zero_smul]).symm
    _ = (rs.map w).sum := (Finset.sum_list_map_count rs w).symm

/-- The estimate's share for the runs, coded and escaped, is the bits PACK sends for them (R93, R147). -/
theorem sum_runCost_tally (f : RunFile (Option Codeword)) (rs : List Run) :
    (allRuns.map (runCost f (tally rs))).sum = (rs.flatMap (runBits f)).length := by
  rw [List.length_flatMap, ← sum_mul_tally (fun r => (runBits f r).length) rs]
  simp only [← runCost_eq]

/-! ## The estimate -/

/-- The estimate over counted runs is the size of the table and the runs' bits, in whole bytes (R147). -/
theorem costOf_tally (x : Bool) (t : BitVec 15) (f : RunFile (Option Codeword)) (rs : List Run) :
    costOf f (tally rs) =
      roundup8 (8 * (packTable x t f).1.out.length + (rs.flatMap (runBits f)).length) := by
  have hruns := coded_add_escaped f (tally rs) allRuns
  rw [← tableEntries, sum_runCost_tally] at hruns
  rw [costOf, tableCost_eq, length_packTable, ← hruns, Config.fixedOverheadBits]
  generalize escapeCost f (tally rs) allRuns = escaped
  refine congrArg roundup8 ?_
  omega

/-- The estimate COST_EST leaves is of its arguments (R100, R147). -/
theorem costEst_est {s t : State} (h : exec .costEst s = .next t) : t.est = costOf s.args.code s.args.freq := by
  cases h
  rfl

/-- Settles O40: both are the table's bytes and the runs' bits, in whole bytes. -/
theorem costEstExact : Obligations.CostEstExact := by
  intro s t x tiles rs hfreq h
  rw [costEst_est h, hfreq, costOf_tally x tiles, length_packBytes]

end Sys2Proof.Machine
end

section
/-! CANON_GEN, code by code (R141 to R145): the loop of R144 gives each run of the order the first candidate from its LEN
on that is not reserved. And the reserved candidates are those that meet the escape codeword (R142). -/

namespace Sys2Proof.Machine

/-! ## The reserved candidates -/

/-- A reserved candidate begins the escape codeword or begins with it (R142). -/
theorem reserved_meets_escape {l code : Nat} (h : reserved code l = true) :
    bitsOf l code <+: escapePath ∨ escapePath <+: bitsOf l code := by
  unfold reserved at h
  split at h
  · rename_i hl
    rw [beq_iff_eq] at h
    subst h
    change l ≤ 6 at hl
    left
    interval_cases l <;> decide
  · rename_i hl
    rw [beq_iff_eq, Nat.shiftRight_eq_div_pow] at h
    obtain ⟨k, rfl⟩ := Nat.exists_eq_add_of_le (Nat.le_of_not_le hl)
    right
    rw [escapePath, bitsOf_add, ← h, Nat.add_sub_cancel_left]
    exact List.prefix_append _ _

/-- Settles O36: each direction by the leading bits. -/
theorem reservedMeetsEscape : Obligations.ReservedMeetsEscape := by
  intro l _ hl code hcode
  refine ⟨reserved_meets_escape, fun hmeets => ?_⟩
  by_contra hfree
  obtain ⟨hbegins, hbegun⟩ := not_reserved_escape hl hcode (Bool.eq_false_iff.2 hfree)
  exact hmeets.elim hbegins hbegun

/-- The first candidate of all is not reserved (R144). -/
theorem reserved_zero {l : Nat} (hl : 0 < l) : reserved 0 l = false := by
  unfold reserved
  split
  · have := Nat.one_lt_two_pow hl.ne'
    rw [beq_eq_false_iff_ne]
    omega
  · rw [Nat.zero_shiftRight]
    rfl

/-! ## What one run is given -/

/-- What a run of solver length `len` is given, by code and length, when `base` is the candidate at length `l` (R142,
R143): the candidate at the first length from `l` and `len` on where it is not reserved, or nothing when it is up to 8. -/
structure NextCode (l base len : Nat) (got : Option (Nat × Nat)) : Prop where
  /-- The code it gets is the candidate at its length. -/
  given : ∀ c, got = some c →
    len ≤ c.2 ∧ l ≤ c.2 ∧ c.2 ≤ 8 ∧ c.1 = base * 2 ^ (c.2 - l) ∧ reserved (base * 2 ^ (c.2 - l)) c.2 = false ∧
      ∀ m, len ≤ m → l ≤ m → m < c.2 → reserved (base * 2 ^ (m - l)) m = true
  /-- It has none only when it is demoted out of length 8 (R145 d). -/
  demoted : got = none → ∀ m, len ≤ m → l ≤ m → m ≤ 8 → reserved (base * 2 ^ (m - l)) m = true

/-- A run that may take the candidate at hand takes it (R144 inner loop). -/
theorem NextCode.here {l base len : Nat} (hlen : len ≤ l) (hl : l ≤ 8) (hfree : reserved base l = false) :
    NextCode l base len (some (base, l)) where
  given c hc := by
    cases hc
    rw [Nat.sub_self, Nat.pow_zero, Nat.mul_one]
    exact ⟨hlen, le_refl l, hl, rfl, hfree, fun m _ hlm hml => absurd hlm (Nat.not_le_of_lt hml)⟩
  demoted h := by cases h

/-- A run that may not take it waits for the next length, the candidate shifted left (R143, R144 outer loop). -/
theorem NextCode.wait {l base len : Nat} {got : Option (Nat × Nat)} (hwait : l < len ∨ reserved base l = true)
    (h : NextCode (l + 1) (base * 2) len got) : NextCode l base len got := by
  have hshift : ∀ m, l + 1 ≤ m → base * 2 * 2 ^ (m - (l + 1)) = base * 2 ^ (m - l) := fun m hm => by
    rw [show m - l = m - (l + 1) + 1 by omega, Nat.pow_succ]
    ring
  have hbefore : ∀ m, len ≤ m → l ≤ m → m < l + 1 → reserved (base * 2 ^ (m - l)) m = true := fun m hlen hlm hml => by
    obtain rfl : m = l := by omega
    rw [Nat.sub_self, Nat.pow_zero, Nat.mul_one]
    exact hwait.resolve_left (Nat.not_lt_of_le hlen)
  constructor
  · intro c hc
    obtain ⟨hlen, hlc, h8, hcode, hfree, hlow⟩ := h.given c hc
    rw [hshift c.2 hlc] at hcode hfree
    refine ⟨hlen, by omega, h8, hcode, hfree, fun m hm hlm hmc => ?_⟩
    rcases Nat.lt_or_ge m (l + 1) with hml | hml
    · exact hbefore m hm hlm hml
    · exact hshift m hml ▸ hlow m hm hml hmc
  · intro hnone m hm hlm h8
    rcases Nat.lt_or_ge m (l + 1) with hml | hml
    · exact hbefore m hm hlm hml
    · exact hshift m hml ▸ h.demoted hnone m hm hml h8

/-! ## What the runs are given one after another -/

/-- The codes of a list of runs of solver lengths `val`, from the candidate `base` at length `l` on: each run is given the
next code, and once one has none no run after it has any (R143, R144). -/
inductive HandedOut (val : Run → Nat) : (l base : Nat) → List Run → List (Nat × Nat) → Prop where
  | done {l base : Nat} : HandedOut val l base [] []
  | dropped {l base : Nat} {r : Run} {rs : List Run} (h : NextCode l base (val r) none) :
      HandedOut val l base (r :: rs) []
  | given {l base : Nat} {r : Run} {rs : List Run} {c : Nat × Nat} {cs : List (Nat × Nat)}
      (h : NextCode l base (val r) (some c)) (hrest : HandedOut val c.2 (c.1 + 1) rs cs) :
      HandedOut val l base (r :: rs) (c :: cs)

/-- The first run is given the next code. -/
theorem HandedOut.head {val : Run → Nat} {l base : Nat} {rs : List Run} {cs : List (Nat × Nat)} {r : Run}
    (h : HandedOut val l base rs cs) (hr : rs[0]? = some r) : NextCode l base (val r) cs[0]? := by
  cases h with
  | done => cases hr
  | dropped h => cases hr; exact h
  | given h => cases hr; exact h

/-- A run after one with a code is given the next code after it. -/
theorem HandedOut.next {val : Run → Nat} {l base i : Nat} {rs : List Run} {cs : List (Nat × Nat)} {r : Run}
    {c : Nat × Nat} (h : HandedOut val l base rs cs) (hc : cs[i]? = some c) (hr : rs[i + 1]? = some r) :
    NextCode c.2 (c.1 + 1) (val r) cs[i + 1]? := by
  induction h generalizing i with
  | done => cases hc
  | dropped => cases hc
  | given _ hrest ih =>
    cases i with
    | zero => cases hc; exact hrest.head hr
    | succ i => exact ih hc hr

/-- When the first run may not take the candidate at hand, all wait for the next length. -/
theorem HandedOut.wait {val : Run → Nat} {l base : Nat} {rs : List Run} {cs : List (Nat × Nat)}
    (hwait : (∀ r ∈ rs, l < val r) ∨ reserved base l = true) (h : HandedOut val (l + 1) (base * 2) rs cs) :
    HandedOut val l base rs cs := by
  have hhead : ∀ r ∈ rs, l < val r ∨ reserved base l = true := fun r hr => hwait.imp_left fun hlong => hlong r hr
  cases h with
  | done => exact .done
  | dropped h => exact .dropped (h.wait (hhead _ (by simp)))
  | given h hrest => exact .given (h.wait (hhead _ (by simp))) hrest

/-! ## The loop over the lengths -/

/-- Where R144's loop stands before length `l`: the runs not yet given a code ascend in LEN, `carry` of them have one below
`l`, and `own` counts the others by LEN. -/
structure Waiting (own : Nat → Nat) (val : Run → Nat) (l carry : Nat) (rs : List Run) : Prop where
  /-- The order of assignment never goes down in LEN (R141). -/
  ascending : rs.Pairwise fun a b => val a ≤ val b
  /-- The runs carried are those demoted from the lengths before (R143). -/
  carried : carry = rs.countP fun r => decide (val r < l)
  /-- Each later length has its own runs (R144). -/
  counted : ∀ m, l ≤ m → own m = rs.countP fun r => decide (val r = m)

section
variable {own : Nat → Nat} {val : Run → Nat} {l carry : Nat} {rs : List Run}

/-- At a length its own runs join those carried there (R143). -/
theorem Waiting.join (h : Waiting own val l carry rs) : Waiting own val (l + 1) (own l + carry) rs where
  ascending := h.ascending
  carried := by
    rw [h.counted l (le_refl l), h.carried]
    clear h
    induction rs with
    | nil => rfl
    | cons r rs ih =>
      simp only [List.countP_cons, ← ih, decide_eq_true_eq]
      split_ifs <;> omega
  counted m hm := h.counted m (by omega)

/-- With none carried, every run has its own length still to come. -/
theorem Waiting.none_short (h : Waiting own val l 0 rs) : ∀ r ∈ rs, l ≤ val r := by
  intro r hr
  have := List.countP_eq_zero.1 h.carried.symm r hr
  simpa using this

/-- With one carried, the first run is: the others go on waiting without it. -/
theorem Waiting.pop (h : Waiting own val l (carry + 1) rs) :
    ∃ r rest, rs = r :: rest ∧ val r < l ∧ Waiting own val l carry rest := by
  obtain ⟨hasc, hcarried, hcounted⟩ := h
  cases rs with
  | nil => cases hcarried
  | cons r rest =>
    obtain ⟨hfirst, hasc⟩ := List.pairwise_cons.1 hasc
    have hshort : val r < l := by
      by_contra hlong
      have hnone : (r :: rest).countP (fun r => decide (val r < l)) = 0 := by
        refine List.countP_eq_zero.2 fun a ha => ?_
        rcases List.mem_cons.1 ha with rfl | ha
        · simpa using hlong
        · have := hfirst a ha
          simp only [decide_eq_true_eq]
          omega
      omega
    rw [List.countP_cons_of_pos (by simpa using hshort)] at hcarried
    refine ⟨r, rest, rfl, hshort, hasc, by omega, fun m hm => ?_⟩
    rw [hcounted m hm, List.countP_cons_of_neg (by simp only [decide_eq_true_eq]; omega)]

/-- The codes of one length, and then those of the lengths after it, to `cnt` runs that may have that length (R144 inner
loop). -/
theorem handedOut_length {n cnt base : Nat} (hl : l ≤ 8)
    (hlater : ∀ {carry base : Nat} {rs : List Run}, Waiting own val (l + 1) carry rs →
      HandedOut val (l + 1) base rs (codesFrom own n (l + 1) base carry))
    (h : Waiting own val (l + 1) cnt rs) :
    HandedOut val l base rs ((codesOf l cnt base).map (fun code => (code, l)) ++
      codesFrom own n (l + 1) ((base + (codesOf l cnt base).length) * 2) (cnt - (codesOf l cnt base).length)) := by
  induction cnt generalizing base rs with
  | zero => exact .wait (.inl h.none_short) (hlater h)
  | succ cnt ih =>
    rw [codesOf]
    split
    · rename_i hres
      exact .wait (.inr hres) (hlater h)
    · rename_i hfree
      obtain ⟨r, rest, rfl, hshort, hrest⟩ := h.pop
      have htail := ih (base := base + 1) hrest
      rw [Nat.add_assoc, Nat.add_comm 1] at htail
      rw [List.length_cons, Nat.add_sub_add_right]
      exact .given (.here (Nat.le_of_lt_succ hshort) hl (Bool.eq_false_iff.2 hfree)) htail

/-- R144's loop hands the codes out run by run. -/
theorem handedOut_codesFrom {n base : Nat} (hn : l + n = 9) (h : Waiting own val l carry rs) :
    HandedOut val l base rs (codesFrom own n l base carry) := by
  induction n generalizing l base carry rs with
  | zero =>
    cases rs with
    | nil => exact .done
    | cons r rs => exact .dropped ⟨fun c hc => (by cases hc), fun _ m _ hlm h8 => (by omega)⟩
  | succ n ih => exact handedOut_length (by omega) (fun h => ih (by omega) h) h.join

end

/-! ## CODE, entry by entry -/

theorem canonOrder_nodup (len : RunFile (BitVec 4)) (freq : RunFile Nat) : (canonOrder len freq).Nodup :=
  (sortBy_perm _ _).nodup_iff.2 (allRuns_nodup.filter _)

/-- The order of assignment is strict (R141). -/
theorem canonOrder_strict (len : RunFile (BitVec 4)) (freq : RunFile Nat) :
    (canonOrder len freq).Pairwise fun a b => canonBefore len freq a b = true := by
  have hsorted : (canonOrder len freq).Pairwise fun a b => canonBefore len freq b a = false := by
    refine sortBy_sorted _ ?_ ?_ _ <;> simp only [← Bool.not_eq_true, canonBefore_iff] <;> omega
  refine (hsorted.and (canonOrder_nodup len freq)).imp fun {a b} ⟨hnot, hne⟩ => ?_
  have hkey : (Run.key a).val ≠ (Run.key b).val := fun e => hne (key_injective (Fin.ext e))
  rw [← Bool.not_eq_true, canonBefore_iff] at hnot
  rw [canonBefore_iff]
  omega

/-- A run before another has the smaller place in the order (R141). -/
theorem lt_of_canonBefore {len : RunFile (BitVec 4)} {freq : RunFile Nat} {i j : Nat} {a b : Run}
    (ha : (canonOrder len freq)[i]? = some a) (hb : (canonOrder len freq)[j]? = some b)
    (hab : canonBefore len freq a b = true) : i < j := by
  obtain ⟨hi, rfl⟩ := List.getElem?_eq_some_iff.1 ha
  obtain ⟨hj, rfl⟩ := List.getElem?_eq_some_iff.1 hb
  rw [canonBefore_iff] at hab
  rcases Nat.lt_trichotomy i j with hlt | rfl | hgt
  · exact hlt
  · omega
  · have hba := List.pairwise_iff_getElem.1 (canonOrder_strict len freq) j i hj hi hgt
    rw [canonBefore_iff] at hba
    omega

/-- A run that is not assigned keeps its entry (R144). -/
theorem assignCodes_other {rs : List Run} {r : Run} (h : r ∉ rs) (cs : List (Nat × Nat))
    (f : RunFile (Option Codeword)) :
    fileGet (assignCodes rs cs f) r = fileGet f r := by
  induction rs generalizing cs f with
  | nil => rfl
  | cons a rs ih =>
    obtain ⟨hne, hrest⟩ := not_or.1 (mt List.mem_cons.2 h)
    cases cs with
    | nil => rfl
    | cons c cs => rw [assignCodes, ih hrest, fileGet_fileSet_other _ _ (Ne.symm hne)]

/-- The i-th run gets the i-th code, and keeps its entry when there is none (R144). -/
theorem assignCodes_getElem? {rs : List Run} (hrs : rs.Nodup) {i : Nat} {r : Run} (hr : rs[i]? = some r)
    (cs : List (Nat × Nat)) (f : RunFile (Option Codeword)) :
    fileGet (assignCodes rs cs f) r = (cs[i]?.map codewordOf).or (fileGet f r) := by
  induction rs generalizing i cs f with
  | nil => cases hr
  | cons a rs ih =>
    obtain ⟨hnew, hrs⟩ := List.nodup_cons.1 hrs
    cases cs with
    | nil => rfl
    | cons c cs =>
      cases i with
      | zero =>
        cases hr
        rw [assignCodes, assignCodes_other hnew, fileGet_fileSet_same]
        rfl
      | succ i =>
        have hne : a ≠ r := fun e => hnew (e ▸ List.mem_of_getElem? hr)
        rw [assignCodes, ih hrs hr, fileGet_fileSet_other _ _ hne]
        rfl

section
variable {len : RunFile (BitVec 4)} {freq : RunFile Nat}

/-- The codes CANON_GEN hands out along its order (R144). -/
def canonList (len : RunFile (BitVec 4)) (freq : RunFile Nat) : List (Nat × Nat) := canonCodes len (canonOrder len freq)

/-- CODE at the i-th run of the order is the i-th code (R144). -/
theorem canonical_getElem? {i : Nat} {r : Run} (hr : (canonOrder len freq)[i]? = some r) :
    fileGet (canonical len freq) r = (canonList len freq)[i]?.map codewordOf := by
  rw [canonical, assignCodes_getElem? (canonOrder_nodup len freq) hr, fileGet_noCodes, Option.or_none]
  rfl

/-- The codes are handed out along the order, from the candidate 0 at length 1 on (R144). -/
theorem handedOut_canonList (len : RunFile (BitVec 4)) (freq : RunFile Nat) :
    HandedOut (fun r => (fileGet len r).toNat) 1 0 (canonOrder len freq) (canonList len freq) := by
  refine handedOut_codesFrom rfl ⟨canonOrder_sorted len freq, ?_, fun m _ => ?_⟩
  · refine (List.countP_eq_zero.2 fun r hr => ?_).symm
    have := mem_canonOrder.1 hr
    simp only [decide_eq_true_eq]
    omega
  · rw [List.countP_eq_length_filter]
    rfl

/-- A code handed out is stored as its number and its length (R142, R144). -/
theorem canonList_stored {c : Nat × Nat} (h : c ∈ canonList len freq) :
    (codewordOf c).len.toNat = c.2 ∧ (codewordOf c).bits.toNat = c.1 := by
  obtain ⟨⟨-, -, hlt, -⟩, hmax⟩ := (codesFrom_spec _ 0 (by decide)).1 _ h
  obtain ⟨hlen, hbits, -⟩ := codewordOf_fits (Nat.le_of_lt_succ hmax) hlt
  exact ⟨hlen, hbits⟩

/-- A code later in the list is past an earlier one (R145 c). -/
theorem canonList_past {i j : Nat} {c d : Nat × Nat} (hij : i < j) (hc : (canonList len freq)[i]? = some c)
    (hd : (canonList len freq)[j]? = some d) : CodePast c d := by
  obtain ⟨hi, rfl⟩ := List.getElem?_eq_some_iff.1 hc
  obtain ⟨hj, rfl⟩ := List.getElem?_eq_some_iff.1 hd
  exact List.pairwise_iff_getElem.1 (codesFrom_spec _ 0 (by decide)).2 i j hi hj hij

/-! ## The parts of the statement -/

/-- The first run gets the code 0 at its LEN (R144). -/
theorem canonical_head {r : Run} (hr : (canonOrder len freq).head? = some r) (h8 : (fileGet len r).toNat ≤ 8) :
    fileGet (canonical len freq) r = some { bits := 0#8, len := fileGet len r } := by
  rw [List.head?_eq_getElem?] at hr
  have hpos := mem_canonOrder.1 (List.mem_of_getElem? hr)
  have hnext := (handedOut_canonList len freq).head hr
  rw [canonical_getElem? hr]
  cases hc : (canonList len freq)[0]? with
  | none =>
    have hres := hnext.demoted hc _ (le_refl _) hpos h8
    rw [Nat.zero_mul, reserved_zero hpos] at hres
    cases hres
  | some c =>
    obtain ⟨hlen, -, -, hcode, -, hlow⟩ := hnext.given c hc
    rw [Nat.zero_mul] at hcode
    have heq : c.2 = (fileGet len r).toNat := by
      by_contra hne
      have hres := hlow _ (le_refl _) hpos (by omega)
      rw [Nat.zero_mul, reserved_zero hpos] at hres
      cases hres
    rw [Option.map_some, codewordOf, hcode, heq, BitVec.ofNat_toNat, BitVec.setWidth_eq]

/-- After a run with a codeword the next one gets the next candidate that is not reserved (R142 to R144). -/
theorem canonical_next {i : Nat} {a b : Run} {ca : Codeword} (ha : (canonOrder len freq)[i]? = some a)
    (hb : (canonOrder len freq)[i + 1]? = some b) (hca : fileGet (canonical len freq) a = some ca) :
    CodeAfter ca (fileGet len b).toNat (fileGet (canonical len freq) b) := by
  rw [canonical_getElem? ha] at hca
  obtain ⟨c, hc, rfl⟩ := Option.map_eq_some_iff.1 hca
  obtain ⟨hclen, hcbits⟩ := canonList_stored (List.mem_of_getElem? hc)
  obtain ⟨hgiven, hdemoted⟩ := (handedOut_canonList len freq).next hc hb
  rw [canonical_getElem? hb]
  constructor <;> simp only [candidateAfter, hclen, hcbits]
  · intro cb hcb
    obtain ⟨d, hd, rfl⟩ := Option.map_eq_some_iff.1 hcb
    obtain ⟨hdlen, hdbits⟩ := canonList_stored (List.mem_of_getElem? hd)
    rw [hdlen, hdbits]
    exact hgiven d hd
  · intro hnone
    exact hdemoted (Option.map_eq_none_iff.1 hnone)

/-- After a run without a codeword no run has one (R144, R145 d). -/
theorem canonical_next_none {i : Nat} {a b : Run} (ha : (canonOrder len freq)[i]? = some a)
    (hb : (canonOrder len freq)[i + 1]? = some b) (hnone : fileGet (canonical len freq) a = none) :
    fileGet (canonical len freq) b = none := by
  rw [canonical_getElem? ha, Option.map_eq_none_iff, List.getElem?_eq_none_iff] at hnone
  rw [canonical_getElem? hb, Option.map_eq_none_iff, List.getElem?_eq_none_iff]
  omega

/-- A run of LEN 0, or of a LEN past 8, gets no codeword (R141, R144). -/
theorem canonical_none {r : Run} (h : (fileGet len r).toNat = 0 ∨ 9 ≤ (fileGet len r).toNat) :
    fileGet (canonical len freq) r = none := by
  rw [Option.eq_none_iff_forall_ne_some]
  intro cw hcw
  obtain ⟨c, hc, -⟩ := canonical_some hcw
  obtain ⟨-, h8, -, -⟩ := canonPairs_code hc
  obtain ⟨hpos, hle⟩ := canonPairs_len hc
  simp only at h8 hpos hle
  omega

/-- A run of the order before one with a codeword has a codeword: a shorter one, or a smaller one as long (R145 c,
d). -/
theorem canonical_before {a b : Run} {cb : Codeword} (hlen : 0 < (fileGet len a).toNat)
    (hab : canonBefore len freq a b = true) (hcb : fileGet (canonical len freq) b = some cb) :
    ∃ ca, fileGet (canonical len freq) a = some ca ∧
      (ca.len.toNat < cb.len.toNat ∨ (ca.len = cb.len ∧ ca.bits.toNat < cb.bits.toNat)) := by
  have hblen : 0 < (fileGet len b).toNat := by
    rw [canonBefore_iff] at hab
    omega
  obtain ⟨i, hi⟩ := List.mem_iff_getElem?.1 (mem_canonOrder (freq := freq).2 hlen)
  obtain ⟨j, hj⟩ := List.mem_iff_getElem?.1 (mem_canonOrder (freq := freq).2 hblen)
  have hij := lt_of_canonBefore hi hj hab
  rw [canonical_getElem? hj] at hcb
  obtain ⟨d, hd, rfl⟩ := Option.map_eq_some_iff.1 hcb
  obtain ⟨hjlt, -⟩ := List.getElem?_eq_some_iff.1 hd
  have hc := List.getElem?_eq_getElem (hij.trans hjlt)
  obtain ⟨hle, hval⟩ := canonList_past hij hc hd
  obtain ⟨hclen, hcbits⟩ := canonList_stored (List.mem_of_getElem? hc)
  obtain ⟨hdlen, hdbits⟩ := canonList_stored (List.mem_of_getElem? hd)
  refine ⟨_, by rw [canonical_getElem? hi, hc]; rfl, ?_⟩
  rw [← BitVec.toNat_inj, hclen, hcbits, hdlen, hdbits]
  rcases Nat.lt_or_eq_of_le hle with hlt | heq
  · exact .inl hlt
  · rw [heq, Nat.sub_self, Nat.pow_zero, Nat.mul_one] at hval
    exact .inr ⟨heq, hval⟩

end

/-- CANON_GEN writes CODE over the start-of-command state (R26, R40, R100). -/
theorem exec_canonGen_frame (s : State) :
    exec .canonGen s = .next { s.startAll 0x30#8 with
      status := .done, len := s.args.len, freq := s.args.freq, code := canonical s.args.len s.args.freq } := rfl

/-- Settles O38, part by part, over the order of assignment. -/
theorem canonGenOrder : Obligations.CanonGenOrder := fun s =>
  ⟨_, canonOrder s.args.len s.args.freq, exec_canonGen_frame s, canonOrder_strict _ _, fun _ => mem_canonOrder,
    fun _ hr h8 => canonical_head hr h8,
    fun _ _ _ ha hb => ⟨fun _ hca => canonical_next ha hb hca, canonical_next_none ha hb⟩,
    fun _ hr => canonical_none hr,
    fun _ _ _ hlen hab hcb => canonical_before hlen hab hcb,
    rfl⟩

end Sys2Proof.Machine
end

section
/-! XOR_ENC and XOR_DEC in closed form (R161 to R166): each rule XORs a byte with the one its lane took four positions
earlier, an input byte for XDIFF and an output byte for XACC. -/

namespace Sys2Proof.Machine

/-! ## The lanes as a window -/

/-- What a lane takes at each position of a pass: the input under XDIFF, the output under XACC (R162, R163). -/
def LaneRule.taken {α : Type} (rule : LaneRule) (input output : α) : α :=
  match rule with
  | .diff => input
  | .acc => output

theorem laneStep_fst (rule : LaneRule) (lanes : Vector Byte 4) (pos : Nat) (b : Byte) :
    (laneStep rule lanes pos b).1 = b ^^^ lanes[laneIndex pos] := by
  cases rule with
  | diff => rfl
  | acc => exact BitVec.xor_comm _ _

theorem laneStep_snd (rule : LaneRule) (lanes : Vector Byte 4) (pos : Nat) (b : Byte) :
    (laneStep rule lanes pos b).2 =
      lanes.set (laneIndex pos) (LaneRule.taken rule b (laneStep rule lanes pos b).1) := by
  cases rule <;> rfl

/-- The lanes in the order the next four positions touch them (R161). -/
def laneWindow (lanes : Vector Byte 4) (pos : Nat) : List Byte :=
  (List.range 4).map fun d => lanes[laneIndex (pos + d)]

theorem laneIndex_add_four (pos : Nat) : laneIndex (pos + 4) = laneIndex pos :=
  Fin.ext (Nat.add_mod_right pos 4)

theorem laneIndex_ne {pos d : Nat} (hpos : 0 < d) (hlt : d < 4) :
    (laneIndex pos).val ≠ (laneIndex (pos + d)).val := by
  simp only [laneIndex]
  omega

/-- A position takes the first byte of the window, and what its lane takes comes into the window last. -/
theorem laneWindow_set (lanes : Vector Byte 4) (pos : Nat) (k : Byte) :
    laneWindow lanes pos ++ [k] = lanes[laneIndex pos] :: laneWindow (lanes.set (laneIndex pos) k) (pos + 1) := by
  have hother (d : Nat) (hpos : 0 < d) (hlt : d < 4) :
      (lanes.set (laneIndex pos) k)[laneIndex (pos + d)] = lanes[laneIndex (pos + d)] :=
    Vector.getElem_set_ne _ _ (laneIndex_ne hpos hlt)
  have hsame : (lanes.set (laneIndex pos) k)[laneIndex (pos + 4)] = k := by
    simp only [laneIndex_add_four]
    exact Vector.getElem_set_self _
  simp only [laneWindow, List.range_succ, List.range_zero, List.nil_append, List.cons_append, List.map_cons,
    List.map_nil, Nat.add_assoc, Nat.add_zero, Nat.reduceAdd, hsame, hother _ one_pos (by decide : 1 < 4),
    hother _ two_pos (by decide : 2 < 4), hother _ three_pos (by decide : 3 < 4)]

theorem laneWindow_zeroLanes (pos : Nat) : laneWindow zeroLanes pos = List.replicate 4 0#8 := by
  simp [laneWindow, zeroLanes, List.range_succ, List.replicate]

/-- A lane in the window: the one a position touched is touched next four positions on. -/
theorem laneWindow_getElem? (lanes : Vector Byte 4) {n i : Nat} (hlt : i < n) (hle : n ≤ i + 4) :
    (laneWindow lanes n)[i + 4 - n]? = some lanes[laneIndex i] := by
  have hnext : n + (i + 4 - n) = i + 4 := Nat.add_sub_cancel' hle
  simp only [laneWindow, List.getElem?_map, List.getElem?_range (show i + 4 - n < 4 by omega), Option.map_some, hnext,
    laneIndex_add_four]

/-! ## A pass in closed form -/

/-- The lanes as a pass finds them, and after them what they take: at each position the pass meets the byte its lane
took four positions earlier. -/
def laneHistory (rule : LaneRule) (lanes : Vector Byte 4) (pos : Nat) (bs : List Byte) : List Byte :=
  laneWindow lanes pos ++ LaneRule.taken rule bs (xorPass rule lanes pos bs).1

theorem laneHistory_nil (rule : LaneRule) (lanes : Vector Byte 4) (pos : Nat) :
    laneHistory rule lanes pos [] = laneWindow lanes pos := by
  cases rule <;> exact List.append_nil _

theorem laneHistory_cons (rule : LaneRule) (lanes : Vector Byte 4) (pos : Nat) (b : Byte) (bs : List Byte) :
    laneHistory rule lanes pos (b :: bs) =
      lanes[laneIndex pos] :: laneHistory rule (laneStep rule lanes pos b).2 (pos + 1) bs := by
  rw [laneHistory, laneHistory, ← List.cons_append, laneStep_snd, ← laneWindow_set, List.append_assoc,
    List.singleton_append, ← laneStep_snd, xorPass_cons]
  cases rule <;> rfl

/-- A pass XORs its input with the history of the lanes (R162, R163). -/
theorem xorPass_fst (rule : LaneRule) (lanes : Vector Byte 4) (pos : Nat) (bs : List Byte) :
    (xorPass rule lanes pos bs).1 = List.zipWith (· ^^^ ·) bs (laneHistory rule lanes pos bs) := by
  induction bs generalizing lanes pos with
  | nil => rfl
  | cons b bs ih => rw [laneHistory_cons, List.zipWith_cons_cons, ← ih, ← laneStep_fst, xorPass_cons]

/-- The lanes a pass ends with are the end of their history (R164, R165). -/
theorem laneWindow_xorPass (rule : LaneRule) (lanes : Vector Byte 4) (pos : Nat) (bs : List Byte) :
    laneWindow (xorPass rule lanes pos bs).2 (pos + bs.length) = (laneHistory rule lanes pos bs).drop bs.length := by
  induction bs generalizing lanes pos with
  | nil => exact (laneHistory_nil rule lanes pos).symm
  | cons b bs ih =>
    rw [laneHistory_cons, List.length_cons, List.drop_succ_cons, ← ih, xorPass_cons,
      show pos + 1 + bs.length = pos + (bs.length + 1) by omega]

/-- What the lanes took over a whole pass (R161). -/
def xorTaken (rule : LaneRule) (bs : List Byte) : List Byte := LaneRule.taken rule bs (xorStream rule bs)

/-- With the lanes 0 at its start, a pass meets four zeros first (R161). -/
theorem laneHistory_zeroLanes (rule : LaneRule) (bs : List Byte) :
    laneHistory rule zeroLanes 0 bs = List.replicate 4 0#8 ++ xorTaken rule bs :=
  congrArg (· ++ xorTaken rule bs) (laneWindow_zeroLanes 0)

@[simp] theorem xorStream_length (rule : LaneRule) (bs : List Byte) : (xorStream rule bs).length = bs.length :=
  xorPass_length _ _ _ _

/-- The output of a whole pass, byte by byte (R162, R163). -/
theorem xorStream_getElem? {rule : LaneRule} {bs : List Byte} {i : Nat} {b : Byte} (hb : bs[i]? = some b) :
    (xorStream rule bs)[i]? = if i < 4 then some b else (xorTaken rule bs)[i - 4]?.map (b ^^^ ·) := by
  rw [xorStream, xorPass_fst, laneHistory_zeroLanes, List.getElem?_zipWith, hb]
  by_cases h : i < 4
  · rw [if_pos h, List.getElem?_append_left (by simpa using h), List.getElem?_replicate_of_lt h]
    exact congrArg some BitVec.xor_zero
  · rw [if_neg h, List.getElem?_append_right (by simpa using h), List.length_replicate]
    cases (xorTaken rule bs)[i - 4]? <;> rfl

/-- Each lane holds the last byte it took in a whole pass (R164, R165). -/
theorem xorPass_lane {rule : LaneRule} {bs : List Byte} {i : Nat} (hlt : i < bs.length) (hle : bs.length ≤ i + 4) :
    (xorTaken rule bs)[i]? = some (xorPass rule zeroLanes 0 bs).2[laneIndex i] := by
  have hlanes := laneWindow_xorPass rule zeroLanes 0 bs
  rw [Nat.zero_add, laneHistory_zeroLanes] at hlanes
  rw [← laneWindow_getElem? _ hlt hle, hlanes, List.getElem?_drop, Nat.add_sub_cancel' hle,
    List.getElem?_append_right (by simp), List.length_replicate, Nat.add_sub_cancel]

/-! ## The commands -/

theorem srcBytes_length (s : State) : s.srcBytes.length = s.argLen := readBytes_length _ _ _

theorem xorStream_srcBytes_length (rule : LaneRule) (s : State) : (xorStream rule s.srcBytes).length = s.argLen :=
  (xorStream_length rule _).trans (srcBytes_length s)

theorem srcBytes_getElem? {s : State} {i : Nat} (h : i < s.argLen) : s.srcBytes[i]? = some (s.src.read i) := by
  rw [State.srcBytes, readBytes_getElem?, if_pos h, Nat.zero_add]

/-- A sequence stored into an empty memory from 0 on, at each of its addresses. -/
theorem getElem?_eq_read_stored {bs : List Byte} {i : Nat} (h : i < bs.length) :
    bs[i]? = some ((Memory.blank.storeBytes 0 bs).read i) := by
  rw [read_storeBytes blank_wf, if_pos (Nat.zero_le i), Nat.sub_zero, List.getElem?_eq_getElem h, Option.getD_some]

/-- XOR_ENC over the start-of-command state: XBUF and DST hold the pass of XDIFF over SRC (R26, R40, R164). -/
theorem exec_xorEnc (s : State) :
    exec .xorEnc s = .next
      { s.startAll 0x40#8 with
        status := .done, dlen := s.argLen, dst := Memory.blank.storeBytes 0 (xorStream .diff s.srcBytes),
        dpos := s.argLen, xbuf := xorStream .diff s.srcBytes, lane := (xorPass .diff zeroLanes 0 s.srcBytes).2,
        lpos := s.argLen, sp := s.argLen } := by
  simp only [exec, execXorEnc, State.finish, State.deliver, State.xorEncode, xorStream_length, srcBytes_length]
  rfl

/-- XOR_DEC over the start-of-command state: DST holds the pass of XACC over SRC (R26, R40, R165). -/
theorem exec_xorDec (s : State) :
    exec .xorDec s = .next
      { s.startAll 0x41#8 with
        status := .done, dlen := s.argLen, dst := Memory.blank.storeBytes 0 (xorStream .acc s.srcBytes),
        dpos := s.argLen, lane := (xorPass .acc zeroLanes 0 s.srcBytes).2, lpos := s.argLen, sp := s.argLen } := by
  simp only [exec, execXorDec, State.finish, State.deliver, xorStream_length, srcBytes_length]
  rfl

/-- Settles O46, from the pass undone by the inverse rule. -/
theorem laneRulesInverse : Obligations.LaneRulesInverse := fun rule lanes pos bs =>
  Prod.ext_iff.1 (xorPass_inverse rule lanes pos bs)

/-- Settles O44: what XDIFF's lanes take is SRC. -/
theorem xorEncResult : Obligations.XorEncResult := by
  intro s
  have hlen := xorStream_srcBytes_length .diff s
  refine ⟨_, exec_xorEnc s, hlen, ?_, fun i hi => ?_, fun j i hi hlast hj => ?_, rfl⟩
  · rw [State.dstBytes, ← hlen]
    exact readBytes_storeBytes blank_wf 0 _
  · rw [xorStream_getElem? (srcBytes_getElem? hi)]
    split
    · rfl
    · rw [xorTaken, LaneRule.taken, srcBytes_getElem? (by omega), Option.map_some]
  · obtain rfl : laneIndex i = j := Fin.ext hj
    have hlane := xorPass_lane (rule := .diff) (srcBytes_length s ▸ hi) (srcBytes_length s ▸ hlast)
    rw [xorTaken, LaneRule.taken, srcBytes_getElem? hi] at hlane
    exact (Option.some.inj hlane).symm

/-- Settles O45: what XACC's lanes take is what DST receives. -/
theorem xorDecResult : Obligations.XorDecResult := by
  intro s
  have hlen := xorStream_srcBytes_length .acc s
  have hdst {i : Nat} (hi : i < s.argLen) := getElem?_eq_read_stored (hlen.symm ▸ hi)
  refine ⟨_, exec_xorDec s, fun i hi => ?_, ?_, fun j i hi hlast hj => ?_, rfl⟩
  · have hout := xorStream_getElem? (rule := .acc) (srcBytes_getElem? hi)
    rw [hdst hi] at hout
    split at hout
    case isTrue h => rw [if_pos h]; exact Option.some.inj hout
    case isFalse h =>
      rw [xorTaken, LaneRule.taken, hdst (by omega), Option.map_some] at hout
      rw [if_neg h]; exact Option.some.inj hout
  · rw [State.dstBytes, ← hlen, readBytes_storeBytes blank_wf]
  · obtain rfl : laneIndex i = j := Fin.ext hj
    have hlane := xorPass_lane (rule := .acc) (srcBytes_length s ▸ hi) (srcBytes_length s ▸ hlast)
    rw [xorTaken, LaneRule.taken, hdst hi] at hlane
    exact (Option.some.inj hlane).symm

end Sys2Proof.Machine
end

section
/-! What a command keeps while it reads a stream (R27, R38, R62), and that the bits still unread tell where its cursor stands. -/

namespace Sys2Proof.Machine

/-! ## While a stream is read -/

/-- A command that started in `s` is reading its stream and has raised nothing: SRC and ARG_LEN are the host's (R38), the
cursor stands inside SRC (R27), and the bit reader holds less than a byte (R62). -/
structure Reading (s u : State) : Prop where
  src : u.src = s.src
  argLen : u.argLen = s.argLen
  err : u.err = .none
  within : u.sp ≤ u.argLen
  unreadBits : u.brLeft ≤ 7

/-- The decoder takes bytes from the cursor one after another, and skips none (R60, R62). -/
theorem decodeAt_instr_taken {r : Region} {node : Node} {rd rd' : Reader} {i : Instr} (hr : r ≠ .command)
    (h : decodeAt r node rd = .instr i rd') : rd'.taken + rd'.bytes.length = rd.taken + rd.bytes.length := by
  rcases decodeAt_instr hr h with ⟨n, rfl⟩ | ⟨hpast, -⟩
  · rcases decodeAt_readAt h with rfl | ⟨-, b, c, l, k, htent⟩
    · cases h; rfl
    · cases htent
  · exact hpast.2

/-- A fetch in a stream that delivers an element is the decoder's answer at the cursor (R89, R90). -/
theorem fetch_instr_decoded {s u : State} {i : Instr} (hp : s.phase ≠ .command) (h : s.fetch = .instr i u) :
    ∃ rd, decodeAt s.region (s.trie.at s.tcur) s.reader = .instr i rd ∧ u = s.putReader rd := by
  rw [State.fetch, State.fetchReader, if_neg hp] at h
  cases hd : decodeAt s.region (s.trie.at s.tcur) s.reader with
  | instr j rd =>
    simp only [hd, State.afterFetch, if_neg hp, Fetched.instr.injEq] at h
    obtain ⟨rfl, rfl⟩ := h
    exact ⟨rd, rfl, rfl⟩
  | short path rd => rw [hd] at h; cases h
  | noChild path rd => rw [hd] at h; cases h
  | unknownCommand code => rw [hd] at h; cases h

theorem Reading.putReader {s u : State} {rd : Reader} (h : Reading s u)
    (htaken : rd.taken + rd.bytes.length = u.reader.taken + u.reader.bytes.length) (hn : rd.nleft ≤ 7) :
    Reading s (u.putReader rd) := by
  have hwithin := h.within
  simp only [State.reader, readBytes_length] at htaken
  exact { h with within := by simp only [putReader_sp, putReader_argLen]; omega, unreadBits := hn }

theorem ElementDoes.reading {s u t : State} {i : Instr} (h : ElementDoes u i t) (hu : Reading s u)
    (ht : t.status ≠ .fault) : Reading s t := by
  cases h with
  | tableEnd trie hesc => exact { hu with unreadBits := Nat.zero_le 7 }
  | tableDone trie => exact { hu with unreadBits := Nat.zero_le 7 }
  | expanded _ r hi hfits honly => rw [expandRun_frame]; exact { hu with }
  | fault _ tcur k hk => exact absurd rfl ht
  | _ => exact { hu with }

theorem region_ne_command {s : State} (hp : s.phase ≠ .command) : s.region ≠ .command := by
  unfold State.region
  split
  · simp
  · exact hp

/-- An element that raises no fault reads on in the same stream. -/
theorem elementStep_reading {s u t : State} (hp : u.phase ≠ .command) (hu : Reading s u) (h : elementStep u = .next t)
    (ht : t.status ≠ .fault) : Reading s t := by
  rw [elementStep] at h
  cases hf : u.fetch with
  | raised v =>
    obtain ⟨rd, tcur, k, -, -, rfl⟩ := fetch_raised hf
    rw [hf] at h
    cases h
    exact absurd rfl ht
  | instr i v =>
    obtain ⟨rd, hd, rfl⟩ := fetch_instr_decoded hp hf
    have hbits := decodeAt_holdsBits u.region (u.trie.at u.tcur) (rd := u.reader) hu.unreadBits
    rw [hd] at hbits
    rw [hf] at h
    exact (runElement_does h).reading (hu.putReader (decodeAt_instr_taken (region_ne_command hp) hd) hbits) ht

/-- Elements that raise no fault read on in the same stream. -/
theorem Reaches.reading {s u t : State} (h : Reaches u t) (hp : u.phase ≠ .command) (hu : Reading s u)
    (ht : t.status ≠ .fault) : Reading s t := by
  suffices hboth : (t.status ≠ .fault → Reading s t) ∧ (t.status = .busy → t.phase ≠ .command) from hboth.1 ht
  clear ht
  induction h with
  | refl => exact ⟨fun _ => hu, fun _ => hp⟩
  | tail _ hstep ih =>
    obtain ⟨hb, he⟩ := hstep
    obtain ⟨hreading, hphase⟩ := ih
    refine ⟨elementStep_reading (hphase hb) (hreading (by simp [hb])) he, fun hbusy => ?_⟩
    obtain ⟨t', ht', hgoes⟩ := elementStep_goes hb (hphase hb)
    rw [he, Host.Outcome.next.injEq] at ht'
    subst ht'
    rcases hgoes with hend | ⟨-, hstream, -⟩
    · exact absurd hbusy (ended_not_busy hend)
    · exact hstream

/-- When less than a byte is unread before the bytes that remain, SP is past exactly those before them (R27, R62). -/
theorem Reading.sp_eq {s u : State} (h : Reading s u) {bs rest : List Byte} {pad : Nat} (hsrc : s.srcBytes = bs ++ rest)
    (hpad : pad < 8) (hu : u.reader.unread = List.replicate pad false ++ byteBits rest) : u.sp = bs.length := by
  have hread : u.reader.unread.length = u.brLeft + 8 * (u.argLen - u.sp) := by
    rw [Reader.unread, List.length_append, bitsOf_length, ← byteBits, byteBits_length, State.reader, readBytes_length]
  rw [hu, List.length_append, List.length_replicate, byteBits_length] at hread
  have harg := congrArg List.length hsrc
  rw [srcBytes_length, List.length_append, ← h.argLen] at harg
  have hwithin := h.within
  have hbits := h.unreadBits
  omega

/-- A command that interprets a stream ends in the state at rest that its elements lead to (R269). -/
theorem runElements_reaches {s t : State} (h : Reaches s t) (hb : s.status = .busy) (hp : s.phase ≠ .command)
    (ht : t.status ≠ .busy) : runElements s.elementBound s = .next t := by
  have hfuel : s.bitsLeft < s.elementBound := by
    simp only [State.bitsLeft, State.elementBound]
    omega
  obtain ⟨t', hr, hend⟩ := runElements_ends hb hp hfuel
  exact h.unique ht hr (ended_not_busy hend) ▸ hr

end Sys2Proof.Machine
end

section
/-! UNPACK_TABLE on the header and table PACK writes (R171 to R174, R186 to R194). -/

namespace Sys2Proof.Machine

/-! ## The header -/

/-- The state after the header (R186). -/
def State.headerRead (s : State) (x : Bool) (tiles : BitVec 15) : State :=
  { s with sp := s.sp + 2, xflag := x, tiles := tiles, phase := .table }

/-- The header PACK writes gives its flag and its tile count; the table's bytes come next (R171, R186). -/
theorem stepped_header {s : State} {x : Bool} {tiles : BitVec 15} {f : RunFile (Option Codeword)} {more : List Byte}
    (hb : s.status = .busy) (hp : s.phase = .header)
    (hbytes : s.reader.bytes = (packTable x tiles f).1.out ++ more) :
    Stepped s (s.headerRead x tiles) ∧
      (s.headerRead x tiles).reader.bytes = tableBytes none (tableEntries f) ++ 0xFF#8 :: more := by
  obtain ⟨hflag, htiles⟩ := headerWord_fields x tiles
  have hlayout : s.reader.bytes = (headerWord x tiles).extractLsb' 8 8 :: (headerWord x tiles).extractLsb' 0 8 ::
      (tableBytes none (tableEntries f) ++ 0xFF#8 :: more) := by
    rw [hbytes, packTable_out]
    simp
  constructor
  · exact ⟨hb, by rw [elementStep_hdr hp hlayout, hflag, htiles, State.headerRead]⟩
  · rw [reader_bytes_drop s (s.headerRead x tiles) 2 rfl rfl rfl, hlayout]
    rfl

/-! ## The table -/

/-- The leaves of a table's trie: each entry's run at the end of its codeword, and the escape leaf (R190, R193). -/
def tableLeaves (f : RunFile (Option Codeword)) : List (List Bool × Node) :=
  (tableEntries f).map entryLeaf ++ [(escapePath, .leafEsc)]

/-- The trie holds a leaf at a path exactly when it was put there. -/
theorem TrieHolds.at_eq_leaf_iff {node leaf : Node} {es : List (List Bool × Node)} (h : TrieHolds node es)
    (hleaf : Node.isLeaf leaf = true) (path : List Bool) : node.at path = leaf ↔ (path, leaf) ∈ es := by
  constructor
  · rintro rfl
    obtain ⟨e, he, rfl⟩ := h.only path hleaf
    rw [(h.leaf e he).2]
    exact he
  · intro he
    exact (h.leaf _ he).2

theorem mem_tableLeaves_run {f : RunFile (Option Codeword)} (hf : CodesOk f) (path : List Bool) (r : Run) :
    (path, Node.leafRun r) ∈ tableLeaves f ↔ ∃ cw, fileGet f r = some cw ∧ Codeword.path cw = path := by
  simp [tableLeaves, entryLeaf, mem_tableEntries, hf.codeAt_eq, and_comm]

theorem mem_tableLeaves_esc (f : RunFile (Option Codeword)) (path : List Bool) :
    (path, Node.leafEsc) ∈ tableLeaves f ↔ path = escapePath := by
  simp [tableLeaves, entryLeaf]

/-- A TEND that finds the escape codeword free ends UNPACK_TABLE issued alone (R193, R194). -/
theorem execTend_alone {s : State} {trie : Node} (hins : insertAt .leafEsc escapePath s.trie = some trie)
    (honly : s.tableOnly = true) : execTend s = .next (s.bitsAt s.sp s.ctx trie).finish := by
  rw [execTend_eq, hins]
  simp only [if_pos honly]

/-- UNPACK_TABLE's way from the table's first byte to its end: every entry is inserted and then the escape leaf, and the
bits of the bytes after the terminator are unread (R187, R193, R194). -/
theorem reaches_tableDone {f : RunFile (Option Codeword)} {s : State} {more : List Byte} (hf : CodesOk f)
    (hb : s.status = .busy) (hp : s.phase = .table) (honly : s.tableOnly = true) (htrie : s.trie = emptyRoot)
    (hbytes : s.reader.bytes = tableBytes s.ctx (tableEntries f) ++ 0xFF#8 :: more) :
    ∃ sp ctx trie, Reaches s (s.bitsAt sp ctx trie).finish ∧
      (s.bitsAt sp ctx trie).finish.reader.unread = byteBits more ∧ TrieHolds trie (tableLeaves f) := by
  obtain ⟨hentries, hpaths⟩ := hf.entries
  obtain ⟨sp, ctx, trie, hreach, hmore, hholds⟩ := reaches_table (ds := []) hb hp (htrie ▸ TrieHolds.empty)
    (fun e he => (hentries e he).1) (by simpa using hpaths) hbytes
  rw [List.nil_append] at hholds
  have hfree : ∀ d ∈ (tableEntries f).map entryLeaf, Apart d.1 escapePath := by
    intro d hd
    obtain ⟨e, he, rfl⟩ := List.mem_map.1 hd
    exact (hentries e he).2
  obtain ⟨trie', hins, hholds'⟩ := hholds.insert (leaf := .leafEsc) (by decide) rfl hfree
  have hend : Stepped (s.tableAt sp ctx trie) (s.bitsAt (sp + 1) ctx trie').finish := by
    have hdone := execTend_alone (s := { s.tableAt sp ctx trie with sp := sp + 1 }) hins honly
    exact ⟨hb, (elementStep_tend rfl hmore).trans hdone⟩
  refine ⟨sp + 1, ctx, trie', hreach.tail hend, ?_, hholds'⟩
  rw [Reader.unread, reader_bytes_drop (s.tableAt sp ctx trie) (s.bitsAt (sp + 1) ctx trie').finish 1 rfl rfl rfl, hmore]
  rfl

/-! ## The command -/

/-- The state UNPACK_TABLE reads its elements from (R194). -/
def State.tableAlone (s : State) : State := (s.startAll 0x60#8).tableStart

theorem tableAlone_reading (s : State) : Reading s s.tableAlone :=
  ⟨rfl, rfl, rfl, Nat.zero_le _, Nat.zero_le _⟩

/-- Settles O48: the entries are inserted one after another into an empty trie, the escape leaf last. -/
theorem unpackTableResult : Obligations.UnpackTableResult := by
  intro s x tiles f rest hf hsrc
  have hbytes : s.tableAlone.reader.bytes = (packTable x tiles f).1.out ++ rest := hsrc
  obtain ⟨hheader, htable⟩ := stepped_header rfl rfl hbytes
  obtain ⟨sp, ctx, trie, hreach, hunread, hholds⟩ := reaches_tableDone hf rfl rfl rfl rfl htable
  have hreaches : Reaches s.tableAlone ((s.tableAlone.headerRead x tiles).bitsAt sp ctx trie).finish :=
    hreach.head hheader
  have hstream : s.tableAlone.phase ≠ .command := by simp [State.tableAlone, State.tableStart]
  have hreading := hreaches.reading hstream (tableAlone_reading s) (by simp)
  have hsp : sp = (packTable x tiles f).1.out.length := hreading.sp_eq (pad := 0) hsrc (by decide) hunread
  refine ⟨_, runElements_reaches hreaches rfl hstream (by simp), fun path r => ?_, fun path => ?_, ?_⟩
  · exact (hholds.at_eq_leaf_iff rfl path).trans (mem_tableLeaves_run hf path r)
  · exact (hholds.at_eq_leaf_iff rfl path).trans (mem_tableLeaves_esc f path)
  · rw [← hsp]
    rfl

end Sys2Proof.Machine
end

section
/-! DECODE of what PACK writes, with the cursor past exactly those bytes (R176, R199, R220). -/

namespace Sys2Proof.Machine

/-- An even number of nibbles are the nibbles of that many bytes (R53, R111). -/
theorem exists_nibblesOf (n : Nat) {ns : List Nibble} (h : ns.length = 2 * n) :
    ∃ bs, nibblesOf bs = ns ∧ bs.length = n := by
  induction n generalizing ns with
  | zero => exact ⟨[], (List.length_eq_zero_iff.1 h).symm, rfl⟩
  | succ n ih =>
    match ns, h with
    | hi :: lo :: ns, h =>
      obtain ⟨bs, hbs, hlen⟩ := ih (ns := ns) (by simp only [List.length_cons] at h; omega)
      refine ⟨[hi ++ lo] ++ bs, ?_, by simp [hlen]⟩
      rw [nibblesOf_append, nibblesOf_pair, hbs]
      rfl

theorem decodeStart_reading (s : State) : Reading s s.decodeStart :=
  ⟨rfl, rfl, rfl, Nat.zero_le _, Nat.zero_le _⟩

/-- DECODE of a stream PACK wrote raises nothing, and leaves SP past exactly PACK's bytes, whatever follows them (R176,
R199). -/
theorem exec_decode_packed_cursor {s : State} {x : Bool} {tiles : BitVec 15} {f : RunFile (Option Codeword)}
    {rs : List Run} {rest : List Byte} (hf : CodesOk f) (hlen : (runNibbles rs).length = tiles.toNat * 64)
    (hsrc : s.srcBytes = packBytes x tiles f rs ++ rest) :
    ∃ t, exec .decode s = .next t ∧ Reading s t ∧ t.sp = (packBytes x tiles f rs).length := by
  obtain ⟨body, hbody⟩ := (packRuns_prefix f (packTable x tiles f).1 rs).trans (flush_prefix _)
  obtain ⟨pad, hpad, hbits⟩ := packBytes_body (x := x) (t := tiles) (f := f) (rs := rs) hbody.symm
  have hbytes : s.decodeStart.reader.bytes = (packTable x tiles f).1.out ++ (body ++ rest) := by
    rw [← List.append_assoc, hbody]
    exact hsrc
  obtain ⟨hheader, htable⟩ := stepped_header rfl rfl hbytes
  obtain ⟨sp, ctx, trie, hreach, hunread, htrie⟩ := reaches_bits hf rfl rfl rfl rfl htable
  have hin : InBits f ((s.decodeStart.headerRead x tiles).bitsAt sp ctx trie) := ⟨rfl, rfl, rfl, htrie, rfl⟩
  have hexpected : ((s.decodeStart.headerRead x tiles).bitsAt sp ctx trie).expectedNibbles = (runNibbles rs).length :=
    hlen.symm
  have hnone : ((s.decodeStart.headerRead x tiles).bitsAt sp ctx trie).outcnt = 0 := rfl
  rw [byteBits_append, hbits, List.append_assoc] at hunread
  obtain ⟨t, hruns, ht, htook, htiles, hrest⟩ := reaches_runs hf hin (by rw [hexpected, hnone, Nat.zero_add]) hunread
  have hfull : t.outcnt = t.expectedNibbles := by
    rw [htook.outcnt, State.expectedNibbles, htiles, ← State.expectedNibbles, hexpected, hnone, Nat.zero_add]
  have hreaches : Reaches s.decodeStart (State.finish { t with xsel := t.xflag }) :=
    (hreach.head hheader).trans (hruns.tail (stepped_pad ht hfull))
  have hreading := hreaches.reading (by simp [State.decodeStart]) (decodeStart_reading s) (by simp)
  exact ⟨_, exec_decode_reaches hreaches (by simp), hreading, hreading.sp_eq hsrc hpad hrest⟩

/-- Settles O53: the runs stand for whole bytes, which DECODE gives back, and the cursor ends where PACK's bytes do. -/
theorem decodeOfPacked : Obligations.DecodeOfPacked := by
  intro s x tiles f rs rest hf hlen hsrc
  obtain ⟨plain, hplain, hbytes⟩ := exists_nibblesOf (tiles.toNat * 32) (ns := runNibbles rs) (by omega)
  obtain ⟨t, ht, hdone, hxsel, hdlen, hdst⟩ := exec_decode_packed hf hplain.symm hbytes hsrc
  obtain ⟨u, hu, hreading, hsp⟩ := exec_decode_packed_cursor hf hlen hsrc
  obtain rfl : t = u := Host.Outcome.next.inj (ht.symm.trans hu)
  exact ⟨t, plain, ht, hplain, hdst, hdone, hreading.err, hxsel, hdlen.trans hbytes, hsp, hreading.src,
    hreading.argLen⟩

end Sys2Proof.Machine
end

section
/-! Insertion into the trie in its map form (R192), and the elements that insert: TENT and TEND (R188, R193, R194). -/

namespace Sys2Proof.Machine

/-! ## Insertion -/

/-- No leaf stands on the way to the end of a path, and the end is free (R192). -/
structure FreePath (node : Node) (path : List Bool) : Prop where
  way : ∀ p, p <+: path → p ≠ path → Node.isLeaf (node.at p) = false
  free : node.at path = .absent

theorem not_freePath_iff {node : Node} {path : List Bool} :
    ¬ FreePath node path ↔
      (∃ p, p <+: path ∧ p ≠ path ∧ Node.isLeaf (node.at p) = true) ∨ node.at path ≠ .absent := by
  constructor
  · intro h
    by_contra hnone
    push Not at hnone
    exact h ⟨fun p hp hne => by simpa using hnone.1 p hp hne, hnone.2⟩
  · rintro (⟨p, hp, hne, hleaf⟩ | htaken) h
    · rw [h.way p hp hne] at hleaf
      cases hleaf
    · exact htaken h.free

/-- Opening a missing child makes no leaf and takes none away (R192). -/
theorem isLeaf_opened_at (node : Node) (q : List Bool) :
    Node.isLeaf ((Node.opened node).at q) = Node.isLeaf (node.at q) := by
  cases q with
  | nil => cases node <;> rfl
  | cons b q => rw [opened_at (by simp)]

/-- Only below an `Inner` is anything inserted (R192). -/
theorem isInner_of_insertAt {leaf node node' : Node} {path : List Bool} (h : insertAt leaf path node = some node') :
    Node.isInner node = true := by
  cases path with
  | nil => cases node <;> cases h
  | cons bit path =>
    cases node with
    | inner clear set => rfl
    | absent => simp [insertAt] at h
    | leafRun r => simp [insertAt] at h
    | leafEsc => simp [insertAt] at h

/-- The last bit of an insertion asks for a free place (R192). -/
theorem free_of_insertAt_last {leaf node node' : Node} {bit : Bool} (h : insertAt leaf [bit] node = some node') :
    node.child bit = .absent := by
  cases node with
  | inner clear set => cases bit <;> simp_all [insertAt, Node.child]
  | absent => rfl
  | leafRun r => rfl
  | leafEsc => rfl

/-- Only a free path takes a leaf (R192). -/
theorem freePath_of_insertAt {leaf node node' : Node} {path : List Bool} (h : insertAt leaf path node = some node') :
    FreePath node path := by
  induction path generalizing node node' with
  | nil => cases node <;> cases h
  | cons bit path ih =>
    have hinner := isInner_of_insertAt h
    have hroot : Node.isLeaf (node.at []) = false := by
      rw [Node.at_nil]
      cases node with
      | inner clear set => rfl
      | _ => cases hinner
    cases path with
    | nil =>
      refine ⟨fun p hp hne => ?_, by simpa using free_of_insertAt_last h⟩
      cases p with
      | nil => exact hroot
      | cons b p => simp_all
    | cons next path =>
      rw [insertAt_down hinner, Option.map_eq_some_iff] at h
      obtain ⟨n, hn, -⟩ := h
      obtain ⟨hway, hend⟩ := ih hn
      refine ⟨fun p hp hne => ?_, by rwa [opened_at (by simp), ← Node.at_cons] at hend⟩
      cases p with
      | nil => exact hroot
      | cons b p =>
        obtain ⟨rfl, hbelow⟩ := List.cons_prefix_cons.1 hp
        rw [Node.at_cons, ← isLeaf_opened_at]
        exact hway p hbelow fun e => hne (e ▸ rfl)

/-- A free path takes a leaf (R192). -/
theorem FreePath.exists_inserted {leaf node : Node} {path : List Bool} (h : FreePath node path) (hne : path ≠ [])
    (hroot : Node.isInner node = true) :
    ∃ node', insertAt leaf path node = some node' ∧ Inserted leaf path node node' := by
  refine insertAt_free hne hroot (fun q hq => ?_) h.free
  by_cases he : q = path
  · rw [he, h.free]
    rfl
  · exact h.way q hq he

/-- An insertion fails exactly where the path is not free (R192). -/
theorem insertAt_eq_none_iff {leaf node : Node} {path : List Bool} (hne : path ≠ [])
    (hroot : Node.isInner node = true) : insertAt leaf path node = none ↔ ¬ FreePath node path := by
  constructor
  · intro h hfree
    obtain ⟨node', hins, -⟩ := hfree.exists_inserted (leaf := leaf) hne hroot
    rw [h] at hins
    cases hins
  · intro h
    by_contra hsome
    obtain ⟨node', hins⟩ := Option.ne_none_iff_exists'.1 hsome
    exact h (freePath_of_insertAt hins)

/-- A leaf inserted at a free path is all that changes off the way to it (R192). -/
theorem Inserted.at_off {leaf node node' : Node} {path q : List Bool} (h : Inserted leaf path node node')
    (hleaf : Node.isLeaf leaf = true) (hfree : node.at path = .absent) (hq : ¬ q <+: path) :
    node'.at q = node.at q := by
  by_cases hbelow : path <+: q
  · obtain ⟨rest, rfl⟩ := hbelow
    have hrest : rest ≠ [] := by
      rintro rfl
      exact hq (by simp)
    rw [h.below, leaf_at_cons hleaf hrest, Node.at_append, hfree, Node.at_absent]
  · exact h.other q hbelow hq

/-- Settles O20: a free path is what an insertion asks for, and the leaf at its end is what it leaves. -/
theorem insertMapForm : Obligations.InsertMapForm := by
  intro leaf trie path hleaf hroot hne
  refine ⟨(insertAt_eq_none_iff hne hroot).trans not_freePath_iff, fun t ht => ?_⟩
  have hfree := freePath_of_insertAt ht
  obtain ⟨t', ht', hins⟩ := hfree.exists_inserted (leaf := leaf) hne hroot
  obtain rfl : t = t' := Option.some.inj (ht.symm.trans ht')
  exact ⟨insertAt_at ht, hins.way, fun q hq => hins.at_off hleaf hfree.free hq⟩

/-! ## TENT -/

/-- A TENT that fails one of its tests puts nothing into the trie (R188). -/
theorem tentTrie_eq_none {ctx : Option Nibble} {trie : Node} {c : BitVec 3} {l : BitVec 4} {k : Byte}
    (h : ctx = none ∨ l.toNat = 0 ∨ 9 ≤ l.toNat ∨ 2 ^ l.toNat ≤ k.toNat ∨
      ∃ n, ctx = some n ∧ insertAt (.leafRun (runOf n c)) (codewordPath k l) trie = none) :
    tentTrie ctx trie c l k = none := by
  cases ctx with
  | none => rfl
  | some n =>
    rw [tentTrie]
    by_cases hlen : l.toNat = 0 ∨ 9 ≤ l.toNat
    · exact if_pos hlen
    rw [if_neg hlen]
    by_cases hbits : 2 ^ l.toNat ≤ k.toNat
    · exact if_pos hbits
    rw [if_neg hbits]
    rcases h with h | h | h | h | ⟨m, hm, hins⟩
    · cases h
    · exact absurd (.inl h) hlen
    · exact absurd (.inr h) hlen
    · exact absurd h hbits
    · cases hm
      exact hins

/-- Settles O19: the tests of a TENT are passed, or one of them fails (R188). -/
theorem tentResult : Obligations.TentResult := by
  intro b c l k s
  refine ⟨fun n trie hctx hlow hhigh hfits hins => ⟨?_, insertAt_at hins⟩, fun hfails => ?_⟩
  · exact execTent_good (b := b) hctx ⟨hlow, hhigh⟩ hfits hins
  · rw [exec, execTent_eq, tentTrie_eq_none hfails]
    rfl

/-! ## TEND -/

theorem tableOnly_iff (s : State) : s.tableOnly = true ↔ s.cmd = 0x60#8 := by
  rw [State.tableOnly, beq_iff_eq]

/-- Settles O21: the escape leaf is put at a free 111111, or TEND raises. -/
theorem tendResult : Obligations.TendResult := by
  intro s hroot
  have hne : escapePath ≠ [] := by decide
  constructor
  · intro hfails
    have hnone := (insertAt_eq_none_iff (leaf := .leafEsc) hne hroot).2 (not_freePath_iff.2 hfails)
    rw [exec, execTend_eq, hnone]
    rfl
  · intro hway hend
    have hfree : FreePath s.trie escapePath := ⟨hway, hend⟩
    obtain ⟨trie, hins, hi⟩ := hfree.exists_inserted (leaf := .leafEsc) hne hroot
    refine ⟨trie, insertAt_at hins, fun q hq => hi.at_off rfl hend hq, fun hcmd => ?_, fun hcmd => ?_⟩
    · exact execTend_good hins (Bool.eq_false_iff.2 fun h => hcmd ((tableOnly_iff s).1 h))
    · exact execTend_alone hins ((tableOnly_iff s).2 hcmd)

end Sys2Proof.Machine
end

section
/-! The header (R82, R186), and a run that does not fit (R198, R201). -/

namespace Sys2Proof.Machine

/-- Two bytes as a big-endian number (R51). -/
theorem toNat_append_bytes (hi lo : Byte) : (hi ++ lo).toNat = hi.toNat * 256 + lo.toNat := by
  rw [BitVec.toNat_append, ← Nat.shiftLeft_add_eq_or_of_lt lo.isLt, Nat.shiftLeft_eq]

/-- The header's fields by the number its bytes stand for (R82). -/
theorem header_fields (w : BitVec 16) :
    w.getLsbD 15 = decide (32768 ≤ w.toNat) ∧ w.setWidth 15 = BitVec.ofNat 15 w.toNat := by
  have hlt := w.isLt
  constructor
  · rw [← BitVec.testBit_toNat, Nat.testBit_eq_decide_div_mod_eq]
    exact decide_eq_decide.2 (by omega)
  · exact BitVec.eq_of_toNat_eq (by simp)

/-- A header cut off is an IoFailure (R60, R186). -/
theorem decodeAt_header_short {s : State} (hp : s.phase = .header) (h : s.argLen < s.sp + 2) (node : Node) :
    decodeAt s.region node s.reader = .short [] s.reader.drained := by
  have hlen : s.reader.bytes.length < 2 := by
    simp only [State.reader, readBytes_length]
    omega
  rw [region_of_not_bits (by simp [hp]), hp]
  simp only [decodeAt, decodeHeader, Reader.read2BE]
  match hb : s.reader.bytes with
  | [] => simp only [Reader.read1, hb]
  | [b] => simp only [Reader.read1, hb]
  | b :: c :: rest => simp only [hb, List.length_cons] at hlen; omega

/-- Settles O16: HDR's effect, the two bytes at the cursor, and a header cut off. -/
theorem headerResult : Obligations.HeaderResult := by
  refine ⟨fun _ _ _ => rfl, fun s hb hp => ⟨fun hsp => ⟨_, ?_, rfl, rfl⟩, fun hsp => ?_⟩⟩
  · have hbytes := reader_bytes_cons (s := s) (by omega)
    have hlen : s.argLen - (s.sp + 1) = s.argLen - (s.sp + 2) + 1 := by omega
    rw [hlen] at hbytes
    obtain ⟨hflag, htiles⟩ := header_fields (s.src.read s.sp ++ s.src.read (s.sp + 1))
    rw [toNat_append_bytes] at hflag htiles
    rw [← elementStep_eq_step hb (by simp [hp]), elementStep_hdr hp hbytes, hflag, htiles]
  · exact ⟨_, step_of_short hb (by simp [hp]) (decodeAt_header_short hp hsp _), rfl, rfl, rfl⟩

/-- A run that does not fit is not emitted (R201). -/
theorem emitRun_overrun {s : State} {r : Run} (h : s.expectedNibbles < s.delivered + Run.count r) :
    s.emitRun r = ({ s with tcur := [] } : State).raise .outputOverrun := if_pos h

/-- Settles O24: the bits lead to the run's leaf, or the run is inline; either way it does not fit. -/
theorem overrunRaises : Obligations.OverrunRaises := by
  constructor
  · intro path r s hroot hleaf hover
    rw [exec, execCode, hroot, Node.at_nil, followPath_leaf hleaf]
    simp only [emitRun_overrun hover, ← hroot]
    rfl
  · intro c n s hover
    have hover : s.expectedNibbles < s.delivered + Run.count (runOf n c) := hover
    rw [exec, execEsc, emitRun_overrun hover]
    rfl

end Sys2Proof.Machine
end

section
/-! Bytes that follow what is read do not matter to the reading (R60, R62, R199). -/

namespace Sys2Proof

/-- The reader with more bytes after those it has. -/
def Reader.more (rd : Reader) (extra : List Byte) : Reader := { rd with bytes := rd.bytes ++ extra }

@[simp] theorem Reader.more_nil (rd : Reader) : rd.more [] = rd := by simp [Reader.more]

section
variable {rd rd' : Reader} {i : Instr} (extra : List Byte)

theorem Reader.read1_more {b : Byte} (h : rd.read1 = some (b, rd')) :
    (rd.more extra).read1 = some (b, rd'.more extra) := by
  obtain ⟨bytes, cur, nleft, taken⟩ := rd
  cases bytes with
  | nil => cases h
  | cons c cs => cases h; rfl

theorem Reader.read2BE_more {w : BitVec 16} (h : rd.read2BE = some (w, rd')) :
    (rd.more extra).read2BE = some (w, rd'.more extra) := by
  unfold Reader.read2BE at h
  split at h
  · cases h
  · rename_i hi rd1 h1
    split at h
    · cases h
    · rename_i lo rd2 h2
      cases h
      simp only [Reader.read2BE, Reader.read1_more extra h1, Reader.read1_more extra h2]

theorem Reader.readBit_more {b : Bool} (h : rd.readBit = some (b, rd')) :
    (rd.more extra).readBit = some (b, rd'.more extra) := by
  obtain ⟨bytes, cur, nleft, taken⟩ := rd
  cases nleft with
  | succ n => cases h; rfl
  | zero =>
    cases bytes with
    | nil => cases h
    | cons c cs => cases h; rfl

theorem Reader.readBits_more {n v w : Nat} (h : Reader.readBits n v rd = some (w, rd')) :
    Reader.readBits n v (rd.more extra) = some (w, rd'.more extra) := by
  induction n generalizing v rd with
  | zero => cases h; rfl
  | succ n ih =>
    rw [Reader.readBits] at h
    split at h
    · cases h
    · rename_i b rd1 h1
      simp only [Reader.readBits, Reader.readBit_more extra h1, ih h]

theorem decodeEntryFrom_more {b : Byte} (h : decodeEntryFrom b rd = .instr i rd') :
    decodeEntryFrom b (rd.more extra) = .instr i (rd'.more extra) := by
  unfold decodeEntryFrom at h
  split at h
  · cases h
  · rename_i k rd1 h1
    cases h
    simp only [decodeEntryFrom, Reader.read1_more extra h1]

theorem decodeEscFields_more {path : List Bool} (h : decodeEscFields path rd = .instr i rd') :
    decodeEscFields path (rd.more extra) = .instr i (rd'.more extra) := by
  unfold decodeEscFields at h
  split at h
  · cases h
  · rename_i c rd1 h1
    split at h
    · cases h
    · rename_i n rd2 h2
      cases h
      simp only [decodeEscFields, Reader.readBits_more extra h1, Reader.readBits_more extra h2]

theorem walk_more {node : Node} {path : List Bool} (h : walk node path rd = .instr i rd') :
    walk node path (rd.more extra) = .instr i (rd'.more extra) := by
  induction node generalizing path rd with
  | absent => cases h
  | leafRun r => cases h; rfl
  | leafEsc => exact decodeEscFields_more extra h
  | inner clear set ihc ihs =>
    rw [walk] at h
    split at h
    · cases h
    · rename_i b rd1 h1
      simp only [walk, Reader.readBit_more extra h1]
      cases b with
      | true => exact ihs h
      | false => exact ihc h

/-- An element the decoder reads, it reads whatever bytes follow (R89, R90). -/
theorem decodeAt_more {r : Region} {node : Node} (h : decodeAt r node rd = .instr i rd') :
    decodeAt r node (rd.more extra) = .instr i (rd'.more extra) := by
  cases r with
  | command =>
    simp only [decodeAt] at h
    split at h
    · cases h
    · rename_i code rd1 h1
      simp only [decodeAt, Reader.read1_more extra h1]
      cases hc : decodeCommand code <;> rw [hc] at h <;> cases h
      rfl
  | header =>
    simp only [decodeAt, decodeHeader] at h
    split at h
    · cases h
    · rename_i w rd1 h1
      cases h
      simp only [decodeAt, decodeHeader, Reader.read2BE_more extra h1]
  | table =>
    simp only [decodeAt, decodeTable] at h
    split at h
    · cases h
    · rename_i b rd1 h1
      simp only [decodeAt, decodeTable, Reader.read1_more extra h1]
      split at h
      · rename_i hend
        cases h
        exact if_pos hend
      · rename_i hend
        rw [if_neg hend]
        split at h
        · rename_i htop
          cases h
          exact if_pos htop
        · rename_i htop
          rw [if_neg htop]
          exact decodeEntryFrom_more extra h
  | entry =>
    simp only [decodeAt, decodeEntry] at h
    split at h
    · cases h
    · rename_i b rd1 h1
      simp only [decodeAt, decodeEntry, Reader.read1_more extra h1]
      exact decodeEntryFrom_more extra h
  | bits =>
    simp only [decodeAt, decodeBits] at h
    split at h
    · cases h
    · rename_i b rd1 h1
      simp only [decodeAt, decodeBits, Reader.readBit_more extra h1]
      exact walk_more extra h
  | tail => cases h; rfl

end

end Sys2Proof
end

section
/-! What a DECODE in progress has put into DST, and what it leaves when it ends DONE (R206 to R210, R220). -/

namespace Sys2Proof.Machine

/-- A run of elements leads along the elements (R185). -/
theorem reaches_of_runElements {fuel : Nat} {s t : State} (h : runElements fuel s = .next t) : Reaches s t := by
  induction fuel generalizing s with
  | zero => rw [runElements] at h; cases h; exact .refl
  | succ fuel ih =>
    by_cases hb : s.status = .busy
    · rw [runElements_busy hb] at h
      cases he : elementStep s with
      | next u => rw [he] at h; exact .head ⟨hb, he⟩ (ih h)
      | fault r => rw [he] at h; cases h
      | refused r => rw [he] at h; cases h
    · rw [runElements_rest hb] at h
      cases h
      exact .refl

/-- DECODE ends where its elements lead (R220). -/
theorem reaches_of_decode {s t : State} (h : exec .decode s = .next t) : Reaches s.decodeStart t :=
  reaches_of_runElements h

/-- UNPACK_TABLE issued alone likewise (R194). -/
theorem reaches_of_unpackTable {s t : State} (h : exec .unpackTable s = .next t) : Reaches s.tableAlone t :=
  reaches_of_runElements h

/-- UNPACK_BITS issued alone likewise (R198). -/
theorem reaches_of_unpackBits {s t : State} (h : exec .unpackBits s = .next t) : Reaches s.bitsAlone t :=
  reaches_of_runElements h

/-- Nothing delivered yet, with a header's flag (R209). -/
def freshOutput (x : Bool) : State := { State.reset with xflag := x }

/-- A DECODE between two elements: what has been delivered is the runs listed, expanded under the header's flag, whatever
flag the header, still to be read, will give (R185, R198, R209). -/
structure Decoding (u : State) : Prop where
  cmd : u.cmd = 0x02#8
  stream : u.status = .busy → u.phase ≠ .command ∧ u.phase ≠ .tail
  inv : u.StreamInv
  took : u.status = .busy → ∀ x, (u.phase ≠ .header → x = u.xflag) →
    TookNibbles (freshOutput x) { u with xflag := x } (runNibbles u.runs)

theorem Decoding.runsOnly {u : State} (h : Decoding u) : u.runsOnly = false := by
  rw [State.runsOnly, h.cmd]
  rfl

theorem Decoding.tableOnly {u : State} (h : Decoding u) : u.tableOnly = false := by
  rw [State.tableOnly, h.cmd]
  rfl

theorem Decoding.putReader {u : State} (h : Decoding u) (rd : Reader) : Decoding (u.putReader rd) :=
  { h with inv := putReader_streamInv h.inv rd }

theorem decodeStart_decoding (s : State) : Decoding s.decodeStart where
  cmd := rfl
  stream _ := by simp [State.decodeStart]
  inv := streamInv_of_early (by simp [State.decodeStart]) ⟨rfl, rfl, rfl, rfl⟩
  took _ x _ := TookNibbles.refl (freshOutput x)

/-- A DECODE that has come to its end. -/
theorem Decoding.of_rest {u : State} (hcmd : u.cmd = 0x02#8) (h : u.status ≠ .busy) : Decoding u where
  cmd := hcmd
  stream hb := absurd hb h
  inv := streamInv_of_rest h
  took hb := absurd hb h

/-- A run that fits is expanded after those before it (R198, R209). -/
theorem Decoding.expanded {u : State} {r : Run} (h : Decoding u) (hb : u.status = .busy) (hp : u.phase = .bits)
    (hfits : u.delivered + Run.count r ≤ u.expectedNibbles) : Decoding ((u.listed r).expandRun r) := by
  have hinv := expanded_streamInv h.inv hb hp hfits h.runsOnly
  have htook : TookNibbles u ((u.listed r).expandRun r) (runNibbles [r]) := expandRun_took (u.listed r) r
  have hall := (h.took hb u.xflag fun _ => rfl).trans htook
  rw [← runNibbles_append] at hall
  have hframe := expandRun_frame (u.listed r) r
  generalize (u.listed r).expandRun r = v at *
  have hphase : v.phase = .bits := by rw [hframe]; exact hp
  have hruns : v.runs = u.runs ++ [r] := by rw [hframe]; rfl
  have hflag : v.xflag = u.xflag := by rw [hframe]; rfl
  refine ⟨?_, fun _ => by simp [hphase], hinv, fun _ x hx => ?_⟩
  · rw [hframe]
    exact h.cmd
  · obtain rfl : x = u.xflag := (hx (by simp [hphase])).trans hflag
    rw [hruns, ← hflag]
    rw [← hflag] at hall
    exact hall

theorem ElementDoes.decoding {u v : State} {i : Instr} (h : ElementDoes u i v) (hu : Decoding u) (hb : u.status = .busy)
    (hr : ReadAt u.region i) : Decoding v := by
  have hinv := h.streamInv hu.inv hb hr
  cases h with
  | header x n =>
    have hregion : u.region = .header := hr.resolve_right fun ⟨_, b, c, l, k, e⟩ => by cases e
    have hphase : u.phase = .header := by rw [← region_eq_phase (by simp [hregion]), hregion]
    exact ⟨hu.cmd, fun _ => by simp, hinv, fun _ y _ => hu.took hb y fun hne => absurd hphase hne⟩
  | marker z n => exact ⟨hu.cmd, fun _ => by simp, hinv, fun _ y hy => hu.took hb y fun _ => hy (by simp)⟩
  | entry b c l k trie => exact ⟨hu.cmd, fun _ => by simp, hinv, fun _ y hy => hu.took hb y fun _ => hy (by simp)⟩
  | tableEnd trie ht =>
    exact ⟨hu.cmd, fun _ => by simp [State.bitsAt], hinv, fun _ y hy => hu.took hb y fun _ => hy (by simp [State.bitsAt])⟩
  | listed _ r hi hfits honly => rw [hu.runsOnly] at honly; cases honly
  | expanded _ r hi hfits honly => exact hu.expanded hb (hr.bits hi) hfits
  | tableDone trie => exact .of_rest hu.cmd (by simp)
  | complete n x => exact .of_rest hu.cmd (by simp)
  | fault _ tcur k hk => exact .of_rest hu.cmd (by simp)

theorem Stepped.decoding {u v : State} (h : Stepped u v) (hu : Decoding u) : Decoding v := by
  obtain ⟨hb, he⟩ := h
  cases elementStep_does he with
  | raised rd tcur k hk hn => exact .of_rest hu.cmd (by simp)
  | element i rd v hr hn hdoes => exact hdoes.decoding (hu.putReader rd) hb hr

theorem Reaches.decoding {u v : State} (h : Reaches u v) (hu : Decoding u) : Decoding v := by
  induction h with
  | refl => exact hu
  | tail _ hstep ih => exact hstep.decoding ih

/-- PAD's place is past the whole output (R198, R199). -/
theorem Decoding.full_of_tail {u : State} (h : Decoding u) (hb : u.status = .busy) (hr : u.region = .tail) :
    u.delivered = u.expectedNibbles := by
  have hnot := (h.stream hb).2
  unfold State.region at hr
  split at hr
  · rename_i hfull
    exact Nat.le_antisymm (h.inv.fits hb hfull.1) hfull.2
  · exact absurd hr hnot

/-- TEND goes on to the bitstream or raises, unless UNPACK_TABLE was issued alone (R193, R194). -/
theorem execTend_not_done {s t : State} (honly : s.tableOnly = false) (hb : s.status = .busy)
    (h : execTend s = .next t) : t.status ≠ .done := by
  rw [execTend_eq, honly] at h
  cases hins : insertAt .leafEsc escapePath s.trie with
  | none => rw [hins] at h; cases h; simp
  | some trie =>
    rw [hins] at h
    cases h
    exact fun hd => by cases hb.symm.trans hd

/-- The element that ends a DECODE is PAD, with the output complete and XSEL the header's flag (R199, R220). -/
theorem Decoding.elementStep_done {u t : State} (hu : Decoding u) (hb : u.status = .busy)
    (h : elementStep u = .next t) (hd : t.status = .done) :
    u.region = .tail ∧ t = ({ u with xsel := u.xflag } : State).finish := by
  rw [elementStep_eq (hu.stream hb).1] at h
  cases hdec : decodeAt u.region (u.trie.at u.tcur) u.reader with
  | short path rd => rw [hdec] at h; cases h; cases hd
  | noChild path rd => rw [hdec] at h; cases h; cases hd
  | unknownCommand code => rw [hdec] at h; cases h; cases hd
  | instr i rd =>
    simp only [hdec] at h
    have hbusy : ¬ u.status = .done := by simp [hb]
    cases runElement_does h with
    | complete n x =>
      have htail : u.region = .tail := (decodeAt_readAt hdec).resolve_right fun ⟨_, b, c, l, k, e⟩ => by cases e
      rw [htail] at hdec
      cases hdec
      refine ⟨htail, ?_⟩
      rw [runElement, execPad, show u.putReader u.reader = u from rfl, hu.runsOnly, Host.Outcome.next.injEq] at h
      exact h.symm
    | tableDone trie => exact absurd hd (execTend_not_done (hu.putReader rd).tableOnly hb h)
    | expanded _ r hi hfits honly => rw [expandRun_frame] at hd; exact absurd hd hbusy
    | fault _ tcur k hk => cases hd
    | _ => exact absurd hd hbusy

/-- The nibbles of runs, counted or written out (R206). -/
theorem nibbleCount_eq_length (rs : List Run) : nibbleCount rs = (runNibbles rs).length := by
  induction rs with
  | nil => rfl
  | cons r rs ih =>
    rw [← List.singleton_append, nibbleCount_append, runNibbles_append, List.length_append, ih,
      runNibbles_singleton_length]
    simp [nibbleCount]

/-- A DECODE that ends DONE has delivered exactly the announced nibbles, XSEL is the header's flag, and DST holds the bytes
whose nibbles the runs stand for, through the inverse transform when flagged (R199, R206 to R209, R220). -/
theorem exec_decode_done {s t : State} (h : exec .decode s = .next t) (hd : t.status = .done) :
    t.xsel = t.xflag ∧ (runNibbles t.runs).length = t.tiles.toNat * 64 ∧
      ∀ bs, nibblesOf bs = runNibbles t.runs →
        t.dstBytes = if t.xflag then xorStream (LaneRule.inverse Config.xorEnc) bs else bs := by
  rcases Relation.ReflTransGen.cases_tail (reaches_of_decode h) with rfl | ⟨u, hreach, hb, hstep⟩
  · cases hd
  have hu := Reaches.decoding hreach (decodeStart_decoding s)
  obtain ⟨htail, rfl⟩ := hu.elementStep_done hb hstep hd
  have htook : TookNibbles (freshOutput u.xflag) u (runNibbles u.runs) := hu.took hb u.xflag fun _ => rfl
  have hfull := hu.full_of_tail hb htail
  rw [delivered_expanded hu.runsOnly, htook.outcnt] at hfull
  refine ⟨rfl, (Nat.zero_add _).symm.trans hfull, fun bs hbs => ?_⟩
  have hbs : nibblesOf bs = runNibbles u.runs := hbs
  rw [← hbs] at htook
  obtain ⟨hpos, hdst⟩ := htook.bytes rfl rfl rfl
  have hview : (State.finish { u with xsel := u.xflag }).dstBytes = u.dst.readBytes 0 u.dpos := rfl
  rw [hview, hpos, hdst]
  rfl

end Sys2Proof.Machine
end

section
/-! DECODE in step with another reading of the same bytes: UNPACK_TABLE and UNPACK_BITS issued alone (R185), and a DECODE of
the bytes without those that follow (R199). -/

namespace Sys2Proof.Machine

/-! ## In step -/

/-- A DECODE `s'` stands where the command `s` of the given code stands, and its SRC may go on with more bytes. CTX matters in
the table only (R36), and UNPACK_TABLE issued alone never comes to the bitstream (R194). -/
structure InStep (code : Byte) (extra : List Byte) (s s' : State) : Prop where
  cmd : s.cmd = code
  busy : s.status = .busy
  status : s'.status = s.status
  phase : s'.phase = s.phase
  trie : s'.trie = s.trie
  tcur : s'.tcur = s.tcur
  ctx : s.phase ≠ .bits → s'.ctx = s.ctx
  xflag : s'.xflag = s.xflag
  tiles : s'.tiles = s.tiles
  sp : s'.sp = s.sp
  brCur : s'.brCur = s.brCur
  brLeft : s'.brLeft = s.brLeft
  runs : s'.runs = s.runs
  delivered : s'.delivered = s.delivered
  table : code = 0x60#8 → s.phase ≠ .bits
  bytes : s'.reader.bytes = s.reader.bytes ++ extra

/-- What DECODE does when the other command does an element: it goes on in step, ends in the same fault, ends with the same
runs, header and cursor, or stands where UNPACK_BITS starts when it is handed what UNPACK_TABLE left (R185). -/
inductive Follows (code : Byte) (extra : List Byte) (t t' : State) : Prop
  | onward (h : InStep code extra t t')
  | fault (hf : t.status = .fault) (hf' : t'.status = .fault) (herr : t'.err = t.err)
  | done (hcode : code ≠ 0x60#8) (hd : t.status = .done) (hd' : t'.status = .done) (hsp : t'.sp = t.sp)
      (hruns : t'.runs = t.runs) (hflag : t'.xflag = t.xflag) (htiles : t'.tiles = t.tiles)
  | handOver (hcode : code = 0x60#8) (hd : t.status = .done) (h : InStep 0x61#8 extra t.handOver.bitsAlone t')

/-- A state with DST, its cursor, the lanes, HOLD and OUTCNT of another (R209). -/
def State.withOutput (s u : State) : State :=
  { s with dst := u.dst, dpos := u.dpos, lane := u.lane, lpos := u.lpos, hold := u.hold, outcnt := u.outcnt }

/-- A run that fits is listed and counted; all else it touches is the output (R198, R209). -/
theorem emitRun_fits {s : State} {r : Run} (h : s.delivered + Run.count r ≤ s.expectedNibbles) :
    ∃ u, s.emitRun r = (s.listed r).withOutput u ∧
      ((s.listed r).withOutput u).delivered = s.delivered + Run.count r := by
  cases honly : s.runsOnly with
  | true => exact ⟨s, emitRun_lists h honly, delivered_listed r honly⟩
  | false =>
    have hframe := expandRun_frame (s.listed r) r
    rw [emitRun_expands h honly]
    generalize (s.listed r).expandRun r = u at *
    refine ⟨{ u with outcnt := s.outcnt + Run.count r }, hframe, ?_⟩
    rw [delivered_expanded honly, delivered_expanded (by exact honly)]
    rfl

section
variable {code : Byte} {extra : List Byte} {s s' t : State}

theorem InStep.region (h : InStep code extra s s') : s'.region = s.region := by
  rw [State.region, State.region, h.phase, h.tiles, h.delivered]

theorem InStep.expectedNibbles (h : InStep code extra s s') : s'.expectedNibbles = s.expectedNibbles := by
  rw [State.expectedNibbles, State.expectedNibbles, h.tiles]

theorem InStep.reader (h : InStep code extra s s') : s'.reader = s.reader.more extra := by
  rw [reader_of_bytes h.bytes, h.brCur, h.brLeft]
  rfl

/-- The same bytes taken on both sides. -/
theorem InStep.putReader (h : InStep code extra s s') {rd : Reader} (htaken : rd.taken ≤ s.reader.bytes.length) :
    InStep code extra (s.putReader rd) (s'.putReader (rd.more extra)) :=
  { h with
    sp := congrArg (· + rd.taken) h.sp
    brCur := rfl
    brLeft := rfl
    bytes := by
      rw [reader_bytes_drop s' (s'.putReader (rd.more extra)) rd.taken rfl rfl rfl, h.bytes,
        reader_bytes_drop s (s.putReader rd) rd.taken rfl rfl rfl, List.drop_append_of_le_length htaken] }

/-! ## Elements in step -/

/-- A run emitted on both sides fits on both or on neither (R198, R201). -/
theorem InStep.emitRun_follows (h : InStep code extra s s') (hp : s.phase = .bits) (r : Run) :
    Follows code extra (s.emitRun r) (s'.emitRun r) := by
  have hroom := h.expectedNibbles
  have hdel := h.delivered
  by_cases hfits : s.delivered + Run.count r ≤ s.expectedNibbles
  · obtain ⟨u, hu, hcount⟩ := emitRun_fits hfits
    obtain ⟨u', hu', hcount'⟩ := emitRun_fits (s := s') (r := r) (by omega)
    rw [hu, hu']
    exact .onward
      { h with
        tcur := rfl
        ctx := fun hne => absurd hp hne
        runs := congrArg (· ++ [r]) h.runs
        delivered := by rw [hcount, hcount', hdel] }
  · rw [emitRun_overrun (by omega), emitRun_overrun (by omega)]
    exact .fault rfl rfl rfl

/-- TENT reads CTX and the trie alone (R188). -/
theorem InStep.execTent_follows (h : InStep code extra s s') (hp : s.phase ≠ .bits) (b : Bool) (c : BitVec 3) (l : BitVec 4)
    (k : Byte) (ht : execTent b c l k s = .next t) :
    ∃ t', execTent b c l k s' = .next t' ∧ Follows code extra t t' := by
  rw [execTent_eq] at ht
  rw [execTent_eq, h.ctx hp, h.trie]
  cases hn : tentTrie s.ctx s.trie c l k with
  | none => rw [hn] at ht; cases ht; exact ⟨_, rfl, .fault rfl rfl rfl⟩
  | some trie =>
    rw [hn] at ht
    cases ht
    exact ⟨_, rfl, .onward { h with phase := rfl, trie := rfl, ctx := fun _ => rfl, table := fun _ => by simp }⟩

/-- TEND ends UNPACK_TABLE, where DECODE goes on to the bitstream with nothing delivered yet (R193, R194). -/
theorem InStep.execTend_follows (h : InStep code extra s s') (hdec : Decoding s')
    (hp : s.phase = .header ∨ s.phase = .table ∨ s.phase = .entry) (ht : execTend s = .next t) :
    ∃ t', execTend s' = .next t' ∧ Follows code extra t t' := by
  have hbits : s.phase ≠ .bits := by rcases hp with hp | hp | hp <;> simp [hp]
  obtain ⟨hcount, -, -, hruns⟩ := hdec.inv.early (h.status.trans h.busy) (h.phase ▸ hp)
  rw [execTend_eq] at ht
  rw [execTend_eq, h.trie, hdec.tableOnly]
  cases hn : insertAt .leafEsc escapePath s.trie with
  | none => rw [hn] at ht; cases ht; exact ⟨_, rfl, .fault rfl rfl rfl⟩
  | some trie =>
    simp only [hn, Host.Outcome.next.injEq] at ht
    refine ⟨_, rfl, ?_⟩
    cases honly : s.tableOnly with
    | true =>
      rw [honly] at ht
      subst ht
      have hdelivered : (s'.bitsAt s'.sp s'.ctx trie).delivered = 0 := by
        rw [delivered_expanded (s := s'.bitsAt s'.sp s'.ctx trie) hdec.runsOnly]
        exact hcount
      refine .handOver (h.cmd.symm.trans ((tableOnly_iff s).1 honly)) rfl
        { h with
          cmd := rfl
          status := h.status.trans h.busy
          busy := rfl
          phase := rfl
          trie := rfl
          tcur := rfl
          ctx := fun hne => absurd rfl hne
          brCur := rfl
          brLeft := rfl
          runs := hruns
          delivered := hdelivered
          table := fun hcode => absurd hcode (by decide) }
    | false =>
      rw [honly] at ht
      subst ht
      refine .onward
        { h with
          phase := rfl
          trie := rfl
          tcur := rfl
          ctx := fun _ => h.ctx hbits
          brCur := rfl
          brLeft := rfl
          table := fun hcode => ?_ }
      rw [(tableOnly_iff s).2 (h.cmd.trans hcode)] at honly
      cases honly

/-- An element with its meaning on both sides (R185). -/
theorem InStep.runElement_follows {i : Instr} (h : InStep code extra s s') (hdec : Decoding s') (hr : ReadAt s.region i)
    (ht : runElement i s = .next t) : ∃ t', runElement i s' = .next t' ∧ Follows code extra t t' := by
  have hearly (hi : regionOf i = .header ∨ regionOf i = .table ∨ regionOf i = .entry) : s.phase ≠ .bits := by
    rcases hr.early hi with hp | hp | hp <;> simp [hp]
  cases i with
  | hdr x n =>
    cases ht
    exact ⟨_, rfl, .onward
      { h with
        phase := rfl, ctx := fun _ => h.ctx (hearly (.inl rfl)), xflag := rfl, tiles := rfl, table := fun _ => by simp }⟩
  | tnib z n =>
    cases ht
    exact ⟨_, rfl, .onward { h with phase := rfl, ctx := fun _ => rfl, table := fun _ => by simp }⟩
  | tent b c l k => exact h.execTent_follows (hearly (by cases b <;> simp [regionOf])) b c l k ht
  | tend => exact h.execTend_follows hdec (hr.early (.inr (.inl rfl))) ht
  | code path =>
    rw [runElement, execCode] at ht
    rw [runElement, execCode, h.trie, h.tcur]
    cases hn : followPath (s.trie.at s.tcur) s.tcur path with
    | leaf r => rw [hn] at ht; cases ht; exact ⟨_, rfl, h.emitRun_follows (hr.bits rfl) r⟩
    | noChild tcur => rw [hn] at ht; cases ht; exact ⟨_, rfl, .fault rfl rfl rfl⟩
    | noCodeword => rw [hn] at ht; cases ht
  | esc c n =>
    cases ht
    exact ⟨_, rfl, h.emitRun_follows (hr.bits rfl) _⟩
  | pad n =>
    cases ht
    have hregion : s.region = .tail := hr.resolve_right fun ⟨_, b, c, l, k, e⟩ => by cases e
    have hnot : s.phase ≠ .tail := h.phase ▸ (hdec.stream (h.status.trans h.busy)).2
    have hp : s.phase = .bits := by
      by_contra hp
      exact hnot ((region_of_not_bits hp).symm.trans hregion)
    exact ⟨_, rfl, .done (fun hcode => h.table hcode hp) rfl rfl h.sp h.runs h.xflag h.tiles⟩
  | _ => cases ht

/-- One element of the stream on both sides; a fault is the same where no byte follows (R185, R199). -/
theorem InStep.elementStep_follows (h : InStep code extra s s') (hdec : Decoding s') (ht : elementStep s = .next t)
    (hok : extra = [] ∨ t.status ≠ .fault) : ∃ t', elementStep s' = .next t' ∧ Follows code extra t t' := by
  have hstream := (hdec.stream (h.status.trans h.busy)).1
  have hreader (hfault : t.status = .fault) : s'.reader = s.reader := by
    rw [h.reader, hok.resolve_right (not_not_intro hfault), Reader.more_nil]
  rw [elementStep_eq (h.phase ▸ hstream)] at ht
  rw [elementStep_eq hstream, h.region, h.trie, h.tcur]
  cases hd : decodeAt s.region (s.trie.at s.tcur) s.reader with
  | instr i rd =>
    have htaken := decodeAt_instr_taken (region_ne_command (h.phase ▸ hstream)) hd
    have hzero : s.reader.taken = 0 := rfl
    simp only [hd] at ht
    rw [h.reader, decodeAt_more extra hd]
    exact (h.putReader (rd := rd) (by omega)).runElement_follows (hdec.putReader _) (decodeAt_readAt hd) ht
  | short path rd =>
    rw [hd] at ht
    cases ht
    rw [hreader rfl, hd]
    exact ⟨_, rfl, .fault rfl rfl rfl⟩
  | noChild path rd =>
    rw [hd] at ht
    cases ht
    rw [hreader rfl, hd]
    exact ⟨_, rfl, .fault rfl rfl rfl⟩
  | unknownCommand c =>
    rw [hd] at ht
    cases ht
    rw [hreader rfl, hd]
    exact ⟨_, rfl, .fault rfl rfl rfl⟩

/-- DECODE follows the other command element by element (R185). -/
theorem Reaches.follows (h : Reaches s t) (hs : InStep code extra s s') (hdec : Decoding s')
    (hok : extra = [] ∨ t.status ≠ .fault) : ∃ t', Reaches s' t' ∧ Follows code extra t t' := by
  induction h with
  | refl => exact ⟨s', .refl, .onward hs⟩
  | tail _ hstep ih =>
    obtain ⟨hb, he⟩ := hstep
    obtain ⟨u', hreach, hu⟩ := ih (.inr (by simp [hb]))
    cases hu with
    | onward hu =>
      obtain ⟨t', ht', hfollows⟩ := hu.elementStep_follows (Reaches.decoding hreach hdec) he hok
      exact ⟨t', hreach.tail ⟨hu.status.trans hu.busy, ht'⟩, hfollows⟩
    | fault hf => cases hb.symm.trans hf
    | done _ hd => cases hb.symm.trans hd
    | handOver _ hd => cases hb.symm.trans hd

/-! ## Ends in step -/

theorem Follows.of_fault {t' : State} (h : Follows code extra t t') (hf : t.status = .fault) :
    t'.status = .fault ∧ t'.err = t.err := by
  cases h with
  | onward h => cases h.busy.symm.trans hf
  | fault _ hf' herr => exact ⟨hf', herr⟩
  | done _ hd => cases hd.symm.trans hf
  | handOver _ hd => cases hd.symm.trans hf

/-- UNPACK_TABLE ends DONE where UNPACK_BITS goes on (R194, R198). -/
theorem Follows.of_tableDone {t' : State} (h : Follows 0x60#8 extra t t') (hd : t.status = .done) :
    InStep 0x61#8 extra t.handOver.bitsAlone t' := by
  cases h with
  | onward h => cases h.busy.symm.trans hd
  | fault hf => cases hf.symm.trans hd
  | done hcode => exact absurd rfl hcode
  | handOver _ _ h => exact h

/-- Both ends of a bitstream, with the same runs, header and cursor (R198, R199). -/
structure SameEnd (t t' : State) : Prop where
  status : t'.status = .done
  sp : t'.sp = t.sp
  runs : t'.runs = t.runs
  xflag : t'.xflag = t.xflag
  tiles : t'.tiles = t.tiles

theorem Follows.of_done {t' : State} (h : Follows code extra t t') (hcode : code ≠ 0x60#8) (hd : t.status = .done) :
    SameEnd t t' := by
  cases h with
  | onward h => cases h.busy.symm.trans hd
  | fault hf => cases hf.symm.trans hd
  | done _ _ hd' hsp hruns hflag htiles => exact ⟨hd', hsp, hruns, hflag, htiles⟩
  | handOver hcode' => exact absurd hcode' hcode

end

/-! ## The start -/

/-- The state with another SRC. -/
def State.withSource (s : State) (src : Memory) (n : Nat) : State := { s with src := src, argLen := n }

/-- DECODE starts in step with a command of any code that starts as it does, where its SRC goes on with more bytes (R194,
R220). -/
theorem inStep_start {s : State} {src : Memory} {n : Nat} {extra : List Byte} (code : Byte)
    (h : (s.withSource src n).srcBytes = s.srcBytes ++ extra) :
    InStep code extra { s.decodeStart with cmd := code } (s.withSource src n).decodeStart where
  cmd := rfl
  busy := rfl
  status := rfl
  phase := rfl
  trie := rfl
  tcur := rfl
  ctx _ := rfl
  xflag := rfl
  tiles := rfl
  sp := rfl
  brCur := rfl
  brLeft := rfl
  runs := rfl
  delivered := by
    have hnone : State.delivered { s.decodeStart with cmd := code } = 0 := by
      unfold State.delivered
      split <;> rfl
    exact hnone.symm
  table _ := by simp [State.decodeStart]
  bytes := h

/-- UNPACK_TABLE issued alone starts as DECODE does (R194, R220). -/
theorem inStep_tableStart (s : State) : InStep 0x60#8 [] s.tableAlone s.decodeStart :=
  inStep_start (s := s) (src := s.src) (n := s.argLen) 0x60#8 (List.append_nil _).symm

/-! ## DECODE and the units -/

/-- In the bitstream the header's flag stays (R198). -/
theorem ElementDoes.xflag_in_bits {s t : State} {i : Instr} (h : ElementDoes s i t) (hr : ReadAt s.region i)
    (hp : s.phase = .bits) : t.xflag = s.xflag ∧ (t.status = .busy → t.phase = .bits) := by
  have hlate (hi : regionOf i = .header ∨ regionOf i = .table ∨ regionOf i = .entry) : False := by
    rcases hr.early hi with h | h | h <;> cases hp.symm.trans h
  cases h with
  | header x n => exact (hlate (.inl rfl)).elim
  | marker z n => exact (hlate (.inr (.inl rfl))).elim
  | entry b c l k trie => exact (hlate (by cases b <;> simp [regionOf])).elim
  | tableEnd trie ht => exact ⟨rfl, fun _ => rfl⟩
  | tableDone trie => exact ⟨rfl, fun hb => by cases hb⟩
  | listed _ r hi hfits honly => exact ⟨rfl, fun _ => hp⟩
  | expanded _ r hi hfits honly => rw [expandRun_frame]; exact ⟨rfl, fun _ => hp⟩
  | complete n x => exact ⟨rfl, fun hb => by cases hb⟩
  | fault _ tcur k hk => exact ⟨rfl, fun hb => by cases hb⟩

theorem Reaches.xflag_in_bits {s t : State} (h : Reaches s t) (hp : s.phase = .bits) :
    t.xflag = s.xflag ∧ (t.status = .busy → t.phase = .bits) := by
  induction h with
  | refl => exact ⟨rfl, fun _ => hp⟩
  | tail _ hstep ih =>
    obtain ⟨hb, he⟩ := hstep
    obtain ⟨hflag, hbits⟩ := ih
    cases elementStep_does he with
    | raised rd tcur k hk hn => exact ⟨hflag, fun hb => by cases hb⟩
    | element i rd t hr hn hdoes =>
      obtain ⟨hflag', hbits'⟩ := hdoes.xflag_in_bits hr (hbits hb)
      exact ⟨hflag'.trans hflag, hbits'⟩

/-- With whole bytes delivered no nibble waits in HOLD (R207). -/
theorem nibblesOf_append_hold {plain bs : List Byte} {hold : Option Nibble}
    (h : nibblesOf plain ++ hold.toList = nibblesOf bs) : plain = bs := by
  cases hold with
  | none => exact nibblesOf_injective (by simpa using h)
  | some n =>
    have hlen := congrArg List.length h
    simp only [List.length_append, nibblesOf_length, Option.toList_some, List.length_singleton] at hlen
    omega

/-- RLE_DEC handed the runs of whole bytes that fit writes those bytes, through the inverse transform when flagged (R206 to
R210). -/
theorem exec_rleDec_bytes {s t : State} {bs : List Byte} (h : exec .rleDec s = .next t)
    (hbs : nibblesOf bs = runNibbles s.args.runs) (hfits : (runNibbles s.args.runs).length ≤ s.args.tiles.toNat * 64) :
    t.dstBytes = if s.args.xflag then xorStream (LaneRule.inverse Config.xorEnc) bs else bs := by
  obtain ⟨t', ht', hout, -⟩ := rleDecResult s
  obtain rfl : t = t' := Host.Outcome.next.inj (h.symm.trans ht')
  obtain ⟨plain, hplain, hdst, -⟩ := hout (nibbleCount_eq_length _ ▸ hfits)
  rw [← hbs] at hplain
  rw [hdst, nibblesOf_append_hold hplain]
  rfl

/-- Settles O57: DECODE follows UNPACK_TABLE and then UNPACK_BITS element by element, and its bytes are those the runs stand
for, which RLE_DEC gives too. -/
theorem decodeIsTheThreeUnits : Obligations.DecodeIsTheThreeUnits := by
  intro s t₁ h₁
  obtain ⟨d₁, hdreach₁, hfollows₁⟩ :=
    (reaches_of_unpackTable h₁).follows (inStep_tableStart s) (decodeStart_decoding s) (.inl rfl)
  refine ⟨fun hfault => ?_, fun t₂ hdone₁ h₂ => ?_⟩
  · obtain ⟨hstatus, herr⟩ := hfollows₁.of_fault hfault
    exact ⟨d₁, exec_decode_reaches hdreach₁ (by simp [hstatus]), hstatus, herr⟩
  have hbits := hfollows₁.of_tableDone hdone₁
  have hreach₂ := reaches_of_unpackBits h₂
  obtain ⟨d₂, hdreach₂, hfollows₂⟩ :=
    hreach₂.follows hbits (Reaches.decoding hdreach₁ (decodeStart_decoding s)) (.inl rfl)
  have hdreach := hdreach₁.trans hdreach₂
  refine ⟨fun hfault => ?_, fun t₃ hdone₂ h₃ => ?_⟩
  · obtain ⟨hstatus, herr⟩ := hfollows₂.of_fault hfault
    exact ⟨d₂, exec_decode_reaches hdreach (by simp [hstatus]), hstatus, herr⟩
  have hend := hfollows₂.of_done (by decide) hdone₂
  have hdecode : exec .decode s = .next d₂ := exec_decode_reaches hdreach (by simp [hend.status])
  obtain ⟨hxsel, hlen, hbytes⟩ := exec_decode_done hdecode hend.status
  obtain ⟨bs, hbs, -⟩ := exists_nibblesOf (d₂.tiles.toNat * 32) (ns := runNibbles d₂.runs) (by omega)
  have hflag : t₂.xflag = t₁.xflag := (hreach₂.xflag_in_bits rfl).1
  refine ⟨d₂, hdecode, hend.status, ?_, hxsel.trans (hend.xflag.trans hflag), hend.sp⟩
  rw [hbytes bs hbs, hend.xflag]
  rw [hend.runs] at hbs hlen
  rw [hend.tiles] at hlen
  exact (exec_rleDec_bytes h₃ hbs hlen.le).symm

/-! ## Bytes that follow -/

/-- A DECODE that ends DONE, on SRC with bytes after it (R199). -/
theorem exec_decode_withSource {s t : State} {src : Memory} {n : Nat} {extra : List Byte} (h : exec .decode s = .next t)
    (hd : t.status = .done) (hsrc : (s.withSource src n).srcBytes = s.srcBytes ++ extra) :
    ∃ t', exec .decode (s.withSource src n) = .next t' ∧ t'.status = .done ∧ t'.dstBytes = t.dstBytes ∧
      t'.xsel = t.xsel ∧ t'.sp = t.sp := by
  obtain ⟨t', hreach', hfollows⟩ :=
    (reaches_of_decode h).follows (inStep_start 0x02#8 hsrc) (decodeStart_decoding _) (.inr (by simp [hd]))
  have hend := hfollows.of_done (by decide) hd
  have ht' : exec .decode (s.withSource src n) = .next t' := exec_decode_reaches hreach' (by simp [hend.status])
  obtain ⟨hxsel, hlen, hbytes⟩ := exec_decode_done h hd
  obtain ⟨hxsel', -, hbytes'⟩ := exec_decode_done ht' hend.status
  obtain ⟨bs, hbs, -⟩ := exists_nibblesOf (t.tiles.toNat * 32) (ns := runNibbles t.runs) (by omega)
  refine ⟨t', ht', hend.status, ?_, hxsel'.trans (hend.xflag.trans hxsel.symm), hend.sp⟩
  rw [hbytes' bs (by rw [hbs, hend.runs]), hbytes bs hbs, hend.xflag]

/-- DECODE of the same valid bytes from another state: the same end, but for the input (R222, R240). -/
theorem exec_decode_alike {s s' t : State} (h : exec .decode s = .next t) (hsrc : s.srcBytes = s'.srcBytes) :
    ∃ t', exec .decode s' = .next t' ∧ Alike t t' := by
  have hfuel : s'.decodeStart.bitsLeft < s'.decodeStart.elementBound := by
    simp only [State.bitsLeft, State.elementBound]
    omega
  obtain ⟨t', ht', -⟩ := runElements_ends (s := s'.decodeStart) rfl (by simp [State.decodeStart]) hfuel
  have hstart : Alike s.decodeStart s'.decodeStart :=
    alike_at_header hsrc (fun u => u.tableStart.expandStart) (fun _ _ _ _ _ => rfl) fun _ => ⟨rfl, rfl, rfl⟩
  have hbound : s'.decodeStart.elementBound = s.decodeStart.elementBound := by
    simp only [State.elementBound, (srcBytes_eq_iff.1 hsrc).1, State.decodeStart, expandStart_argLen, expandStart_brLeft,
      tableStart_argLen, tableStart_brLeft, startAll_argLen]
  exact ⟨t', ht', runElements_alike hstart (fun _ => by simp [State.decodeStart]) h (hbound ▸ ht')⟩

/-- Settles O58: the bytes that follow are not read, and nothing else of the other state is. -/
theorem trailingBytesIgnored : Obligations.TrailingBytesIgnored := by
  intro s s' t extra h hd hsrc
  obtain ⟨u, hu, hdone, hdst, hxsel, hsp⟩ := exec_decode_withSource (src := s'.src) (n := s'.argLen) h hd hsrc
  obtain ⟨t', ht', src, args, xflag, tiles, rfl, -, -⟩ := exec_decode_alike (s' := s') hu rfl
  exact ⟨_, ht', hdone, hdst, hxsel, hsp⟩

end Sys2Proof.Machine
end

section
/-! RLE_DEC of what RLE_ENC writes (R114, R206 to R210). -/

namespace Sys2Proof.Machine

/-- Whole bytes leave no nibble in HOLD (R207). -/
theorem hold_none_of_nibblesOf {plain bs : List Byte} {hold : Option Nibble}
    (h : nibblesOf plain ++ hold.toList = nibblesOf bs) : hold = none := by
  obtain rfl := nibblesOf_append_hold h
  exact Option.toList_eq_nil_iff.1 (List.append_right_eq_self.1 h)

/-- RLE_DEC of runs that stand for whole bytes leaves no nibble in HOLD (R207, R209). -/
theorem exec_rleDec_hold {s t : State} {bs : List Byte} (h : exec .rleDec s = .next t)
    (hbs : nibblesOf bs = runNibbles s.args.runs) (hfits : (runNibbles s.args.runs).length ≤ s.args.tiles.toNat * 64) :
    t.hold = none := by
  obtain ⟨t', ht', hout, -⟩ := rleDecResult s
  obtain rfl : t = t' := Host.Outcome.next.inj (h.symm.trans ht')
  obtain ⟨plain, hplain, -⟩ := hout (nibbleCount_eq_length _ ▸ hfits)
  exact hold_none_of_nibblesOf (hplain.trans hbs.symm)

/-- Settles O29: RLE_ENC's runs stand for the nibbles of the bytes, and RLE_DEC pairs them again. -/
theorem rleRoundTrip : Obligations.RleRoundTrip := by
  intro s bs hruns hlen
  have hbs : nibblesOf bs = runNibbles s.args.runs := by rw [hruns, runNibbles_rleOf]
  have hfits : (runNibbles s.args.runs).length ≤ s.args.tiles.toNat * 64 := by
    rw [← hbs, nibblesOf_length]
    omega
  have hexec := exec_rleDec s
  exact ⟨_, hexec, rfl, exec_rleDec_hold hexec hbs hfits, exec_rleDec_bytes hexec hbs hfits⟩

end Sys2Proof.Machine
end

section
/-! How a DECODE ends (R211, R220, R236, R269): with the whole output, or in one of the four decode errors and no output. -/

namespace Sys2Proof

/-! ## The decoder in a stream -/

theorem decodeEscFields_ne_unknownCommand (path : List Bool) (rd : Reader) (code : Byte) :
    decodeEscFields path rd ≠ .unknownCommand code := by
  unfold decodeEscFields
  split
  · simp
  · split <;> simp

theorem walk_ne_unknownCommand (node : Node) (path : List Bool) (rd : Reader) (code : Byte) :
    walk node path rd ≠ .unknownCommand code := by
  induction node generalizing path rd with
  | absent => simp [walk]
  | leafRun r => simp [walk]
  | leafEsc => exact decodeEscFields_ne_unknownCommand path rd code
  | inner clear set ihc ihs =>
    rw [walk]
    split
    · simp
    · split
      · exact ihs _ _
      · exact ihc _ _

theorem decodeEntryFrom_ne_unknownCommand (b : Byte) (rd : Reader) (code : Byte) :
    decodeEntryFrom b rd ≠ .unknownCommand code := by
  unfold decodeEntryFrom
  split <;> simp

/-- Only a byte in CMD can be no command code (R89, R239). -/
theorem decodeAt_ne_unknownCommand {r : Region} (hr : r ≠ .command) (node : Node) (rd : Reader) (code : Byte) :
    decodeAt r node rd ≠ .unknownCommand code := by
  cases r with
  | command => exact absurd rfl hr
  | header => simp only [decodeAt, decodeHeader]; split <;> simp
  | table =>
    simp only [decodeAt, decodeTable]
    split
    · simp
    · split
      · simp
      · split
        · simp
        · exact decodeEntryFrom_ne_unknownCommand _ _ code
  | entry =>
    simp only [decodeAt, decodeEntry]
    split
    · simp
    · exact decodeEntryFrom_ne_unknownCommand _ _ code
  | bits =>
    simp only [decodeAt, decodeBits]
    split
    · simp
    · exact walk_ne_unknownCommand _ _ _ code
  | tail => simp [decodeAt]

namespace Machine

/-! ## The errors of a stream -/

/-- The four errors a stream can raise (R231). -/
def Err.OfStream (k : Err) : Prop := k = .malformedHeader ∨ k = .invalidCode ∨ k = .ioFailure ∨ k = .outputOverrun

/-- ERR is 0 and no fault is raised (R30). -/
def FaultFree (s : State) : Prop := s.status ≠ .fault ∧ s.err = .none

/-- No fault yet, or the fault state of a stream's error, as `raise` leaves it (R236). -/
def StreamFaultOnly (s : State) : Prop := FaultFree s ∨ ∃ (u : State) (k : Err), k.OfStream ∧ s = u.raise k

theorem StreamFaultOnly.raise (s : State) {k : Err} (hk : k.OfStream) : StreamFaultOnly (s.raise k) :=
  .inr ⟨s, k, hk, rfl⟩

theorem StreamFaultOnly.faultFree {s : State} (h : StreamFaultOnly s) (hs : s.status ≠ .fault) : FaultFree s := by
  rcases h with h | ⟨u, k, -, rfl⟩
  · exact h
  · exact absurd rfl hs

theorem FaultFree.finish {s : State} (h : FaultFree s) : FaultFree s.finish := ⟨by simp, h.2⟩

theorem FaultFree.emitRun {s : State} (h : FaultFree s) (r : Run) : StreamFaultOnly (s.emitRun r) := by
  rcases emitRun_cases s r with ⟨-, e⟩ | ⟨-, -, e⟩ | ⟨-, -, e⟩
  · exact e ▸ .raise _ (.inr (.inr (.inr rfl)))
  · exact e ▸ .inl h
  · rw [e, expandRun_frame]
    exact .inl h

/-- The errors the elements raise: MalformedHeader by TENT and TEND, InvalidCode by CODE, OutputOverrun by CODE and ESC
(R188, R193, R197, R201). -/
theorem FaultFree.runElement {s t : State} {i : Instr} (hs : FaultFree s) (h : runElement i s = .next t) :
    StreamFaultOnly t := by
  cases i with
  | hdr x n => cases h; exact .inl hs
  | tnib z n => cases h; exact .inl hs
  | tent b c l k =>
    rw [Machine.runElement, execTent_eq] at h
    cases hn : tentTrie s.ctx s.trie c l k with
    | none => rw [hn] at h; cases h; exact .raise s (.inl rfl)
    | some trie => rw [hn] at h; cases h; exact .inl hs
  | tend =>
    rw [Machine.runElement, execTend_eq] at h
    cases hn : insertAt .leafEsc escapePath s.trie with
    | none => rw [hn] at h; cases h; exact .raise s (.inl rfl)
    | some trie =>
      rw [hn] at h
      cases h
      have hbits : FaultFree (s.bitsAt s.sp s.ctx trie) := hs
      split
      · exact .inl hbits.finish
      · exact .inl hbits
  | code path =>
    rw [Machine.runElement, execCode] at h
    cases hn : followPath (s.trie.at s.tcur) s.tcur path with
    | leaf r => rw [hn] at h; cases h; exact hs.emitRun r
    | noChild tcur => rw [hn] at h; cases h; exact .raise _ (.inr (.inl rfl))
    | noCodeword => rw [hn] at h; cases h
  | esc c n => cases h; exact hs.emitRun _
  | pad n => cases h; exact .inl (FaultFree.finish hs)
  | _ => cases h

/-- A fetch in a stream raises IoFailure or InvalidCode (R60, R197). -/
theorem FaultFree.elementStep {s t : State} (hs : FaultFree s) (hp : s.phase ≠ .command) (h : elementStep s = .next t) :
    StreamFaultOnly t := by
  rw [elementStep_eq hp] at h
  cases hd : decodeAt s.region (s.trie.at s.tcur) s.reader with
  | short path rd => rw [hd] at h; cases h; exact .raise _ (.inr (.inr (.inl rfl)))
  | noChild path rd => rw [hd] at h; cases h; exact .raise _ (.inr (.inl rfl))
  | unknownCommand code => exact absurd hd (decodeAt_ne_unknownCommand (region_ne_command hp) _ _ code)
  | instr i rd => rw [hd] at h; exact FaultFree.runElement (s := s.putReader rd) hs h

theorem Reaches.streamFaultOnly {s t : State} (h : Reaches s t) (hs : Decoding s) (hfree : FaultFree s) :
    StreamFaultOnly t := by
  induction h with
  | refl => exact .inl hfree
  | @tail u v hreach hstep ih =>
    obtain ⟨hb, he⟩ := hstep
    exact (ih.faultFree (by simp [hb])).elementStep ((Reaches.decoding hreach hs).stream hb).1 he

/-! ## The end of a DECODE -/

/-- At PAD's place DST holds TILES x 32 bytes, and no nibble waits in HOLD (R199, R207). -/
theorem Decoding.output_of_tail {u : State} (hu : Decoding u) (hb : u.status = .busy) (htail : u.region = .tail) :
    u.dpos = u.tiles.toNat * 32 ∧ u.hold = none := by
  have hpaired : Paired u := (hu.took hb u.xflag fun _ => rfl).paired rfl
  have hfull : u.outcnt = u.tiles.toNat * 64 := (delivered_expanded hu.runsOnly).symm.trans (hu.full_of_tail hb htail)
  cases hh : u.hold with
  | none =>
    have heven : 2 * u.dpos = u.outcnt := by simpa [Paired, hh] using hpaired
    exact ⟨by omega, rfl⟩
  | some n =>
    have hodd : 2 * u.dpos + 1 = u.outcnt := by simpa [Paired, hh] using hpaired
    omega

/-- DONE is reached through PAD alone (R199, R220). -/
theorem exec_decode_done_output {s t : State} (h : exec .decode s = .next t) (hd : t.status = .done) :
    t.dlen = t.tiles.toNat * 32 ∧ t.dpos = t.dlen ∧ t.hold = none := by
  rcases Relation.ReflTransGen.cases_tail (reaches_of_decode h) with rfl | ⟨u, hreach, hb, hstep⟩
  · cases hd
  have hu := Reaches.decoding hreach (decodeStart_decoding s)
  obtain ⟨htail, rfl⟩ := hu.elementStep_done hb hstep hd
  obtain ⟨hpos, hhold⟩ := hu.output_of_tail hb htail
  exact ⟨hpos, rfl, hhold⟩

theorem exec_decode_streamFaultOnly {s t : State} (h : exec .decode s = .next t) : StreamFaultOnly t :=
  (reaches_of_decode h).streamFaultOnly (decodeStart_decoding s) ⟨by simp [State.decodeStart], rfl⟩

/-- DECODE comes to its end (R269). -/
theorem exec_decode_ends (s : State) : ∃ t, exec .decode s = .next t ∧ t.ended := by
  refine runElements_ends (s := s.decodeStart) rfl (by simp [State.decodeStart]) ?_
  simp only [State.bitsLeft, State.elementBound]
  omega

/-- Settles O54: DECODE ends; DONE only through PAD, with the whole output, and FAULT only by an error of the stream. -/
theorem decodeOutcome : Obligations.DecodeOutcome := by
  intro s
  obtain ⟨t, ht, hend⟩ := exec_decode_ends s
  have hsame := (exec_command_does rfl ht).sameInput
  refine ⟨t, ht, hsame.src, hsame.argLen, ?_⟩
  rcases exec_decode_streamFaultOnly ht with ⟨hstatus, herr⟩ | ⟨u, k, hk, rfl⟩
  · have hd : t.status = .done := hend.resolve_right hstatus
    obtain ⟨hxsel, -, -⟩ := exec_decode_done ht hd
    obtain ⟨hdlen, hdpos, hhold⟩ := exec_decode_done_output ht hd
    exact .inl ⟨hd, herr, hdlen, hdpos, hxsel, hhold⟩
  · exact .inr ⟨rfl, hk, rfl, rfl, rfl⟩

end Machine
end Sys2Proof
end

section
/-! What the host reads after reset and after a fault, that the block then rests, and that both invariants hold at reset
(R236, R250, R261). -/

namespace Sys2Proof.Machine

/-- With DLEN 0 no byte of DST is valid (R38, R245). -/
theorem dstBytes_of_empty {s : State} (h : s.dlen = 0) : s.dstBytes = [] := by
  rw [State.dstBytes, h]
  rfl

/-- Settles O1: the values of reset, and the step at rest. -/
theorem resetHostView : Obligations.ResetHostView := by
  have hview : State.reset.hostView = { status := 0#2, err := 0#3, dlen := 0, xsel := false, dst := [] } := by
    rw [State.hostView, dstBytes_of_empty rfl]
    rfl
  exact ⟨hview, rfl, rfl, rfl, fun _ => step_rest⟩

/-- What the host sees of a fault: its kind and no output (R236). -/
theorem raise_hostView (s : State) (k : Err) :
    (s.raise k).hostView = { status := 3#2, err := Err.code k, dlen := 0, xsel := false, dst := [] } := by
  rw [State.hostView, dstBytes_of_empty (raise_dlen s k)]
  rfl

/-- Settles O7: the fields of a fault, the step at rest, the host's view. -/
theorem raiseEffect : Obligations.RaiseEffect := fun s k =>
  ⟨rfl, rfl, rfl, rfl, rfl, rfl, step_rest (by simp), raise_hostView s k⟩

/-- Nothing is listed in DST after reset, no command runs and no bit is held. -/
theorem reset_inv : State.reset.Inv where
  srcForm := rfl
  dstForm := rfl
  dstBelow c hc := by cases hc
  errInFault := by simp [State.reset]
  faultEmpty hf := by cases hf
  idleEmpty _ := ⟨rfl, rfl, rfl⟩
  doneLength hd := by cases hd
  busyHidden hb := by cases hb
  restPhase _ := rfl
  notTail := by simp [State.reset]
  unreadBits := Nat.zero_le 7
  pendingBits := Nat.zero_le 7

/-- Settles O8: the invariant of a stream speaks of BUSY states only. -/
theorem resetKeepsInvariants : Obligations.ResetKeepsInvariants :=
  ⟨reset_inv, streamInv_of_rest (by simp [State.reset])⟩

end Sys2Proof.Machine
end

section
/-! Every command comes to its end (R269). -/

namespace Sys2Proof.Machine

/-- The bound on the elements of a stream is above the bits left to read, so the run of elements answers a state (R269). -/
theorem runElements_answers {s : State} (hb : s.status = .busy) (hp : s.phase ≠ .command) :
    ∃ t, runElements s.elementBound s = .next t := by
  have hfuel : s.bitsLeft < s.elementBound := by
    simp only [State.bitsLeft, State.elementBound]
    omega
  obtain ⟨t, ht, -⟩ := runElements_ends hb hp hfuel
  exact ⟨t, ht⟩

/-- ENCODE and ENCODE_ONE answer a state, whether the length is accepted or refused (R215, R217, R218). -/
theorem exec_encoder_answers (s : State) :
    (∃ t, exec .encode s = .next t) ∧ ∃ t, exec .encodeOne s = .next t := by
  cases hok : encodeLengthOk s.argLen with
  | false => exact ⟨⟨_, (exec_refused hok).1⟩, ⟨_, (exec_refused hok).2⟩⟩
  | true => exact ⟨⟨_, exec_encode_of_ok hok⟩, ⟨_, exec_encodeOne_of_ok hok⟩⟩

/-- No command is without a meaning: each answers a state. -/
theorem exec_command_answers {i : Instr} (hi : regionOf i = .command) (s : State) : ∃ t, exec i s = .next t := by
  cases i with
  | encode => exact (exec_encoder_answers s).1
  | decode => exact runElements_answers (s := s.decodeStart) rfl (by simp [State.decodeStart])
  | encodeOne => exact (exec_encoder_answers s).2
  | rleEnc => exact ⟨_, rfl⟩
  | pmSolve => exact ⟨_, rfl⟩
  | canonGen => exact ⟨_, rfl⟩
  | costEst => exact ⟨_, rfl⟩
  | trialSearch => exact ⟨_, exec_trialSearch s⟩
  | xorEnc => exact ⟨_, rfl⟩
  | xorDec => exact ⟨_, rfl⟩
  | pack => exact ⟨_, exec_pack s⟩
  | unpackTable => exact runElements_answers (s := s.tableAlone) rfl (by simp [State.tableAlone])
  | unpackBits => exact runElements_answers (s := s.bitsAlone) rfl (by simp [State.bitsAlone])
  | rleDec => exact ⟨_, exec_rleDec s⟩
  | hdr x n => cases hi
  | tnib z n => cases hi
  | tent b c l k => cases b <;> cases hi
  | tend => cases hi
  | code path => cases hi
  | esc c n => cases hi
  | pad n => cases hi

/-- Settles O55: a command answers a state, and what it does to get there ends it. -/
theorem everyCommandEnds : Obligations.EveryCommandEnds := by
  intro i s hi
  obtain ⟨t, ht⟩ := exec_command_answers hi s
  exact ⟨t, ht, (exec_command_does hi ht).ended⟩

end Sys2Proof.Machine
end

section
/-! The encoders (R215 to R218): which lengths they take, and what ENCODE and ENCODE_ONE leave. -/

namespace Sys2Proof.Machine

/-! ## The lengths -/

theorem encodeLengthOk_iff (m : Nat) : encodeLengthOk m = true ↔ m % 32 = 0 ∧ m / 32 ≤ 32767 := by
  rw [encodeLengthOk, Bool.and_eq_true, decide_eq_true_iff, decide_eq_true_iff, Config.tileBytes, Config.maxTiles]

/-- Settles O50: the length is refused from the start-of-command state, where raising the fault has no output to empty. -/
theorem badLengthRefused : Obligations.BadLengthRefused := by
  intro s hbad
  have hok : encodeLengthOk s.argLen = false := by
    rw [← Bool.not_eq_true, encodeLengthOk_iff]
    omega
  exact exec_refused hok

/-- TILES of an input of an accepted length (R171, R218). -/
theorem tilesOf_srcBytes {s : State} (h : s.argLen / 32 ≤ 32767) : (tilesOf s.srcBytes).toNat = s.argLen / 32 := by
  rw [tilesOf, BitVec.toNat_ofNat, srcBytes_length, Config.tileBytes, Nat.mod_eq_of_lt (by omega)]

@[simp] theorem startAll_srcBytes (s : State) (code : Byte) : (s.startAll code).srcBytes = s.srcBytes := by
  simp [State.srcBytes]

/-! ## The estimate of the table kept -/

/-- BEST_EST, when a table was kept, is that table's estimate (R149). -/
def State.BestPriced (s : State) : Prop := ∀ e, s.bestEst = some e → e = costOf s.best s.freq

theorem State.BestPriced.trial {s : State} (h : s.BestPriced) (t : Nat) : (s.trial t).BestPriced := by
  intro e he
  rw [trial_freq]
  rw [trial_eq] at he ⊢
  rcases keepBest_cases (s.tried t) with ⟨-, hkept⟩ | ⟨-, hkept⟩ <;> rw [hkept] at he ⊢
  · rw [← Option.some.inj he, tried_est, tried_code]
  · rw [tried_bestEst] at he
    rw [tried_best]
    exact h e he

theorem State.BestPriced.trials {s : State} (h : s.BestPriced) (n : Nat) : (State.trials n s).BestPriced := by
  induction n generalizing s with
  | zero => exact h
  | succ n ih => exact ih (h.trial (n + 2))

theorem searchTrials_bestPriced (s : State) : s.searchTrials.BestPriced := by
  have hstart : s.searchStart.BestPriced := fun e he => by cases he
  rw [searchTrials_eq]
  exact hstart.trials _

/-! ## A pass -/

/-- What stands in a state after a pass over a byte sequence, beside the candidate (R218). -/
structure PassResults (bs : List Byte) (x : Bool) (u : State) : Prop where
  xflag : u.xflag = x
  tiles : u.tiles = tilesOf bs
  rleSrc : u.rleSrc = rleOf bs
  freq : u.freq = tally (rleOf bs)
  best : u.best = searchBest (tally (rleOf bs))
  bestEst : ∀ e, u.bestEst = some e → e = 8 * (passBytes bs x).length

/-- The estimate of the table a pass keeps is its candidate's size in bits (R148). -/
theorem costOf_searchBest (bs : List Byte) (x : Bool) :
    costOf (searchBest (tally (rleOf bs))) (tally (rleOf bs)) = 8 * (passBytes bs x).length := by
  rw [passBytes, length_packBytes, costOf_tally x (tilesOf bs)]

theorem encodePass_results (s : State) (bs : List Byte) (x : Bool) : PassResults bs x (s.encodePass bs x) := by
  have hbest : (s.encodePass bs x).best = searchBest (tally (rleOf bs)) :=
    searchTrials_best (s.passStart.rleEncode bs)
  have hframe := encodePass_frame s bs x
  have hfreq : (s.passStart.rleEncode bs).searchTrials.freq = tally (rleOf bs) :=
    congrArg State.freq (searchTrials_frame (s.passStart.rleEncode bs))
  have hpriced := searchTrials_bestPriced (s.passStart.rleEncode bs)
  exact {
    xflag := congrArg State.xflag hframe
    tiles := congrArg State.tiles hframe
    rleSrc := congrArg State.rleSrc hframe
    freq := congrArg State.freq hframe
    best := hbest
    bestEst := fun e he => by
      rw [← costOf_searchBest, ← hbest, ← hfreq]
      exact hpriced e he }

theorem encodePass_cand1 (s : State) (bs : List Byte) (x : Bool) : (s.encodePass bs x).cand1 = s.cand1 :=
  (congrArg State.cand1 (encodePass_frame s bs x)).trans rfl

/-! ## ENCODE_ONE -/

/-- ENCODE_ONE on an accepted length, from the state after its pass: the place of the candidate follows from the flag (R218;
assumption 5). -/
theorem exec_encodeOne_of_pass {s u : State} (h : encodeLengthOk s.argLen = true)
    (hu : (s.startAll 0x03#8).encodePass s.srcBytes s.args.xflag = u) :
    exec .encodeOne s =
      .next ({ u with
        cand0 := if s.args.xflag then u.cand0 else u.packed, cand1 := if s.args.xflag then u.packed else u.cand1,
        sp := s.argLen }.deliver u.packed).finish := by
  rw [exec_encodeOne_of_ok h, startAll_srcBytes, hu]
  cases s.args.xflag <;> rfl

/-- Settles O51: one pass from the start-of-command state, its candidate kept and delivered. -/
theorem encodeOneResult : Obligations.EncodeOneResult := by
  intro s hmod htiles
  obtain ⟨hpacked, hkeeps⟩ := encodePass_spec (s.startAll 0x03#8) s.srcBytes s.args.xflag
  obtain ⟨hxflag, htilesOf, hrleSrc, hfreq, hbest, hbestEst⟩ :=
    encodePass_results (s.startAll 0x03#8) s.srcBytes s.args.xflag
  have hcand1 := encodePass_cand1 (s.startAll 0x03#8) s.srcBytes s.args.xflag
  have hexec := exec_encodeOne_of_pass ((encodeLengthOk_iff s.argLen).2 ⟨hmod, htiles⟩) rfl
  have hsame := (exec_command_does rfl hexec).sameInput
  generalize (s.startAll 0x03#8).encodePass s.srcBytes s.args.xflag = u at *
  rw [hpacked, hkeeps.cand0, hcand1] at hexec hsame
  exact ⟨_, hexec, rfl, hkeeps.err, hkeeps.xsel, deliver_dstBytes _ _, rfl, rfl, rfl, hxflag,
    (congrArg BitVec.toNat htilesOf).trans (tilesOf_srcBytes htiles), hrleSrc, hfreq, hbest, hbestEst,
    hsame.src, hsame.argLen⟩

/-! ## ENCODE -/

theorem bothPasses_xbuf (s : State) : s.bothPasses.xbuf = xorStream Config.xorEnc s.srcBytes := by
  rw [State.bothPasses, transformed_xbuf]
  generalize s.encodePass s.srcBytes false = u
  exact (encodePass_spec (u.transformed s.srcBytes) (xorStream Config.xorEnc s.srcBytes) true).2.xbuf

/-- The choice delivers one of the candidates and records which in XSEL (R217). -/
theorem choose_eq (s : State) :
    s.choose =
      ({ s with xsel := decide (s.cand1.length < s.cand0.length) }.deliver
        (if s.cand1.length < s.cand0.length then s.cand1 else s.cand0)).finish := by
  unfold State.choose
  split <;> rename_i h <;> simp only [h, decide_true, decide_false] <;> rfl

theorem choose_chooses (s : State) :
    if s.cand1.length < s.cand0.length then s.choose.dstBytes = s.cand1 ∧ s.choose.xsel = true
    else s.choose.dstBytes = s.cand0 ∧ s.choose.xsel = false := by
  rw [choose_eq, deliver_dstBytes]
  split <;> rename_i h
  · exact ⟨rfl, decide_eq_true h⟩
  · exact ⟨rfl, decide_eq_false h⟩

/-- The choice keeps both candidates, the transformed view and ERR, and DLEN counts the bytes delivered (R69, R217). -/
theorem choose_keeps (s : State) :
    s.choose.status = .done ∧ s.choose.err = s.err ∧ s.choose.cand0 = s.cand0 ∧ s.choose.cand1 = s.cand1 ∧
      s.choose.xbuf = s.xbuf ∧ s.choose.dlen = s.choose.dstBytes.length := by
  rw [choose_eq, deliver_dstBytes]
  exact ⟨rfl, rfl, rfl, rfl, rfl, rfl⟩

/-- Settles O52: both passes from the start-of-command state, and the choice between their candidates. -/
theorem encodeResult : Obligations.EncodeResult := by
  intro s hmod htiles
  have hexec := exec_encode_of_ok ((encodeLengthOk_iff s.argLen).2 ⟨hmod, htiles⟩)
  have hsame := (exec_command_does rfl hexec).sameInput
  obtain ⟨herr, hcand0, hcand1⟩ := bothPasses_spec (s.startAll 0x01#8)
  have hxbuf := bothPasses_xbuf (s.startAll 0x01#8)
  rw [startAll_srcBytes] at hcand0 hcand1 hxbuf
  generalize (s.startAll 0x01#8).bothPasses = u at *
  obtain ⟨hdone, hkerr, hkeep0, hkeep1, hkeepx, hdlen⟩ := choose_keeps u
  have hchosen := choose_chooses u
  rw [← hkeep0, ← hkeep1] at hchosen
  exact ⟨u.choose, hexec, hdone, hkerr.trans herr, hkeep0.trans hcand0, hkeepx.trans hxbuf,
    by rw [hkeep1, hkeepx, hxbuf, hcand1], hchosen, hdlen, hsame.src, hsame.argLen⟩

end Sys2Proof.Machine
end
